-- ==== Sys2Proof/Word.lean ====
section
/-! DEFINITION. The word types of the BQ-LA72 and the exact values its number formats decode to. -/

namespace Sys2Proof

abbrev Byte := BitVec 8
/-- A 32-bit vector lane (R59). -/
abbrev Lane := BitVec 32
/-- A 64-bit scalar, mask or instruction word (R5, R59). -/
abbrev Word := BitVec 64
/-- One bit for each of up to 64 lanes. -/
abbrev LaneSet := BitVec 64

/-- Sparse data by key: a list of key and value pairs, keys strictly rising. -/
abbrev Tbl (α : Type) := List (Nat × α)

/-- The exact value of a code of any number format (R72, R75): a NaN, an infinity, or (−1)^neg · m · 2^e.
A zero has `m = 0` and keeps its sign. -/
inductive FVal where
  | nan
  | inf (neg : Bool)
  | num (neg : Bool) (m : Nat) (e : Int)
deriving DecidableEq, Repr, Inhabited

/-- Rounding modes of R79. -/
inductive RMode where
  | rn | rz | ru | rd | rna | sr
deriving DecidableEq, Repr, Inhabited

/-- A rounding field of R79: the mode and the saturating variant. -/
structure Rnd where
  mode : RMode
  sat : Bool
deriving DecidableEq, Repr, Inhabited

end Sys2Proof
end

