-- ==== Sys2Proof/Config.lean ====
section
/-! DEFINITION. What an implementation fixes and the manual leaves open: free values without a body. -/

namespace Sys2Proof

/-- Nanoseconds that pass before step `n` (R17; the manual gives no durations; log 3). -/
opaque Config.elapsed : Nat → Nat
/-- A free choice, one per draw: a cached or a fresh translation or constant (R65, R237; log 9, 10). -/
opaque Config.freeBit : Nat → Bool
/-- A free key for lane `i` at one draw: the unspecified order of the lanes of one instruction (R165, R174; log 17). -/
opaque Config.laneKey : Nat → Nat → Nat
/-- Which neighbour of the exact result VFRCP, VFRSQ, VFEXP2 and VFLOG2 return under .f32, by operation and operand
bits: `true` is the one further from zero (R371; log 11). -/
opaque Config.approxUp : Nat → Nat → Bool
/-- Whether .rn takes the neighbour further from zero at a tie in a format without mantissa bits, where the significands
of both neighbours are odd: by the format's measurement and the neighbour below, as its rank (R80; log 25). -/
opaque Config.tieAway : BitVec 256 → Nat → Bool
/-- The value of a code that the manual's formats do not decode: a table-decoded bitstream (KIND 2, R95), or a code
above MAXCODE of a loadable format without NaN (log 12). -/
opaque Config.openDecode : BitVec 256 → Nat → FVal
/-- The code a table-decoded bitstream gives a zero, an infinity or a NaN where the header does not (R95, KIND 2;
log 12). -/
opaque Config.openEncode : BitVec 256 → Rnd → Nat → FVal → Nat
/-- The code a table-decoded bitstream rounds a finite value to: sign, numerator and denominator in lowest terms (R95,
KIND 2; log 12). -/
opaque Config.openQuotient : BitVec 256 → Rnd → Nat → Bool → Nat → Nat → Nat
/-- Whether an SLH-DSA-SHA2-128s signature verifies: key, signed bytes, signature (R95, R101; log 13). -/
opaque Config.sigVerify : List Byte → List Byte → List Byte → Bool
/-- The strip configuration of a standard index in the signed firmware image: a record's BODY (R95, R105; log 13). -/
opaque Config.standardBody : Nat → List Byte
/-- Whether standard E3M2 and E2M3 have −0 (POLICY[2], which R105 does not give), and USES of the standard formats other
than E4M2 (log 13). -/
opaque Config.standardNeg0 : Nat → Bool
opaque Config.standardUses : Nat → BitVec 6
/-- Whether the smallest and largest exponents of a table-decoded body equal EMIN and EMAX (R95, KIND 2; log 12). -/
opaque Config.tableExponentsAgree : List Byte → Bool
/-- The hash of PA[51:12] that package interleave uses, giving a stack 0–7 (R9; log 29). -/
opaque Config.stackHash : Nat → Fin 8
/-- Contents of a configuration register the manual does not describe: function, offset (R242; log 20). -/
opaque Config.configRegister : Nat → Nat → BitVec 32
/-- The slice hash H of PA[51:7] (R203; log 91). -/
opaque Config.sliceHash : Nat → Nat
/-- The set of a slice that a line stands in (R13; log 91). -/
opaque Config.l2Set : Nat → Nat
/-- Speeds that CXL 4.0 defines for the host link (R242; log 92). -/
opaque Config.cxlSpeed : Nat → Bool
/-- Ports that the routing table lists for a destination, in order (R248; log 93). -/
opaque Config.routePorts : Nat → List Nat
/-- Bytes of the blocks of a context image whose layout R67 leaves open, by free value and offset (log 16). -/
opaque Config.imageByte : Nat → Nat → BitVec 8
/-- By how much a hot die lowers the hall-pass pool (R23; log 94). -/
opaque Config.thermalCut : Nat → Nat
/-- OPC of an atomic flit that is a DEPDEC, where it codes no ATOM and no ACAS (R247; log 66). -/
opaque Config.depdecOpc : BitVec 7
/-- OPC of a bit-masked line write on the fabric (R153; log 66). -/
opaque Config.maskedOpc : BitVec 7
/-- EXPECTED and ARRIVED of a barrier object that a retirement lowers below zero, where its bytes break R121 (log 95). -/
opaque Config.barCount : Nat → BitVec 8
/-- CORE of a fault record that a request of another device opens (R232, R235; log 39). -/
opaque Config.remoteCore : BitVec 16
/-- Briqua's bitstream key (R101; log 13). -/
opaque Config.briquaKey : List Byte
/-- The platform owner key that the Proctor holds from provisioning (R101; log 13). -/
opaque Config.platformKey : List Byte
/-- Measurements of the device firmware (R102, R253; log 20). -/
opaque Config.firmwareMeasurement : Nat → BitVec 256

end Sys2Proof
end

