-- ==== Sys2Proof/Syntax.lean ====
section
/-! DEFINITION. The instructions: one constructor for each row of spec/opcode_table.json, the 127 opcodes of R268,
the clause header, and the 81 steps of the machine's other agents and of its surroundings. -/

namespace Sys2Proof

/-! ## Operands (R61, R266) -/

/-- The guard of a word: mask register GM and negate GN (R259). -/
structure Guard where
  m : Fin 16
  neg : Bool
deriving DecidableEq, Repr, Inhabited

abbrev VReg := Fin 256
abbrev SReg := Fin 128
abbrev MReg := Fin 16
abbrev Flag := Fin 12
abbrev Slot := Fin 16
abbrev Acc := Fin 8

/-- A scalar source. A small integer is held as its code; its value is code − 32. -/
inductive SSrc where
  | s (k : SReg) | m (k : MReg) | gwid | zero | imm (c : Fin 64)
deriving DecidableEq, Repr, Inhabited

/-- A vector source. -/
inductive VSrc where
  | v (k : VReg) | s (k : SReg) | m (k : MReg) | lane | gwid | zero | imm (c : Fin 64)
deriving DecidableEq, Repr, Inhabited

/-- The B operand of a class A scalar word: a source, or a constant-window word (R262). -/
inductive SB where
  | src (x : SSrc) | cw (win : Fin 8) (ofs : BitVec 17)
deriving DecidableEq, Repr, Inhabited

/-- The B operand of a class A vector word. -/
inductive VB where
  | src (x : VSrc) | cw (win : Fin 8) (ofs : BitVec 17)
deriving DecidableEq, Repr, Inhabited

/-- A mask register or ZERO, the sources of MLOG (R324). -/
inductive MSrc where
  | m (k : MReg) | zero
deriving DecidableEq, Repr, Inhabited

/-- A scalar register or ZERO: BASE of an M-format word (R263). -/
inductive SBase where
  | s (k : SReg) | zero
deriving DecidableEq, Repr, Inhabited

/-! ## Types and variants -/

/-- Integer types of R339 and R360. -/
inductive ITy where
  | i64 | n64 | i32 | n32 | i16 | n16 | i8 | n8
deriving DecidableEq, Repr, Inhabited

/-- Vector float types of R367. -/
inductive FTy where
  | f32 | f16 | bf16
deriving DecidableEq, Repr, Inhabited

/-- Types of VRED and VSCAN (R374). -/
inductive RedTy where
  | i32 | n32 | i64 | n64 | f32
deriving DecidableEq, Repr, Inhabited

inductive RedOp where
  | add | min | max | and | or | xor
deriving DecidableEq, Repr, Inhabited

/-- Bitwise operations of two operands; `not` and `mov` take one (R324, R339). -/
inductive LogOp where
  | and | or | xor | andn | orn | xnor | not | mov
deriving DecidableEq, Repr, Inhabited

/-- Relations of SCMP and VCMP (R339, R361). -/
inductive Rel where
  | eq | ne | lt | le | gt | ge
deriving DecidableEq, Repr, Inhabited

/-- Relations of VFCMP (R367). -/
inductive FRel where
  | rel (r : Rel) | un | ord
deriving DecidableEq, Repr, Inhabited

/-- Conditions of BRA and CALL (R281). -/
inductive SCond where
  | eqz | nez | ltz | gez | gtz | lez
deriving DecidableEq, Repr, Inhabited

/-- Conditions of B (R281). -/
inductive MCond where
  | any | none | all | nall
deriving DecidableEq, Repr, Inhabited

/-- Kinds of VCVT (R365). -/
inductive CvtKind where
  | f32 | fs | i32 | n32 | i64 | n64
deriving DecidableEq, Repr, Inhabited

/-- Scopes of R166. -/
inductive Scope where
  | grp | team | clu | dev | sys | fab
deriving DecidableEq, Repr, Inhabited

/-- Orders of R167. -/
inductive MemOrd where
  | rlx | acq | rel | ar | sc
deriving DecidableEq, Repr, Inhabited

/-- Per-lane access sizes of 1, 2, 4 and 8 bytes (R263). -/
inductive MSize where
  | b1 | b2 | b4 | b8
deriving DecidableEq, Repr, Inhabited

/-- Types of ATOM (R276). -/
inductive AtTy where
  | i32 | i64 | f32 | n32 | n64
deriving DecidableEq, Repr, Inhabited

/-- Operations of ATOM (R277). -/
inductive AtOp where
  | swap | add | and | or | xor | min | max
deriving DecidableEq, Repr, Inhabited

/-- Operations of CMAINT (R295). -/
inductive CmOp where
  | pfl2 | pfl1 | clean | inval | cinv
deriving DecidableEq, Repr, Inhabited

/-- Block-scale modes (R142, R308). -/
inductive SMode where
  | none | e5m3 | e8m0
deriving DecidableEq, Repr, Inhabited

/-- Kinds of a slate (R107). -/
inductive SlKind where
  | scratch | mapped | derived
deriving DecidableEq, Repr, Inhabited

/-- Forms of MSTZ (R329). -/
inductive StzForm where
  | packed | tileB | tileA
deriving DecidableEq, Repr, Inhabited

/-- The special registers of R66. -/
inductive Spr where
  | time | rclk | gid | tid | gwidth | arm | tkind | tpcv | tlm | tinfo | tstat | rgpc | qstat | srseed | capsrc | prov
  | mmrev
deriving DecidableEq, Repr, Inhabited

/-! ## Operand groups shared by instructions of one shape -/

structure SOp1 where
  (g : Guard) (ty : ITy) (d : SReg) (a : SSrc)
deriving DecidableEq, Repr, Inhabited
structure SOp2 where
  (g : Guard) (ty : ITy) (d : SReg) (a : SSrc) (b : SB)
deriving DecidableEq, Repr, Inhabited
structure SOp3 where
  (g : Guard) (ty : ITy) (d : SReg) (a : SSrc) (b : SB) (c : SSrc)
deriving DecidableEq, Repr, Inhabited
structure VOp1 where
  (g : Guard) (ty : ITy) (d : VReg) (a : VSrc)
deriving DecidableEq, Repr, Inhabited
structure VOp2 where
  (g : Guard) (ty : ITy) (d : VReg) (a : VSrc) (b : VB)
deriving DecidableEq, Repr, Inhabited
structure VOp3 where
  (g : Guard) (ty : ITy) (d : VReg) (a : VSrc) (b : VB) (c : VSrc)
deriving DecidableEq, Repr, Inhabited
structure FOp1 where
  (g : Guard) (ty : FTy) (d : VReg) (a : VSrc)
deriving DecidableEq, Repr, Inhabited
structure FOp2 where
  (g : Guard) (ty : FTy) (d : VReg) (a : VSrc) (b : VB)
deriving DecidableEq, Repr, Inhabited
structure FOp3 where
  (g : Guard) (ty : FTy) (d : VReg) (a : VSrc) (b : VB) (c : VSrc)
deriving DecidableEq, Repr, Inhabited

/-- BRA and CALL: no condition, or a condition on a scalar; the signed word offset (R280). -/
structure BraOp where
  (g : Guard) (cond : Option (SCond × SSrc)) (off : BitVec 32)
deriving DecidableEq, Repr, Inhabited

/-- VLD and VST (R375). `x` selects the flag (R257); `sl` is SUB[13]; `sx` is SUB[10]. -/
structure VMem where
  (g : Guard) (x : Bool) (r : VReg) (base : SBase) (idx : VSrc) (off : BitVec 10) (size : MSize) (ord : MemOrd)
  (sco : Scope) (sl nt sx : Bool)
deriving DecidableEq, Repr, Inhabited

/-- VLDS and VSTS: the index is a scalar byte stride (R375). -/
structure VMemS where
  (g : Guard) (x : Bool) (r : VReg) (base : SBase) (stride : SSrc) (off : BitVec 10) (size : MSize) (ord : MemOrd)
  (sco : Scope) (sl nt sx : Bool)
deriving DecidableEq, Repr, Inhabited

/-- LDSL and STSL (R321, R351): `r` holds a slate address per lane. -/
structure SlMem where
  (g : Guard) (x : Bool) (r : VReg) (base : SBase) (idx : VSrc) (off : BitVec 10) (size : MSize) (ord : MemOrd)
  (sco : Scope)
deriving DecidableEq, Repr, Inhabited

/-- LDR and STC (R321, R351): `wide` is SIZE 3. -/
structure ResMem where
  (g : Guard) (x : Bool) (r : VReg) (base : SBase) (idx : VSrc) (off : BitVec 10) (wide : Bool) (ord : MemOrd)
  (sco : Scope)
deriving DecidableEq, Repr, Inhabited

/-- Result of MBAL: a mask, or ranks in a vector (R324). -/
inductive BalForm where
  | mask (d : MReg) (a : VSrc) | rank (d : VReg) (a : MReg)
deriving DecidableEq, Repr, Inhabited

/-- Destination of VRED (R373). -/
inductive RedDst where
  | s (d : SReg) | v (d : VReg)
deriving DecidableEq, Repr, Inhabited

/-- Source of the record of FSWAP (R317). -/
inductive SwapForm where
  | expert (rec : SSrc) | basic (k : SSrc) | unbind
deriving DecidableEq, Repr, Inhabited

/-- Forms of SMOVI and VMOVI. -/
inductive SMoviForm where
  | sext | zext | hi
deriving DecidableEq, Repr, Inhabited
inductive VMoviForm where
  | w32 | i64 | n64
deriving DecidableEq, Repr, Inhabited

/-- Member set of BARI (R283). -/
inductive BariForm where
  | set (m : SSrc) | all | free
deriving DecidableEq, Repr, Inhabited

/-- Index operand of GATH (R319). -/
inductive GathIdx where
  | vec (v : VReg) | slate (s : SSrc)
deriving DecidableEq, Repr, Inhabited

/-- Payload operand of TRAY (R356). -/
inductive TrayPay where
  | v (k : VReg) | s (x : SSrc)
deriving DecidableEq, Repr, Inhabited

/-- A clause header (R255). A header with END set is the end mark, whatever its other fields hold. -/
inductive Hdr where
  | endMark
  | clause (wait : BitVec 12) (seta setb : Option Flag) (count : Fin 8) (region yieldh nr : Bool)
deriving DecidableEq, Repr, Inhabited

/-! ## Operands of the steps that are not instruction words -/

/-- Where a group stands: global core number and group slot; slot 32 is the replay context (R131). -/
structure GKey where
  (core slot : Nat)
deriving DecidableEq, Repr, Inhabited

/-- Which control thread of a group. -/
inductive Who where
  | arm0 | arm1 | mon
deriving DecidableEq, Repr, Inhabited

/-- What the partition manager gives a partition when it creates it (R9, R93, R185, R187, R202, R204, R227, R232–R236,
R244, R247). `manager` marks the partition manager's own context, where TLBINV executes (R237, R267; log 34). -/
structure PartParams where
  (manager : Bool) (clbase cllimit : Nat) (colours : List (BitVec 24)) (slots : Word) (qdt rank pcap bwshare engw eprio : Nat)
  (prepol : List Nat) (expert dieLocal : Bool) (regions : List (List Nat)) (keys : List Nat) (hdmKey : Nat)
  (tvbase troot tkey ttbase ttlen errRing faultRing respRing : Nat)
  (ctxBase ctxPages spillBase spillCap recBase recSize : Nat)
  (tenant : BitVec 16) (fabRanges : List (Nat × Nat))
deriving DecidableEq, Repr, Inhabited

/-- A change of a live partition's parameters (R202). -/
inductive PartChange where
  | rank (n : Nat) | pcap (w : Nat) | bwshare (n : Nat) | engine (weight prio : Nat) | prepol (l : List Nat)
  | expert (on : Bool) (regions : List (List Nat)) | colours (l : List (BitVec 24)) | fabric (tenant : BitVec 16) (ranges : List (Nat × Nat))
  | slots (m : Word) | qdt (va : Nat) | taskTable (base len : Nat) | tvbase (va : Nat) | clusters (base limit : Nat)
deriving DecidableEq, Repr, Inhabited

/-- The header of a Gysin flit (R246). -/
structure Flit where
  (kind : BitVec 4) (dest src : BitVec 17) (tenant : BitVec 16) (tag : BitVec 10) (va : BitVec 54) (size : BitVec 3)
  (opc : BitVec 7)
deriving DecidableEq, Repr, Inhabited

/-- A flit that arrives (R248): its port, its link sequence number there, whether its link CRC is right, and its header. -/
structure Arrival where
  (port seq : Nat) (sound : Bool) (flit : Flit)
deriving DecidableEq, Repr, Inhabited

/-- How a remote request ended, carried by a response flit (R235). -/
inductive RemoteEnd where
  | ok (data : Nat) | permission | memFault | poisoned
deriving DecidableEq, Repr, Inhabited

/-- Power in W (R221): what no partition draws, and of each partition what it would draw if no cap held it, and its floor (log
31). -/
structure PowerReading where
  base : Nat
  parts : List (Nat × Nat × Nat)
deriving DecidableEq, Repr, Inhabited

/-- Error pattern of one HBM codeword (R238). -/
inductive EccPattern where
  | clean | oneGroup (pin : Nat) | twoGroups | more (passed : List Byte)
deriving DecidableEq, Repr, Inhabited

/-- The cap that limits a partition (R220). -/
inductive CapCode where
  | none | module | partition | thermal | current | broadcast | external
deriving DecidableEq, Repr, Inhabited

/-! ## The instructions -/

inductive Instr where
  -- control (R268, 0x00–0x0C)
  | nop
  | bra (x : BraOp)
  | bmask (g : Guard) (cond : Option (MCond × MReg)) (off : BitVec 32)
  | btab (g : Guard) (idx : VSrc) (tab n : SSrc)
  | call (x : BraOp)
  | ret (g : Guard)
  | fork (g : Guard) (shared : Bool) (m : MReg) (off : BitVec 32)
  | join (g : Guard)
  | exit (g : Guard)
  | yield (g : Guard) (n : SSrc)
  | trap (g : Guard) (a : SSrc)
  | rft (g : Guard)
  | waitt (g : Guard) (t : SSrc) (f : Flag)
  -- scalar (0x10–0x26)
  | sadd (sat : Bool) (x : SOp2)
  | ssub (sat : Bool) (x : SOp2)
  | smul (sat : Bool) (x : SOp2)
  | smulh (x : SOp2)
  | smad (sat : Bool) (x : SOp3)
  | sdiv (rem : Bool) (x : SOp2)
  | slog (op : LogOp) (x : SOp1) (b : Option SB)
  | sshl (x : SOp2)
  | sshr (x : SOp2)
  | ssra (x : SOp2)
  | smin (x : SOp2)
  | smax (x : SOp2)
  | scmp (rel : Rel) (x : SOp2)
  | ssel (x : SOp3)
  | smov (x : SOp1)
  | smovi (g : Guard) (form : SMoviForm) (d : SReg) (imm : BitVec 32)
  | spopc (x : SOp1)
  | sclz (x : SOp1)
  | sbfx (x : SOp3)
  | sbfi (x : SOp3)
  | sldc (g : Guard) (d : SReg) (win : Fin 8) (ofs : BitVec 17)
  | srd (g : Guard) (hi : Bool) (d : SReg) (r : Spr)
  | swr (g : Guard) (hi : Bool) (r : Spr) (a : SSrc)
  -- masks (0x30–0x34, 0x75)
  | mlog (g : Guard) (op : LogOp) (d : MReg) (a : MSrc) (b : Option MSrc)
  | mpopc (g : Guard) (d : SReg) (a : MReg)
  | mffs (g : Guard) (last : Bool) (d : SReg) (a : MReg)
  | mset (g : Guard) (d : MReg) (a : SSrc)
  | mget (g : Guard) (neg : Bool) (d : VReg) (a : MReg)
  | mbal (g : Guard) (form : BalForm)
  -- vector integer (0x40–0x54)
  | vadd (sat : Bool) (x : VOp2)
  | vsub (sat : Bool) (x : VOp2)
  | vmul (sat : Bool) (x : VOp2)
  | vmulh (x : VOp2)
  | vmad (sat : Bool) (x : VOp3)
  | vlog (op : LogOp) (x : VOp1) (b : Option VB)
  | vshl (x : VOp2)
  | vshr (x : VOp2)
  | vsra (x : VOp2)
  | vmin (x : VOp2)
  | vmax (x : VOp2)
  | vabs (sat : Bool) (x : VOp1)
  | vcmp (g : Guard) (rel : Rel) (ty : ITy) (mt mf : MReg) (a : VSrc) (b : VB)
  | vsel (x : VOp3)
  | vmov (x : VOp1)
  | vmovi (g : Guard) (form : VMoviForm) (d : VReg) (imm : BitVec 32)
  | vcvt (g : Guard) (dst src : CvtKind) (rnd : Rnd) (d : VReg) (a : VSrc) (fsl : Slot)
  | vpopc (x : VOp1)
  | vclz (x : VOp1)
  | vbfx (x : VOp3)
  | vbfi (x : VOp3)
  -- vector float (0x60–0x6C)
  | vfadd (x : FOp2) (r : Rnd)
  | vfsub (x : FOp2) (r : Rnd)
  | vfmul (x : FOp2) (r : Rnd)
  | vfma (x : FOp3) (r : Rnd)
  | vfmin (x : FOp2)
  | vfmax (x : FOp2)
  | vfcmp (g : Guard) (rel : FRel) (ty : FTy) (mt mf : MReg) (a : VSrc) (b : VB)
  | vmed3 (x : FOp3)
  | vfrcp (x : FOp1)
  | vfrsq (x : FOp1)
  | vfexp2 (x : FOp1)
  | vflog2 (x : FOp1)
  | vfcls (x : FOp1)
  -- cross-lane (0x70–0x74)
  | vshfl (g : Guard) (wide : Bool) (d a : VReg) (idx : VSrc)
  | vbcast (g : Guard) (wide : Bool) (d a : VReg) (n : SSrc)
  | vred (g : Guard) (op : RedOp) (ty : RedTy) (r : Rnd) (d : RedDst) (a : VSrc)
  | vscan (g : Guard) (op : RedOp) (ty : RedTy) (r : Rnd) (d : VReg) (a : VSrc) (c : SSrc)
  | vcmpr (g : Guard) (wide : Bool) (d a : VReg)
  -- format slots and quantisation (0x78–0x7C)
  | fswap (g : Guard) (x : Bool) (d : SReg) (form : SwapForm) (dies : SSrc) (slot : Slot)
  | ffence (g : Guard)
  | fqry (g : Guard) (d : SReg) (word : Fin 5) (slot : Slot)
  | qnt (g : Guard) (x : Bool) (src dst sc t : SSrc) (mode : SMode) (slot : Slot) (r : Rnd)
  | dqnt (g : Guard) (x : Bool) (d : VReg) (src sc t : SSrc) (mode : SMode) (slot : Slot) (r : Rnd)
  -- memory (0x80–0x8D)
  | vld (m : VMem)
  | vst (m : VMem)
  | vlds (m : VMemS)
  | vsts (m : VMemS)
  | sld (g : Guard) (x : Bool) (d : SReg) (base : SBase) (off : BitVec 10) (size : MSize) (ord : MemOrd) (sco : Scope) (sl sx : Bool)
  | sst (g : Guard) (x : Bool) (a : SSrc) (base : SBase) (off : BitVec 10) (size : MSize) (ord : MemOrd) (sco : Scope) (sl : Bool)
  | ldsl (m : SlMem)
  | stsl (m : SlMem)
  | atom (g : Guard) (x : Bool) (d : VReg) (base : SBase) (idx : VSrc) (off : BitVec 10) (ty : AtTy) (op : AtOp) (ord : MemOrd) (sco : Scope) (sl : Bool)
  | acas (g : Guard) (x : Bool) (d : VReg) (base : SBase) (idx : VSrc) (off : BitVec 10) (wide : Bool) (ord : MemOrd) (sco : Scope) (sl : Bool)
  | ldr (m : ResMem)
  | stc (m : ResMem)
  | fence (g : Guard) (x : Bool) (ord : MemOrd) (sco : Scope)
  | cmaint (g : Guard) (x : Bool) (op : CmOp) (rel : Bool) (sco : Scope) (base : SBase) (idx : VSrc) (off : BitVec 10)
  -- slates and cribs (0xA0–0xA6)
  | slalloc (g : Guard) (d : SReg) (n lx : SSrc) (part : Bool) (kind : SlKind)
  | slfree (g : Guard) (x : Bool) (a : SSrc)
  | slrenew (g : Guard) (x : Bool) (a len : SSrc)
  | slqry (g : Guard) (d : SReg) (a : SSrc) (k : Fin 4) (crib : Bool)
  | crib (g : Guard) (x : Bool) (t c arg : SSrc) (src : Option SReg) (nsrc : Fin 5) (warm : Bool)
  | crtouch (g : Guard) (x : Bool) (a : SSrc) (d : SReg) (renew warm cold : Bool)
  | crdrop (g : Guard) (a : SSrc)
  -- matrix (0xB0–0xB4)
  | mma (g : Guard) (x : Bool) (z : Acc) (ver a b sc : SSrc) (fa fb : Slot)
  | mzero (g : Guard) (x : Bool) (z : Acc) (ver : SSrc)
  | mstz (g : Guard) (x : Bool) (z : Acc) (ver a rng : SSrc) (form : StzForm) (slot : Slot) (r : Rnd)
  | mldz (g : Guard) (x : Bool) (z : Acc) (ver a : SSrc)
  | mver (g : Guard) (d : SReg) (z : Acc)
  -- engines (0xC0–0xC3)
  | cpy (g : Guard) (x : Bool) (d : SReg) (rec org sl : SSrc)
  | gath (g : Guard) (x : Bool) (d : SReg) (rec : SSrc) (op : SReg) (idx : GathIdx)
  | bseal (g : Guard) (n : SSrc)
  | bwait (g : Guard) (n : SSrc) (test : Option SReg)
  -- barriers, graphs, rings, queues (0xD0–0xDA), TLBINV (0xE0)
  | bari (g : Guard) (a : SSrc) (form : BariForm)
  | bara (g : Guard) (x : Bool) (a : SSrc) (d : SReg)
  | barw (g : Guard) (a p : SSrc) (test : Option SReg)
  | tray (g : Guard) (x : Bool) (hdr crd : VSrc) (pay : TrayPay)
  | depdec (g : Guard) (x : Bool) (base : SSrc) (idx : VSrc)
  | rclaim (g : Guard) (nb : Bool) (d : SReg) (ring n : SSrc)
  | rcommit (g : Guard) (x : Bool) (ring p n : SSrc)
  | rawait (g : Guard) (nb : Bool) (d : SReg) (ring n : SSrc)
  | rretire (g : Guard) (x : Bool) (ring q n : SSrc)
  | qpush (g : Guard) (a : VSrc)
  | qpop (g : Guard) (d : VReg)
  | tlbinv (g : Guard) (x : Bool) (va len part : SSrc)
  -- the clause header (R255)
  | clauseHeader (h : Hdr)
  -- steps of a group and its core
  | operationComplete (k : GKey) (op : Nat)
  | versionTimeout (k : GKey) (op : Nat)
  | registerLineFill (k : GKey) (line : Nat) (foreign bad : Bool)
  | mappedFill (core desc sector : Nat)
  | faultResponse (part : Nat)
  | faultStall (part ticket : Nat)
  | replayStart (core chain : Nat) (slot : Option Nat)
  | cribWatchHit (line : Nat)
  | engineChunkDone (engine : Nat)
  | engineResume (engine req : Nat)
  | engineBudgetPeriod
  | waittWake (k : GKey) (who : Who)
  | reservationDeferralEnd (k : GKey) (who : Who)
  | yieldEnd (k : GKey) (who : Who)
  | rclkTick (die : Nat)
  | sectorExpiry (core desc sector : Nat)
  | scrubberVisit (core desc leaf : Nat) (bad : List Nat) (corrected : Nat)
  -- work graphs and scheduling
  | spillMove (part : Nat)
  | bellExpiry (die tray : Nat)
  | teamPlacement (part core : Nat)
  | preemptionRequest (team deadline newAcc newLeaves : Nat)
  | saveComplete (team : Nat)
  | preemptDeadline (team : Nat)
  | teamResume (team core : Nat)
  | deficitCreditPeriod
  | deficitCompare (part : Nat)
  | bandwidthPeriod (busy : Bool) (shares : List (Nat × Nat))
  | poolPeriod (n : Nat) (power : PowerReading)
  | examStart (core : Nat)
  | examEnd (core : Nat) (pass : Bool)
  | queueSlotFree (part slot : Nat)
  -- host link
  | notify (part : Nat) (q : BitVec 6)
  | hostRclaimRead (part ring n : Nat)
  | hostRcommitWrite (part ring : Nat) (val : Word)
  | registerWrite (part off : Nat) (val : Word)
  | hostMemRead (part pa len : Nat)
  | hostMemWrite (part pa : Nat) (bytes : List Byte)
  | hostConfigAccess (fn off : Nat) (wr : Option (BitVec 32))
  | linkTraining (width speed : Nat)
  -- fabric
  | fabricRead (a : Arrival)
  | fabricWrite (a : Arrival) (payload : List Byte)
  | fabricAtomic (a : Arrival) (payload : List Byte)
  | fabricResponse (a : Arrival) (e : RemoteEnd)
  | fabricData (a : Arrival) (payload : List Byte)
  | linkCredit (a : Arrival) (n : Nat)
  | linkRetry (port : Nat) (resent : Bool)
  | fabricTimeout (tag : Nat)
  -- management
  | partitionCreate (p : Nat) (x : PartParams)
  | partitionDestroy (p : Nat)
  | partitionFence (p : Nat)
  | partitionReset (p : Nat)
  | moduleCap (w : Nat)
  | rackBroadcast (c k : Nat)
  | frameRelease (p frame : Nat)
  | keyEnrol (p signer : Nat) (key sig : List Byte)
  | keyRevoke (p signer : Nat) (sig : List Byte)
  | attestationLogRoll (p : Nat)
  | preEmptTeam (team deadline : Nat)
  | counterRead (p : Nat)
  | spdmGetMeasurements (p : Nat)
  -- format manager and Proctor
  | proctorVerifyDone (swap die : Nat)
  | fmgDrainDone (swap die : Nat)
  | regionReconfigured (swap die : Nat)
  | drainTimeout (swap die : Nat)
  -- errors, heat, power, security, bring-up
  | hbmPatrol (line stack : Nat) (e : EccPattern)
  | thermalThrottle (die : Nat)
  | thermalRecover (die : Nat)
  | thermalStop (die : Nat)
  | currentLimit (w : Option Nat)
  | externalThrottle (on : Bool)
  | securityAlarm (mesh : Bool) (level : Nat)
  | packageReset
  | firmwareVerify (first second : Bool)
  | hbmTraining (ok : Bool)
  | arrayDieRelease
  | firstExam (failed : List Nat)
  | cxlConfigReady
  | partitionParameterChange (p : Nat) (c : PartChange)
  | reservedKindFlit (a : Arrival)
  | deviceIdSet (id : BitVec 17)
deriving DecidableEq, Repr

end Sys2Proof
end

