-- ==== Sys2Proof/Machine/State.lean ====
section
/-! DEFINITION. The state of the machine: every group, core, die, partition and package unit the manual names, as
plain data, and the state after reset. Sparse register files and memories are tables with strictly rising keys that
list no entry equal to the value an unlisted key reads as. -/

namespace Sys2Proof.Machine

/-- Trap kinds of R226. -/
inductive TrapKind where
  | illegalOp | badTarget | codeEnd | fetchFault | memFault | misalign | permission | keyConflict | staleRead
  | slateRange | slateFull | pinViolation | cribStale | cribDepth | cribNospace | formatAbsent | illConvergence
  | versionTimeout | promiseMiss | callUnderflow | callOverflow | forkDepth | cwRange | divZero | swTrap | doubleTrap
  | uncorrectable | quantRange | barrierErr | ringErr | depUnderflow | queueErr
deriving DecidableEq, Repr, Inhabited

/-- A trap condition: its kind, the lanes concerned and the detail (R226). -/
structure TrapRec where
  kind : TrapKind
  lanes : LaneSet
  info : Word
deriving DecidableEq, Repr, Inhabited

/-- What a parked instruction waits for (R231). -/
inductive Cause where
  /-- The fault service's answer to a ticket of the partition, for some lanes. -/
  | ticket (n : Nat) (lanes : LaneSet)
  /-- A vector line being filled (R68). -/
  | regLine (line : Nat)
  /-- A sector of a mapped slate being filled (R113): core, descriptor, sector. -/
  | sector (core desc sec : Nat)
  /-- A crib being replayed (R129): core and crib id. -/
  | crib (core id : Nat)
  /-- A page of another device, which its fault service is asked for (R235): VA[70:0]. -/
  | remote (addr : Nat)
deriving DecidableEq, Repr, Inhabited

/-- What an aborted replay left for a waiting toucher (R136). -/
inductive ReplayFail where
  | trap (kind : TrapKind) (info : Word)
  | restart (info : Word)
  | formatAbsent (info : Word)
deriving DecidableEq, Repr, Inhabited

/-- The park of one arm: its unfinished lanes, the causes not yet answered, the pages rejected with their lanes, and
the outcome of an aborted replay. With no cause left the instruction issues again for those lanes (R231). -/
structure Park where
  lanes : LaneSet
  causes : List Cause
  rejected : List (Nat × LaneSet)
  fail : Option ReplayFail
deriving DecidableEq, Repr, Inhabited

/-- The clause an arm is inside (R255): header address, the words fetched with it and not yet issued (R231; log 48), SETA, SETB,
NR. -/
structure Clause where
  hdr : Nat
  words : List Word
  seta : Option Nat
  setb : Option Nat
  nr : Bool
deriving DecidableEq, Repr, Inhabited

/-- Words of the clause not yet issued. -/
def Clause.left (c : Clause) : Nat := c.words.length

/-- An entry of the fork stack: a serial fork (R37) or the table entry of a BTAB (R292). -/
inductive ForkEntry where
  | fork (cont : Nat) (cl : Clause) (saved parent recorded : LaneSet) (shared parentPhase : Bool)
  | table (word : Nat) (cl : Clause) (saved pending : LaneSet) (idx : VSrc) (tab n : SSrc)
deriving DecidableEq, Repr, Inhabited

/-- An entry of the return stack: an address, or the mark of a BTAB call (R41, R292). -/
inductive RetEntry where
  | plain (pc : Nat)
  | table
deriving DecidableEq, Repr, Inhabited

/-- One access sent to another device for the arm's current instruction or an engine's chunk (R235): `addr` is
VA[70:0], `lane` the order in which it was sent. -/
structure RemoteReq where
  (lane addr tag : Nat)
  answer : Option RemoteEnd
deriving DecidableEq, Repr, Inhabited

/-- A collective instruction withdrawn at a save or for a replay group, which issues again (R132, R147): its control thread,
its accumulator, its number among the group's operations, its address and clause context, and whether it is an MSTZ. -/
structure Redo where
  who : Who
  (z id pc : Nat)
  cl : Clause
  stz : Bool
deriving DecidableEq, Repr, Inhabited

/-- Set while a withdrawn word issues again: the word, and what its arm goes on with after it (R147). An arm that has ended
comes back for its withdrawn words alone. -/
structure Back where
  word : Redo
  pc : Nat
  jumped : Bool
  cl : Clause
  mask : LaneSet
  ended : Bool
deriving DecidableEq, Repr, Inhabited

/-- A record with what travels beside it (R186, R207): the queue, if it has one, and the slot to report. -/
structure Rec where
  (lo hi : Word)
  queue : Nat
  qslot : Nat
deriving DecidableEq, Repr, Inhabited

/-- A not-ready period (R381): of YIELD with n = 0, the other ready groups that have not been offered an opportunity yet; of a
longer one, none. The core's count of issue opportunities at its start. -/
structure Yield where
  left : Option (List GKey)
  start : Nat
deriving DecidableEq, Repr, Inhabited

/-- Sector states of R111. -/
inductive SecSt where
  | good | lost | poisoned
deriving DecidableEq, Repr, Inhabited

/-- A BARW that waits (R121, R287): the sector of its object, by core and descriptor, and what has become of it since, if it was
lost or poisoned. -/
structure BarWait where
  (core desc sector : Nat)
  broke : Option SecSt
deriving DecidableEq, Repr, Inhabited

/-- The control thread of one arm (R34), or of the monitor wave (R43). -/
structure Arm where
  pc : Nat
  /-- Whether pc was reached by a control transfer (R226, BAD_TARGET). -/
  jumped : Bool
  cl : Clause
  mask : LaneSet
  /-- Completion flags that are not zero (R63). -/
  flags : Tbl Nat
  forks : List ForkEntry
  rets : List RetEntry
  /-- The reservation set: 64-byte granules of physical addresses (R175). -/
  resv : List Nat
  park : Option Park
  remote : List RemoteReq
  /-- Slots that a parked instruction with some lanes finished goes on using (R97). -/
  uses : List Nat
  /-- DEP_UNDERFLOW traps not delivered yet, and what finished lanes of a DEPDEC that has parked leave: the lanes that
  underflowed and the records that wait at the home (R194, R307). -/
  under : List LaneSet
  depLanes : LaneSet
  depRecs : List Rec
  /-- A sleeping WAITT's TIME value, flag and selected lanes (R380). -/
  sleep : Option (Nat × Nat × LaneSet)
  barw : Option BarWait
  /-- The not-ready period of YIELD, and YIELDH of the clause it is inside (R255, R381). -/
  yield : Option Yield
  hint : Bool
  /-- The deferral of R39 and the ageing counter of R38. -/
  defer : Bool
  age : Nat
  /-- Set while a withdrawn word issues again (R147). -/
  back : Option Back
  ended : Bool
deriving DecidableEq, Repr, Inhabited

/-- Registers shared by the arms of a group (R59): scalars, vector elements at reg × 64 + lane, masks, accumulator
elements at acc × 4096 + 64 m + n, versions. -/
structure Regs where
  s : Tbl Word
  v : Tbl Lane
  m : Tbl Word
  z : Tbl Lane
  zver : Tbl Nat
deriving DecidableEq, Repr, Inhabited

/-- Special registers and what trap entry records beside them (R66, R227, R229). -/
structure TrapRegs where
  tkind : BitVec 8
  tpcv : BitVec 71
  tlm : Word
  tinfo : Word
  tm : Bool
  resv : Bool
  /-- The trapping arm, the value entry wrote to TPCV, and the clause context it recorded. -/
  arm : Who
  savedPc : BitVec 71
  cl : Clause
  back : Option Back
deriving DecidableEq, Repr, Inhabited

/-- Region state (R47–R50). `firstOp`: operations from this number on were issued inside it. -/
structure Region where
  inside : Bool
  rgpc : BitVec 71
  (depth firstOp : Nat)
  arm : Who
  /-- Restarts at this RGPC for uncorrectable errors. -/
  restarts : Nat
  /-- TIME at which the region was entered (R214). -/
  entered : Nat
deriving DecidableEq, Repr, Inhabited

/-- A register write that a long-latency operation makes when it completes (R359). -/
inductive WriteBack where
  | v (reg lane : Nat) (x : Lane)
  | s (reg : Nat) (x : Word)
deriving DecidableEq, Repr, Inhabited

/-- Operand bytes of a touch phase (R143, R144): where they stand, and their sectors' bytes as last copied. -/
structure Operand where
  (core desc ofs : Nat)
  bytes : List Byte
deriving DecidableEq, Repr, Inhabited

/-- A collective instruction past its issue (R143): what it will do once its version is ready. -/
inductive CollOp where
  /-- Tiles A and B with their plane counts, the planes of A that are read, the scale block and its mode. -/
  | mma (a b sc : Operand) (pa keep pb : Nat) (mode : SMode)
  | mzero
  | mldz (src : Operand)
  /-- Destination core, descriptor, offset and bytes, first row or column and count, form, slot, rounding, and the generator as
  it stood at issue (R82). -/
  | mstz (core desc ofs size first count : Nat) (form : StzForm) (slot : Nat) (r : Rnd) (gen : Word)
deriving DecidableEq, Repr

/-- A resolved slate address: core of the store, descriptor, byte offset within the slate. -/
structure SlAddr where
  (core id ofs : Nat)
deriving DecidableEq, Repr, Inhabited

/-- Where an access is performed: a physical address with the virtual address and key it was reached by, or a slate. -/
inductive Place where
  | mem (pa va key : Nat)
  | slate (x : SlAddr)
deriving DecidableEq, Repr, Inhabited

/-- What a lane of a vector load has read: from where, how many bytes, for which lane of which register, and the value. -/
structure LaneRead where
  place : Place
  bytes : Nat
  dst : VReg
  lane : Nat
  signed : Bool
  got : Nat
deriving DecidableEq, Repr, Inhabited

/-- What an outstanding long-latency operation does at completion. -/
inductive OpKind where
  | plain
  /-- A vector load whose lanes may still read anew, each by itself, until its arm's next word acts (R170, R387). -/
  | load (l : List LaneRead)
  /-- A collective instruction: its accumulator, expected version, whether it holds a pass, what an MSTZ has read, and
  whether its touch phase has not ended (R144). -/
  | coll (z ver : Nat) (op : CollOp) (pass : Bool) (snap : Option (Tbl Lane)) (open' : Bool)
  /-- An engine request in a command record (R162). -/
  | engine (record : Nat)
  /-- A FENCE behind an MSTZ: whether it holds back later reads too (R311). -/
  | fence (all : Bool)
  /-- A DEPDEC: the lanes that underflowed (R194), and the die and records that wait to join the spill queue (R307). -/
  | dep (under : LaneSet) (die : Nat) (recs : List Rec)
  | fswap (swap : Nat)
  /-- An SLFREE that waits for engine requests on its slate (R346): core and descriptor. -/
  | free (core desc : Nat)
  /-- A CRTOUCH: core, descriptor, result register, .renew, .warm, .cold, and whether it waited (R303, R304). -/
  | touch (core desc dst : Nat) (renew warm cold waited : Bool)
  /-- A QNT: what it adds to QSTAT as its last step (R91). -/
  | quant (lo hi nan : Bool) (count : Nat)
  /-- A TLBINV: partition, first VA and end of the range (R354). -/
  | shoot (part va stop : Nat)
deriving DecidableEq, Repr

/-- An outstanding long-latency operation: who counts it, on which flag, the slots it uses (R97), the word that issued
it with its clause context, and the registers it will write. -/
structure Op where
  who : Who
  flag : Nat
  word : Nat
  cl : Clause
  kind : OpKind
  slots : List Nat
  wb : List WriteBack
deriving DecidableEq, Repr

/-- An entry of the queue window (R44, R45). -/
inductive WEntry where
  | val (x : Tbl Lane)
  | poison (kind : TrapKind) (pc : Nat) (lanes : LaneSet) (info : Word)
deriving DecidableEq, Repr, Inhabited

/-- Binding states of a loadable slot (R94). -/
inductive SlotSt where
  | unbound | bound | transition
deriving DecidableEq, Repr, Inhabited

/-- A loadable slot of a partition on a die (R94, R95). -/
structure Slot8 where
  st : SlotSt
  /-- Whether a transition would return to BOUND (R98). -/
  wasBound : Bool
  gen : BitVec 8
  region : Nat
  meas : BitVec 256
  signer : Nat
  /-- The record header and body of the bound record, bytes 0x00 to 0x80 + BODYLEN − 1. -/
  record : List Byte
deriving DecidableEq, Repr, Inhabited

/-- A command record (R162). -/
structure CmdRec where
  /-- The tensor shape record as accepted. -/
  shape : List Byte
  (origin slate index sel : Word)
  promise : Nat
  next : Nat
  engine : Nat
  gather : Bool
  flag : Nat
  who : Who
  /-- 0 free, 1 accepted, 2 paused, 3 failed. -/
  st : Nat
  fkind : Option TrapKind
  fchunk : Nat
  fpoison : Bool
  indices : Tbl Lane
  /-- The operation it counts as. -/
  op : Nat
  /-- Elements, or bytes of a planarised tile, moved so far; destination bytes moved, and in all (R155, R157). -/
  unit : Nat
  moved : Nat
  total : Nat
  /-- The ticket it is paused on (R155), and its chunk's accesses to another device (R235). -/
  ticket : Option Nat
  remote : List RemoteReq
  /-- The die and the binding of its slot as the engine accepted it, for planarise and pack (R97). -/
  bind : Option (Nat × Slot8)
deriving DecidableEq, Repr, Inhabited

/-- The engine block of a group (R161, R162). -/
structure EngBlock where
  openSet : BitVec 32
  batches : Tbl (BitVec 32)
  recs : Tbl CmdRec
deriving DecidableEq, Repr, Inhabited

/-- States of a monitor wave (R43–R46): `stopped` at a fault whose poisoned entry is unread, `taken` once the entry has
been read, until the group's RFT. -/
inductive MonSt where
  | absent | live | stopped | taken | ended
deriving DecidableEq, Repr, Inhabited

/-- The monitor wave: its own scalars and vector registers, and its control thread. -/
structure Monitor where
  st : MonSt
  arm : Arm
  s : Tbl Word
  v : Tbl Lane
  window : List WEntry
deriving DecidableEq, Repr, Inhabited

/-- A constant window (R64). -/
structure CWin where
  (base len : Nat)
deriving DecidableEq, Repr, Inhabited

/-- What identifies a replay group (R131): the core that holds its chain and the chain, the core of its crib's CRU and
the crib, its depth. -/
structure ReplayId where
  (core chain home crib depth : Nat)
deriving DecidableEq, Repr, Inhabited

/-- The header in force (R24, R258), as the group sees it. -/
structure Shape where
  width : Nat
  vregs : Nat
  nacc : Nat
  qwin : Nat
  legacy : Bool
  mmrev : Nat
deriving DecidableEq, Repr, Inhabited

/-- State of a vector line that has been written or filled since the group started (R68); a line not listed is zero.
`used` is the order of its last use, `evict` marks it evictable, and a line that is not cached stands in the image. -/
structure VLine where
  (cached dirty evict : Bool)
  used : Nat
deriving DecidableEq, Repr, Inhabited

/-- A resident group (R24–R52). -/
structure Group where
  live : Bool
  key : GKey
  part : Nat
  team : Nat
  gid : Nat
  tid : Nat
  shape : Shape
  replayId : Option ReplayId
  regs : Regs
  a0 : Arm
  a1 : Arm
  /-- Two arms, from FORK until the parent's JOIN (R37). -/
  two : Bool
  mon : Monitor
  tr : TrapRegs
  rg : Region
  qstat : Word
  srseed : Word
  /-- The stochastic-rounding generator G (R82). -/
  gen : Word
  cw : Tbl CWin
  ops : Tbl Op
  eng : EngBlock
  /-- Physical address of its context image (R67); a replay group's of the replay context (R131). -/
  img : Nat
  /-- Vector lines by register, those of the monitor wave from 256 on, and lines that hold an uncorrectable error (R68). -/
  lines : Tbl VLine
  badLines : List Nat
  /-- Withdrawn collective words, in the order in which they issue again. -/
  redo : List Redo
  /-- The core's count of issue opportunities at its last issue (R208). -/
  lastIssue : Nat
  /-- Accumulators copied out for a replay group (R132). -/
  zout : List Nat
  /-- An MMA of the group waits for a hall pass; a pass is granted and not used yet; passes its MMAs hold (R149). -/
  passWait : Bool
  passReady : Bool
  passes : Nat
deriving DecidableEq, Repr, Inhabited

/-- A sector of a slate (R111): stamp and state, and for mapped slates presence, dirt and touch since renewal. -/
structure Sector where
  stamp : Nat
  st : SecSt
  (present dirty touched : Bool)
  /-- Mapped and present: the physical 128-byte line it aliases. -/
  line : Nat
deriving DecidableEq, Repr, Inhabited

/-- What keeps a derived slate from expiry and eviction (R134). -/
inductive Hold where
  | chain (n : Nat)
  | toucher (k : GKey) (who : Who)
deriving DecidableEq, Repr, Inhabited

/-- A slate descriptor (R107) with its bytes. DIRTY, LOST, POISON, EXPIRY and PINS are computed. -/
structure Desc where
  kind : SlKind
  warm : Bool
  dropped : Bool
  /-- Closed by an SLFREE that has not completed (R346). -/
  closed : Bool
  team : Nat
  base : Nat
  leaves : Nat
  crib : Option Nat
  life : Nat
  mapva : Nat
  /-- Every sector not listed in `secs` is as `dflt`. -/
  dflt : Sector
  secs : Tbl Sector
  bytes : Tbl Byte
  /-- Physical leaves held, by leaf of the slate, with the order of their last touch. -/
  leafs : Tbl Nat
  holds : List Hold
deriving DecidableEq, Repr, Inhabited

/-- States of a crib (R127). -/
inductive CribSt where
  | live | dropped | replaying | stale
deriving DecidableEq, Repr, Inhabited

/-- A crib entry (R122). Sources are descriptor ids and the partner bit; `watch` lists the 128-byte lines watched, each with
the position of its source. -/
structure Crib where
  lesson : Nat
  st : CribSt
  slate : Nat
  team : Nat
  coord : Word
  arg : Word
  replays : Nat
  srcs : List (Nat × Bool)
  watch : List (Nat × Nat)
deriving DecidableEq, Repr, Inhabited

/-- A replay chain (R129–R134): its members as core, crib and depth, sources before dependents; how many have ended;
the position of the member running; the context it holds (slot 32 is the reserved one); whether it holds the replay
reserve; the LIVE derived sources it holds. -/
structure Chain where
  all : List (Nat × Nat × Nat)
  ended : Nat
  part : Nat
  team : Nat
  running : Option GKey
  ctx : Option Nat
  reserve : Bool
  sources : List (Nat × Nat)
  /-- Address of the context image of a chain that runs in a group slot. -/
  img : Nat
deriving DecidableEq, Repr, Inhabited

/-- Exam state of a core (R216–R218). -/
structure Exam where
  lastPass : Nat
  started : Nat
  /-- An exam is due and the core is being emptied. -/
  wanted : Bool
  running : Bool
  quarantined : Bool
  /-- Partitions whose manager has acknowledged the quarantine (R217). -/
  acked : List Nat
  /-- Partitions whose groups have issued on the core since its last passed exam (R218). -/
  seen : List Nat
deriving DecidableEq, Repr, Inhabited

/-- The issue cycle a core is filling (R30, R208): the execution class in its vector slot, the quads taken, the groups that
have issued in it, and the partition and queue that its scalar word is charged to (R209). -/
structure Cycle where
  cls : Nat
  quads : Nat
  issued : List GKey
  scalar : Option (Nat × Nat)
deriving DecidableEq, Repr, Inhabited

/-- A core (R11): descriptors, cribs, chains, its translation, constant and data caches, exams, corrected errors. -/
structure Core where
  descs : Tbl Desc
  cribs : Tbl Crib
  chains : Tbl Chain
  /-- Leaf entries that translations in use may be cached from, by partition and 8 KiB page (R237). -/
  tlb : List ((Nat × Nat) × Word)
  /-- Constant words cached, by partition and VA (R65). -/
  ccache : List ((Nat × Nat) × BitVec 32)
  /-- Lines in the L1 data cache, latest first (R11). -/
  l1 : List Nat
  /-- Issue opportunities so far, and the cycle being filled (R208). -/
  opps : Nat
  cycle : Cycle
  exam : Exam
  corrected : Nat
  /-- RCLK of the last eviction (R114). -/
  evictTick : Option Nat
deriving DecidableEq, Repr, Inhabited

/-- A tray (R188, R189). -/
structure Tray where
  part : Nat
  type : Nat
  recs : List Rec
  ready : Bool
  /-- TIME at which it became ready, and at which its bell started. -/
  since : Nat
  bell : Nat
deriving DecidableEq, Repr, Inhabited

/-- Temperature bands of a die (R23). -/
inductive Band where
  | normal | throttled | stopped
deriving DecidableEq, Repr, Inhabited

/-- An array die. -/
structure Die where
  rclk : Nat
  band : Band
  trays : Tbl Tray
  /-- Loadable slots by partition × 16 + slot. -/
  slots : Tbl Slot8
deriving DecidableEq, Repr, Inhabited

/-- Stages of one die's part of an FSWAP (R96): the TIME at which it began to drain, the order in which it came to wait for its
region's turn (R99). -/
inductive SwapSt where
  | verify | drain (since : Nat) | reconf (came : Nat) | done (nibble : Nat)
deriving DecidableEq, Repr, Inhabited

/-- An FSWAP in flight (R96–R99), or the unbinding that a revocation starts (R101), which no group waits for. `src`: 0
expert, 1 basic, 2 unbind; `arg` is the record VA, the index, or the signer whose key is revoked. `unlogged`: dies on which
a revocation found no free entry of the log. -/
structure Swap where
  key : Option GKey
  part : Nat
  op : Nat
  dst : Nat
  slot : Nat
  src : Nat
  arg : Nat
  dies : Tbl SwapSt
  /-- The record read and its measurement, once verified. -/
  record : Option (List Byte)
  meas : BitVec 256
  ticket : Option Nat
  rejected : Bool
  unlogged : List Nat
deriving DecidableEq, Repr, Inhabited

/-- An entry of the attestation log (R102). -/
structure LogEntry where
  (die slot : Nat)
  gen : BitVec 8
  unbind : Bool
  signer : Nat
  time : Nat
  meas : BitVec 256
deriving DecidableEq, Repr, Inhabited

/-- A copy or gather engine (R212): requests in arrival order, the one it is moving, and budgets in bytes. -/
structure Engine where
  queue : List (GKey × Nat)
  cur : Option (GKey × Nat)
  budget : Tbl Int
  /-- Leaf entries of its walk-ahead TLB, by partition and 8 KiB page, at most 256 (R155). -/
  tlb : List ((Nat × Nat) × Word)
deriving DecidableEq, Repr, Inhabited

/-- A request waiting at a ring's home (R197). -/
structure RingWait where
  /-- Physical address of the control block, consumer side. -/
  block : Nat
  consumer : Bool
  key : GKey
  who : Who
  n : Nat
  /-- The scalar that receives the position. -/
  dst : Nat
  grant : Option Word
deriving DecidableEq, Repr, Inhabited

/-- An outstanding fault ticket (R232). -/
structure Ticket where
  id : Nat
  page : Nat
  access : Nat
  level : Nat
  core : Nat
  time : Nat
  /-- Committed to the fault ring, or waiting in the fault unit. -/
  sent : Bool
  stalled : Bool
deriving DecidableEq, Repr, Inhabited

/-- What a team's pre-emption is doing (R213–R215). -/
inductive PreSt where
  | none | drain | saving | saved | discard
deriving DecidableEq, Repr, Inhabited

/-- A barrier object made live by BARI (R283): the core of its store and its slate address. -/
structure BarObj where
  (core addr : Nat)
deriving DecidableEq, Repr, Inhabited

/-- A team (R24, R25, R188–R191, R207, R213). -/
structure Team where
  part : Nat
  type : Nat
  tid : Nat
  khdr : Word
  core : Nat
  pair : Bool
  queue : Nat
  recs : List Rec
  /-- Placement of its record block, its context images, and its descriptor and save areas, with the sizes of the last two
  (R67, R116, R204); `noImg` while the images of a discarded team are freed (R70). -/
  recBlock : Nat
  (ctxAt descAt imgBytes descBytes : Nat)
  noImg : Bool
  /-- Save areas of scratch leaves beyond LEAVES: address and leaves (R204). -/
  extra : List (Nat × Nat)
  /-- Team slot on its core or cores (R107). -/
  slot : Nat
  launch : Nat
  retired : List Nat
  bars : List BarObj
  start : Nat
  pre : PreSt
  deadline : Option Nat
  /-- Accumulators and leaves that the newcomer of its pre-emption needs (R214). -/
  (needAcc needLeaves : Nat)
  late : Bool
  killed : Bool
  saved : List Group
  /-- Slots whose FORMAT_ABSENT had it saved (R103). -/
  needSlots : List Nat
  /-- MEAS recorded for its FSREQ slots at the first placement of its launch (R103). -/
  fsreq : Tbl (BitVec 256)
deriving DecidableEq, Repr, Inhabited

/-- A grid not yet wholly placed, or a launch's recorded measurements (R103, R190). -/
structure Grid where
  part : Nat
  recd : Rec
  total : Nat
  next : Nat
  launch : Nat
  die : Nat
  since : Nat
deriving DecidableEq, Repr, Inhabited

/-- What a launch recorded (R103): measurements by slot, dies it may no longer use. `told`: its grid record has been reported
for a killed team (R192). -/
structure Launch where
  meas : Tbl (BitVec 256)
  barred : List Nat
  told : Bool
deriving DecidableEq, Repr, Inhabited

/-- A mapped queue (R205–R210): queue number, descriptor, deficit in core-cycles with the quarters of one charged beside it,
order of mapping, and whether drawing its seed ring stopped at a full spill queue (R204). -/
structure MapQ where
  q : Nat
  ring : Nat
  preempt : Bool
  weight : Nat
  deadline : Nat
  deficit : Int
  since : Nat
  cut : Bool
  quarters : Nat
deriving DecidableEq, Repr, Inhabited

/-- What limits a partition (R222). -/
structure CapSrc where
  src : CapCode
  active : Bool
  rank : Nat
  capw : BitVec 12
  stamp : BitVec 32
deriving DecidableEq, Repr, Inhabited

/-- A record of the spill queue (R188, R204): the die it waits for, its place of 16 bytes in the queue's area, and the record as
it was spilled. -/
structure Spilled where
  (die slot : Nat)
  recd : Rec
deriving DecidableEq, Repr, Inhabited

/-- A partition (R202–R206, R232, R243). -/
structure Part where
  par : PartParams
  /-- COLOURS under basic control are computed; this holds the expert value or the computed one. -/
  fenced : Bool
  colours : List (BitVec 24)
  regions : List (List Nat)
  roll : Word
  mapped : Tbl MapQ
  spill : List Spilled
  /-- Records of a killed group's DEPDEC that wait at the home for room in the spill queue (R54, R307). -/
  home : List (Nat × Rec)
  grids : List Grid
  hostRings : Tbl Nat
  keys : Tbl (List Byte)
  log : List LogEntry
  logReserved : Nat
  chain : BitVec 256
  /-- Records verified since the partition was created: measurement and signer (R99). -/
  verified : List (BitVec 256 × Nat)
  tickets : List Ticket
  nextTicket : Nat
  starved : Nat
  losterr : Nat
  late : Nat
  avgrun : Tbl Nat
  /-- Addresses of its replay contexts, by core (R131). -/
  replayCtx : Tbl Nat
  capsrc : CapSrc
  /-- The power in W that a cap holds it to (R220, R221). -/
  held : Option Nat
  throttle : Tbl Nat
  quota : Nat
  /-- Pool periods since the last non-zero quota (R219). -/
  dry : Nat
deriving DecidableEq, Repr, Inhabited

/-- A management event (R254): its code and what it reports. -/
structure Event where
  code : Nat
  args : List Nat
deriving DecidableEq, Repr, Inhabited

/-- An answer of the device to an outside agent. -/
inductive Reply where
  | word (w : Word)
  | bytes (l : List Byte) (poison : Bool)
  | abort
  | retry
  | mgmtOk
  | mgmtError
  /-- CXL.io error reporting of a partition's fence (R240). -/
  | ioError (part : Nat)
  | measurement (l : List (BitVec 256)) (log : List LogEntry) (chain : BitVec 256)
  | counters (status corrected : List Nat)
  /-- A response flit: the port it leaves on, its sequence number there (R248), its header, and how the request ended, with up to
  48 bytes of what was read (R246). -/
  | flit (port seq : Nat) (hdr : BitVec 128) (e : RemoteEnd)
  /-- A request flit with up to 48 bytes of payload. -/
  | request (port seq : Nat) (hdr : BitVec 128) (payload : List Byte)
  /-- A data flit: up to 64 bytes more of a write or an answer. -/
  | data (port seq : Nat) (payload : List Byte)
  /-- The negotiated width and speed of the host link (R242). -/
  | link (width speed : Nat)
deriving DecidableEq, Repr, Inhabited

/-- Memory of the package and of the host: bytes, poisoned 128-byte lines, and the recorded key of each owned 8 KiB
frame (R236, R239). -/
structure Memory where
  cells : List Host.Cell
  poison : List Nat
  owners : Tbl Nat
deriving DecidableEq, Repr, Inhabited

/-- One outstanding request tag (R246): who waits, the command record where it is an engine's, when it was sent, and how many bytes
its answer brings. -/
structure Tag where
  key : GKey
  who : Who
  part : Nat
  record : Option Nat
  (sent data : Nat)
deriving DecidableEq, Repr, Inhabited

/-- A Gysin port (R248): credit returned, flits sent on it, which number the next one, failed resends of the flit it is sending,
and the sequence number it expects next. -/
structure Port where
  credit : Nat
  spent : Nat
  resends : Nat
  down : Bool
  seq : Nat
deriving DecidableEq, Repr, Inhabited

/-- A request of another device that is not answered yet: the ticket it waits on (R235), or 0 for a DEPDEC whose successor
record, here its payload with the cell's address, waits for room (R307); the port it came on. -/
structure Held where
  (ticket part port : Nat)
  flit : Flit
  payload : List Byte
deriving DecidableEq, Repr, Inhabited

/-- The fabric interface (R246–R248). `tags` are keyed by port × 1,024 + tag; `parts` holds writes and answers of several flits
that are not complete, by the port they arrive on. -/
structure Fabric where
  id : BitVec 17
  tags : Tbl Tag
  ports : Tbl Port
  parts : List (Nat × Flit × List Byte)
  held : List Held
  dropped : Nat
deriving DecidableEq, Repr, Inhabited

/-- Package control (R17, R149, R219–R222, R240–R254). -/
structure Package where
  time : Nat
  stage : Nat
  failed : Bool
  stopped : Bool
  alarm : Nat
  zeroised : Bool
  /-- Memory keys generated, attestation keys present, and the measurement the Proctor extends (R241, R253). -/
  keysMade : Bool
  attKeys : Bool
  meas : BitVec 256
  /-- Partitions last served by the Proctor's verification and by each die's format manager (R99). -/
  verifyTurn : Nat
  reconfTurn : Tbl Nat
  pool : Nat
  lastCluster : Nat
  moduleCap : Option Nat
  current : Option Nat
  external : Bool
  broadcast : Option (Nat × Nat)
  /-- Partitions below the broadcast's rank that it has been reported to limit (R221). -/
  below : List Nat
  linkWidth : Nat
  linkSpeed : Nat
  events : List Event
  lostEvents : Nat
  out : List Reply
  pinErrors : List (Nat × Nat × Nat)
  corrected : Nat
deriving DecidableEq, Repr, Inhabited

/-- The model's counters: steps taken (the argument of every free value), order of touches, identities handed out. -/
structure Counters where
  steps : Nat
  touch : Nat
  op : Nat
  team : Nat
  swap : Nat
  chain : Nat
  launch : Nat
deriving DecidableEq, Repr, Inhabited

/-- What may happen to the machine that is no row of the opcode table. -/
inductive Occur where
  /-- The home of a line frees its directory entry for another (R15). -/
  | dirEvict (line : Nat)
  /-- An access or a write-back finds an uncorrectable error in a sector, or corrects errors (R118). -/
  | sectorError (core desc sector : Nat)
  | corrected (core n : Nat)
  /-- An uncorrectable error in a slate descriptor, in a CRU entry, and in a partition's CFE, tray or queue state (R127,
  R239, R240). -/
  | descError (core desc : Nat)
  | cribError (core id : Nat)
  | stateError (part : Nat)
  /-- The next read of an accumulator, scalar or mask by a control thread fails its SECDED (R239). -/
  | regError (k : GKey) (who : Who)
  /-- The partition manager acknowledges the quarantine of a core (R217). -/
  | examAck (part core : Nat)
  /-- The host reads 8 bytes of a virtual function's BAR0 or BAR2 (R198, R243). -/
  | bar0Read (part off : Nat)
  | bar2Read (part off : Nat)
deriving DecidableEq, Repr

/-- What acts next: an issue opportunity of a core, meant for a control thread of a group; one of the steps that are no
instruction words; or something that is no row of the opcode table. -/
inductive Turn where
  | issue (k : GKey) (who : Who)
  | event (i : Instr)
  | occur (o : Occur)
deriving DecidableEq, Repr

/-- A line in a die's L2 (R13): the slice it stands in, the partition that brought it there or last wrote it (R240), whether it
is modified, and the order of its last use. -/
structure L2Line where
  (slice part : Nat)
  dirty : Bool
  used : Nat
deriving DecidableEq, Repr, Inhabited

structure State where
  /-- The group whose instruction `exec` runs, and which of its control threads. -/
  grp : Group
  who : Who
  /-- Every other resident group. -/
  others : List Group
  mem : Memory
  /-- L2 lines by die × 2^48 + line (R13). -/
  l2 : Tbl L2Line
  cores : Tbl Core
  teams : Tbl Team
  parts : Tbl Part
  dies : Tbl Die
  /-- Copy engines 0–127, gather engines at 128 + number. -/
  engines : Tbl Engine
  waits : List RingWait
  swaps : Tbl Swap
  launches : Tbl Launch
  fab : Fabric
  pm : Package
  cnt : Counters
  agenda : List Turn
deriving DecidableEq, Repr

/-- Why the machine stops. -/
inductive Fault where
  /-- Raised by every instruction word executed where the focused group is not live: no control thread exists that
  could execute it (R27). Safe: the machine never gets there by its own steps. -/
  | noGroup
deriving DecidableEq, Repr

/-- Why the model gives no next state. -/
inductive Refusal where
  /-- Raised for an instruction the model has no meaning for. Safe. -/
  | notModelled (mnemonic : String)
deriving DecidableEq, Repr

/-! ## Reset -/

def Clause.start : Clause := ⟨0, [], none, none, false⟩

/-- A control thread at group start (R34, R62, R63). -/
def Arm.start (pc : Nat) (mask : LaneSet) : Arm :=
  { pc := pc, jumped := true, cl := Clause.start, mask := mask, flags := [], forks := [], rets := [], resv := [], park := none
    remote := [], uses := [], under := [], depLanes := 0, depRecs := [], sleep := none, barw := none, yield := none, hint := false
    defer := false, age := 0, back := none, ended := false }

def Arm.absent : Arm := { Arm.start 0 0 with ended := true }

/-- The generator as if SRSEED had been written 0 (R82). -/
def genReset : Word := 0x9E3779B97F4A7C15#64

def Regs.zero : Regs := ⟨[], [], [], [], []⟩
def TrapRegs.zero : TrapRegs := ⟨0, 0, 0, 0, false, false, .arm0, 0, Clause.start, none⟩
def Region.outside : Region := ⟨false, 0, 0, 0, .arm0, 0, 0⟩
def Monitor.absent : Monitor := ⟨.absent, Arm.absent, [], [], []⟩

/-- No group. -/
def Group.idle : Group :=
  { live := false, key := ⟨0, 0⟩, part := 0, team := 0, gid := 0, tid := 0
    shape := ⟨64, 256, 0, 0, false, 3⟩, replayId := none, regs := Regs.zero, a0 := Arm.absent, a1 := Arm.absent
    two := false, mon := Monitor.absent, tr := TrapRegs.zero, rg := Region.outside, qstat := 0, srseed := 0
    gen := genReset, cw := [], ops := [], eng := ⟨0, [], []⟩, img := 0, lines := [], badLines := [], redo := []
    lastIssue := 0, zout := []
    passWait := false, passReady := false, passes := 0 }

def Exam.fresh : Exam := ⟨0, 0, false, false, false, [], []⟩
def Cycle.fresh : Cycle := ⟨0, 0, [], none⟩
def Core.empty : Core := ⟨[], [], [], [], [], [], 0, Cycle.fresh, Exam.fresh, 0, none⟩
def Die.reset : Die := ⟨0, .normal, [], []⟩

def Package.reset : Package :=
  { time := 0, stage := 0, failed := false, stopped := false, alarm := 0, zeroised := false, keysMade := false
    attKeys := true, meas := 0, verifyTurn := 0, reconfTurn := [], pool := 768
    lastCluster := 47, moduleCap := none, current := none, external := false, broadcast := none, below := [], linkWidth := 0
    linkSpeed := 0, events := [], lostEvents := 0, out := [], pinErrors := [], corrected := 0 }

/-- The machine right after a package reset: nothing resident, no partition, TIME and every RCLK 0 (R17, R19, R253). -/
def State.reset : State :=
  { grp := Group.idle, who := .arm0, others := [], mem := ⟨[], [], []⟩, l2 := [], cores := [], teams := [], parts := []
    dies := [(0, Die.reset), (1, Die.reset), (2, Die.reset), (3, Die.reset)], engines := [], waits := [], swaps := []
    launches := [], fab := ⟨0, [], [], [], [], 0⟩, pm := Package.reset, cnt := ⟨0, 0, 0, 0, 0, 0, 0⟩, agenda := [] }

end Sys2Proof.Machine
end

