-- ==== Sys2Proof/Machine/Tables.lean ====
section
/-! DEFINITION. Tables with rising keys, lane sets and bytes: the data every operation is written over. -/

namespace Sys2Proof

/-- The value listed at a key. -/
def Tbl.look {α : Type} : Tbl α → Nat → Option α
  | [], _ => none
  | (k, v) :: t, j => if j = k then some v else Tbl.look t j

/-- List a value at a key. -/
def Tbl.ins {α : Type} : Tbl α → Nat → α → Tbl α
  | [], j, x => [(j, x)]
  | (k, v) :: t, j, x =>
    if j < k then (j, x) :: (k, v) :: t else if j = k then (j, x) :: t else (k, v) :: Tbl.ins t j x

/-- List nothing at a key. -/
def Tbl.del {α : Type} (t : Tbl α) (j : Nat) : Tbl α := t.filter fun p => !decide (p.1 = j)

/-- What a key reads as, where unlisted keys read as `d`. -/
def Tbl.get {α : Type} (d : α) (t : Tbl α) (j : Nat) : α := (t.look j).getD d

/-- Write a key, listing nothing where the value is `d`. -/
def Tbl.put {α : Type} [DecidableEq α] (d : α) (t : Tbl α) (j : Nat) (x : α) : Tbl α :=
  if x = d then t.del j else t.ins j x

/-- Change a listed value. -/
def Tbl.upd {α : Type} (t : Tbl α) (j : Nat) (f : α → α) : Tbl α :=
  match t.look j with
  | some x => t.ins j (f x)
  | none => t

/-- Change every listed value. -/
def Tbl.mapV {α : Type} (t : Tbl α) (f : Nat → α → α) : Tbl α := t.map fun (k, v) => (k, f k v)

/-- Keep the entries a test accepts. -/
def Tbl.keep {α : Type} (t : Tbl α) (p : Nat → α → Bool) : Tbl α := t.filter fun (k, v) => p k v

def Tbl.keys {α : Type} (t : Tbl α) : List Nat := t.map (·.1)
def Tbl.vals {α : Type} (t : Tbl α) : List α := t.map (·.2)

/-- Keys strictly rise. -/
def Tbl.rising {α : Type} : Tbl α → Bool
  | [] => true
  | [_] => true
  | (k, _) :: (j, y) :: t => decide (k < j) && Tbl.rising ((j, y) :: t)

/-- The canonical form: keys strictly rise and no listed value is the default. -/
def Tbl.wf {α : Type} [DecidableEq α] (d : α) (t : Tbl α) : Bool := Tbl.rising t && t.all fun p => decide (p.2 ≠ d)

/-- The lowest number below `n` that is no key. -/
def Tbl.fresh {α : Type} (t : Tbl α) (n : Nat) : Option Nat := (List.range n).find? fun k => (t.look k).isNone

/-- A key–value list searched by an arbitrary key. -/
def assoc {κ α : Type} [DecidableEq κ] (l : List (κ × α)) (k : κ) : Option α := (l.find? fun p => decide (p.1 = k)).map (·.2)

/-- Insert a number into a rising list without repeats. -/
def insNat : List Nat → Nat → List Nat
  | [], j => [j]
  | k :: t, j => if j < k then j :: k :: t else if j = k then k :: t else k :: insNat t j

/-- Insertion sort by a key. -/
def insBy {α : Type} (f : α → Nat) : List α → α → List α
  | [], x => [x]
  | y :: t, x => if f x < f y then x :: y :: t else y :: insBy f t x
def sortBy {α : Type} (f : α → Nat) (l : List α) : List α := l.foldl (insBy f) []

/-- The least element by a key, the first on ties. -/
def minBy {α : Type} (f : α → Nat) : List α → Option α
  | [] => none
  | x :: t => match minBy f t with
    | none => some x
    | some y => if f y < f x then some y else some x

/-! ## Lane sets -/

/-- Lanes 0 to w − 1. -/
def lanesBelow (w : Nat) : LaneSet := BitVec.ofNat 64 (2 ^ w - 1)

/-- The set of lanes below `w` that satisfy a test. -/
def lanesWhere (w : Nat) (p : Nat → Bool) : LaneSet :=
  BitVec.ofNat 64 ((List.range w).foldl (fun n i => if p i then n + 2 ^ i else n) 0)

/-- The lanes of a set, in rising order. -/
def laneList (x : LaneSet) : List Nat := (List.range 64).filter fun i => x.getLsbD i

def laneBit (i : Nat) : LaneSet := BitVec.ofNat 64 (2 ^ i)

/-! ## Bits and bytes -/

/-- Bits [lo + n − 1 : lo] of a number. -/
def bits (x lo n : Nat) : Nat := x / 2 ^ lo % 2 ^ n
def bitB (x k : Nat) : Bool := x / 2 ^ k % 2 == 1

/-- A number as `n` little-endian bytes (R5). -/
def toBytes (n x : Nat) : List Byte := (List.range n).map fun k => BitVec.ofNat 8 (x / 256 ^ k)

/-- The number that little-endian bytes hold. -/
def ofBytes (l : List Byte) : Nat := l.foldr (fun b n => b.toNat + 256 * n) 0

/-- The signed value of the low `n` bits. -/
def signedOf (n x : Nat) : Int :=
  let y := x % 2 ^ n
  if 2 ^ n ≤ 2 * y then (y : Int) - (2 ^ n : Nat) else y

/-- An integer modulo 2^n. -/
def wrapInt (n : Nat) (x : Int) : Nat := (x % ((2 ^ n : Nat) : Int)).toNat

/-- Slice of a byte list: `n` bytes at an offset. -/
def slice (l : List Byte) (ofs n : Nat) : List Byte := (l.drop ofs).take n
/-- A little-endian field of a byte list. -/
def fieldAt (l : List Byte) (ofs n : Nat) : Nat := ofBytes (slice l ofs n)

end Sys2Proof
end

