-- ==== Sys2Proof/Machine/Num.lean ====
section
/-! DEFINITION. Number formats: what a code means, exact arithmetic, and how an exact result becomes a code (R72–R83). -/

namespace Sys2Proof

/-! ## Formats -/

/-- KIND of R95, with GY8 of its own. -/
inductive FKind where
  | float | int | gy8 | table
deriving DecidableEq, Repr, Inhabited

/-- A format as R72, R74, R75 and R95 give it. `mant` mantissa bits, `max` the magnitude code of +Max, `uses` the USES
bits, `meas` the measurement that names a table-decoded body. -/
structure Fmt where
  kind : FKind
  width : Nat
  mant : Nat
  emin : Int
  max : Nat
  hasInf : Bool
  hasNan : Bool
  neg0 : Bool
  signed : Bool
  noZero : Bool
  nan : Nat
  planes : Nat
  uses : Nat
  meas : BitVec 256
deriving DecidableEq, Repr, Inhabited

def Fmt.float (width mant : Nat) (emin : Int) (max : Nat) (hasInf hasNan : Bool) (nan planes : Nat) : Fmt :=
  ⟨.float, width, mant, emin, max, hasInf, hasNan, true, true, false, nan, planes, 0x3F, 0⟩

def fp32 : Fmt := Fmt.float 32 23 (-126) 0x7F7FFFFF true true 0x7FC00000 0
def bf16 : Fmt := Fmt.float 16 7 (-126) 0x7F7F true true 0x7FC0 8
def fp16 : Fmt := Fmt.float 16 10 (-14) 0x7BFF true true 0x7E00 11
def e4m3 : Fmt := Fmt.float 8 3 (-6) 0x7E false true 0x7F 4
def e5m2 : Fmt := Fmt.float 8 2 (-14) 0x7B true true 0x7E 3
def e2m1 : Fmt := Fmt.float 4 1 0 0x7 false false 0 2
def gy8 : Fmt := ⟨.gy8, 8, 3, -21, 126, true, true, false, true, false, 0x80, 8, 0x3F, 0⟩
def intFmt (w : Nat) : Fmt := ⟨.int, w, w - 1, 0, 2 ^ (w - 1) - 1, false, false, false, true, false, 0, w, 0x3F, 0⟩

/-- The hard-wired slots 0–7 (R92). -/
def hardSlot (n : Nat) : Fmt :=
  match n with
  | 0 => fp32 | 1 => bf16 | 2 => fp16 | 3 => e4m3 | 4 => e5m2 | 5 => e2m1 | 6 => gy8 | _ => intFmt 8

/-- The format a bitstream record declares (R95). -/
def Fmt.ofRecord (r : List Byte) (meas : BitVec 256) : Fmt :=
  let width := fieldAt r 6 1
  let pol := fieldAt r 0x10 1
  let signed := bitB pol 3
  let kind : FKind := match fieldAt r 8 1 with | 0 => .float | 1 => .int | _ => .table
  { kind := kind, width := width, mant := width - fieldAt r 9 1 - (if signed then 1 else 0)
    emin := signedOf 16 (fieldAt r 0xC 2), max := fieldAt r 0x18 4, hasInf := bitB pol 0, hasNan := bitB pol 1
    neg0 := bitB pol 2, signed := signed, noZero := bitB pol 4, nan := fieldAt r 0x14 4, planes := fieldAt r 7 1
    uses := fieldAt r 0x11 1, meas := meas }

/-! ## GY8 (R75) -/

/-- Leading zeros of a 6-bit number. -/
def lz6 (t : Nat) : Nat :=
  if 32 ≤ t then 0 else if 16 ≤ t then 1 else if 8 ≤ t then 2 else if 4 ≤ t then 3 else if 2 ≤ t then 4 else 5

/-- Exponent, fraction and fraction bits of a GY8 code with T ≠ 0. -/
def gy8Parts (c : Nat) : Int × Nat × Nat :=
  let t := c % 64
  let k := lz6 t
  let p := 5 - k
  let b := t % 2 ^ p
  let (x, f, n) := if 2 ≤ p then (b / 2 ^ (p - 2), b % 2 ^ (p - 2), p - 2) else if p = 1 then (2 * b, 0, 0) else (0, 0, 0)
  let e : Int := if bitB c 6 then ((4 * k + x : Nat) : Int) else -((4 * k + x : Nat) : Int) - 1
  (e, f, n)

/-- Magnitude of a GY8 code in units of 2^−21. -/
def gy8Units (c : Nat) : Nat :=
  let (e, f, n) := gy8Parts c
  (2 ^ n + f) * 2 ^ (e - n + 21).toNat

/-- The positive codes in order of magnitude. -/
def gy8Codes : List Nat := sortBy gy8Units ((List.range 128).filter fun c => c % 64 != 0)

/-! ## Exact values -/

def FVal.neg : FVal → Bool
  | .nan => false | .inf s => s | .num s _ _ => s
def FVal.isZero : FVal → Bool
  | .num _ 0 _ => true | _ => false
def FVal.negate : FVal → FVal
  | .nan => .nan | .inf s => .inf (!s) | .num s m e => .num (!s) m e

/-- |x| as numerator and denominator. -/
def ratOf (m : Nat) (e : Int) : Nat × Nat := if 0 ≤ e then (m * 2 ^ e.toNat, 1) else (m, 2 ^ (-e).toNat)

/-- The signed significand at a common exponent. -/
def scaled (neg : Bool) (m : Nat) (e e0 : Int) : Int :=
  let x : Int := ((m * 2 ^ (e - e0).toNat : Nat) : Int)
  if neg then -x else x

/-- x + y. A zero sum of opposite signs is +0, or −0 under .rd (R83). -/
def FVal.add (rd : Bool) : FVal → FVal → FVal
  | .nan, _ => .nan
  | _, .nan => .nan
  | .inf a, .inf b => if a = b then .inf a else .nan
  | .inf a, _ => .inf a
  | _, .inf b => .inf b
  | .num a m e, .num b n f =>
    let e0 := if e ≤ f then e else f
    let t := scaled a m e e0 + scaled b n f e0
    if t = 0 then .num (if a = b then a else rd) 0 0 else .num (decide (t < 0)) t.natAbs e0

def FVal.mul : FVal → FVal → FVal
  | .nan, _ => .nan
  | _, .nan => .nan
  | .inf a, .inf b => .inf (a != b)
  | .inf a, .num b n _ => if n = 0 then .nan else .inf (a != b)
  | .num a m _, .inf b => if m = 0 then .nan else .inf (a != b)
  | .num a m e, .num b n f => .num (a != b) (m * n) (e + f)

/-- Order of two values; none if either is NaN. Zeros are equal. -/
def FVal.cmp : FVal → FVal → Option Ordering
  | .nan, _ => none
  | _, .nan => none
  | .inf a, .inf b => some (if a = b then .eq else if a then .lt else .gt)
  | .inf a, .num _ _ _ => some (if a then .lt else .gt)
  | .num _ _ _, .inf b => some (if b then .gt else .lt)
  | .num a m e, .num b n f =>
    let e0 := if e ≤ f then e else f
    some (compare (scaled a m e e0) (scaled b n f e0))

def FVal.ofInt (x : Int) : FVal := .num (decide (x < 0)) x.natAbs 0

/-! ## Decoding (R72, R74, R75) -/

/-- The value of a code. A zero with the sign set decodes to −0, whatever POLICY says of −0 (log 78). -/
def Fmt.decode (f : Fmt) (code0 : Nat) : FVal :=
  let code := code0 % 2 ^ f.width
  match f.kind with
  | .table => Config.openDecode f.meas code
  | .int => FVal.ofInt (if f.signed then signedOf f.width code else code)
  | .gy8 =>
    if code % 64 = 0 then
      if code = 0 then .num false 0 0 else if code = 0x80 then .nan else .inf (code == 0xC0)
    else let (e, m, n) := gy8Parts code; .num (bitB code 7) (2 ^ n + m) (e - n)
  | .float =>
    let top := if f.signed then f.width - 1 else f.width
    let neg := f.signed && bitB code top
    let c := code % 2 ^ top
    if c ≤ f.max then
      let e := c / 2 ^ f.mant
      let m := c % 2 ^ f.mant
      if e = 0 && !f.noZero then .num neg m (f.emin - f.mant)
      else .num neg (2 ^ f.mant + m) (f.emin + ((if f.noZero then e else e - 1 : Nat) : Int) - f.mant)
    else if f.hasInf && c = f.max + 1 then .inf neg
    else if f.hasNan then .nan
    else Config.openDecode f.meas code

/-! ## Orders and classes of codes (R369, R372) -/

/-- Whether a code comes before another, −0 before +0; neither is NaN. -/
def Fmt.before (m : Fmt) (a b : Nat) : Bool :=
  let x := m.decode a
  let y := m.decode b
  match x.cmp y with
  | some .lt => true
  | some .eq => x.neg && !y.neg
  | _ => false
def Fmt.isNan (m : Fmt) (a : Nat) : Bool := m.decode a == .nan

/-- VFMIN and VFMAX of two codes: an operand unchanged, or the canonical NaN. -/
def Fmt.pick (m : Fmt) (least : Bool) (a b : Nat) : Nat :=
  if m.isNan a then (if m.isNan b then m.nan else b)
  else if m.isNan b then a
  else if least then (if m.before b a then b else a)
  else (if m.before a b then b else a)

/-- The median of three codes, NaN treated as absent. -/
def Fmt.med3 (m : Fmt) (a b c : Nat) : Nat :=
  let l := [a, b, c].filter fun x => !m.isNan x
  match l with
  | [] => m.nan
  | [x] => x
  | [x, y] => m.pick true x y
  | _ => m.pick false (m.pick true a b) (m.pick true (m.pick false a b) c)

/-- The class bit of a code (R372). -/
def Fmt.classOf (m : Fmt) (a : Nat) : Nat :=
  match m.decode a with
  | .nan => 8
  | .inf neg => if neg then 0 else 7
  | .num neg k _ =>
    if k = 0 then (if neg then 3 else 4)
    else if k < 2 ^ m.mant then (if neg then 2 else 5)
    else (if neg then 1 else 6)

/-! ## Rounding (R79–R82) -/

/-- floor(log2 (n ÷ d)). -/
def ilog (n d : Nat) : Int :=
  let k : Int := (Nat.log2 n : Int) - Nat.log2 d
  let ge := if 0 ≤ k then d * 2 ^ k.toNat ≤ n else d ≤ n * 2 ^ (-k).toNat
  if ge then k else k - 1

/-- Where a magnitude n ÷ d stands among the values of a format: the rank of the value below it or equal, the distance
from there as a fraction of the step, and whether the codes below and above have their lowest bit set. -/
structure Place where
  (rank num den : Nat)
  (loOdd hiOdd : Bool)

def Fmt.place (f : Fmt) (n d : Nat) : Place :=
  match f.kind with
  | .gy8 =>
    let x := n * 2 ^ 21
    let below := (gy8Codes.filter fun c => gy8Units c * d ≤ x).length
    let value (r : Nat) : Nat := if r = 0 then 0 else match gy8Codes[r - 1]? with | some c => gy8Units c | none => 2 ^ 43
    let odd (r : Nat) : Bool := if r = 0 then false else match gy8Codes[r - 1]? with | some c => c % 2 == 1 | none => false
    if 2 ^ 43 * d ≤ x then ⟨127, 0, 1, false, false⟩
    else ⟨below, x - value below * d, (value (below + 1) - value below) * d, odd below, odd (below + 1)⟩
  | .int => ⟨n / d, n % d, d, n / d % 2 == 1, n / d % 2 == 0⟩
  | _ =>
    let e0 := ilog n d
    let e := if f.emin ≤ e0 then e0 else f.emin
    let s := e - f.mant
    let (n', d') := if 0 ≤ s then (n, d * 2 ^ s.toNat) else (n * 2 ^ (-s).toNat, d)
    let q := n' / d'
    let k := (e - f.emin).toNat
    let rank := if q < 2 ^ f.mant then (if f.noZero then 0 else q)
      else (k + (if f.noZero then 0 else 1)) * 2 ^ f.mant + (q - 2 ^ f.mant)
    if f.noZero && decide (q < 2 ^ f.mant) then ⟨0, 0, 1, false, false⟩
    else ⟨rank, n' % d', d', q % 2 == 1, (q + 1) % 2 == 1 || f.mant == 0⟩

/-- Whether a mode takes the value above (R80, R82). -/
def RMode.up (m : RMode) (neg : Bool) (p : Place) (rnd : Nat) : Bool :=
  if p.num = 0 then false
  else match m with
    | .rn =>
      if p.den < 2 * p.num then true
      else if 2 * p.num < p.den then false
      else p.loOdd && !p.hiOdd
    | .rz => false
    | .ru => !neg
    | .rd => neg
    | .rna => decide (p.den ≤ 2 * p.num)
    | .sr => decide (rnd < p.num * 65536 / p.den)

/-- A tie in a format without mantissa bits, both of whose neighbours have odd significands: R80 gives no rule, and a free
value decides (log 25). -/
def Fmt.tieUp (f : Fmt) (r : RMode) (p : Place) : Bool :=
  f.kind == .float && p.loOdd && p.hiOdd && r == .rn && decide (2 * p.num = p.den) && Config.tieAway f.meas p.rank

/-- Whether IEEE 754 gives an infinity on overflow (R81). -/
def RMode.overInf (m : RMode) (neg : Bool) : Bool :=
  match m with
  | .rn | .rna | .sr => true
  | .rz => false
  | .ru => !neg
  | .rd => neg

def Fmt.signBit (f : Fmt) (neg : Bool) : Nat := if neg && f.signed then 2 ^ (f.width - 1) else 0

/-- The code of a rank. -/
def Fmt.code (f : Fmt) (neg : Bool) (rank : Nat) : Nat :=
  match f.kind with
  | .gy8 => if rank = 0 then 0 else (match gy8Codes[rank - 1]? with | some c => c | none => 0x41) + (if neg then 0x80 else 0)
  | .int => if neg then (2 ^ f.width - rank) % 2 ^ f.width else rank
  | _ => if rank = 0 && !f.noZero && neg && !f.neg0 then 0 else rank + f.signBit neg

/-- The code of an infinity. DESIGN CHOICE (log 84), unsafe: R81 and R95 give no such code for a loadable KIND 0 format with
POLICY[0] set; here it is the code after MAXCODE, with the sign bit for −∞, in rounding and in decoding alike. -/
def Fmt.infCode (f : Fmt) (neg : Bool) : Nat :=
  match f.kind with
  | .gy8 => if neg then 0xC0 else 0x40
  | _ => f.max + 1 + f.signBit neg
/-- The largest finite value (R75, R88, R332): of GY8 2^20, else the value of the code of the highest rank. -/
def Fmt.maxVal (f : Fmt) : FVal := if f.kind = .gy8 then .num false 1 20 else f.decode f.max

/-- The largest rank of a sign: a two's-complement integer has one more below zero. -/
def Fmt.top (f : Fmt) (neg : Bool) : Nat := if f.kind = .int && neg && f.signed then f.max + 1 else f.max

/-- The result of an overflow (R81). -/
def Fmt.overflow (f : Fmt) (r : Rnd) (neg inf : Bool) : Nat :=
  if r.sat || !inf then f.code neg (f.top neg)
  else if f.hasInf then f.infCode neg
  else if f.hasNan then f.nan
  else f.code neg (f.top neg)

/-- What an unsigned destination writes for a negative result that is not zero (R81). -/
def Fmt.unsignedNeg (f : Fmt) (r : Rnd) : Nat := if f.hasNan && !r.sat then f.nan else 0

/-- The code of an exact rational magnitude of a sign, rounded once; under a table-decoded format a free value
(log 12). -/
def Fmt.roundRat (f : Fmt) (r : Rnd) (rnd : Nat) (neg : Bool) (n d : Nat) : Nat :=
  if f.kind = .table then
    Config.openQuotient f.meas r rnd neg (n / Nat.gcd n d) (d / Nat.gcd n d) % 2 ^ f.width
  else
    let p := f.place n d
    let rank := if r.mode.up neg p rnd || f.tieUp r.mode p then p.rank + 1 else p.rank
    if neg && !f.signed then (if rank = 0 && !f.noZero then 0 else f.unsignedNeg r)
    else if f.top neg < rank then f.overflow r neg (r.mode.overInf neg)
    else f.code neg rank
/-- A zero, an infinity or a NaN under a table-decoded format: what R81 gives by the header's policy, MAXCODE and
NANCODE, and a free value otherwise (log 12). -/
def Fmt.tableRound (f : Fmt) (r : Rnd) (rnd : Nat) (v : FVal) : Nat :=
  let free := Config.openEncode f.meas r rnd v % 2 ^ f.width
  match v with
  | .nan => if f.hasNan then f.nan else free
  | .inf neg =>
    if !r.sat && f.hasNan && (!f.hasInf || (neg && !f.signed)) then f.nan
    else if !neg && (r.sat || !f.hasInf) then f.max
    else free
  | .num _ _ _ => free
/-- The code of an exact value in a format (R79–R82). DESIGN CHOICE (log 84), unsafe: in a signed destination without a zero
code R81 leaves the sign open; here an exact zero of either sign is code 0, and a negative value below the smallest is
code 0 with the sign bit. -/
def Fmt.round (f : Fmt) (r : Rnd) (rnd : Nat) (v : FVal) : Nat :=
  match v with
  | .nan => if f.kind = .table then f.tableRound r rnd v else if f.hasNan then f.nan else 0
  | .inf neg =>
    if f.kind = .table then f.tableRound r rnd v
    else if neg && !f.signed then f.unsignedNeg r
    else f.overflow r neg true
  | .num neg m e =>
    if m = 0 then
      (if f.kind = .table then f.tableRound r rnd v
       else if neg && f.signed && f.neg0 && !f.noZero then f.signBit true else 0)
    else let (n, d) := ratOf m e; f.roundRat r rnd neg n d

/-- An exact value rounded to an integer and saturated to a range; NaN gives 0 (R81). -/
def roundInt (m : RMode) (rnd : Nat) (lo hi : Int) (v : FVal) : Int :=
  match v with
  | .nan => 0
  | .inf neg => if neg then lo else hi
  | .num neg k e =>
    let (n, d) := ratOf k e
    let p : Place := ⟨n / d, n % d, d, n / d % 2 == 1, n / d % 2 == 0⟩
    let q : Int := ((if m.up neg p rnd then p.rank + 1 else p.rank : Nat) : Int)
    let x := if neg then -q else q
    if x < lo then lo else if hi < x then hi else x

/-! ## The generator of stochastic rounding (R82) -/

def srAdvance (g : Word) : Word :=
  let g := g ^^^ (g <<< 13)
  let g := g ^^^ (g >>> 7)
  g ^^^ (g <<< 17)
def srSeed (v : Word) : Word := if v = 0 then 0x9E3779B97F4A7C15#64 else v

/-- The bits of `n` element positions, and the state after them. -/
def srDraws (g : Word) : Nat → List Nat × Word
  | 0 => ([], g)
  | n + 1 =>
    let (l, h) := srDraws g n
    let h := if n % 4 = 0 then srAdvance h else h
    (l ++ [bits h.toNat (16 * (n % 4)) 16], h)

/-! ## Block scales (R76) -/

def scaleDecode (m : SMode) (c : Nat) : FVal :=
  match m with
  | .none => .num false 1 0
  | .e5m3 =>
    if c = 0xFF then .nan
    else if c / 8 = 0 then .num false (c % 8) (-17)
    else .num false (8 + c % 8) ((c / 8 : Nat) - 18)
  | .e8m0 => if c = 0xFF then .nan else .num false 1 ((c : Int) - 127)

/-! ## Planar form (R120) -/

/-- Sign, exponent byte and P-bit significand of a value. -/
def planarOf (f : Fmt) (planes : Nat) (v : FVal) : Bool × Nat × Nat :=
  match v with
  | .nan => (false, 0x80, 2 ^ (planes - 1))
  | .inf neg => (neg, 0x80, 0)
  | .num neg m e =>
    if m = 0 then (neg, 0, 0)
    else if f.kind = .int then (neg, planes - 1, m * 2 ^ e.toNat)
    else
      let top : Int := e + Nat.log2 m
      let x := if f.kind = .float && decide (top < f.emin) then f.emin else top
      let s : Int := (planes : Int) - 1 - x + e
      (neg, wrapInt 8 x, if 0 ≤ s then m * 2 ^ s.toNat else m / 2 ^ (-s).toNat)

/-- The value of planar parts. -/
def planarVal (planes : Nat) (neg : Bool) (ex sig : Nat) : FVal :=
  if ex = 0x80 then (if bitB sig (planes - 1) then .nan else .inf neg)
  else .num neg sig (signedOf 8 ex - (planes - 1 : Nat))

end Sys2Proof
end

