-- ==== Sys2Proof/Machine/Base.lean ====
section
/-! DEFINITION. Access to the parts of the state: groups and arms, registers, flags, outstanding operations, events. -/

namespace Sys2Proof.Machine

/-- Trap codes of R226. -/
def TrapKind.code : TrapKind → Nat
  | .illegalOp => 0x01 | .badTarget => 0x02 | .codeEnd => 0x03 | .fetchFault => 0x04 | .memFault => 0x05
  | .misalign => 0x06 | .permission => 0x07 | .keyConflict => 0x08 | .staleRead => 0x09 | .slateRange => 0x0A
  | .slateFull => 0x0B | .pinViolation => 0x0C | .cribStale => 0x0D | .cribDepth => 0x0E | .cribNospace => 0x0F
  | .formatAbsent => 0x10 | .illConvergence => 0x11 | .versionTimeout => 0x12 | .promiseMiss => 0x13
  | .callUnderflow => 0x14 | .callOverflow => 0x15 | .forkDepth => 0x16 | .cwRange => 0x17 | .divZero => 0x18
  | .swTrap => 0x19 | .doubleTrap => 0x1A | .uncorrectable => 0x1B | .quantRange => 0x1C | .barrierErr => 0x1D
  | .ringErr => 0x1E | .depUnderflow => 0x1F | .queueErr => 0x20

/-! ## Arms and groups -/

def Group.arm (g : Group) : Who → Arm
  | .arm0 => g.a0
  | .arm1 => g.a1
  | .mon => g.mon.arm

def Group.setArm (g : Group) (w : Who) (a : Arm) : Group :=
  match w with
  | .arm0 => { g with a0 := a }
  | .arm1 => { g with a1 := a }
  | .mon => { g with mon := { g.mon with arm := a } }

/-- Apply a change to every control thread of a group. -/
def Group.mapArms (g : Group) (f : Arm → Arm) : Group :=
  { g with a0 := f g.a0, a1 := f g.a1, mon := { g.mon with arm := f g.mon.arm } }

def State.arm (s : State) : Arm := s.grp.arm s.who
def State.modGrp (s : State) (f : Group → Group) : State := { s with grp := f s.grp }
def State.modArm (s : State) (f : Arm → Arm) : State := { s with grp := s.grp.setArm s.who (f s.arm) }

/-- The arm other than the executing one; a monitor wave has none. -/
def otherArm : Who → Who
  | .arm0 => .arm1
  | .arm1 => .arm0
  | .mon => .mon

/-- Whether an arm has withdrawn words to issue again (R147). -/
def Group.owes (g : Group) (w : Who) : Bool := g.redo.any fun r => r.who == w

/-- A live arm: not ended, or with withdrawn words to issue again; arm 1 only while the group has two arms (R33, R35, R147). -/
def Group.liveArm (g : Group) : Who → Bool
  | .arm0 => g.live && (!g.a0.ended || g.owes .arm0)
  | .arm1 => g.live && g.two && (!g.a1.ended || g.owes .arm1)
  | .mon => g.live && (g.mon.st == .live)

def State.groups (s : State) : List Group := (if s.grp.live then [s.grp] else []) ++ s.others

/-- Apply a change to every resident group. -/
def State.mapGroups (s : State) (f : Group → Group) : State :=
  { s with grp := if s.grp.live then f s.grp else s.grp, others := s.others.map f }

/-- Apply a change to the group that stands at a position. -/
def State.modKey (s : State) (k : GKey) (f : Group → Group) : State :=
  s.mapGroups fun g => if g.key = k then f g else g

def State.groupAt (s : State) (k : GKey) : Option Group := s.groups.find? fun g => decide (g.key = k)

/-- Make the group at a position the focused one. -/
def State.focus (s : State) (k : GKey) (w : Who) : State :=
  if s.grp.live && decide (s.grp.key = k) then { s with who := w }
  else match s.others.find? fun g => decide (g.key = k) with
    | none => s
    | some g =>
      { s with grp := g, who := w
               others := s.others.filter (fun h => !decide (h.key = k)) ++ (if s.grp.live then [s.grp] else []) }

/-- The core a group issues on. -/
def State.core (s : State) : Nat := s.grp.key.core
def dieOfCore (c : Nat) : Nat := c / 48
def clusterOfCore (c : Nat) : Nat := c / 4
/-- Pair partner of a core (R10). -/
def partnerOf (c : Nat) : Nat := if c % 2 = 0 then c + 1 else c - 1

def State.coreAt (s : State) (c : Nat) : Core := (s.cores.look c).getD Core.empty
def State.setCore (s : State) (c : Nat) (x : Core) : State := { s with cores := s.cores.ins c x }
def State.modCore (s : State) (c : Nat) (f : Core → Core) : State := s.setCore c (f (s.coreAt c))
def State.dieAt (s : State) (d : Nat) : Die := (s.dies.look d).getD Die.reset
def State.modDie (s : State) (d : Nat) (f : Die → Die) : State := { s with dies := s.dies.ins d (f (s.dieAt d)) }
def State.modPart (s : State) (p : Nat) (f : Part → Part) : State := { s with parts := s.parts.upd p f }
def State.modTeam (s : State) (t : Nat) (f : Team → Team) : State := { s with teams := s.teams.upd t f }
def State.rclk (s : State) (core : Nat) : Nat := (s.dieAt (dieOfCore core)).rclk

/-! ## Registers (R59) -/

/-- Active lanes of an arm (R28). -/
def Group.activeOf (g : Group) (w : Who) : LaneSet := (g.arm w).mask &&& lanesBelow g.shape.width
def State.active (s : State) : LaneSet := s.grp.activeOf s.who

/-- Scalar registers; s0 reads 0, and a monitor wave has its own. -/
def State.readS (s : State) (n : Nat) : Word :=
  if n = 0 then 0 else match s.who with
    | .mon => Tbl.get 0 s.grp.mon.s n
    | _ => Tbl.get 0 s.grp.regs.s n

/-- Writes to s0 are dropped. -/
def State.writeS (s : State) (n : Nat) (x : Word) : State :=
  if n = 0 then s else match s.who with
    | .mon => s.modGrp fun g => { g with mon := { g.mon with s := Tbl.put 0 g.mon.s n x } }
    | _ => s.modGrp fun g => { g with regs := { g.regs with s := Tbl.put 0 g.regs.s n x } }

def State.readV (s : State) (reg lane : Nat) : Lane :=
  match s.who with
  | .mon => Tbl.get 0 s.grp.mon.v (reg * 64 + lane)
  | _ => Tbl.get 0 s.grp.regs.v (reg * 64 + lane)

def State.writeV (s : State) (reg lane : Nat) (x : Lane) : State :=
  match s.who with
  | .mon => s.modGrp fun g => { g with mon := { g.mon with v := Tbl.put 0 g.mon.v (reg * 64 + lane) x } }
  | _ => s.modGrp fun g => { g with regs := { g.regs with v := Tbl.put 0 g.regs.v (reg * 64 + lane) x } }

/-- Write the lanes of a set. -/
def State.writeLanes (s : State) (reg : Nat) (sel : LaneSet) (f : Nat → Lane) : State :=
  (laneList sel).foldl (fun t i => t.writeV reg i (f i)) s

/-- The 64-bit value of a pair: low word in the even register (R59). -/
def State.readPair (s : State) (reg lane : Nat) : Word := (s.readV (reg + 1) lane) ++ (s.readV reg lane)
def State.writePairs (s : State) (reg : Nat) (sel : LaneSet) (f : Nat → Word) : State :=
  (laneList sel).foldl (fun t i => (t.writeV reg i ((f i).setWidth 32)).writeV (reg + 1) i ((f i >>> 32).setWidth 32)) s

/-- Mask registers: m0 reads the active lanes (R59). -/
def State.readM (s : State) (n : Nat) : Word := if n = 0 then s.active else Tbl.get 0 s.grp.regs.m n

/-- Bits at or above the width are cleared, and writes to m0 are dropped (R29). -/
def State.writeM (s : State) (n : Nat) (x : Word) : State :=
  if n = 0 then s else s.modGrp fun g =>
    { g with regs := { g.regs with m := Tbl.put 0 g.regs.m n (x &&& lanesBelow g.shape.width) } }

def State.readZ (s : State) (acc i : Nat) : Lane := Tbl.get 0 s.grp.regs.z (acc * 4096 + i)
def Regs.writeZ (r : Regs) (acc i : Nat) (x : Lane) : Regs := { r with z := Tbl.put 0 r.z (acc * 4096 + i) x }
def Regs.ver (r : Regs) (acc : Nat) : Nat := Tbl.get 0 r.zver acc
def Regs.setVer (r : Regs) (acc n : Nat) : Regs := { r with zver := Tbl.put 0 r.zver acc n }

/-! ## Flags and outstanding operations (R31, R63) -/

def Arm.flag (a : Arm) (f : Nat) : Nat := Tbl.get 0 a.flags f
def Arm.incFlag (a : Arm) (f : Nat) : Arm := { a with flags := Tbl.put 0 a.flags f (a.flag f + 1) }
def Arm.decFlag (a : Arm) (f : Nat) : Arm := { a with flags := Tbl.put 0 a.flags f (a.flag f - 1) }

/-- The number of the operation that the executing arm issues next: a withdrawn word keeps its own (R147). -/
def State.opId (s : State) : Nat := match s.arm.back with | some b => b.word.id | none => s.cnt.op

/-- Count a long-latency operation on its flag and list it. -/
def State.addOp (s : State) (flag : Nat) (kind : OpKind) (slots : List Nat) (wb : List WriteBack) : State :=
  let op : Op := ⟨s.who, flag, s.arm.pc, s.arm.cl, kind, slots, wb⟩
  let s := s.modArm (·.incFlag flag)
  { s with grp := { s.grp with ops := s.grp.ops.ins s.opId op }, cnt := { s.cnt with op := s.cnt.op + 1 } }

def Regs.applyWb (r : Regs) : WriteBack → Regs
  | .v reg lane x => { r with v := Tbl.put 0 r.v (reg * 64 + lane) x }
  | .s reg x => if reg = 0 then r else { r with s := Tbl.put 0 r.s reg x }

def Monitor.applyWb (m : Monitor) : WriteBack → Monitor
  | .v reg lane x => { m with v := Tbl.put 0 m.v (reg * 64 + lane) x }
  | .s reg x => if reg = 0 then m else { m with s := Tbl.put 0 m.s reg x }

/-- The number of a vector line: its register, the monitor wave's from 256 on (R67, R68). -/
def lineNo (w : Who) (reg : Nat) : Nat := if w = .mon then 256 + reg else reg

/-- Vector lines written at a time: they are in the register cache and dirty, and used last (R68). -/
def Group.wroteLines (g : Group) (now : Nat) (l : List Nat) : Group :=
  { g with lines := l.foldl (fun t n =>
      t.ins n { (Tbl.get ⟨false, false, false, 0⟩ t n) with cached := true, dirty := true, used := now }) g.lines }

/-- Vector registers that register writes name. -/
def wbRegs (l : List WriteBack) : List Nat := l.filterMap fun
  | .v reg _ _ => some reg
  | .s _ _ => none

/-- The registers a completing operation writes. -/
def Group.applyWbs (g : Group) (now : Nat) (w : Who) (l : List WriteBack) : Group :=
  let g := g.wroteLines now ((wbRegs l).eraseDups.map (lineNo w))
  match w with
  | .mon => { g with mon := l.foldl Monitor.applyWb g.mon }
  | _ => { g with regs := l.foldl Regs.applyWb g.regs }

/-- An operation ends: its registers are written, its flag decremented, and it is listed no more. -/
def Group.endOp (g : Group) (now id : Nat) : Group :=
  match g.ops.look id with
  | none => g
  | some o =>
    let g := g.applyWbs now o.who o.wb
    let g := g.setArm o.who ((g.arm o.who).decFlag o.flag)
    { g with ops := g.ops.del id }

/-- Scalar registers that an outstanding operation of the group will write (R157, R318). -/
def Group.busyS (g : Group) (mon : Bool) : List Nat :=
  g.ops.vals.flatMap fun o => if (o.who == .mon) == mon then o.wb.filterMap fun
    | .s r _ => some r
    | .v _ _ _ => none
  else []

/-! ## Package -/

/-- Queue a management event in the FIFO of 256 (R254). -/
def State.event (s : State) (code : Nat) (args : List Nat) : State :=
  let e : Event := ⟨code, args⟩
  if s.pm.events.length < 256 then { s with pm := { s.pm with events := s.pm.events ++ [e] } }
  else { s with pm := { s.pm with events := s.pm.events.drop 1 ++ [e], lostEvents := s.pm.lostEvents + 1 } }

def State.reply (s : State) (r : Reply) : State := { s with pm := { s.pm with out := s.pm.out ++ [r] } }

/-- Leave the idempotent region (R47–R49). -/
def Group.leaveRegion (g : Group) : Group := { g with rg := { g.rg with inside := false } }

/-- A free choice of this step, by what it is about. -/
def State.choose (s : State) (n : Nat) : Bool := Config.freeBit (s.cnt.steps * 2 ^ 80 + n)

/-- The partition of the focused group. -/
def State.part? (s : State) : Option Part := s.parts.look s.grp.part

def partDefault : PartParams :=
  { manager := false, clbase := 0, cllimit := 47, colours := [], slots := 0, qdt := 0, rank := 0, pcap := 2800, bwshare := 256, engw := 1
    eprio := 0, prepol := [], expert := false, dieLocal := false, regions := [], keys := [], hdmKey := 0, tvbase := 0
    troot := 0, tkey := 0, ttbase := 0, ttlen := 0, errRing := 0, faultRing := 0, respRing := 0, ctxBase := 0
    ctxPages := 0, spillBase := 0, spillCap := 0, recBase := 0, recSize := 0, tenant := 0, fabRanges := [] }

def State.par (s : State) (p : Nat) : PartParams := match s.parts.look p with | some x => x.par | none => partDefault

end Sys2Proof.Machine
end

