-- ==== Sys2Proof/Machine/Mem.lean ====
section
/-! DEFINITION. Physical memory, poison and frame keys (R236, R239), and the translation of virtual addresses
(R233–R237). -/

namespace Sys2Proof.Machine

/-! ## Physical memory -/

def Memory.byte (m : Memory) (pa : Nat) : Byte := Tbl.get 0 m.cells pa
def Memory.bytes (m : Memory) (pa n : Nat) : List Byte := (List.range n).map fun k => m.byte (pa + k)
def Memory.num (m : Memory) (pa n : Nat) : Nat := ofBytes (m.bytes pa n)
def Memory.put (m : Memory) (pa : Nat) (b : Byte) : Memory := { m with cells := Tbl.put 0 m.cells pa b }

/-- The canonical form: cells, owners and poisoned lines rise, and no cell holds what an unlisted address reads as. -/
def Memory.wf (m : Memory) : Bool :=
  Tbl.wf 0 m.cells && Tbl.rising m.owners && Tbl.rising (m.poison.map fun k => (k, ()))

/-- Whether `n` bytes from `pa` touch a poisoned line. -/
def Memory.poisoned (m : Memory) (pa n : Nat) : Bool :=
  m.poison.any fun l => decide (pa < (l + 1) * 128 ∧ l * 128 < pa + n)

/-- A write that covers a whole 128-byte line clears its poison; a partial write leaves it (R239). -/
def Memory.store (m : Memory) (l : List (Nat × Byte)) : Memory :=
  let m' := l.foldl (fun t c => t.put c.1 c.2) m
  { m' with poison := m'.poison.filter fun ln =>
      !((List.range 128).all fun k => l.any fun c => c.1 == ln * 128 + k) }

def Memory.setPoison (m : Memory) (line : Nat) : Memory := { m with poison := insNat m.poison line }

/-- Cells of consecutive addresses. -/
def cellsAt (pa : Nat) (bs : List Byte) : List (Nat × Byte) := (List.range bs.length).zipWith (fun k b => (pa + k, b)) bs

/-- Frames that a range touches. -/
def framesOf (pa n : Nat) : List Nat := (List.range ((pa % 8192 + n + 8191) / 8192)).map fun k => pa / 8192 + k

/-- A frame not owned, or owned under the access's key; host memory carries no key (R234, R236). -/
def Memory.frameOk (m : Memory) (pa key : Nat) : Bool :=
  decide (2 ^ 51 ≤ pa) || (match m.owners.look (pa / 8192) with | none => true | some k => k == key)

/-- An access to a frame that is not owned records its key (R236). -/
def Memory.claim (m : Memory) (pa key : Nat) : Memory :=
  if 2 ^ 51 ≤ pa || (m.owners.look (pa / 8192)).isSome then m else { m with owners := m.owners.ins (pa / 8192) key }

/-- After a level 2 alarm every access to device memory returns poison (R241). -/
def State.poisonAt (s : State) (pa n : Nat) : Bool :=
  (s.pm.zeroised && decide (pa < 2 ^ 51)) || s.mem.poisoned pa n

/-! ## Local translation (R233, R234) -/

inductive Acc where
  | read | write | atomic | fetch
deriving DecidableEq, Repr

/-- ACCESS bits of a fault record (R232). -/
def Acc.code : Acc → Nat
  | .read => 1 | .write => 2 | .atomic => 4 | .fetch => 8

/-- How a walk ends. -/
inductive Walk where
  | leaf (pa : Nat) (e : Word)
  | absent (level : Nat) (np : Bool)
  | malformed
  | conflict
deriving DecidableEq, Repr

/-- VA index of each level: level, lowest bit, bits (R233). -/
def walkLevels : List (Nat × Nat × Nat) :=
  [(0, 63, 8), (1, 53, 10), (2, 43, 10), (3, 33, 10), (4, 23, 10), (5, 13, 10)]

/-- PA[51:13] of an entry. -/
def entryPa (e : Nat) : Nat := bits e 13 39 * 8192

/-- One walk from a node: the result and the node entries read. A reserved bit that software stored makes the walk malformed
(R234; log 105). -/
def State.walkFrom (s : State) (tkey va : Nat) : List (Nat × Nat × Nat) → Nat → List Nat → Walk × List Nat
  | [], _, seen => (.malformed, seen)
  | (level, lo, n) :: rest, node, seen =>
    let a := node + 8 * bits va lo n
    if !s.mem.frameOk a tkey then (.conflict, seen)
    else if s.poisonAt a 8 then (.malformed, seen ++ [a])
    else
      let e := s.mem.num a 8
      let seen := seen ++ [a]
      let pa := entryPa e
      if !bitB e 0 then (.absent level (bitB e 6), seen)
      else if bits e 7 6 != 0 || bits e 61 3 != 0 || (decide (2 ^ 39 ≤ pa) && decide (pa < 2 ^ 51)) then (.malformed, seen)
      else if bitB e 1 then
        if level < 3 || pa % 2 ^ lo != 0 then (.malformed, seen)
        else (.leaf (pa + va % 2 ^ lo) (BitVec.ofNat 64 e), seen)
      else if level = 5 then (.malformed, seen)
      else s.walkFrom tkey va rest pa seen

def State.walk (s : State) (p va : Nat) : Walk × List Nat :=
  s.walkFrom (s.par p).tkey va walkLevels (s.par p).troot []

/-- What an access to a virtual address meets. -/
inductive Tr where
  | ok (pa key : Nat)
  | park (level : Nat)
  | trap (k : TrapKind)
  | noPage
  | remote (dev va : Nat)
deriving DecidableEq, Repr

/-- The permission bits an access kind needs (R234). -/
def Acc.allowed (a : Acc) (e : Nat) : Bool :=
  match a with
  | .read => bitB e 2
  | .write => bitB e 3
  | .atomic => bitB e 2 && bitB e 3 && bitB e 5
  | .fetch => bitB e 4

/-- Checks of a leaf: its key, the access's permission, the frame's recorded key (R234, R236). -/
def State.leafTr (s : State) (p : Nat) (a : Acc) (pa : Nat) (e : Nat) : Tr :=
  let key := bits e 52 9
  let host := decide (2 ^ 51 ≤ pa)
  if !host && (key == 0 || !(s.par p).keys.contains key) then .trap .permission
  else if !a.allowed e then .trap .permission
  else if !s.mem.frameOk pa key then .trap .keyConflict
  else .ok pa key

def State.walkTr (s : State) (p : Nat) (a : Acc) (va : Nat) : Tr :=
  match (s.walk p va).1 with
  | .leaf pa e => s.leafTr p a pa e.toNat
  | .absent _ true => .noPage
  | .absent level false => .park level
  | .malformed => .trap .memFault
  | .conflict => .trap .keyConflict

/-- Leaf entries that a core or an engine keeps, by partition and 8 KiB page. -/
abbrev Tlb := List ((Nat × Nat) × Word)

/-- A core or an engine may use a translation it has cached until a shoot-down removes it, or walk again (R237; log 9). -/
def State.tlbTr (s : State) (tlb : Tlb) (p : Nat) (a : Acc) (va : Nat) : Tr :=
  match assoc tlb (p, va / 8192) with
  | some e =>
    if s.choose (va / 8192) then s.leafTr p a (entryPa e.toNat / 8192 * 8192 + va % 8192) e.toNat
    else s.walkTr p a va
  | none => s.walkTr p a va

def State.localTr (s : State) (p core : Nat) (a : Acc) (va : Nat) : Tr := s.tlbTr (s.coreAt core).tlb p a va

/-- The partition a tenant maps to on this device (R247). -/
def State.tenantPart (s : State) (t : BitVec 16) : Option Nat :=
  (s.parts.find? fun x => decide (x.2.par.tenant = t)).map (·.1)

/-- Translation of VA[71:0] for a partition (R233–R235). A not-present page with NP set is `noPage`. The device's own window
is served as another device's request is: under the partition's own table, with a key conflict answered as PERMISSION. -/
def State.translateBy (s : State) (tlb : Tlb) (p : Nat) (a : Acc) (va : Nat) : Tr :=
  if va < 2 ^ 71 then s.tlbTr tlb p a va
  else
    let dev := bits va 54 17
    let inCtx := (s.par p).fabRanges.any fun r => decide (r.1 ≤ dev ∧ dev ≤ r.2)
    if !inCtx then .trap .permission
    else if dev = s.fab.id.toNat then
      match s.walkTr p a (va % 2 ^ 54) with
      | .trap .keyConflict => .trap .permission
      | r => r
    else .remote dev (va % 2 ^ 54)

def State.translate (s : State) (p core : Nat) (a : Acc) (va : Nat) : Tr := s.translateBy (s.coreAt core).tlb p a va

/-- The 8 KiB leaf entry that a core keeps for a page: the entry with its PA moved to that page. -/
def pageEntry (pa : Nat) (e : Nat) : Word :=
  BitVec.ofNat 64 (e % 8192 + pa / 8192 * 8192 % 2 ^ 52 + bits e 52 12 * 2 ^ 52)

/-- VA[71:10] of an address, for TINFO (R225). -/
def vaInfo (va : Nat) : Word := BitVec.ofNat 64 (va % 2 ^ 72 / 1024)

/-- The local address that a VA is walked as: VA[53:0] in a fabric window. -/
def localVa (va : Nat) : Nat := if va < 2 ^ 71 then va else va % 2 ^ 54

/-- The walk of an address reads its entries, however it ends: their frames become owned under the table's key (R236). -/
def State.claimWalk (s : State) (p va : Nat) : State :=
  if 2 ^ 71 ≤ va && bits va 54 17 != s.fab.id.toNat then s
  else { s with mem := (s.walk p (localVa va)).2.foldl (fun m a => m.claim a (s.par p).tkey) s.mem }

/-- Every frame that `n` bytes at an address touch becomes owned (R236). -/
def State.claimRange (s : State) (pa n key : Nat) : State :=
  { s with mem := (framesOf pa n).foldl (fun m f => m.claim (f * 8192) key) s.mem }

/-- The entry that a walk of a local address finds, as it is kept. -/
def State.walkEntry (s : State) (p va : Nat) : Option Word :=
  if va < 2 ^ 71 then
    match (s.walk p va).1 with
    | .leaf q e => some (pageEntry q e.toNat)
    | _ => none
  else none

/-- A translated access: the core keeps the translation, and the frames read and reached become owned. -/
def State.useVa (s : State) (p core va pa key : Nat) : State :=
  let s := ({ s with mem := s.mem.claim pa key }).claimWalk p va
  let c := s.coreAt core
  match s.walkEntry p va, assoc c.tlb (p, va / 8192) with
  | some e, none => { s with cores := s.cores.ins core { c with tlb := ((p, va / 8192), e) :: c.tlb } }
  | _, _ => s

end Sys2Proof.Machine
end

