-- ==== Sys2Proof/Machine/Caches.lean ====
section
/-! DEFINITION. Which lines the caches hold (R11, R13–R15, R203). A cached line has no bytes of its own: an access finds
the bytes of memory, as the memory model's one order of accesses gives them. -/

namespace Sys2Proof.Machine

/-- The memory controller that homes a physical address of a partition (R9; log 29). -/
def State.homeOf (s : State) (p pa : Nat) : Nat :=
  if (s.par p).dieLocal then 2 * (pa / 2 ^ 37 % 4) + pa / 4096 % 2 else (Config.stackHash (pa / 4096)).val

/-! ## L2 (R13, R203) -/

def l2Key (die line : Nat) : Nat := die * 2 ^ 48 + line

/-- The slice in which a partition's access places a line on a die: the set bits of its COLOURS there, indexed by the slice
hash (R203). -/
def State.sliceOf (s : State) (p die line : Nat) : Nat :=
  let mask := match s.parts.look p with | some x => x.colours.getD die 0 | none => 0
  let set := (List.range 24).filter fun k => mask.getLsbD k
  set.getD (Config.sliceHash line % 2 ^ 32 % set.length) 0

/-- The set of its slice in which a line stands: a slice of 4 MiB in 16 ways has 2,048 (R13). -/
def l2SetOf (line : Nat) : Nat := Config.l2Set line % 2048

/-- Make room for a line in its set of 16 ways: the line used longest ago goes. DESIGN CHOICE (log 91), safe: no replacement
order is given. -/
def State.l2Room (s : State) (die line slice : Nat) : State :=
  if s.l2.length < 16 then s
  else
    let same := s.l2.filter fun x => x.1 / 2 ^ 48 == die && x.2.slice == slice &&
      l2SetOf (x.1 % 2 ^ 48) == l2SetOf line
    if same.length < 16 then s
    else match minBy (fun x => x.2.used) same with
      | none => s
      | some x => { s with l2 := s.l2.del x.1 }

/-- An access of a partition from a die uses a line of the die's L2, and brings it there if it is in no slice of it. -/
def State.l2Use (s : State) (p die line : Nat) (write : Bool) : State :=
  match s.l2.look (l2Key die line) with
  | some x => { s with l2 := s.l2.ins (l2Key die line) { x with
      part := if write then p else x.part, dirty := x.dirty || write, used := s.cnt.steps } }
  | none =>
    let slice := s.sliceOf p die line
    let s := s.l2Room die line slice
    { s with l2 := s.l2.ins (l2Key die line) ⟨slice, p, write, s.cnt.steps⟩ }

/-- A line's copies in the L2s are written to memory, and stay there clean (R295). -/
def State.cleanLine (s : State) (line : Nat) : State :=
  { s with l2 := s.l2.mapV fun k (x : L2Line) => if k % 2 ^ 48 == line then { x with dirty := false } else x }

/-- A line leaves the L2 of every die and every L1. -/
def State.dropCopies (s : State) (line : Nat) : State :=
  { s with
    l2 := s.l2.filter fun x => x.1 % 2 ^ 48 != line
    cores := s.cores.map fun (c, x) => (c, { x with l1 := x.l1.filter (· != line) }) }

/-! ## L1 (R11) -/

/-- A lane access of a core uses a line of its L1, of 1,024 lines; the one used longest ago goes. -/
def State.l1Use (s : State) (core line : Nat) : State :=
  s.modCore core fun c => { c with l1 := (line :: c.l1.filter (· != line)).take 1024 }

/-! ## The directory (R14) -/

/-- A directory entry: dies with copies in their L2, clusters with mapped-slate copies, and where a modified copy stands,
a die or a cluster. -/
structure DirEntry where
  (dies clusters : List Nat)
  owner : Option (Nat ⊕ Nat)
deriving DecidableEq, Repr

/-- Clusters whose cores hold a line in a mapped slate; `dirty` limits them to modified copies. -/
def State.mappedClusters (s : State) (line : Nat) (dirty : Bool) : List Nat :=
  (s.cores.filterMap fun (c, x) =>
    if x.descs.any (fun d => d.2.kind == .mapped &&
        d.2.secs.any fun y => y.2.present && y.2.line == line && (y.2.dirty || !dirty)) then some (clusterOfCore c)
    else none).eraseDups

/-- The copies in the L2s of other dies than the home's leave them: those that the home's entry tracks (R14, R15). -/
def State.dropTracked (s : State) (line : Nat) : State :=
  { s with l2 := s.l2.keep fun k (x : L2Line) => k % 2 ^ 48 != line || k / 2 ^ 48 == s.homeOf x.part (line * 128) / 2 }

/-- What the home keeps of a line: nothing where only its own die's L2 holds it. -/
def State.dirEntry (s : State) (p line : Nat) : Option DirEntry :=
  let home := s.homeOf p (line * 128) / 2
  let at2 (d : Nat) : Option L2Line := if d = home then none else s.l2.look (l2Key d line)
  let dies := (List.range 4).filter fun d => (at2 d).isSome
  let clusters := s.mappedClusters line false
  if dies.isEmpty && clusters.isEmpty then none
  else
    let dirtyDie := dies.find? fun d => match at2 d with | some x => x.dirty | none => false
    some ⟨dies, clusters, match dirtyDie with
      | some d => some (.inl d)
      | none => (s.mappedClusters line true).head?.map .inr⟩

end Sys2Proof.Machine
end

