-- ==== Sys2Proof/Machine/Slate.lean ====
section
/-! DEFINITION. Slates: descriptors, sectors, expiry, physical leaves and eviction (R106–R119). -/

namespace Sys2Proof.Machine

/-! ## Sectors and descriptors -/

def Desc.sec (d : Desc) (i : Nat) : Sector := Tbl.get d.dflt d.secs i
def Desc.setSec (d : Desc) (i : Nat) (x : Sector) : Desc := { d with secs := Tbl.put d.dflt d.secs i x }
/-- Apply a change to every sector. -/
def Desc.mapSecs (d : Desc) (f : Sector → Sector) : Desc :=
  let x := f d.dflt
  { d with dflt := x, secs := (d.secs.map fun (k, v) => (k, f v)).filter fun p => decide (p.2 ≠ x) }
def Desc.anySec (d : Desc) (p : Sector → Bool) : Bool :=
  d.secs.any (fun x => p x.2) || (decide (d.secs.length < d.leaves * 16) && p d.dflt)

/-- A fresh good sector (R108). -/
def Sector.fresh (stamp : Nat) : Sector := ⟨stamp, .good, false, false, false, 0⟩
/-- Age of a sector at an RCLK value (R111). -/
def Sector.age (x : Sector) (t : Nat) : Nat := (t + 2 ^ 32 - x.stamp) % 2 ^ 32
/-- Renewal: a LOST or POISONED sector is left unchanged (R111). -/
def Sector.renew (x : Sector) (t : Nat) : Sector := if x.st = .good then { x with stamp := t } else x

/-- A leaf with a LOST sector is expired (R112). -/
def Desc.leafLost (d : Desc) (leaf : Nat) : Bool := (List.range 16).any fun k => (d.sec (leaf * 16 + k)).st = .lost
def Desc.leafDirty (d : Desc) (leaf : Nat) : Bool := (List.range 16).any fun k => (d.sec (leaf * 16 + k)).dirty

/-- Live crib sources that name a slate, over the slate's core and its pair partner (R107, R125). -/
def State.pins (s : State) (core id : Nat) : Nat :=
  let count (c : Nat) (flag : Bool) : Nat :=
    ((s.coreAt c).cribs.vals.map fun x => (x.srcs.filter fun q => q.1 == id && q.2 == flag).length).sum
  count core false + count (partnerOf core) true

def State.desc? (s : State) (core id : Nat) : Option Desc := (s.coreAt core).descs.look id
def State.setDesc (s : State) (core id : Nat) (d : Desc) : State :=
  s.modCore core fun c => { c with descs := c.descs.ins id d }
def State.modDesc (s : State) (core id : Nat) (f : Desc → Desc) : State :=
  s.modCore core fun c => { c with descs := c.descs.upd id f }
def State.crib? (s : State) (core id : Nat) : Option Crib := (s.coreAt core).cribs.look id
def State.modCrib (s : State) (core id : Nat) (f : Crib → Crib) : State :=
  s.modCore core fun c => { c with cribs := c.cribs.upd id f }

def State.teamSaved (s : State) (t : Nat) : Bool := match s.teams.look t with | some x => x.pre == .saved | none => false

/-- The slate that holds a leaf of a team's space on a core (R106), closed ones included. -/
def State.anySlate (s : State) (core team leaf : Nat) : Option (Nat × Desc) :=
  (s.coreAt core).descs.find? fun p => p.2.team == team && decide (p.2.base ≤ leaf) && decide (leaf < p.2.base + p.2.leaves)

/-- The slate that an access resolves to: no access resolves to a closed one (R346). -/
def State.findSlate (s : State) (core team leaf : Nat) : Option (Nat × Desc) :=
  match s.anySlate core team leaf with
  | some x => if x.2.closed then none else some x
  | none => none

/-- Resolve a slate address for a team from a core (R106); none is SLATE_RANGE. -/
def State.resolve (s : State) (core team : Nat) (a n : Nat) : Option SlAddr :=
  let pair := match s.teams.look team with | some t => t.pair | none => false
  if bits a 24 8 != 0 || bitB a 22 then none
  else if bitB a 23 && !pair then none
  else
    let c := if bitB a 23 then partnerOf core else core
    match s.findSlate c team (bits a 11 11) with
    | none => none
    | some (id, d) =>
      let ofs := a % 2 ^ 22 - d.base * 2048
      if ofs + n ≤ d.leaves * 2048 then some ⟨c, id, ofs⟩ else none

/-- TINFO of STALE_READ, PIN_VIOLATION and a poisoned sector (R112). -/
def slateInfo (own : Nat) (x : SlAddr) : Word :=
  BitVec.ofNat 64 (x.id + x.ofs / 2048 * 256 + (if x.core = own then 0 else 2 ^ 23))
def pinInfo (own : Nat) (x : SlAddr) : Word := BitVec.ofNat 64 (x.id + (if x.core = own then 0 else 2 ^ 23))

/-! ## Physical leaves (R109, R115) -/

def State.leavesUsed (s : State) (core : Nat) : Nat := ((s.coreAt core).descs.vals.map fun d => d.leafs.length).sum
/-- Free leaves outside the replay reserve. -/
def State.leavesFree (s : State) (core : Nat) : Nat := 2016 - s.leavesUsed core

/-- Write back a dirty sector: the bytes stand in memory already, and poison goes to the home line (R113, R118). -/
def State.writeBack (s : State) (core id i : Nat) : State :=
  match s.desc? core id with
  | none => s
  | some d =>
    let x := d.sec i
    if x.present && x.dirty then
      let s := if x.st = .poisoned then { s with mem := s.mem.setPoison x.line } else s
      s.setDesc core id (d.setSec i { x with dirty := false })
    else s

/-- Drop a sector of a mapped slate. -/
def State.dropSec (s : State) (core id i : Nat) : State :=
  s.modDesc core id fun d => d.setSec i (Sector.fresh 0)

/-- Write back and drop a leaf of a mapped slate. -/
def State.dropMappedLeaf (s : State) (core id leaf : Nat) : State :=
  let s := (List.range 16).foldl (fun t k => (t.writeBack core id (leaf * 16 + k)).dropSec core id (leaf * 16 + k)) s
  s.modDesc core id fun d => { d with leafs := d.leafs.del leaf }

/-- Drop a derived slate whole: DROPPED is set and its leaves are freed (R115, R127). A LIVE crib becomes DROPPED. -/
def State.dropSlate (s : State) (core id : Nat) : State :=
  match s.desc? core id with
  | none => s
  | some d =>
    let s := s.setDesc core id { d with dropped := true, leafs := [], bytes := [], holds := [] }
    match d.crib with
    | none => s
    | some c => s.modCrib core c fun x => if x.st = .live then { x with st := .dropped } else x

/-- Slate addresses that an engine request reads: the slate side of a copy out of a slate, or the index slate of a gather
that has not started (R154). -/
def CmdRec.reads (r : CmdRec) : List Nat :=
  let f := (r.shape.getD 0x3D 0).toNat
  if r.gather then (if r.sel = 0 && r.next = 0 then [bits r.index.toNat 0 32] else [])
  else if f % 4 = 2 || (f % 4 = 0 && bitB f 2) then [r.slate.toNat % 2 ^ 32] else []

/-- Slate addresses that an engine request names. -/
def CmdRec.names (r : CmdRec) : List Nat :=
  r.slate.toNat % 2 ^ 32 :: (if r.gather && r.sel = 0 then [bits r.index.toNat 0 32] else [])

/-- Whether an unfinished engine request of a resident group names a slate among some of its addresses. -/
def State.engUses (s : State) (addrs : CmdRec → List Nat) (core id : Nat) : Bool :=
  s.groups.any fun g => g.eng.recs.vals.any fun r => (r.st == 1 || r.st == 2) && (addrs r).any fun a =>
    let c := if bitB a 23 then partnerOf g.key.core else g.key.core
    c == core && (match s.anySlate c g.team (bits a 11 11) with | some x => x.1 == id | none => false)

/-- Whether a parked control thread of a group waits for a cause that satisfies a test. -/
def Group.waitsFor (g : Group) (p : Cause → Bool) : Bool :=
  let parked (a : Arm) : Bool := match a.park with | some x => x.causes.any p | none => false
  parked g.a0 || parked g.a1 || parked g.mon.arm

/-- Whether a fill of some sector of a mapped leaf is in flight: its leaf is FILLING (R119). -/
def State.filling (s : State) (core id leaf : Nat) : Bool :=
  s.groups.any fun g => g.waitsFor fun c => match c with | .sector k d i => k == core && d == id && i / 16 == leaf | _ => false

/-! ### Save areas (R116, R204) -/

/-- Scratch slates of a team, by core and descriptor. -/
def State.teamScratch (s : State) (team : Nat) : List (Nat × Nat × Desc) :=
  s.cores.flatMap fun (c, x) => x.descs.filterMap fun (id, d) =>
    if d.team = team && d.kind = .scratch then some (c, id, d) else none

/-- LEAVES of a kernel header. -/
def leavesOf (khdr : Word) : Nat := bits khdr.toNat 8 16

/-- Address of the `k`-th 2 KiB block of a team's save area: the blocks of its LEAVES, which follow its descriptor areas,
then those that SLALLOC took beside. -/
def Team.saveBlock (t : Team) (k : Nat) : Nat :=
  if k < leavesOf t.khdr then t.descAt + 16384 * (if t.pair then 2 else 1) + 2048 * k
  else go (k - leavesOf t.khdr) t.extra
where
  go (k : Nat) : List (Nat × Nat) → Nat
    | [] => 0
    | (a, n) :: rest => if k < n then a + 2048 * k else go (k - n) rest

/-- Which block of its team's save area a scratch leaf has: its place among the team's scratch leaves. -/
def State.saveIndex (s : State) (team core id leaf : Nat) : Nat :=
  ((s.teamScratch team).takeWhile fun x => !(x.1 == core && x.2.1 == id)).foldl (fun n x => n + x.2.2.leaves) leaf

/-- Candidates for eviction in the order of R115: class, then order of touch; `keep` excludes descriptors. -/
def State.evictees (s : State) (core : Nat) (keep : List Nat) : List (Nat × Nat × Option Nat) :=
  let one (id : Nat) (d : Desc) : List (Nat × Nat × Option Nat) :=
    if keep.contains id then [] else
    match d.kind with
    | .derived =>
      if d.crib.isSome && !d.dropped && !d.leafs.isEmpty && d.holds.isEmpty && !s.engUses CmdRec.reads core id then
        let last := d.leafs.vals.foldl max 0
        [((if d.warm then 1 else 0) * 2 ^ 64 + last, id, none)]
      else []
    | .mapped => (d.leafs.filter fun x => !s.filling core id x.1).map fun (l, t) =>
        ((if d.leafDirty l then 3 else 2) * 2 ^ 64 + t, id, some l)
    | .scratch => if s.teamSaved d.team then d.leafs.map fun (l, t) => (4 * 2 ^ 64 + t, id, some l) else []
  (s.coreAt core).descs.flatMap fun (id, d) => one id d

/-- Note a touch of a leaf. -/
def State.touchLeaf (s : State) (core id leaf : Nat) : State :=
  let s := s.modDesc core id fun d => { d with leafs := d.leafs.upd leaf fun _ => s.cnt.touch }
  { s with cnt := { s.cnt with touch := s.cnt.touch + 1 } }

/-! ## Expiry (R112) -/

/-- Whether expiry is suspended for a slate: pinned, held by a chain, or its team saved (R114, R116, R134). -/
def State.expiryOff (s : State) (core id : Nat) (d : Desc) : Bool :=
  s.teamSaved d.team || (d.kind == .scratch && decide (0 < s.pins core id)) || !d.holds.isEmpty

/-- A BARW that waits on an object in a sector which is no longer GOOD has failed, whatever is written there later (R121). -/
def State.breakBars (s : State) (core id : Nat) : State :=
  match s.desc? core id with
  | none => s
  | some d => s.mapGroups fun g => g.mapArms fun a => match a.barw with
    | some b => if b.core = core ∧ b.desc = id ∧ b.broke = none ∧ (d.sec b.sector).st ≠ .good then
        { a with barw := some { b with broke := some (d.sec b.sector).st } }
      else a
    | none => a

/-- GOOD sectors of age L or more become LOST; a derived slate with one is dropped whole. -/
def State.expireSlate (s : State) (core id : Nat) : State :=
  match s.desc? core id with
  | none => s
  | some d =>
    if d.kind = .mapped || d.dropped || s.expiryOff core id d then s
    else
      let t := s.rclk core
      let old (x : Sector) : Bool := x.st == .good && decide (d.life ≤ x.age t)
      if !d.anySec old then s
      else if d.kind = .derived then s.dropSlate core id
      else (s.setDesc core id (d.mapSecs fun x => if old x then { x with st := .lost } else x)).breakBars core id

/-- Renew every GOOD sector (R114: the last pin released, or the team resumed). -/
def State.renewSlate (s : State) (core id : Nat) : State :=
  s.modDesc core id fun d => d.mapSecs (·.renew (s.rclk core))

/-- EXPIRY of R107: the earliest RCLK value at which a leaf expires. DESIGN CHOICE (log 87), unsafe: of a DROPPED derived
slate, and of a scratch slate without a GOOD sector, the rule gives no value, and it reads 0. -/
def Desc.expiry (d : Desc) (t : Nat) : Nat :=
  if d.kind = .mapped || d.dropped then 0 else
  let ages := (d.secs.vals ++ (if d.secs.length < d.leaves * 16 then [d.dflt] else [])).filterMap fun x =>
    if x.st = .good then some (x.age t) else none
  match ages with
  | [] => 0
  | a :: l => (t + d.life + 2 ^ 32 - l.foldl max a) % 2 ^ 32

/-! ## Reading and writing bytes -/

/-- Bytes of a slate: its own for scratch and derived, the aliased memory for mapped. -/
def State.slByte (s : State) (core id ofs : Nat) : Byte :=
  match s.desc? core id with
  | none => 0
  | some d => if d.kind = .mapped then s.mem.byte ((d.sec (ofs / 128)).line * 128 + ofs % 128) else Tbl.get 0 d.bytes ofs

def State.slBytes (s : State) (core id ofs n : Nat) : List Byte := (List.range n).map fun k => s.slByte core id (ofs + k)
def State.slNum (s : State) (core id ofs n : Nat) : Nat := ofBytes (s.slBytes core id ofs n)

/-- Sector numbers that byte offsets touch, without repeats. -/
def sectorsOf (l : List Nat) : List Nat := l.foldl (fun t o => insNat t (o / 128)) []

/-- Whether a list of offsets covers a sector whole. -/
def coversSec (l : List Nat) (i : Nat) : Bool := (List.range 128).all fun k => l.contains (i * 128 + k)

/-- Sectors that one instruction has written in full, lane by lane, are renewed (R111). -/
def State.renewFull (s : State) (core id : Nat) (ofs : List Nat) : State :=
  let t := s.rclk core
  s.modDesc core id fun d => (sectorsOf ofs).foldl (fun d i =>
    if coversSec ofs i then d.setSec i { d.sec i with stamp := t, st := .good } else d) d

/-- The home recalls the dirty sectors of a line for another agent's read: they are written back (R113). -/
def State.recall (s : State) (line : Nat) : State :=
  s.cores.foldl (fun t (c, x) => x.descs.foldl (fun t (id, d) =>
    if d.kind = .mapped then
      d.secs.foldl (fun t (i, y) => if y.present && y.dirty && y.line == line then t.writeBack c id i else t) t
    else t) t) s

/-! ## What a lane reads -/

def State.readAt (s : State) (p : Place) (n : Nat) : Nat :=
  match p with
  | .mem pa _ _ => s.mem.num pa n
  | .slate x => s.slNum x.core x.id x.ofs n

/-- Register writes of a loaded value: one register, or a pair. -/
def wbLane (r : VReg) (i n x : Nat) (signed : Bool) : List WriteBack :=
  if n = 8 then [.v r.val i (BitVec.ofNat 32 x), .v (r.val + 1) i (BitVec.ofNat 32 (x / 2 ^ 32))]
  else [.v r.val i (if signed then BitVec.ofInt 32 (signedOf (8 * n) x) else BitVec.ofNat 32 x)]

/-- The register writes of a lane that has read a value. -/
def LaneRead.wb (y : LaneRead) (x : Nat) : List WriteBack := wbLane y.dst y.lane y.bytes x y.signed

end Sys2Proof.Machine
end

