-- ==== Sys2Proof/Machine/Cribs.lean ====
section
/-! DEFINITION. Cribs: states, staleness, chains, holds and aborts (R122–R139), and the writes to memory that they
watch (R128), with the reservations and mapped sectors a write takes away (R14, R113, R175). -/

namespace Sys2Proof.Machine

/-! ## Groups leaving a core -/

/-- Take a group out of the slots, with its waiting ring requests and its engine requests. -/
def State.unlist (s : State) (k : GKey) : State :=
  { s with
    grp := if s.grp.live && decide (s.grp.key = k) then Group.idle else s.grp
    others := s.others.filter fun g => !decide (g.key = k)
    waits := s.waits.filter fun w => !decide (w.key = k)
    engines := s.engines.map fun (n, e) => (n, { e with
      queue := e.queue.filter fun q => !decide (q.1 = k), cur := e.cur.filter fun q => !decide (q.1 = k) }) }

/-! ## Holds (R134) -/

/-- Whether a hold keeps a slate as a chain's LIVE source only: its slate belongs to no member of the chain. -/
def State.sourceHold (s : State) (core id : Nat) : Hold → Bool
  | .toucher _ _ => false
  | .chain n => !s.cores.any fun (_, x) => match x.chains.look n with
    | none => false
    | some ch => ch.all.any fun (c, i, _) => c == core && (match s.crib? c i with | some y => y.slate == id | none => false)

/-- Take a hold away. A slate whose hold as a member of a chain or for a toucher is over is stamped afresh, also while
other chains go on holding it as a source; a source left without a hold is tested for expiry. -/
def State.unhold (s : State) (core id : Nat) (h : Hold) (stamp : Bool) : State :=
  match s.desc? core id with
  | none => s
  | some d =>
    if !d.holds.contains h then s
    else
      let d := { d with holds := d.holds.filter (· != h) }
      let s' := s.setDesc core id d
      if stamp then
        if d.holds.all (s.sourceHold core id) then s'.modDesc core id fun d => d.mapSecs fun x => { x with stamp := s.rclk core }
        else s'
      else if d.holds.isEmpty then s'.expireSlate core id
      else s'

/-- The replayed access of a toucher is over: its holds end. -/
def State.unholdToucher (s : State) (k : GKey) (w : Who) : State :=
  s.cores.foldl (fun t (c, x) => x.descs.foldl (fun t (id, _) => t.unhold c id (.toucher k w) true) t) s

/-- A group is no longer resident: its waiting ring requests, its engine requests and its holds as a toucher go with it
(R54, R134, R240). -/
def State.removeGroup (s : State) (k : GKey) : State :=
  (((s.unlist k).unholdToucher k .arm0).unholdToucher k .arm1).unholdToucher k .mon

/-! ## Waiting touchers -/

def Cause.isCrib (c : Cause) (core id : Nat) : Bool :=
  match c with
  | .crib a b => a == core && b == id
  | _ => false

def Arm.waitsOn (a : Arm) (core id : Nat) : Bool :=
  match a.park with | some p => p.causes.any (·.isCrib core id) | none => false

/-- A crib is LIVE again: arms stop waiting on it. -/
def Arm.unparkCrib (a : Arm) (core id : Nat) : Arm :=
  { a with park := a.park.map fun p => { p with causes := p.causes.filter fun c => !c.isCrib core id } }

/-- A replay ended otherwise: the toucher issues again at once, with the outcome (R136). -/
def Arm.failCrib (a : Arm) (core id : Nat) (f : Option ReplayFail) : Arm :=
  if a.waitsOn core id then
    { a with park := a.park.map fun p => { p with causes := [], fail := if f.isSome then f else p.fail } }
  else a

/-! ## Chains -/

/-- Accumulators held on a core: 8 in all (R11), less those copied out for replays (R132). -/
def State.accUsed (s : State) (core : Nat) : Nat :=
  ((s.groups.filter fun g => g.key.core == core).map fun g => g.shape.nacc - g.zout.length).sum

/-- Age of a group: older teams first, then the lower index. -/
def Group.ageKey (g : Group) : Nat := g.team * 32 + g.gid

/-- Restore copied-out accumulators of a core while some are free, oldest group first (R132). -/
def State.restoreAcc (s : State) (core : Nat) : Nat → State
  | 0 => s
  | fuel + 1 =>
    if 8 ≤ s.accUsed core then s
    else match minBy Group.ageKey (s.groups.filter fun g => g.key.core == core && !g.zout.isEmpty) with
      | none => s
      | some g => (s.modKey g.key fun h => { h with zout := h.zout.drop 1 }).restoreAcc core fuel

/-- The chain that holds a crib as a member not yet LIVE. -/
def State.chainOf (s : State) (core id : Nat) : Option (Nat × Nat × Chain) :=
  s.cores.findSome? fun (c, x) =>
    (x.chains.find? fun p => p.2.all.any fun m => m.1 == core && m.2.1 == id).map fun p => (c, p.1, p.2)

/-- End a chain: its holds go, and it is listed no more. -/
def State.endChain (s : State) (core cid : Nat) : State :=
  match (s.coreAt core).chains.look cid with
  | none => s
  | some ch =>
    let s := s.modCore core fun c => { c with chains := c.chains.del cid }
    let s := ch.all.foldl (fun t (c, i, _) => match t.crib? c i with
      | some x => t.unhold c x.slate (.chain cid) true
      | none => t) s
    let s := ch.sources.foldl (fun t (c, d) => t.unhold c d (.chain cid) false) s
    s.restoreAcc core 8

/-- A member that is not LIVE returns to DROPPED and its slate's leaves are freed (R127, R136). -/
def State.dropMember (s : State) (core id : Nat) : State :=
  match s.crib? core id with
  | none => s
  | some x =>
    if x.st = .replaying then
      (s.dropSlate core x.slate).modCrib core id fun y => { y with st := .dropped }
    else s

/-- Abort a chain (R136): the running replay group is killed without a trap, members not LIVE return to DROPPED, and
waiting touchers resume with the outcome. DESIGN CHOICE (log 89), unsafe: `the aborted crib` that TINFO[55:48] names is
the crib the toucher waits on, also where another member's replay trapped. -/
def State.abortChain (s : State) (core cid : Nat) (f : Nat → Option ReplayFail) : State :=
  match (s.coreAt core).chains.look cid with
  | none => s
  | some ch =>
    let s := match ch.running with | some k => s.removeGroup k | none => s
    let s := ch.all.foldl (fun t (c, i, _) => t.dropMember c i) s
    let s := ch.all.foldl (fun t (c, i, _) => t.mapGroups fun g => g.mapArms fun a => a.failCrib c i (f i)) s
    s.endChain core cid

/-! ## Staleness (R127, R128) -/

/-- Cribs of a core and its partner that name a slate as a source. -/
def State.dependents (s : State) (core desc : Nat) : List (Nat × Nat) :=
  let at1 (c : Nat) (flag : Bool) : List (Nat × Nat) :=
    (s.coreAt c).cribs.filterMap fun (i, x) =>
      if x.srcs.any (fun q => q.1 == desc && q.2 == flag) then some (c, i) else none
  at1 core false ++ at1 (partnerOf core) true

/-- A crib becomes STALE, and with it every crib that depends on its slate. DESIGN CHOICE (log 108), unsafe: where it is
replaying, the whole chain of its replay ends. -/
def State.makeStale (s : State) (core id : Nat) : Nat → State
  | 0 => s
  | fuel + 1 =>
    match s.crib? core id with
    | none => s
    | some x =>
      if x.st = .stale then s
      else
        let s := match (if x.st = .replaying then s.chainOf core id else none) with
          | some (c, cid, _) => s.abortChain c cid fun _ => none
          | none => s
        let s := s.dropSlate core x.slate
        let s := s.modCrib core id fun y => { y with st := .stale }
        (s.dependents core x.slate).foldl (fun t p => t.makeStale p.1 p.2 fuel) s

def State.staleAll (s : State) (l : List (Nat × Nat)) : State := l.foldl (fun t p => t.makeStale p.1 p.2 600) s

/-- The slate that is a source of a crib. -/
def cribSource (core : Nat) (src : Nat × Bool) : Nat × Nat := (if src.2 then partnerOf core else core, src.1)

/-- Cribs that watch a line, but for the watches of the slate `own`. -/
def State.watchers (s : State) (line : Nat) (own : Option (Nat × Nat) := none) : List (Nat × Nat) :=
  s.cores.flatMap fun (c, x) => x.cribs.filterMap fun (i, y) =>
    if y.watch.any (fun w => w.1 == line && (own.isNone || (y.srcs[w.2]?).map (cribSource c) != own)) then some (c, i) else none

/-- A write reaches the home of a line: cribs that watch it become STALE, but where the write came through the watched
slate itself, `own` (R128). -/
def State.watchHit (s : State) (line : Nat) (own : Option (Nat × Nat) := none) : State := s.staleAll (s.watchers line own)

/-- An invalidation from the home drops the line's sectors of every mapped slate but the writer's own (R113). -/
def State.invalidate (s : State) (line : Nat) (own : Option (Nat × Nat)) : State :=
  s.cores.foldl (fun t (c, x) => x.descs.foldl (fun t (id, d) =>
    if d.kind = .mapped && own != some (c, id) then
      d.secs.foldl (fun t (i, y) => if y.present && y.line == line then t.dropSec c id i else t) t
    else t) t) s

/-! ## Retirement of cribs and slates -/

/-- Retire a crib: its pins and watches go, CRIBV is cleared, and a scratch source whose last pin this was is renewed
(R114, R127). -/
def State.retireCrib (s : State) (core id : Nat) : State :=
  match s.crib? core id with
  | none => s
  | some x =>
    let s := s.modDesc core x.slate fun d => { d with crib := none, dropped := d.dropped || x.st != .live }
    let s := s.modCore core fun c => { c with cribs := c.cribs.del id }
    x.srcs.foldl (fun t (d, far) =>
      let c := if far then partnerOf core else core
      if t.pins c d = 0 && (match t.desc? c d with | some y => y.kind == .scratch | none => false) then t.renewSlate c d
      else t) s

/-- The first save areas that hold a number of leaves. -/
def keepLeaves : Nat → List (Nat × Nat) → List (Nat × Nat)
  | _, [] => []
  | n, (a, k) :: rest => if n = 0 then [] else (a, min n k) :: keepLeaves (n - k) rest

/-- Free a slate: its dirty sectors are written back, its crib retired, barrier objects in it stop being live, its
descriptor is freed, and save areas beyond LEAVES that its team no longer needs return to the pool (R110, R204, R285). -/
def State.freeSlate (s : State) (core id : Nat) : State :=
  match s.desc? core id with
  | none => s
  | some d =>
    let s := if d.kind = .mapped then d.secs.foldl (fun t (i, _) => t.writeBack core id i) s else s
    let s := match d.crib with | some c => s.retireCrib core c | none => s
    let inside (b : BarObj) : Bool := b.core == core && decide (d.base ≤ b.addr / 2048 % 2048) &&
      decide (b.addr / 2048 % 2048 < d.base + d.leaves)
    let s := s.modTeam d.team fun t => { t with bars := t.bars.filter fun b => !inside b }
    let s := s.modCore core fun c => { c with descs := c.descs.del id }
    let more (t : Team) : Nat := ((s.teamScratch d.team).map fun x => x.2.2.leaves).sum - leavesOf t.khdr
    s.modTeam d.team fun t => { t with extra := keepLeaves (more t) t.extra }

/-! ## Writes to memory -/

/-- Lines that cells lie in, without repeats. -/
def linesOf (l : List (Nat × Byte)) : List Nat := l.foldl (fun t c => insNat t (c.1 / 128)) []

/-- A write takes its 64-byte granules out of every reservation set (R175). -/
def State.clearGranules (s : State) (grs : List Nat) : State :=
  s.mapGroups fun g => g.mapArms fun a => { a with resv := a.resv.filter fun x => !grs.contains x }

def granulesOf (l : List (Nat × Byte)) : List Nat := l.foldl (fun t c => insNat t (c.1 / 64)) []

/-- Everything a write to memory does beside storing its bytes. -/
def State.afterWrite (s : State) (l : List (Nat × Byte)) (own : Option (Nat × Nat)) : State :=
  let s := s.clearGranules (granulesOf l)
  (linesOf l).foldl (fun t ln => ((t.dropCopies ln).invalidate ln own).watchHit ln own) s

/-- Write bytes at physical addresses, as one instruction, chunk or outside access. -/
def State.writeMem (s : State) (l : List (Nat × Byte)) : State :=
  ({ s with mem := s.mem.store l }).afterWrite l none

/-- The cells of memory that bytes of a mapped slate alias (R113); none for another slate. -/
def State.homeCells (s : State) (core id : Nat) (l : List (Nat × Byte)) : List (Nat × Byte) :=
  match s.desc? core id with
  | some d => if d.kind = .mapped then l.map fun (o, b) => ((d.sec (o / 128)).line * 128 + o % 128, b) else []
  | none => []

/-! ## Physical leaves under pressure (R108, R115) -/

/-- A write of the command front end or of a core to the partition's own areas, under the partition's key; a frame that belongs
to another key is not written (R236; log 38). -/
def State.writeArea (s : State) (p pa : Nat) (bs : List Byte) : State :=
  let key := (s.par p).hdmKey
  let ours (a : Nat) : Bool := s.mem.frameOk a key
  let mem := ((framesOf pa bs.length).filter fun k => ours (k * 8192)).foldl (fun m k => m.claim (k * 8192) key) s.mem
  ({ s with mem := mem } : State).writeMem ((cellsAt pa bs).filter fun c => ours c.1)

/-- A scratch leaf of a saved team is written to the save area (R115 step 4). -/
def State.leafOut (s : State) (core id leaf : Nat) : State :=
  match s.desc? core id with
  | none => s
  | some d => match s.teams.look d.team with
    | none => s
    | some t =>
      (s.writeArea t.part (t.saveBlock (s.saveIndex d.team core id leaf))
        ((List.range 2048).map fun o => Tbl.get 0 d.bytes (leaf * 2048 + o))).modDesc core id fun d => { d with leafs := d.leafs.del leaf }

/-- Evict one candidate, or nothing. -/
def State.evictOne (s : State) (core : Nat) (keep : List Nat) : Option State :=
  match minBy (·.1) (s.evictees core keep) with
  | none => none
  | some (_, id, l) =>
    let s := s.modCore core fun c => { c with evictTick := some (s.rclk core) }
    let mapped : Bool := match s.desc? core id with | some d => d.kind == .mapped | none => false
    match l with
    | none => some (s.dropSlate core id)
    | some l =>
      if mapped then some (s.dropMappedLeaf core id l)
      else some (s.leafOut core id l)

/-- Make `n` leaves free on a core, evicting as R115 orders; where no candidate remains, `extra` counts leaves of the replay
reserve that the taker may use (R130). -/
def State.makeRoom (s : State) (core n extra : Nat) (keep : List Nat) : Nat → Option State
  | 0 => none
  | fuel + 1 =>
    if s.leavesUsed core + n ≤ 2016 then some s
    else match s.evictOne core keep with
      | none => if s.leavesUsed core + n ≤ 2016 + extra then some s else none
      | some s' => s'.makeRoom core n extra keep fuel

def State.room (s : State) (core n extra : Nat) (keep : List Nat) : Option State := s.makeRoom core n extra keep 2100

/-- Give a leaf of a slate its physical leaf, if it has none. A leaf of the reserve goes to a derived slate only (R109). -/
def State.takeLeaf (s : State) (core id leaf extra : Nat) (keep : List Nat := []) : Option State :=
  match s.desc? core id with
  | none => none
  | some d =>
    if (d.leafs.look leaf).isSome then some s
    else match s.room core 1 (if d.kind = .derived then extra else 0) (if d.kind = .mapped then keep else id :: keep) with
      | none => none
      | some s => some (s.modDesc core id fun d => { d with leafs := d.leafs.ins leaf s.cnt.touch })

/-! ## Writes to a slate -/

/-- Write bytes of one slate by one instruction, chunk or MSTZ (R111, R112, R118); of the bytes at the offsets `part` some
bits are not written. Leaves are taken as they are first written. A derived slate that was dropped without a crib
starts afresh (R126). -/
def State.slWritePart (s : State) (core id extra : Nat) (part : List Nat) (l : List (Nat × Byte)) : State :=
  match s.desc? core id with
  | none => s
  | some d =>
    let t := s.rclk core
    let s := if d.kind = .derived && d.dropped && d.crib.isNone then
        s.setDesc core id { d with dropped := false, dflt := Sector.fresh t, secs := [], bytes := [], leafs := [] }
      else s
    let ofs := l.map (·.1)
    let secs := sectorsOf ofs
    let s := if d.kind = .derived then secs.foldl (fun u i => (u.takeLeaf core id (i / 16) extra).getD u) s else s
    let s := secs.foldl (fun u i => u.touchLeaf core id (i / 16)) s
    match s.desc? core id with
    | none => s
    | some d =>
      let d := secs.foldl (fun d i =>
        let x := d.sec i
        let x := if coversSec (ofs.filter fun o => !part.contains o) i then { x with stamp := t, st := .good } else x
        d.setSec i { x with dirty := x.dirty || d.kind == .mapped, touched := true }) d
      if d.kind = .mapped then
        let cells := l.map fun (o, b) => ((d.sec (o / 128)).line * 128 + o % 128, b)
        { (s.setDesc core id d) with mem := s.mem.store cells }
      else s.setDesc core id { d with bytes := l.foldl (fun u c => Tbl.put 0 u c.1 c.2) d.bytes }

def State.slWrite (s : State) (core id extra : Nat) (l : List (Nat × Byte)) : State := s.slWritePart core id extra [] l

/-- Write bytes of a slate, with the effects of a write to memory where the slate is mapped; of the bytes at the offsets
`part` some bits are not written. -/
def State.slPut (s : State) (core id extra : Nat) (l : List (Nat × Byte)) (part : List Nat := []) : State :=
  (s.slWritePart core id extra part l).afterWrite (s.homeCells core id l) (some (core, id))

/-! ## Misses (R129, R130) -/

/-- Depth-first walk of a chain: members as core, crib, depth, sources before dependents; or the trap and the crib. -/
def State.walkChain (s : State) : Nat → Nat → Nat → Nat → List (Nat × Nat × Nat) →
    Except (TrapKind × Nat) (List (Nat × Nat × Nat))
  | 0, _, id, _, _ => .error (.cribDepth, id)
  | fuel + 1, core, id, d, out =>
    match s.crib? core id with
    | none => .ok out
    | some x =>
      if x.st = .stale then .error (.cribStale, id)
      else if d > 8 then .error (.cribDepth, id)
      else
        let r : Except (TrapKind × Nat) (List (Nat × Nat × Nat)) := x.srcs.foldl (fun acc (sd, far) =>
          match acc with
          | .error e => .error e
          | .ok o =>
            let c := if far then partnerOf core else core
            match (s.desc? c sd).bind (·.crib) with
            | none => .ok o
            | some i =>
              match s.crib? c i with
              | some y =>
                if (y.st = .dropped || y.st = .stale) && !o.any (fun m => m.1 == c && m.2.1 == i) then
                  s.walkChain fuel c i (d + 1) o
                else .ok o
              | none => .ok o) (.ok out)
        match r with
        | .error e => .error e
        | .ok o => .ok (o ++ [(core, id, d)])

/-- LIVE derived sources of a chain's members: core and descriptor. -/
def State.liveSources (s : State) (all : List (Nat × Nat × Nat)) : List (Nat × Nat) :=
  all.flatMap fun (core, id, _) =>
    match s.crib? core id with
    | none => []
    | some x => x.srcs.filterMap fun (sd, far) =>
      let c := if far then partnerOf core else core
      match s.desc? c sd with
      | some d => if d.kind = .derived && !d.dropped then some (c, sd) else none
      | none => none

def State.memberSlate (s : State) (m : Nat × Nat × Nat) : Nat := match s.crib? m.1 m.2.1 with | some x => x.slate | none => 0
def State.memberLeaves (s : State) (m : Nat × Nat × Nat) : Nat :=
  match s.desc? m.1 (s.memberSlate m) with | some d => d.leaves | none => 0

/-- Leaves obtainable on a core by eviction, passing over some descriptors (R130). -/
def State.obtainable (s : State) (core : Nat) (keep : List Nat) : Nat :=
  ((s.evictees core keep).map fun (_, id, l) => match l with
    | some _ => 1
    | none => match s.desc? core id with | some d => d.leafs.length | none => 0).sum

/-- Slates an eviction for a chain passes over on a core: its own, its LIVE derived sources, and every REPLAYING crib's. -/
def State.chainKeep (s : State) (core : Nat) (all : List (Nat × Nat × Nat)) : List Nat :=
  (all.filterMap fun m => if m.1 = core then some (s.memberSlate m) else none) ++
  ((s.liveSources all).filterMap fun p => if p.1 = core then some p.2 else none) ++
  ((s.coreAt core).cribs.vals.filterMap fun x => if x.st = .replaying then some x.slate else none)

/-- Leaves of the reserve a chain may still take on a core, and whether another chain holds it (R109, R130). -/
def State.reserveHeld (s : State) (core : Nat) : Bool := (s.coreAt core).chains.vals.any (·.reserve)

/-- The space check of R130 for a chain on one core: the need, where it cannot be met. -/
def State.chainShort (s : State) (core : Nat) (all : List (Nat × Nat × Nat)) : Option Nat :=
  let need := ((all.filter fun m => m.1 == core).map s.memberLeaves).sum
  let have1 := s.leavesFree core + s.obtainable core (s.chainKeep core all)
  let reserve := if s.reserveHeld core then 0 else 2048 - max 2016 (s.leavesUsed core)
  if need ≤ have1 + reserve then none else some need

/-- The chains of the misses of one instruction: derived slates touched, in operand order, from a depth. The errors name
the touched slate. -/
def State.missWalk (s : State) (touched : List (Nat × Nat)) (depth : Nat) :
    List ((Nat × Nat) × TrapKind × Word) × List (Nat × Nat × Nat) :=
  let (errs, out) := touched.foldl (fun (acc : List ((Nat × Nat) × TrapKind × Word) × List (Nat × Nat × Nat)) t =>
    let (c, d) := t
    let (errs, out) := acc
    match (s.desc? c d).bind (·.crib) with
    | none => (errs ++ [(t, TrapKind.cribStale, BitVec.ofNat 64 (d + 0xFF * 256))], out)
    | some i =>
      match s.crib? c i with
      | none => (errs, out)
      | some y =>
        if y.st = .replaying || out.any (fun m => m.1 == c && m.2.1 == i) then (errs, out)
        else match s.walkChain 300 c i depth out with
          | .ok o => (errs, o)
          | .error (k, w) => (errs ++ [(t, k, BitVec.ofNat 64 (if k = .cribStale then d + w * 256 else d))], out)) ([], [])
  if !errs.isEmpty then (errs, [])
  else
    match (out.map (·.1)).eraseDups.findSome? fun c => s.chainShort c out with
    | some need =>
      (touched.map fun t => (t, TrapKind.cribNospace, BitVec.ofNat 64 ((touched.map (·.2)).headD 0 + need * 2 ^ 16)), [])
    | none => ([], out)

/-- Queue the chain of a miss: members become REPLAYING, and it holds their slates and LIVE sources (R129, R134). -/
def State.queueChain (s : State) (core : Nat) (all : List (Nat × Nat × Nat)) : State :=
  if all.isEmpty then s
  else
    let cid := s.cnt.chain
    let srcs := s.liveSources all
    let slates := all.map fun m => (m.1, s.memberSlate m)
    let ch : Chain := ⟨all, 0, s.grp.part, s.grp.team, none, none, false, srcs, 0⟩
    let s := { s with cnt := { s.cnt with chain := cid + 1 } }
    let s := all.foldl (fun t (c, i, _) => t.modCrib c i fun x => { x with st := .replaying }) s
    let s := (slates ++ srcs).foldl (fun t (c, d) => t.modDesc c d fun y =>
      { y with holds := if y.holds.contains (.chain cid) then y.holds else .chain cid :: y.holds }) s
    s.modCore core fun c => { c with chains := c.chains.ins cid ch }

/-- Set the crib misses of an instruction in motion; the causes its arm parks on. -/
def State.startMiss (s : State) (touched : List (Nat × Nat)) (all : List (Nat × Nat × Nat)) : State × List Cause :=
  let core := match touched with | (c, _) :: _ => c | [] => s.core
  let s' := s.queueChain core all
  let s' := touched.foldl (fun t (c, d) => t.modDesc c d fun y =>
    { y with holds := if y.holds.contains (.toucher s.grp.key s.who) then y.holds
                      else .toucher s.grp.key s.who :: y.holds }) s'
  (s', touched.filterMap fun (c, d) => ((s.desc? c d).bind (·.crib)).map fun i => .crib c i)

end Sys2Proof.Machine
end

