-- ==== Sys2Proof/Machine/Rings.lean ====
section
/-! DEFINITION. Rings: the control block, its checks, the four operations, waiters and their grants (R195–R197), and the
rings the device itself writes and reads: error, fault, response and seed rings (R187, R199, R232). -/

namespace Sys2Proof.Machine

/-- A ring control block (R195). -/
structure RingBlk where
  (base lg scope : Nat)
  err : Bool
  (tail claim head aclaim cbits rbits : Nat)
  /-- A reserved field is not zero. -/
  rsvd : Bool
deriving DecidableEq, Repr, Inhabited

/-- A reserved field that software stored stays as stored, and the block fails its checks (R196; log 105). -/
def RingBlk.ofNat (n : Nat) : RingBlk :=
  { base := bits n 0 72, lg := bits n 72 5, scope := bits n 80 3, err := bitB n 88, tail := bits n 128 64
    claim := bits n 192 64, head := bits n 256 64, aclaim := bits n 320 64, cbits := bits n 384 64
    rbits := bits n 448 64, rsvd := bits n 77 3 != 0 || bits n 83 5 != 0 || bits n 89 39 != 0 }

def RingBlk.toNat (b : RingBlk) : Nat :=
  b.base + b.lg * 2 ^ 72 + b.scope * 2 ^ 80 + (if b.err then 2 ^ 88 else 0) + b.tail % 2 ^ 64 * 2 ^ 128 +
    b.claim % 2 ^ 64 * 2 ^ 192 + b.head % 2 ^ 64 * 2 ^ 256 + b.aclaim % 2 ^ 64 * 2 ^ 320 + b.cbits * 2 ^ 384 + b.rbits * 2 ^ 448

/-- The conditions every ring instruction checks on the block and its count (R196). -/
def RingBlk.ok (b : RingBlk) (n : Nat) : Bool :=
  !b.rsvd && !b.err && decide (b.lg ≤ 20) && decide (1 ≤ b.scope ∧ b.scope ≤ 5) &&
  decide (b.head ≤ b.aclaim ∧ b.aclaim ≤ b.tail ∧ b.tail ≤ b.claim ∧ b.claim ≤ b.head + 2 ^ b.lg) &&
  decide (b.claim - b.tail ≤ 64 ∧ b.aclaim - b.head ≤ 64) &&
  !bitB b.cbits 0 && decide (b.cbits < 2 ^ (b.claim - b.tail)) &&
  !bitB b.rbits 0 && decide (b.rbits < 2 ^ (b.aclaim - b.head)) &&
  decide (1 ≤ n ∧ n ≤ 64 ∧ n ≤ 2 ^ b.lg)

/-- RCLAIM and RAWAIT: the position granted and the block after it, where the request fits (R196). -/
def RingBlk.claimN (b : RingBlk) (n : Nat) : Option (Nat × RingBlk) :=
  if b.claim + n - b.head ≤ 2 ^ b.lg ∧ b.claim + n - b.tail ≤ 64 then some (b.claim, { b with claim := b.claim + n }) else none
def RingBlk.awaitN (b : RingBlk) (n : Nat) : Option (Nat × RingBlk) :=
  if b.aclaim + n ≤ b.tail ∧ b.aclaim + n - b.head ≤ 64 then some (b.aclaim, { b with aclaim := b.aclaim + n }) else none

/-- Advance a position over its committed bits. -/
def advance : Nat → Nat → Nat → Nat × Nat
  | 0, bm, p => (bm, p)
  | fuel + 1, bm, p => if bitB bm 0 then advance fuel (bm / 2) (p + 1) else (bm, p)

/-- RCOMMIT and RRETIRE: none where the range is rejected (R196). -/
def RingBlk.commit (b : RingBlk) (p n : Nat) : Option RingBlk :=
  if b.tail ≤ p ∧ p + n ≤ b.claim ∧ bits b.cbits (p - b.tail) n = 0 then
    let (bm, t) := advance 65 (b.cbits + (2 ^ n - 1) * 2 ^ (p - b.tail)) b.tail
    some { b with cbits := bm, tail := t }
  else none
def RingBlk.retire (b : RingBlk) (p n : Nat) : Option RingBlk :=
  if b.head ≤ p ∧ p + n ≤ b.aclaim ∧ bits b.rbits (p - b.head) n = 0 then
    let (bm, t) := advance 65 (b.rbits + (2 ^ n - 1) * 2 ^ (p - b.head)) b.head
    some { b with rbits := bm, head := t }
  else none

def State.ringAt (s : State) (pa : Nat) : RingBlk := RingBlk.ofNat (s.mem.num pa 64)
def State.setRing (s : State) (pa : Nat) (b : RingBlk) : State := s.writeMem (cellsAt pa (toBytes 64 b.toNat))

/-- A failed check sets ERR, bit 88 of the block, and nothing else. -/
def State.setRingErr (s : State) (pa : Nat) : State := s.writeMem [(pa + 11, s.mem.byte (pa + 11) ||| 1)]

/-- Whether blocking waiters of a side stand before a new request (R197). -/
def State.ringQueued (s : State) (pa : Nat) (consumer : Bool) : Bool :=
  s.waits.any fun w => w.block == pa && w.consumer == consumer && w.grant.isNone

/-- Grant the waiters of one side in arrival order, as far as they fit. -/
def grantSide (pa : Nat) (consumer : Bool) : List RingWait → RingBlk → List RingWait × RingBlk
  | [], b => ([], b)
  | w :: rest, b =>
    if w.block = pa && w.consumer = consumer && w.grant.isNone then
      match (if b.ok w.n then (if consumer then b.awaitN w.n else b.claimN w.n) else none) with
      | some (p, b') =>
        let (l, b'') := grantSide pa consumer rest b'
        ({ w with grant := some (BitVec.ofNat 64 p) } :: l, b'')
      | none => (w :: rest, b)
    else
      let (l, b') := grantSide pa consumer rest b
      (w :: l, b')

/-- After a change of a block: its waiters are granted (R197). -/
def State.ringGrant (s : State) (pa : Nat) : State :=
  let b := s.ringAt pa
  let (l, b1) := grantSide pa true s.waits b
  let (l, b2) := grantSide pa false l b1
  if b2 = b then s else { (s.setRing pa b2) with waits := l }

/-- Store a changed block and grant its waiters: one indivisible event at the home. -/
def State.ringPut (s : State) (pa : Nat) (b : RingBlk) : State := (s.setRing pa b).ringGrant pa

/-- Requests are withdrawn at their homes, and later ones that fit now are granted (R197). -/
def State.withdrawIf (s : State) (p : RingWait → Bool) : State :=
  ((s.waits.filter p).map (·.block)).eraseDups.foldl State.ringGrant { s with waits := s.waits.filter fun x => !p x }

/-- A waiting request of an arm is withdrawn; one already granted stays, to complete (R197). -/
def State.withdraw (s : State) (k : GKey) (w : Who) : State :=
  s.withdrawIf fun x => decide (x.key = k) && x.who == w && x.grant.isNone

/-- The requests of a group that ends are withdrawn (R54, R197). -/
def State.leaveRings (s : State) (k : GKey) : State := s.withdrawIf fun x => decide (x.key = k)

/-! ## Rings of the device -/

/-- The physical address of a ring block or granule for the device's own access; none where translation fails. -/
def State.devPa (s : State) (p : Nat) (a : Acc) (va n : Nat) : Option Nat :=
  if 2 ^ 71 ≤ va then none
  else match s.walkTr p a va with
    | .ok pa _ => if s.poisonAt pa n then none else some pa
    | _ => none

/-- The frames that the device's own access reads and reaches become owned (R236); dirty copies are recalled (R113). -/
def State.devUse (s : State) (p : Nat) (a : Acc) (va : Nat) : State :=
  if 2 ^ 71 ≤ va then s
  else
    let t := s.claimWalk p va
    match s.walkTr p a va with
    | .ok pa key => { t with mem := t.mem.claim pa key }.recall (pa / 128)
    | _ => t

/-- Claim one granule without blocking, write it and commit it; whether that was done. -/
def State.ringPush (s : State) (p va : Nat) (data : List Byte) : State × Bool :=
  let s := s.devUse p .atomic va
  match s.devPa p .atomic va 64 with
  | none => (s, false)
  | some pa =>
    let b := s.ringAt pa
    if va % 64 != 0 || !b.ok 1 || s.ringQueued pa false then (s, false)
    else match b.claimN 1 with
      | none => (s, false)
      | some (pos, b') =>
        let granule := b.base + 64 * (pos % 2 ^ b.lg)
        let s := s.devUse p .write granule
        match s.devPa p .write granule 0, b'.commit pos 1 with
        | some g, some b'' => ((s.writeMem (cellsAt g data)).ringPut pa b'', true)
        | _, _ => (s, false)

/-- Receive one granule, as RAWAIT and RRETIRE of one would. DESIGN CHOICE (log 112), unsafe: a seed ring whose block fails a
check of R196 gives nothing, and its ERR stays as it was. -/
def State.ringPop (s : State) (p va : Nat) : State × Option (List Byte) :=
  let s := s.devUse p .atomic va
  match s.devPa p .atomic va 64 with
  | none => (s, none)
  | some pa =>
    let b := s.ringAt pa
    if va % 64 != 0 || !b.ok 1 || s.ringQueued pa true then (s, none)
    else match b.awaitN 1 with
      | none => (s, none)
      | some (pos, b') =>
        let granule := b.base + 64 * (pos % 2 ^ b.lg)
        let s := s.devUse p .read granule
        match s.devPa p .read granule 64, b'.retire pos 1 with
        | some g, some b'' => (s.ringPut pa b'', some (s.mem.bytes g 64))
        | _, _ => (s, none)

/-- Whether a ring has committed granules nobody received (R199, R206). -/
def State.ringHas (s : State) (p va : Nat) : Bool :=
  match s.devPa p .atomic va 64 with
  | none => false
  | some pa => let b := s.ringAt pa; b.ok 1 && decide (b.aclaim < b.tail)

/-- Saturating 32-bit counters of the status block (R243). -/
def sat32 (n : Nat) : Nat := min n (2 ^ 32 - 1)

/-- Report records that launched nothing: one error record, or LOSTERR and an event (R187). -/
def State.errReport (s : State) (p code type qslot count : Nat) (r : Rec) : State :=
  let rec0 := toBytes 8 s.pm.time ++ toBytes 2 type ++ toBytes 1 code ++ toBytes 1 qslot ++ toBytes 4 count ++
    toBytes 8 r.lo.toNat ++ toBytes 8 r.hi.toNat ++ List.replicate 32 0
  let (s, sent) := s.ringPush p (s.par p).errRing rec0
  if sent then s else (s.modPart p fun x => { x with losterr := sat32 (x.losterr + 1) }).event 0x43 [p]

end Sys2Proof.Machine
end

