-- ==== Sys2Proof/Machine/Tasks.lean ====
section
/-! DEFINITION. Task types (R185), kernel headers (R24, R258), launch checks (R187), context images and the context pool
(R67, R131, R204). -/

namespace Sys2Proof.Machine

/-! ## Kernel headers (R258) -/

structure Khdr where
  (tag mmrev : Nat) (legacy : Bool) (width : Nat) (portable : Bool) (vregs groups acc qwin leaves fsreq : Nat)
deriving DecidableEq, Repr, Inhabited

def Khdr.ofWord (w : Word) : Khdr :=
  let n := w.toNat
  ⟨bits n 56 8, bits n 52 4, bitB n 51, bits n 49 2, bitB n 48, bits n 40 8, bits n 32 8, bits n 28 4, bits n 24 4,
    bits n 8 16, bits n 0 8⟩

/-- Lanes of a WIDTH code. -/
def lanesOf (w : Nat) : Nat := 16 * 2 ^ w

/-- Slots of FSREQ. -/
def Khdr.slots (k : Khdr) : List Nat := ((List.range 8).filter fun j => bitB k.fsreq j).map (· + 8)

/-- What a group sees of its header; LEGACY brings revision 2 (R66, R184). -/
def Khdr.shape (k : Khdr) : Shape :=
  ⟨lanesOf k.width, 4 * k.vregs, k.acc, k.qwin, k.legacy, if k.legacy then 2 else k.mmrev⟩

/-! ## Task types (R185) -/

/-- A task-type entry: its 64 bytes. -/
abbrev TaskEntry := List Byte

def TaskEntry.entry (e : TaskEntry) : Nat := fieldAt e 0 9
def TaskEntry.kind (e : TaskEntry) : Nat := fieldAt e 9 1
def TaskEntry.valid (e : TaskEntry) : Bool := bitB (fieldAt e 9 1) 0
def TaskEntry.grid (e : TaskEntry) : Bool := bitB (fieldAt e 9 1) 1
def TaskEntry.cls (e : TaskEntry) : Nat := fieldAt e 0xA 1
def TaskEntry.prio (e : TaskEntry) : Nat := bits (fieldAt e 0xB 1) 0 2
def TaskEntry.bell (e : TaskEntry) : Nat := fieldAt e 0xC 2
def TaskEntry.khdr (e : TaskEntry) : Word := BitVec.ofNat 64 (fieldAt e 0x10 8)
def TaskEntry.mon (e : TaskEntry) : Nat := fieldAt e 0x18 9
def TaskEntry.pages (e : TaskEntry) : Nat := fieldAt e 0x22 2
def TaskEntry.cwtab (e : TaskEntry) : Nat := fieldAt e 0x28 9

/-- Address of a type's entry. The base is a physical address (log 35). -/
def State.entryAt (s : State) (p type : Nat) : Nat := (s.par p).ttbase + 64 * type

/-- An entry of a partition's table; none beyond its length, where VALID is clear, or in a frame that another key owns, whose
read returns nothing (R236). -/
def State.taskEntry (s : State) (p type : Nat) : Option TaskEntry :=
  let x := s.par p
  if x.ttlen ≤ type || !s.mem.frameOk (s.entryAt p type) x.hdmKey then none
  else
    let e := s.mem.bytes (s.entryAt p type) 64
    if TaskEntry.valid e then some e else none

/-! ## Context images (R67) -/

/-- Bytes of an image: each block starts on a 256-byte boundary. -/
def imageBytes (width vregs acc : Nat) (mon : Bool) : Nat :=
  vregs * 4 * width + 0x1800 + (if mon then 16 * 4 * width + 0x100 else 0) + (acc + 1) * 0x4100

def Khdr.image (k : Khdr) (mon : Bool) : Nat := imageBytes (lanesOf k.width) (4 * k.vregs) k.acc mon

/-- A size rounded up to pages of 4 KiB. -/
def pagesUp (n : Nat) : Nat := (n + 4095) / 4096 * 4096

/-- Scratch leaves a team holds. -/
def State.scratchLeaves (s : State) (team : Nat) : Nat := ((s.teamScratch team).map fun x => x.2.2.leaves).sum

def teamCores (t : Team) : List Nat := if t.pair then [t.core, t.core + 1] else [t.core]

/-- Whether a partition has a team on a core. -/
def State.partOnCore (s : State) (p core : Nat) : Bool := s.teams.vals.any fun t => t.part == p && (teamCores t).contains core

/-- Image of the largest lesson of a chain (R131). -/
def State.lessonImage (s : State) (p : Nat) (all : List (Nat × Nat × Nat)) : Nat :=
  (all.map fun m => match (s.crib? m.1 m.2.1).bind fun x => s.taskEntry p x.lesson with
    | some e => pagesUp ((Khdr.ofWord (TaskEntry.khdr e)).image false)
    | none => 0).foldl max 0

/-- A replay context's image (R131). -/
def replayImage : Nat := 0x37000

/-! ## The context pool (R131, R204) -/

/-- Bytes of a partition's context pool in use, as address and length: its teams, their save areas beyond LEAVES, its replay
contexts, and the images of chains that run in free slots. -/
def State.poolUsed (s : State) (p : Nat) : List (Nat × Nat) :=
  let teams := s.teams.vals.flatMap fun t =>
    if t.part = p then (t.ctxAt, if t.noImg then 0 else t.imgBytes) :: (t.descAt, t.descBytes) :: t.extra.map fun x => (x.1, 2048 * x.2)
    else []
  let contexts := match s.parts.look p with | some x => x.replayCtx.vals.map fun a => (a, replayImage) | none => []
  let chains := s.cores.flatMap fun c => c.2.chains.vals.filterMap fun ch =>
    if ch.part = p && (match ch.ctx with | some k => k != 32 | none => false) then some (ch.img, s.lessonImage p ch.all) else none
  teams ++ contexts ++ chains

def alignUp (al x : Nat) : Nat := (x + al - 1) / al * al

/-- The lowest aligned address from `a` on at which `n` bytes fit before `stop`, between areas in order of address. -/
def gapAt (al n stop : Nat) : Nat → List (Nat × Nat) → Option Nat
  | a, [] => if a + n ≤ stop then some a else none
  | a, (b, m) :: rest => if a + n ≤ b then some a else gapAt al n stop (max a (alignUp al (b + m))) rest

/-- Take areas of a partition's context pool, each given by its alignment and length: their addresses, none where one does
not fit. DESIGN CHOICE (log 16), unsafe: each stands at the lowest place with room. -/
def State.poolTake (s : State) (p : Nat) (l : List (Nat × Nat)) : Option (List Nat) :=
  let base := (s.par p).ctxBase
  let one (acc : Option (List (Nat × Nat) × List Nat)) (x : Nat × Nat) : Option (List (Nat × Nat) × List Nat) :=
    acc.bind fun (used, out) =>
      (gapAt x.1 x.2 (base + 4096 * (s.par p).ctxPages) base (sortBy (·.1) (used.filter fun u => u.2 != 0))).map fun a =>
        ((a, x.2) :: used, out ++ [a])
  (l.foldl one (some (s.poolUsed p, []))).map (·.2)

/-- The replay contexts of a partition on cores without a team of it return to the pool (R131). -/
def State.dropContexts (s : State) (p : Nat) : State :=
  s.modPart p fun x => { x with replayCtx := x.replayCtx.keep fun c _ => s.partOnCore p c }

/-! ## Launch checks (R24, R184, R187) -/

/-- Whether any byte of a range is not zero. -/
def someByte (l : List Byte) (ofs n : Nat) : Bool := fieldAt l ofs n != 0

/-- The CODE with which an entry's header fields fail, in the order of the table of R187. -/
def Khdr.fails (k : Khdr) (mon : Bool) : Option Nat :=
  if k.width = 3 then some 0x02
  else if k.vregs < 8 ∨ 64 < k.vregs then some 0x03
  else if k.groups < 1 ∨ 32 < k.groups then some 0x04
  else if !mon && k.qwin != 0 then some 0x05
  else if k.legacy && k.width != 1 then some 0x06
  else if k.portable then some 0x07
  else if k.mmrev ≠ 2 ∧ (k.mmrev ≠ 3 ∨ k.legacy) then some 0x08
  else if 8 < k.acc ∨ 4 * k.vregs < k.qwin + 1 then some 0x09
  else none

/-- The constant windows an entry binds, and whether the table breaks R64 or binds window 7. The table is read under the
partition's translation; DESIGN CHOICE (log 111), unsafe: one that cannot be read breaks R64. -/
def State.windows (s : State) (p cwtab : Nat) : Option (Tbl CWin) :=
  if cwtab = 0 then some []
  else
    let read (w : Nat) : Option (List Byte) :=
      match s.walkTr p .read (cwtab + 16 * w) with
      | .ok pa _ => if s.poisonAt pa 16 then none else some (s.mem.bytes pa 16)
      | _ => none
    (List.range 8).foldl (fun acc w => match acc, read w with
      | some t, some b =>
        let base := fieldAt b 0 9
        let len := fieldAt b 9 4
        if base % 4 != 0 || len % 4 != 0 || 512 * 1024 < len || (w == 7 && len != 0) || someByte b 13 3 then none
        else some (if len = 0 then t else t.ins w ⟨base, len⟩)
      | _, _ => none) (some [])

/-- The CFE has read a type's entry and the constant-window table that it names: their frames become owned (R236). -/
def State.claimEntry (s : State) (p type : Nat) : State :=
  let s := s.claimRange (s.entryAt p type) 64 (s.par p).hdmKey
  let cwtab := match s.taskEntry p type with | some e => TaskEntry.cwtab e | none => 0
  if cwtab = 0 then s
  else (List.range 8).foldl (fun t w => match t.walkTr p .read (cwtab + 16 * w) with
    | .ok pa key => ({ t with mem := t.mem.claim pa key }).claimWalk p (cwtab + 16 * w)
    | _ => t.claimWalk p (cwtab + 16 * w)) s

/-- Cores that a team stands on, and the groups on the fuller one (R25). -/
def Khdr.coreCount (k : Khdr) : Nat := if 16 < k.groups then 2 else 1
def Khdr.perCore (k : Khdr) : Nat := (k.groups + k.coreCount - 1) / k.coreCount

/-- Bytes of a team's context images. -/
def teamImages (k : Khdr) (pages : Nat) : Nat := k.groups * pages * 4096

/-- Bytes of the context pool a team takes at placement (R204). -/
def teamPool (k : Khdr) (pages : Nat) : Nat :=
  teamImages k pages + 2048 * k.leaves + 16384 * k.coreCount

/-- A demand that can never be met (R187): leaves, accumulators, or the context pool with a replay context on each core. -/
def State.tooMuch (s : State) (p : Nat) (k : Khdr) (pages : Nat) : Bool :=
  decide (2016 < k.leaves ∨ 8 < k.acc * k.perCore ∨
    4096 * (s.par p).ctxPages < teamPool k pages + 0x37000 * k.coreCount)

/-- The checks made before a record's team is placed: the failing CODE, or none (R187). -/
def State.launchFails (s : State) (p : Nat) (e : TaskEntry) : Option Nat :=
  let k := Khdr.ofWord (TaskEntry.khdr e)
  let mon := TaskEntry.mon e != 0
  if k.tag ≠ 0xF9 then some 0x11
  else match k.fails mon with
    | some c => some c
    | none =>
      if TaskEntry.pages e * 4096 < k.image mon then some 0x0A
      else if TaskEntry.cwtab e % 16 ≠ 0 then some 0x12
      else if (s.windows p (TaskEntry.cwtab e)).isNone then some 0x0B
      else if s.tooMuch p k (TaskEntry.pages e) then some 0x0C
      else if 4 ≤ TaskEntry.kind e || 4 ≤ fieldAt e 0xB 1 || someByte e 0xE 2 || someByte e 0x21 1 || someByte e 0x24 4 ||
          someByte e 0x31 15 then some 0x0E
      else if TaskEntry.entry e % 8 != 0 || 2 ^ 71 ≤ TaskEntry.entry e || TaskEntry.mon e % 8 != 0 || 2 ^ 71 ≤ TaskEntry.mon e ||
          (!TaskEntry.grid e && (TaskEntry.cls e < 1 || 64 < TaskEntry.cls e)) then some 0x12
      else none

/-- Lesson check of R124: a valid entry with one group, no window, no leaves, not portable and no monitor. DESIGN CHOICE
(log 107), unsafe: nothing that R124 does not name is tested. -/
def State.lessonOk (s : State) (p lesson : Nat) : Bool :=
  match s.taskEntry p lesson with
  | none => false
  | some e =>
    let k := Khdr.ofWord (TaskEntry.khdr e)
    k.groups == 1 && k.qwin == 0 && k.leaves == 0 && !k.portable && TaskEntry.mon e == 0

end Sys2Proof.Machine
end

