-- ==== Sys2Proof/Machine/Life.lean ====
section
/-! DEFINITION. Barrier objects, and how groups and teams end (R52–R55, R121, R191, R214). -/

namespace Sys2Proof.Machine

/-! ## Barrier objects (R121) -/

structure Bar where
  (members expected arrived rsvd phase arrset : Nat)
deriving DecidableEq, Repr, Inhabited

/-- DESIGN CHOICE (log 105), unsafe: reserved bits that software stores stay as stored, and the next barrier instruction meets
them (R121). -/
def Bar.ofNat (n : Nat) : Bar := ⟨bits n 0 32, bits n 32 8, bits n 40 8, bits n 48 16, bits n 64 32, bits n 96 32⟩
def Bar.toNat (b : Bar) : Nat :=
  b.members + b.expected * 2 ^ 32 + b.arrived * 2 ^ 40 + b.rsvd * 2 ^ 48 + b.phase * 2 ^ 64 + b.arrset * 2 ^ 96

/-- The checks of R121 on an object's fields. -/
def Bar.ok (b : Bar) : Bool := decide (b.expected ≤ 32 ∧ b.arrived ≤ b.expected ∧ b.rsvd = 0)

/-- The last arrival, or a retirement that makes the counts equal, completes the phase (R53, R286). -/
def Bar.complete (b : Bar) : Bar :=
  if b.arrived = b.expected then { b with phase := (b.phase + 1) % 2 ^ 32, arrived := 0, arrset := 0 } else b

/-- BARA of a group (R286); none is BARRIER_ERR. -/
def Bar.arrive (b : Bar) (g : Nat) : Option Bar :=
  if bitB b.members g && !bitB b.arrset g then
    some (Bar.complete { b with arrset := b.arrset + 2 ^ g, arrived := b.arrived + 1 })
  else none

/-- Retirement of a registered group (R53, R121). A count of 0 that is lowered takes a free value, `low` (log 95). -/
def Bar.leave (b : Bar) (g low : Nat) : Bar :=
  let lower (n : Nat) : Nat := if n = 0 then low else n - 1
  if bitB b.members g then
    let b := { b with members := b.members - 2 ^ g, expected := lower b.expected }
    Bar.complete (if bitB b.arrset g then { b with arrset := b.arrset - 2 ^ g, arrived := lower b.arrived } else b)
  else b

/-- The store makes the update of a retirement at one live object, unless its sectors are LOST or POISONED. -/
def State.barLeave (s : State) (team g : Nat) (o : BarObj) : State :=
  match s.anySlate o.core team (bits o.addr 11 11) with
  | none => s
  | some (id, d) =>
    let ofs := o.addr % 2 ^ 22 - d.base * 2048
    if (d.sec (ofs / 128)).st != .good then s
    else
      let b := Bar.ofNat (s.slNum o.core id ofs 16)
      if bitB b.members g then
        s.slWrite o.core id 0 (cellsAt ofs (toBytes 16 (b.leave g (Config.barCount s.cnt.steps).toNat).toNat))
      else s

/-! ## Teams -/

/-- GROUPS of a kernel header. -/
def groupsOf (khdr : Word) : Nat := bits khdr.toNat 32 8

/-- AVGRUN of a task type after a retirement, in µs (R214). -/
def avgrunNext (old run : Nat) : Nat :=
  if old = 0xFFFFFFFF then run else ((old : Int) + Int.tdiv ((run : Int) - old) 8).toNat

/-- The descriptors of a team on a core. -/
def State.teamDescs (s : State) (core team : Nat) : List Nat :=
  ((s.coreAt core).descs.keep fun _ d => d.team == team).keys

/-- Replay groups of a team are killed without a trap, and their chains' cribs return to DROPPED (R138). -/
def State.killReplays (s : State) (team : Nat) : State :=
  s.cores.foldl (fun t (c, x) =>
    (x.chains.keep fun _ ch => ch.team == team).keys.foldl (fun t cid => t.abortChain c cid fun _ => none) t) s

/-- The last group of a team has retired: slates, barrier objects, cribs, records and AVGRUN (R55, R191, R214). The records of
a killed team are reported, a grid's record once (R192). -/
def State.endTeam (s : State) (tid : Nat) : State :=
  match s.teams.look tid with
  | none => s
  | some t =>
    let s := s.killReplays tid
    let s := (teamCores t).foldl (fun u c => (s.teamDescs c tid).foldl (fun v id => v.freeSlate c id) u) s
    let l := (s.launches.look t.launch).getD ⟨[], [], false⟩
    let s := if t.killed && !l.told then
        match t.recs with
        | r :: _ =>
          { s.errReport t.part 0x0D t.type r.qslot t.recs.length r with
            launches := s.launches.ins t.launch { l with told := true } }
        | [] => s
      else s
    let run := (s.pm.time - t.start) / 1000
    let late := t.pre != .none && !t.late && (match t.deadline with | some d => decide (d < s.pm.time) | none => false)
    let s := s.modPart t.part fun p => { p with
      avgrun := p.avgrun.ins t.type (avgrunNext (Tbl.get 0xFFFFFFFF p.avgrun t.type) run)
      late := if late then sat32 (p.late + 1) else p.late }
    ({ s with teams := s.teams.del tid }).dropContexts t.part

/-- A group retires, by EXIT or by being killed (R52–R55). `kill` marks a kill; an SLFREE it still had outstanding
completes, and the records of its DEPDEC still wait at the home (R54). -/
def State.retireGroup (s : State) (k : GKey) (kill : Bool) : State :=
  match s.groupAt k with
  | none => s
  | some g =>
    let s := (s.leaveRings k).removeGroup k
    let s := g.ops.vals.foldl (fun u o => match o.kind with
      | .free c d => u.freeSlate c d
      | .dep _ die recs => u.modPart g.part fun p => { p with home := p.home ++ recs.map fun r => (die, r) }
      | _ => u) s
    let s := s.modPart g.part fun p => { p with
      home := p.home ++ (g.a0.depRecs ++ g.a1.depRecs).map fun r => (dieOfCore g.key.core, r) }
    match s.teams.look g.team with
    | none => s
    | some t =>
      let s := t.bars.foldl (fun u o => u.barLeave g.team g.gid o) s
      let t := { t with retired := insNat t.retired g.gid, killed := t.killed || kill }
      let s := { s with teams := s.teams.ins g.team t }
      if t.retired.length = groupsOf t.khdr then s.endTeam g.team else s

/-- Kill a group, with the management event of R228: partition, team, GID, the kind being handled and TPCV. -/
def State.killGroup (s : State) (k : GKey) : State :=
  match s.groupAt k with
  | none => s
  | some g => (s.retireGroup k true).event 0x45 [g.part, g.team, g.gid, g.tr.tkind.toNat, g.tr.tpcv.toNat]

end Sys2Proof.Machine
end

