-- ==== Sys2Proof/Machine/Ops.lean ====
section
/-! DEFINITION. The operations every instruction shares: taking a trap and returning from one (R223–R229), restarting a
region (R50), parking (R231, R232), and how a word that has run leaves its arm. -/

namespace Sys2Proof.Machine

/-! ## Taking a trap -/

def State.modRg (s : State) (f : Region → Region) : State := s.modGrp fun g => { g with rg := f g.rg }

/-- Address of the vector entry of a trap kind (R227). -/
def State.vectorAt (s : State) (k : TrapKind) : Nat := (s.par s.grp.part).tvbase + 16 * k.code

/-- The handler address of a trap kind: 9 bytes of its entry under the group's translation; none where the read fails
(R227; log 33). -/
def State.handlerOf (s : State) (k : TrapKind) : Option Nat :=
  match s.walkTr s.grp.part .read (s.vectorAt k) with
  | .ok pa _ => if s.poisonAt pa 16 then none else some (s.mem.num pa 9)
  | _ => none

/-- What a trap in a replay group is to a waiting toucher (R136): the aborted crib's id in TINFO[55:48], TINFO[63] set. -/
def replayOutcome (t : TrapRec) (crib : Nat) : ReplayFail :=
  let info := BitVec.ofNat 64 (2 ^ 63 + crib * 2 ^ 48)
  match t.kind with
  | .uncorrectable => .restart info
  | .formatAbsent => .formatAbsent (info ||| (t.info &&& 0x3F))
  | k => .trap k info

/-- An arm leaves a withdrawn word: its mask, and whether it has ended, are its own again. -/
def Arm.unback (a : Arm) : Arm :=
  match a.back with
  | some b => { a with mask := b.mask, ended := b.ended, back := none }
  | none => a

/-- A trap entered: the trap registers are written, TM is set, and the arm goes to the handler; a zero vector or a
failed read kills the group (R66, R227). DESIGN CHOICE (log 83), unsafe: TPCV has 71 bits (R66), and of a fetched address at
or above 2^71 it holds the address modulo 2^71. -/
def State.enterTrap (s : State) (tpc : Nat) (cl : Clause) (t : TrapRec) : State :=
  let a := s.arm
  let tr : TrapRegs :=
    { tkind := BitVec.ofNat 8 t.kind.code, tpcv := BitVec.ofNat 71 tpc, tlm := t.lanes, tinfo := t.info, tm := true
      resv := !a.resv.isEmpty, arm := s.who, savedPc := BitVec.ofNat 71 tpc, cl := cl
      back := a.back }
  let s := s.modGrp fun g => { g with tr := tr }
  match s.handlerOf t.kind with
  | none => (s.devUse s.grp.part .read (s.vectorAt t.kind)).killGroup s.grp.key
  | some 0 => (s.devUse s.grp.part .read (s.vectorAt t.kind)).killGroup s.grp.key
  | some h => (s.devUse s.grp.part .read (s.vectorAt t.kind)).modArm fun a => { a.unback with
    pc := h, jumped := true, cl := Clause.start, ended := false, hint := false }

/-- The order of R224 among trap kinds. -/
def trapRank : TrapKind → Nat
  | .illegalOp | .illConvergence | .formatAbsent => 0
  | .misalign => 1 | .slateRange => 2 | .cwRange => 3
  | .permission => 4 | .memFault => 5 | .keyConflict => 6
  | .pinViolation => 7 | .cribStale => 8 | .cribDepth => 9 | .cribNospace => 10
  | .staleRead => 11 | .uncorrectable => 12
  | _ => 13

/-- A fault in the monitor wave: it pushes a poisoned entry and stops at its instruction, once the window has room
(R45). -/
def State.poisonEntry (s : State) (t : TrapRec) : State :=
  let m := s.grp.mon
  if m.window.length ≤ s.grp.shape.qwin then
    s.modGrp fun g => { g with mon := { m with
      st := .stopped, window := m.window ++ [.poison t.kind m.arm.pc t.lanes t.info] } }
  else s

/-- A request for a hall pass is withdrawn, and a pass not used yet returned (R149). -/
def State.dropPass (s : State) : State := s.modGrp fun g => { g with passWait := false, passReady := false }

/-- The clause context after one word. -/
def Clause.step (c : Clause) : Clause := { c with words := c.words.drop 1 }

/-- NR leaves the region at the end of the clause (R47). -/
def State.endClause (s : State) (c : Clause) : State :=
  if c.nr && s.who != .mon then s.modGrp Group.leaveRegion else s

/-- The arm's place moves past a ring word that has been granted; beside a withdrawn word, the place it goes back to. -/
def State.pastWord (s : State) : State :=
  let a := s.arm
  let c := match a.back with | some b => b.cl | none => a.cl
  let s := s.modArm fun a => match a.back with
    | some b => { a with back := some { b with pc := b.pc + 8, jumped := false, cl := b.cl.step } }
    | none => { a with pc := a.pc + 8, jumped := false, cl := a.cl.step }
  if c.left = 1 then s.endClause c else s

/-- A position that has been granted to the executing arm at a ring's home is written before a trap, a park or a restart of
the arm proceeds (R197). -/
def State.settleGrant (s : State) : State :=
  match s.waits.find? fun w => decide (w.key = s.grp.key) && w.who == s.who && w.grant.isSome with
  | some w => ({ s with waits := s.waits.filter (· != w) }.writeS w.dst (w.grant.getD 0)).pastWord
  | none => s

/-- TAKING A TRAP: the one operation for every trap condition. `tpc` is what TPCV receives and `cl` the clause context
that RFT resumes with. -/
def State.raise (s : State) (tpc : Nat) (cl : Clause) (t : TrapRec) : State :=
  let k := s.grp.key
  match s.who, s.grp.replayId with
  | .mon, _ => s.poisonEntry t
  | _, some r => s.abortChain r.core r.chain fun c => some (replayOutcome t c)
  | _, none =>
    if s.grp.tr.tm then s.killGroup k
    else
      let s := (s.settleGrant.withdraw k s.who).unholdToucher k s.who
      let s := s.enterTrap tpc cl t
      if s.grp.live && decide (s.grp.key = k) then
        s.dropPass.modArm fun a => { a with resv := [], park := none, remote := [], uses := [], sleep := none, barw := none }
      else s

/-- RETURN FROM A TRAP (R229, R338): TM clears and the trapping arm resumes at TPCV, with the clause context recorded at
entry where TPCV still holds the value entry wrote. A monitor wave whose poisoned entry has been taken executes its
faulting instruction again (R45). -/
def State.returnTrap (s : State) : State :=
  let tr := s.grp.tr
  let same := decide (tr.tpcv = tr.savedPc)
  let s := s.modGrp fun g => { g with
    tr := { g.tr with tm := false }
    mon := if g.mon.st = .taken then { g.mon with st := .live } else g.mon }
  s.modArm fun a => { a with
    pc := tr.tpcv.toNat, jumped := !same, cl := if same then tr.cl else Clause.start
    back := if same then tr.back else none, park := none
    mask := if same && tr.back.isSome then lanesBelow s.grp.shape.width else a.mask }

/-! ## Restart of a region (R50) -/

/-- Withdrawn words that a restart leaves to issue again: those issued before the region (R50, R147). -/
def Group.redoKept (g : Group) : List Redo :=
  ((g.a0.back.toList ++ g.a1.back.toList).map (·.word) ++ g.redo).filter fun r => decide (r.id < g.rg.firstOp)

/-- Restart the group at RGPC, once every operation it issued has completed. -/
def State.restartRegion (s : State) (count : Bool) : State :=
  if !s.grp.ops.isEmpty then s
  else
    let rg := s.grp.rg
    let s := s.modGrp fun g => { g with redo := g.redoKept }
    let s := ((s.settleGrant.withdraw s.grp.key s.who).unholdToucher s.grp.key s.who).dropPass
    let s := s.modRg fun r => { r with restarts := if count then r.restarts + 1 else r.restarts }
    s.modArm fun a => { a.unback with
      pc := rg.rgpc.toNat, jumped := true, cl := Clause.start, rets := a.rets.drop (a.rets.length - rg.depth)
      resv := [], park := none, remote := [], uses := [], sleep := none, barw := none, hint := false }

/-- Consumption of an uncorrectable error: a restart inside a region, at most four at one RGPC, and otherwise
UNCORRECTABLE (R50, R118, R239). -/
def State.consume (s : State) (t : TrapRec) : State :=
  let plain := s.who == .mon || s.grp.replayId.isSome
  if !plain && s.grp.rg.inside && decide (s.grp.rg.restarts < 4) then s.restartRegion true
  else s.raise s.arm.pc s.arm.cl t

/-! ## FORMAT_ABSENT (R103) -/

def partHasDie (p : PartParams) (d : Nat) : Bool :=
  (List.range 12).any fun c => decide (p.clbase ≤ 12 * d + c ∧ 12 * d + c ≤ p.cllimit)

/-- A binding of a loadable slot on a die (R94). -/
def State.slotOf (s : State) (p d slot : Nat) : Slot8 :=
  ((s.dieAt d).slots.look (p * 16 + slot)).getD ⟨.unbound, false, 0, 15, 0, 0, []⟩
def State.setSlot (s : State) (p d slot : Nat) (x : Slot8) : State :=
  s.modDie d fun y => { y with slots := y.slots.ins (p * 16 + slot) x }

/-- Whether a die's binding of a slot suits a launch: the recorded measurement, or BOUND if nothing was recorded. -/
def State.slotSuits (s : State) (p d slot : Nat) (meas : Tbl (BitVec 256)) : Bool :=
  let b := s.slotOf p d slot
  b.st == .bound && (match meas.look slot with | some m => decide (b.meas = m) | none => true)

/-- FORMAT_ABSENT: no further team of the launch on this die; a group inside a region whose launch suits another die
is saved with its team and restarts there; otherwise the trap is raised. -/
def State.formatAbsent (s : State) (t : TrapRec) : State :=
  let slot := bits t.info.toNat 0 4
  let die := bits t.info.toNat 4 2
  let p := s.grp.part
  match s.teams.look s.grp.team with
  | none => s.raise s.arm.pc s.arm.cl t
  | some tm =>
    let l := (s.launches.look tm.launch).getD ⟨[], [], false⟩
    let s := { s with launches := s.launches.ins tm.launch { l with barred := insNat l.barred die } }
    let need := insNat tm.needSlots slot
    let other := [0, 1, 2, 3].any fun d => d != die && partHasDie (s.par p) d && need.all fun j => s.slotSuits p d j l.meas
    if s.who != .mon && s.grp.replayId.isNone && s.grp.rg.inside && other then
      if !s.grp.ops.isEmpty then s
      else (s.restartRegion false).modTeam s.grp.team fun x => { x with pre := .saving, deadline := none, needSlots := need }
    else s.raise s.arm.pc s.arm.cl t

/-! ## Parks (R231, R232) -/

/-- CORE of a fault record. -/
def faultRecord (t : Ticket) : List Byte :=
  toBytes 8 t.time ++ toBytes 9 (t.page * 8192) ++ toBytes 1 t.access ++ toBytes 1 t.level ++ toBytes 1 0 ++
    toBytes 4 t.id ++ toBytes 2 t.core ++ List.replicate 38 0

/-- Commit a fault record, or leave it in the fault unit while the ring is full (R232). -/
def State.sendTicket (s : State) (p : Nat) (t : Ticket) : State :=
  let waiting : Bool := match s.parts.look p with | some x => x.tickets.any fun y => !y.sent | none => false
  let (s, sent) := if waiting then (s, false) else s.ringPush p (s.par p).faultRing (faultRecord t)
  if sent then s.modPart p fun x => { x with tickets := x.tickets ++ [{ t with sent := true }] }
  else (s.modPart p fun x => { x with tickets := x.tickets ++ [t] }).event 0x48 [p]

/-- A fault on a not-present page joins the page's outstanding ticket or opens one (R232). A fault through the device's own
fabric window is one on the local page, opened as another device's is (R235). -/
def State.ticketFor (s : State) (p va access level core : Nat) : State × Nat :=
  let s := s.claimWalk p va
  let core := if va < 2 ^ 71 then core else Config.remoteCore.toNat
  let page := localVa va / 8192
  match s.parts.look p with
  | none => (s, 0)
  | some x =>
    match x.tickets.find? fun t => t.page == page with
    | some t => (s, t.id)
    | none =>
      let id := if x.nextTicket = 0 then 1 else x.nextTicket
      let next := if id + 1 < 2 ^ 32 then id + 1 else 1
      let s := s.modPart p fun y => { y with nextTicket := next }
      (s.sendTicket p ⟨id, page, access, level, core, s.pm.time, false, false⟩, id)

def Cause.isRemote : Cause → Bool
  | .remote _ => true
  | _ => false

/-- Park the executing arm: its lanes and causes are recorded, and both arms lose their reservations (R40, R175). -/
def State.parkArm (s : State) (lanes : LaneSet) (causes : List Cause) : State :=
  let s := (s.settleGrant.withdraw s.grp.key s.who).dropPass
  let s := s.modArm fun a =>
    { a with park := some ⟨lanes, causes, [], none⟩, sleep := none, barw := none
             remote := if causes.any Cause.isRemote then a.remote else [] }
  match s.who with
  | .mon => s.modArm fun a => { a with resv := [] }
  | _ => s.modGrp fun g => { g with a0 := { g.a0 with resv := [] }, a1 := { g.a1 with resv := [] } }

/-- A fetch parks its arm; a word that was parked already keeps its replay mask. -/
def State.parkFetch (s : State) (ticket : Nat) : State :=
  let old := s.arm.park
  let s := s.parkArm (lanesBelow 64) [.ticket ticket 0]
  match old with
  | none => s
  | some p => s.modArm fun a => { a with park := some { p with causes := [.ticket ticket 0] } }

/-! ## How a word ends -/

/-- What a word's lanes are when it runs: the selected lanes, those not finished yet, and the pages that its park left
rejected, each with its lanes. -/
structure Ctx where
  sel : LaneSet
  todo : LaneSet
  rejected : List (Nat × LaneSet)
deriving DecidableEq, Repr

/-- Pages rejected for a lane, and for the control thread. -/
def Ctx.pages (c : Ctx) (i : Nat) : List Nat := c.rejected.filterMap fun x => if x.2.getLsbD i then some x.1 else none
def Ctx.allPages (c : Ctx) : List Nat := c.rejected.map (·.1)

/-- A word that does not complete. -/
inductive Exit where
  /-- A trap condition. -/
  | trap (t : TrapRec)
  /-- A trap condition, or consumption of an uncorrectable error, after accesses that the frames they reached keep (R236). -/
  | trapIn (s : State) (t : TrapRec)
  /-- Consumption of an uncorrectable error. -/
  | unc (t : TrapRec)
  /-- FORMAT_ABSENT. -/
  | absent (t : TrapRec)
  /-- Not ready: it issues again; the state records what it waits for. -/
  | stall (s : State)
  /-- Parked, with the effects of its finished lanes. -/
  | park (s : State) (lanes : LaneSet) (causes : List Cause)

/-- A word that completes: the next word follows, control goes elsewhere, or the arm has been dealt with. -/
inductive Done where
  | next (s : State)
  | goto (s : State) (pc : Nat)
  | here (s : State)

/-- The arm goes on to the next word; after a withdrawn word, to where it had been. -/
def State.advance (s : State) : State :=
  let c := s.arm.cl
  let s := if s.arm.park.isSome then s.unholdToucher s.grp.key s.who else s
  match s.arm.back with
  | some b => s.modArm fun a =>
    { a.unback with pc := b.pc, jumped := b.jumped, cl := b.cl, park := none, remote := [], uses := [], barw := none }
  | none =>
    let s := s.modArm fun a =>
      { a with pc := a.pc + 8, jumped := false, cl := c.step, park := none, remote := [], uses := [], barw := none }
    if c.left = 1 then s.endClause c else s

/-- Control goes to a clause header elsewhere; the rest of the clause does not issue (R256). -/
def State.jump (s : State) (pc : Nat) : State :=
  let c := s.arm.cl
  (s.modArm fun a =>
    { a.unback with pc := pc, jumped := true, cl := Clause.start, park := none, remote := [], uses := [], barw := none }).endClause c

/-- TINFO[62] marks a trap after some lanes of the instruction had finished (R225). -/
def markPartial (c : Ctx) (t : TrapRec) : TrapRec :=
  if c.todo = c.sel then t else { t with info := t.info ||| (1#64 <<< 62) }

def State.finish (s : State) (c : Ctx) : Except Exit Done → State
  | .ok (.next s') => s'.advance
  | .ok (.goto s' pc) => s'.jump pc
  | .ok (.here s') => s'
  | .error (.trap t) => s.raise s.arm.pc s.arm.cl (markPartial c t)
  | .error (.trapIn s' t) =>
    if t.kind = .uncorrectable then s'.consume (markPartial c t) else s'.raise s'.arm.pc s'.arm.cl (markPartial c t)
  | .error (.unc t) => s.consume (markPartial c t)
  | .error (.absent t) => s.formatAbsent (markPartial c t)
  | .error (.stall s') => s'
  | .error (.park s' lanes causes) => s'.parkArm lanes causes

/-- ILLEGAL_OP of a word that selects `sel` (R224, R267). -/
def illegal (sel : LaneSet) : TrapRec := ⟨.illegalOp, sel, 0⟩

/-- The lanes a guard selects: active lanes whose guard bit XOR GN is 1 (R28). -/
def State.selOf (s : State) (g : Guard) : LaneSet :=
  let b := s.readM g.m.val
  s.active &&& (if g.neg then ~~~b else b)

/-- Whether a scalar or control word executes (R28). -/
def State.executes (_s : State) (g : Guard) (sel : LaneSet) : Bool := sel != 0 || (g.m.val == 0 && !g.neg)

end Sys2Proof.Machine
end

