-- ==== Sys2Proof/Machine/Remote.lean ====
section
/-! DEFINITION. Requests sent through the fabric window: ports, flits, tags (R235, R246–R248). -/

namespace Sys2Proof.Machine

/-! ## Flits (R246) -/

/-- The 16 bytes of a flit's header. -/
def headerOf (f : Flit) : BitVec 128 :=
  BitVec.ofNat 128 (f.kind.toNat + f.dest.toNat * 2 ^ 4 + f.src.toNat * 2 ^ 21 + f.tenant.toNat * 2 ^ 38 +
    f.tag.toNat * 2 ^ 54 + f.va.toNat * 2 ^ 64 + f.size.toNat * 2 ^ 118 + f.opc.toNat * 2 ^ 121)

/-- Bytes beyond a first flit's 48, 64 in each data flit. -/
def payloadParts : Nat → List Byte → List (List Byte)
  | 0, _ => []
  | n + 1, l => if l.length ≤ 64 then [l] else l.take 64 :: payloadParts n (l.drop 64)

/-- The data flits that follow a first flit with some sequence number. -/
def dataFlits (port seq : Nat) (payload : List Byte) : List Reply :=
  if payload.length ≤ 48 then []
  else (payloadParts 4 (payload.drop 48)).zipIdx.map fun x => .data port (seq + 1 + x.2) x.1

/-! ## Ports and tags -/

def State.portAt (s : State) (p : Nat) : Port := (s.fab.ports.look p).getD ⟨0, 0, 0, false, 0⟩
def State.modPort (s : State) (p : Nat) (f : Port → Port) : State :=
  { s with fab := { s.fab with ports := s.fab.ports.ins p (f (s.portAt p)) } }

/-- Ports to a device in the order of its routing table, less those that are down (R248). -/
def State.portsTo (s : State) (dev : Nat) : List Nat := (Config.routePorts dev).filter fun p => decide (p < 16) && !(s.portAt p).down

/-- A port to a device with a free tag of its 1,024, and the tag (R246). -/
def State.freeTag (s : State) (dev : Nat) : Option (Nat × Nat) :=
  (s.portsTo dev).findSome? fun p =>
    ((List.range 1024).find? fun n => (s.fab.tags.look (p * 1024 + n)).isNone).map fun n => (p, n)

/-- Flits leave on a port, each against its credit and with its next sequence number (R248). -/
def State.sendFlits (s : State) (port : Nat) (flits : Nat → List Reply) : State :=
  let l := flits (s.portAt port).spent
  l.foldl State.reply (s.modPort port fun x => { x with spent := x.spent + l.length })

/-- Send a request to a device for a partition: the request flit and its data flits leave on one port; none while no port to the
device has a free tag. The tag is answered with its port's number × 1,024. -/
def State.sendRequest (s : State) (kind dev va size opc : Nat) (payload : List Byte) (tag : Tag) : Option (State × Nat) :=
  (s.freeTag dev).map fun (p, n) =>
    let f : Flit := { kind := BitVec.ofNat 4 kind, dest := BitVec.ofNat 17 dev, src := s.fab.id
                      tenant := (s.par tag.part).tenant, tag := BitVec.ofNat 10 n, va := BitVec.ofNat 54 va
                      size := BitVec.ofNat 3 size, opc := BitVec.ofNat 7 opc }
    let s := { s with fab := { s.fab with tags := s.fab.tags.ins (p * 1024 + n) tag } }
    (s.sendFlits p fun q => .request p q (headerOf f) (payload.take 48) :: dataFlits p q payload, p * 1024 + n)

/-- The flits of an answer: of a read beyond 48 bytes, data flits bring the rest as a write's do (R246; log 93). -/
def answerFlits (port : Nat) (f : Flit) (h : BitVec 128) (e : RemoteEnd) (seq : Nat) : List Reply :=
  match e with
  | .ok n =>
    if f.kind = 0 then .flit port seq h (.ok (n % 256 ^ 48)) :: dataFlits port seq (toBytes (2 ^ f.size.toNat) n)
    else [.flit port seq h e]
  | _ => [.flit port seq h e]

/-- The answer to a request that came on a port leaves on that port, or on the first that leads to its sender (R246, R248). -/
def State.answerFlit (s : State) (port : Nat) (f : Flit) (e : RemoteEnd) : State :=
  let h := headerOf { f with kind := 3, dest := f.src, src := s.fab.id, opc := 0 }
  match (if (s.portAt port).down then (s.portsTo f.src.toNat).head? else some port) with
  | some p => s.sendFlits p (answerFlits p f h e)
  | none => s

/-- VA[70:0] of a fabric address. -/
def remoteAddr (dev va : Nat) : Nat := dev * 2 ^ 54 + va

/-- A read by the executing arm of `2^size` bytes of another device: the request is sent, and the word issues again
once its answer has come. Whether the page is present there shows nowhere before the answer, so whether the lanes park
meanwhile is a free choice (R235; log 66). -/
def State.remoteRead (s : State) (c : Ctx) (dev va size : Nat) : Except Exit Nat :=
  let addr := remoteAddr dev va
  let t (k : TrapKind) : TrapRec := ⟨k, c.todo, vaInfo (2 ^ 71 + addr)⟩
  match s.arm.remote.find? fun r => r.addr == addr with
  | some r => match r.answer with
    | none => .error (.stall s)
    | some (.ok data) => .ok (data % 256 ^ 2 ^ size)
    | some .permission => .error (.trap (t .permission))
    | some .memFault => .error (.trap (t .memFault))
    | some .poisoned => .error (.unc (t .uncorrectable))
  | none =>
    if (s.portsTo dev).isEmpty then .error (.trap (t .memFault))
    else match s.sendRequest 0 dev va size 0 [] ⟨s.grp.key, s.who, s.grp.part, none, s.pm.time, 2 ^ size⟩ with
      | none => .error (.stall s)
      | some (s', n) =>
        let s' := s'.modArm fun a => { a with remote := ⟨0, addr, n, none⟩ :: a.remote }
        if s.choose (2 ^ 74 + addr) then .error (.park s' c.todo [.remote addr]) else .error (.stall s')

end Sys2Proof.Machine
end

