-- ==== Sys2Proof/WellFormed.lean ====
section
/-! DEFINITION. The checks an instruction word must pass that depend on the word alone (R60, R61, R79, R94, R261–R267
and the reference entries). A word that fails one raises ILLEGAL_OP. -/

namespace Sys2Proof

def ITy.wide : ITy → Bool
  | .i64 | .n64 => true
  | _ => false

def ITy.signed : ITy → Bool
  | .i64 | .i32 | .i16 | .i8 => true
  | _ => false

def RedTy.wide : RedTy → Bool
  | .i64 | .n64 => true
  | _ => false

def VReg.even (k : VReg) : Bool := k.val % 2 == 0

/-- A vector source that a 64-bit type may name: no odd vector register (R60, R358). -/
def VSrc.pairOk : VSrc → Bool
  | .v k => VReg.even k
  | _ => true

def VB.pairOk : VB → Bool
  | .src x => x.pairOk
  | .cw _ _ => true

def SB.isCw : SB → Bool
  | .cw _ _ => true
  | .src _ => false

def VB.isCw : VB → Bool
  | .cw _ _ => true
  | .src _ => false

/-- A small integer below zero. -/
def SSrc.negImm : SSrc → Bool
  | .imm c => c.val < 32
  | _ => false

/-- A VC form exists only for variant 0 with TYPE .i64 (R342). -/
def SOp2.wf (x : SOp2) (variant0 : Bool) : Bool := !x.b.isCw || (variant0 && x.ty == .i64)
def SOp3.wf (x : SOp3) (variant0 : Bool) : Bool := !x.b.isCw || (variant0 && x.ty == .i64)

/-- Pairs are even under a 64-bit type, and a VC form exists only for variant 0 with TYPE .i32 (R358, R362). -/
def VOp1.wf (x : VOp1) : Bool := !x.ty.wide || (VReg.even x.d && x.a.pairOk)
def VOp2.wf (x : VOp2) (variant0 : Bool) : Bool :=
  (!x.ty.wide || (VReg.even x.d && x.a.pairOk && x.b.pairOk)) && (!x.b.isCw || (variant0 && x.ty == .i32))
def VOp3.wf (x : VOp3) (variant0 cPair : Bool) : Bool :=
  (!x.ty.wide || (VReg.even x.d && x.a.pairOk && x.b.pairOk && (!cPair || x.c.pairOk))) &&
    (!x.b.isCw || (variant0 && x.ty == .i32))

/-- A VC form exists only for .f32 and carries no .sat (R79, R262, R367). -/
def FOp2.wf (x : FOp2) (r : Rnd) : Bool := !x.b.isCw || (x.ty == .f32 && !r.sat)
def FOp3.wf (x : FOp3) (r : Rnd) : Bool := !x.b.isCw || (x.ty == .f32 && !r.sat)

/-- The rounding field of an operation that does not round (R79). -/
def Rnd.none : Rnd := ⟨.rn, false⟩

def readOrd (o : MemOrd) : Bool := o == .rlx || o == .acq
def writeOrd (o : MemOrd) : Bool := o == .rlx || o == .rel
def rmwOrd (o : MemOrd) : Bool := o != .sc

def VMem.wf (m : VMem) (load : Bool) : Bool :=
  (if load then readOrd m.ord else writeOrd m.ord) && (m.size != .b8 || VReg.even m.r) &&
    (!m.sx || (load && (m.size == .b1 || m.size == .b2)))
def VMemS.wf (m : VMemS) (load : Bool) : Bool :=
  (if load then readOrd m.ord else writeOrd m.ord) && (m.size != .b8 || VReg.even m.r) &&
    (!m.sx || (load && (m.size == .b1 || m.size == .b2)))

/-- The rounding field of VRED and VSCAN by operation and type (R374). -/
def redWf (op : RedOp) (ty : RedTy) (r : Rnd) : Bool :=
  match op, ty with
  | .add, .f32 => true
  | .add, _ => r.mode == .rn
  | .min, _ | .max, _ => r == Rnd.none
  | _, .f32 => false
  | _, _ => r == Rnd.none

/-- Special registers SWR may write (R66). -/
def Spr.writable : Spr → Bool
  | .tkind | .tpcv | .tlm | .tinfo | .qstat | .srseed => true
  | _ => false

/-- Special registers SWR may write only while TM is 1: RW-T (R66). -/
def Spr.trapOnly : Spr → Bool
  | .tkind | .tpcv | .tlm | .tinfo => true
  | _ => false

def CvtKind.isInt : CvtKind → Bool
  | .f32 | .fs => false
  | _ => true
def CvtKind.wide : CvtKind → Bool
  | .i64 | .n64 => true
  | _ => false

def AtTy.wide : AtTy → Bool
  | .i64 | .n64 => true
  | _ => false

/-- The word-only ILLEGAL_OP conditions beside the operand codes, which the decoder reads. The steps that are not
words carry no such condition. -/
def Instr.wf : Instr → Bool
  | .btab _ _ _ n => !n.negImm
  | .yield _ n => !n.negImm
  | .sadd sat x => x.wf (!sat)
  | .ssub sat x => x.wf (!sat)
  | .smul sat x => x.wf (!sat)
  | .smulh x => x.wf true
  | .smad sat x => x.wf (!sat)
  | .sdiv rem x => x.wf (!rem)
  | .slog op x b => op != .mov && (b.isNone == (op == .not)) &&
      (match b with | some (.cw _ _) => op == .and && x.ty == .i64 | _ => true)
  | .sshl x => x.wf true
  | .sshr x => x.wf true
  | .ssra x => x.wf true
  | .smin x => x.wf true
  | .smax x => x.wf true
  | .scmp rel x => x.wf (rel == .eq)
  | .ssel x => x.wf true
  | .sbfx x => x.wf true
  | .sbfi x => x.wf true
  | .swr _ _ r _ => r.writable
  | .mlog _ op _ _ b => b.isNone == (op == .not || op == .mov)
  | .vadd sat x => x.wf (!sat)
  | .vsub sat x => x.wf (!sat)
  | .vmul sat x => x.wf (!sat)
  | .vmulh x => x.wf true
  | .vmad sat x => x.wf (!sat) true
  | .vlog op x b => op != .mov && (b.isNone == (op == .not)) && x.wf &&
      (match b with
       | some (.cw _ _) => op == .and && x.ty == .i32
       | some (.src y) => !x.ty.wide || y.pairOk
       | none => true)
  | .vshl x => x.wf true
  | .vshr x => x.wf true
  | .vsra x => x.wf true
  | .vmin x => x.wf true
  | .vmax x => x.wf true
  | .vabs _ x => x.wf && x.ty.signed
  | .vcmp _ rel ty _ _ a b => (!ty.wide || (a.pairOk && b.pairOk)) && (!b.isCw || (rel == .eq && ty == .i32))
  | .vsel x => x.wf true false
  | .vmov x => x.wf
  | .vmovi _ form d _ => form == .w32 || VReg.even d
  | .vcvt _ dst src r d a fsl => dst != src && ((dst == .fs || src == .fs) == (fsl != 0)) &&
      (!(dst.isInt && src.isInt) || r.mode == .rn) && (!dst.wide || VReg.even d) && (!src.wide || a.pairOk)
  | .vpopc x => x.wf
  | .vclz x => x.wf
  | .vbfx x => x.wf true true
  | .vbfi x => x.wf true true
  | .vfadd x r => x.wf r
  | .vfsub x r => x.wf r
  | .vfmul x r => x.wf r
  | .vfma x r => x.wf r
  | .vfmin x => x.wf Rnd.none
  | .vfmax x => x.wf Rnd.none
  | .vfcmp _ rel ty _ _ _ b => !b.isCw || (rel == .rel .eq && ty == .f32)
  | .vmed3 x => x.wf Rnd.none
  | .vshfl _ wide d a idx => !wide || (VReg.even d && VReg.even a && idx.pairOk)
  | .vbcast _ wide d a _ => !wide || (VReg.even d && VReg.even a)
  | .vred _ op ty r d a => redWf op ty r &&
      (!ty.wide || ((match d with | .v k => VReg.even k | .s _ => true) && a.pairOk))
  | .vscan _ op ty r d a _ => redWf op ty r && (!ty.wide || (VReg.even d && a.pairOk))
  | .vcmpr _ wide d a => !wide || (VReg.even d && VReg.even a)
  | .fswap _ _ _ _ _ slot => slot.val ≥ 8
  | .qnt _ _ _ _ _ _ mode slot _ => mode != .none && slot != 0
  | .dqnt _ _ _ _ _ _ _ slot _ => slot != 0
  | .vld m => m.wf true
  | .vst m => m.wf false
  | .vlds m => m.wf true
  | .vsts m => m.wf false
  | .sld _ _ _ _ _ _ ord _ _ _ => readOrd ord
  | .sst _ _ _ _ _ _ ord _ _ => writeOrd ord
  | .ldsl m => readOrd m.ord
  | .stsl m => writeOrd m.ord
  | .atom _ _ d _ _ _ ty op ord _ _ => rmwOrd ord && (!ty.wide || VReg.even d) &&
      (ty != .f32 || !(op == .and || op == .or || op == .xor))
  | .acas _ _ d _ _ _ wide ord _ _ => rmwOrd ord && VReg.even d && (!wide || d.val % 4 == 0)
  | .ldr m => readOrd m.ord && (!m.wide || VReg.even m.r)
  | .stc m => writeOrd m.ord && (!m.wide || VReg.even m.r)
  | .fence _ _ ord _ => ord != .rlx
  | .cmaint _ _ op _ sco _ _ _ => if op == .cinv then sco == .clu || sco == .dev else sco == .dev || sco == .sys
  | .crib _ _ _ _ _ src n _ => (src.isNone == (n.val == 0)) &&
      (match src with | some k => decide (k.val + (n.val - 1) / 2 ≤ 127) | none => true)
  | .crtouch _ _ _ _ _ warm cold => !(warm && cold)
  | .mma _ _ _ _ _ _ _ fa fb => fa != 0 && fb != 0
  | .mstz _ _ _ _ _ _ _ slot _ => slot != 0
  | .gath _ _ _ _ op _ => op.val % 2 == 0
  | .tray _ _ _ _ pay => match pay with | .v k => VReg.even k | .s _ => true
  | .clauseHeader h => match h with | .endMark => true | .clause _ _ _ n region _ nr => n.val != 0 && !(region && nr)
  | _ => true

/-- The rows that are encoded words: the 128 opcodes and the clause header. -/
def Instr.isWord : Instr → Bool
  | .operationComplete .. | .versionTimeout .. | .registerLineFill .. | .mappedFill .. | .faultResponse ..
  | .faultStall .. | .replayStart .. | .cribWatchHit .. | .engineChunkDone .. | .engineResume .. | .engineBudgetPeriod
  | .waittWake .. | .reservationDeferralEnd .. | .yieldEnd .. | .rclkTick .. | .sectorExpiry .. | .scrubberVisit ..
  | .spillMove .. | .bellExpiry .. | .teamPlacement .. | .preemptionRequest .. | .saveComplete .. | .preemptDeadline ..
  | .teamResume .. | .deficitCreditPeriod | .deficitCompare .. | .bandwidthPeriod .. | .poolPeriod .. | .examStart ..
  | .examEnd .. | .queueSlotFree .. | .notify .. | .hostRclaimRead .. | .hostRcommitWrite .. | .registerWrite ..
  | .hostMemRead .. | .hostMemWrite .. | .hostConfigAccess .. | .linkTraining .. | .fabricRead .. | .fabricWrite ..
  | .fabricAtomic .. | .fabricResponse .. | .fabricData .. | .linkCredit .. | .linkRetry .. | .fabricTimeout ..
  | .partitionCreate .. | .partitionDestroy .. | .partitionFence .. | .partitionReset .. | .moduleCap ..
  | .rackBroadcast .. | .frameRelease .. | .keyEnrol .. | .keyRevoke .. | .attestationLogRoll .. | .preEmptTeam ..
  | .counterRead .. | .spdmGetMeasurements .. | .proctorVerifyDone .. | .fmgDrainDone .. | .regionReconfigured ..
  | .drainTimeout .. | .hbmPatrol .. | .thermalThrottle .. | .thermalRecover .. | .thermalStop .. | .currentLimit ..
  | .externalThrottle .. | .securityAlarm .. | .packageReset | .firmwareVerify .. | .hbmTraining .. | .arrayDieRelease
  | .firstExam .. | .cxlConfigReady | .partitionParameterChange .. | .reservedKindFlit .. | .deviceIdSet .. => false
  | _ => true

end Sys2Proof
end

