-- ==== Sys2Proof/Machine/Operands.lean ====
section
/-! DEFINITION. Operand forms: values of sources (R61, R358), constant-window words (R64, R65), the registers each word
names, the checks made before any effect (R43, R60, R133, R257), and the frame in which every word runs. -/

namespace Sys2Proof

open Machine

/-! ## Values -/

/-- A small integer: code − 32 (R61). -/
def smallInt (c : Fin 64) : Int := (c.val : Int) - 32
def SSrc.value (s : State) : SSrc → Word
  | .s k => s.readS k.val
  | .m k => s.readM k.val
  | .gwid => BitVec.ofNat 64 s.grp.shape.width
  | .zero => 0
  | .imm c => BitVec.ofInt 64 (smallInt c)

/-- Lane `i` of a 32-bit vector source. -/
def VSrc.lane32 (s : State) (i : Nat) : VSrc → Lane
  | .v k => s.readV k.val i
  | .s k => (s.readS k.val).setWidth 32
  | .m k => if (s.readM k.val).getLsbD i then 1 else 0
  | .lane => BitVec.ofNat 32 i
  | .gwid => BitVec.ofNat 32 s.grp.shape.width
  | .zero => 0
  | .imm c => BitVec.ofInt 32 (smallInt c)

/-- Lane `i` of a 64-bit vector source (R358). -/
def VSrc.lane64 (s : State) (i : Nat) : VSrc → Word
  | .v k => s.readPair k.val i
  | .s k => s.readS k.val
  | .m k => if (s.readM k.val).getLsbD i then 1 else 0
  | .lane => BitVec.ofNat 64 i
  | .gwid => BitVec.ofNat 64 s.grp.shape.width
  | .zero => 0
  | .imm c => BitVec.ofInt 64 (smallInt c)

def MSrc.value (s : State) : MSrc → Word
  | .m k => s.readM k.val
  | .zero => 0
def SBase.value (s : State) : SBase → Word
  | .s k => s.readS k.val
  | .zero => 0

end Sys2Proof

namespace Sys2Proof.Machine

/-! ## Behind an MSTZ (R170; log 79) -/

/-- Whether an operation is an MSTZ. -/
def Op.isStz (o : Op) : Bool := match o.kind with | .coll _ _ (.mstz ..) _ _ _ => true | _ => false

/-- Outstanding MSTZ operations of a control thread, by number: their writes are still to come. -/
def Group.stzOps (g : Group) (w : Who) : List (Nat × Op) := g.ops.filter fun x => x.2.who == w && x.2.isStz

/-- Whether an MSTZ of a control thread, older than an operation, is withdrawn and has still to be issued again (R147). -/
def Group.stzOwed (g : Group) (w : Who) (id : Nat) : Bool :=
  let old (r : Redo) : Bool := r.stz && r.who == w && decide (r.id < id)
  g.redo.any old || (match (g.arm w).back with | some b => old b.word | none => false)

/-- Whether an MSTZ of a control thread that was issued before an operation has not written yet. -/
def Group.stzDue (g : Group) (w : Who) (id : Nat) : Bool :=
  (g.stzOps w).any (fun x => decide (x.1 < id)) || g.stzOwed w id

/-- The MSTZ operations of a whole group, which hold its writes back under revision 2 (R184). -/
def Group.stzAll (g : Group) : List (Nat × Op) := g.ops.filter fun x => x.2.isStz

/-- The place of an MSTZ's write: core, descriptor, offset and bytes. -/
def Op.stzSpan (o : Op) : Option (Nat × Nat × Nat × Nat) :=
  match o.kind with
  | .coll _ _ (.mstz c d ofs n _ _ _ _ _ _) _ _ _ => some (c, d, ofs, n)
  | _ => none

/-- Lines of memory that bytes of a mapped slate alias: those its sectors hold, or where its pages lie now (R113). -/
def State.stzLines (s : State) (core id ofs n : Nat) : List Nat :=
  match s.desc? core id with
  | none => []
  | some d =>
    if d.kind ≠ .mapped then []
    else (List.range ((n + 127) / 128)).filterMap fun k =>
      let i := ofs / 128 + k
      if (d.sec i).present then some (d.sec i).line
      else match (s.walk s.grp.part (d.mapva + 128 * i)).1 with | .leaf pa _ => some (pa / 128) | _ => none

/-- Whether an outstanding MSTZ of the executing arm will write some line of memory. -/
def State.stzOnLines (s : State) (lines : List Nat) : Bool :=
  (s.grp.stzOps s.who).any fun y => match y.2.stzSpan with
    | some (c, d, ofs, n) => (s.stzLines c d ofs n).any lines.contains
    | none => false

/-- Whether accesses of the executing arm wait for an MSTZ wherever they fall: behind a FENCE (R170 (e)), or a write under
revision 2 (R170 (g), R184). -/
def State.stzFenced (s : State) (writes : Bool) : Bool :=
  (s.grp.ops.any fun x => x.2.who == s.who && (s.grp.stzOps s.who).any (fun y => decide (y.1 < x.1)) &&
    match x.2.kind with | .fence all => all || writes | _ => false) ||
  (writes && s.grp.shape.mmrev == 2 && !s.grp.stzAll.isEmpty)

/-! ## Global reads of a control thread -/

/-- The tests of a global access of `n` bytes that a control thread makes for the lanes `c.todo` (R274 steps 3, 4, 9):
the physical address and the state with its translation used. No scalar reaches a fabric address; a constant
window that does is served by `cwFetch`. -/
def State.globalAt (s : State) (c : Ctx) (a : Acc) (va n : Nat) : Except Exit (Nat × State) :=
  let p := s.grp.part
  let t (k : TrapKind) (at' : Nat) : TrapRec := ⟨k, c.todo, vaInfo at'⟩
  match c.allPages.head? with
  | some q => .error (.trap (t .memFault (if localVa va / 8192 = q then va else q * 8192)))
  | none => match s.translate p s.core a va with
    | .ok pa key =>
      if s.stzFenced (a != .read) || s.stzOnLines [pa / 128] then .error (.stall s) else
      let s' := (s.useVa p s.core va pa key).recall (pa / 128)
      if a != .write && s'.poisonAt pa n then .error (.trapIn s' (t .uncorrectable va)) else .ok (pa, s')
    | .park level =>
      let (s', id) := s.ticketFor p va a.code level s.core
      .error (.park s' c.todo [.ticket id (lanesBelow 64)])
    | .trap k => .error (.trapIn (s.claimWalk p va) (t k va))
    | .noPage => .error (.trapIn (s.claimWalk p va) (t .memFault va))
    | .remote _ _ => .error (.trap (t .memFault va))

/-- A word of a constant window read afresh, locally or through the fabric window, and whether the core may keep it
(R64, R183, R235). The record block of window 7 stands at a physical address of the CFE's area, under the partition's key
(R190; log 38). -/
def State.cwFetch (s : State) (c : Ctx) (win va : Nat) : Except Exit (BitVec 32 × State × Bool) :=
  if win = 7 then
    let key := (s.par s.grp.part).hdmKey
    if !s.mem.frameOk va key then .error (.trap ⟨.keyConflict, c.todo, vaInfo va⟩)
    else if s.poisonAt va 4 then .error (.unc ⟨.uncorrectable, c.todo, vaInfo va⟩)
    else .ok (BitVec.ofNat 32 (s.mem.num va 4), { s with mem := s.mem.claim va key }, true)
  else
  match (if c.rejected.isEmpty then s.translate s.grp.part s.core .read va else .noPage) with
  | .remote dev a => (s.remoteRead c dev a 2).map fun x => (BitVec.ofNat 32 x, s, false)
  | _ => (s.globalAt c .read va 4).map fun r => (BitVec.ofNat 32 (r.2.mem.num r.1 4), r.2, true)

/-- Keep a constant word in the core's cache of 64 KiB, 16,384 words; the one kept longest ago goes (R11, R65; log 10). -/
def State.keepConst (s : State) (key : Nat × Nat) (x : BitVec 32) : State :=
  s.modCore s.core fun y => { y with ccache := ((key, x) :: y.ccache.filter fun q => q.1 != key).take 16384 }

/-- A word of a constant window: R64's check and address, and a core's choice between a cached and a fresh word (R65). -/
def State.cwRead (s : State) (c : Ctx) (win o : Nat) : Except Exit (BitVec 32 × State) :=
  let w := (s.grp.cw.look win).getD ⟨0, 0⟩
  let va := w.base + 4 * o
  let key := (s.grp.part + (if win = 7 then 16 else 0), va)
  let kept := assoc (s.coreAt s.core).ccache key
  if w.len ≤ 4 * o then .error (.trap ⟨.cwRange, c.todo, BitVec.ofNat 64 (win + o * 8)⟩)
  else if 2 ^ 72 ≤ va then .error (.trap ⟨.memFault, c.todo, vaInfo va⟩)
  else if kept.isSome && s.choose (2 ^ 72 + va) then .ok (kept.getD 0, s)
  else (s.cwFetch c win va).map fun r => (r.1, if r.2.2 then r.2.1.keepConst key r.1 else r.2.1)

end Sys2Proof.Machine

namespace Sys2Proof

open Machine

/-- B of a class A scalar word; a constant word is sign- or zero-extended by the type's signedness (R342). -/
def SB.read (s : State) (c : Ctx) (signed : Bool) : SB → Except Exit (Word × State)
  | .src x => .ok (x.value s, s)
  | .cw w o => (s.cwRead c w.val o.toNat).map fun r => (if signed then r.1.signExtend 64 else r.1.setWidth 64, r.2)

/-- B of a class A vector word, as a value for each lane. -/
def VB.read (s : State) (c : Ctx) : VB → Except Exit ((Nat → Lane) × (Nat → Word) × State)
  | .src x => .ok (fun i => x.lane32 s i, fun i => x.lane64 s i, s)
  | .cw w o => (s.cwRead c w.val o.toNat).map fun r => (fun _ => r.1, fun _ => r.1.setWidth 64, r.2)

/-! ## Registers a word names -/

/-- What is checked of a word before it runs: guard, vector registers read and written, scalars named, accumulator
named, the X bit of a class L word, flags named, whether it acts on lanes (and so runs even with none selected), whether a
class L word is a control-thread one (R28), whether it is a release, or a write, for an MSTZ before it (R170), whether
a monitor wave or a replay group may execute it, and whether only the partition manager's context may (R267). -/
structure Machine.Info where
  g : Guard
  vs : List Nat := []
  vd : List Nat := []
  ss : List Nat := []
  z : Option Nat := none
  long : Option Bool := none
  flags : List Nat := []
  lanewise : Bool := false
  ctl : Bool := false
  rel : Bool := false
  wr : Bool := false
  mon : Bool := false
  rep : Bool := true
  mgr : Bool := false

def SSrc.sregs : SSrc → List Nat
  | .s k => [k.val] | _ => []
def SBase.sregs : SBase → List Nat
  | .s k => [k.val] | .zero => []
def SB.sregs : SB → List Nat
  | .src x => x.sregs | .cw _ _ => []
def VSrc.sregs : VSrc → List Nat
  | .s k => [k.val] | _ => []
/-- Vector registers of a source: a pair where the type is 64-bit. -/
def VSrc.vregs (wide : Bool) : VSrc → List Nat
  | .v k => if wide then [k.val, k.val + 1] else [k.val]
  | _ => []
def VB.sregs : VB → List Nat
  | .src x => x.sregs | .cw _ _ => []
def VB.vregs (wide : Bool) : VB → List Nat
  | .src x => x.vregs wide | .cw _ _ => []
/-- Registers of a vector operand or destination of `n` consecutive registers. -/
def vrun (k : VReg) (n : Nat) : List Nat := (List.range n).map fun j => k.val + j
def vdst (k : VReg) (wide : Bool) : List Nat := vrun k (if wide then 2 else 1)

def SOp1.info (x : SOp1) : Info := { g := x.g, ss := x.d.val :: x.a.sregs, mon := true }
def SOp2.info (x : SOp2) : Info := { g := x.g, ss := x.d.val :: (x.a.sregs ++ x.b.sregs), mon := true }
def SOp3.info (x : SOp3) : Info := { g := x.g, ss := x.d.val :: (x.a.sregs ++ x.b.sregs ++ x.c.sregs), mon := true }
def VOp1.info (x : VOp1) : Info :=
  { g := x.g, vs := x.a.vregs x.ty.wide, vd := vdst x.d x.ty.wide, ss := x.a.sregs, lanewise := true, mon := true }
def VOp2.info (x : VOp2) : Info :=
  { g := x.g, vs := x.a.vregs x.ty.wide ++ x.b.vregs x.ty.wide, vd := vdst x.d x.ty.wide
    ss := x.a.sregs ++ x.b.sregs, lanewise := true, mon := true }
def VOp3.info (x : VOp3) (cPair : Bool) : Info :=
  { g := x.g, vs := x.a.vregs x.ty.wide ++ x.b.vregs x.ty.wide ++ x.c.vregs (x.ty.wide && cPair)
    vd := vdst x.d x.ty.wide, ss := x.a.sregs ++ x.b.sregs ++ x.c.sregs, lanewise := true, mon := true }
def FOp1.info (x : FOp1) : Info :=
  { g := x.g, vs := x.a.vregs false, vd := [x.d.val], ss := x.a.sregs, lanewise := true }
def FOp2.info (x : FOp2) : Info :=
  { g := x.g, vs := x.a.vregs false ++ x.b.vregs false, vd := [x.d.val], ss := x.a.sregs ++ x.b.sregs, lanewise := true }
def FOp3.info (x : FOp3) : Info :=
  { g := x.g, vs := x.a.vregs false ++ x.b.vregs false ++ x.c.vregs false, vd := [x.d.val]
    ss := x.a.sregs ++ x.b.sregs ++ x.c.sregs, lanewise := true }

end Sys2Proof

namespace Sys2Proof.Machine

/-! ## Checks before any effect -/

/-- A vector register within its limit: declared, and outside the queue window (R44, R60); v0–v15 in a monitor wave. -/
def State.vregOk (s : State) (k : Nat) : Bool :=
  match s.who with
  | .mon => decide (k < 16)
  | _ =>
    let n := s.grp.shape.vregs
    decide (k < n) && (s.grp.mon.st == .absent || decide (k < n - (s.grp.shape.qwin + 1)))

/-- The ILLEGAL_OP conditions of a word's registers and place (R43, R60, R133, R257, R267). -/
def State.infoOk (s : State) (i : Info) : Bool :=
  (i.vs ++ i.vd).all s.vregOk &&
  (match i.z with | some z => decide (z < s.grp.shape.nacc) | none => true) &&
  (match i.long with
   | some x => (if x then s.arm.cl.setb else s.arm.cl.seta).isSome
   | none => true) &&
  (s.who != .mon || (i.mon && i.ss.all (· < 32) && i.flags.all (· < 4))) &&
  (s.grp.replayId.isNone || s.who == .mon || i.rep) &&
  (!i.mgr || (s.par s.grp.part).manager)

/-- The flag a class L word counts on (R257). -/
def State.flagOf (s : State) (x : Bool) : Nat := ((if x then s.arm.cl.setb else s.arm.cl.seta)).getD 0

/-- Whether a word must wait before it runs: a scalar still to be written, a flag at 63, an accumulator copied out
(R31, R132, R157); and for the arm's MSTZ before it, a release, or under revision 2 a write (R170; log 79). -/
def State.mustWait (s : State) (i : Info) : Bool :=
  i.ss.any (fun r => (s.grp.busyS (s.who == .mon)).contains r) ||
  (match i.long with | some x => decide (63 ≤ s.arm.flag (s.flagOf x)) | none => false) ||
  (match i.z with | some z => s.grp.zout.contains z | none => false) ||
  (i.rel && !(s.grp.stzOps s.who).isEmpty) || (i.wr && s.grp.shape.mmrev == 2 && !s.grp.stzAll.isEmpty)

/-- A body: what a word does once nothing stops it from running. -/
abbrev Body := Ctx → State → Except Exit Done

/-- The outcome an aborted replay left for this instruction (R136). -/
def replayExit (c : Ctx) : ReplayFail → Exit
  | .trap k info => .trap ⟨k, c.todo, info⟩
  | .restart info => .unc ⟨.uncorrectable, c.todo, info⟩
  | .formatAbsent info => .absent ⟨.formatAbsent, c.todo, info⟩

/-- Vector lines a word reads that are not in the register cache and not zero (R68). -/
def State.linesAbsent (s : State) (i : Info) : List Nat :=
  (i.vs.map (lineNo s.who)).filter fun l => match s.grp.lines.look l with | some x => !x.cached | none => false

/-- A word that has run used the lines it read, and wrote those of its destination: they are in the register cache and
dirty, and one written in every lane of the width no longer holds an error (R68, R118, R239). -/
def usedLines (i : Info) (c : Ctx) (s : State) : State :=
  let now := s.cnt.steps
  let dst := if i.long.isSome || c.todo = 0 then [] else i.vd.map (lineNo s.who)
  let s := s.modGrp fun g => { g with
    lines := (g.lines.map fun (k, x) => (k, if (i.vs.map (lineNo s.who)).contains k then { x with used := now } else x)) }
  let s := if dst.isEmpty then s else s.modGrp fun g =>
    { g with lines := dst.foldl (fun t n => t.ins n ⟨true, true, false, now⟩) g.lines }
  if !s.grp.badLines.isEmpty && decide (c.todo = lanesBelow s.grp.shape.width) then
    s.modGrp fun g => { g with badLines := g.badLines.filter fun l => !(i.vd.map (lineNo s.who)).contains l }
  else s

def Done.lines (i : Info) (c : Ctx) : Done → Done
  | .next s => .next (usedLines i c s)
  | .goto s pc => .goto (usedLines i c s) pc
  | .here s => .here s

/-- Whether a body raises a trap condition, and one that comes before the uncorrectable error of an operand (R224). -/
def Exit.traps : Exit → Bool
  | .trap _ | .trapIn _ _ | .unc _ | .absent _ => true
  | .stall _ | .park _ _ _ => false
def Exit.first : Exit → Bool
  | .trap t => decide (trapRank t.kind < 12)
  | .trapIn _ t => decide (trapRank t.kind < 12)
  | .absent _ | .stall _ => true
  | _ => false

/-- Run the body of a word once the vector lines it reads are present (R68, R224, R239). -/
def State.runLines (s : State) (i : Info) (c : Ctx) (body : Body) : Except Exit Done :=
  let absent := s.linesAbsent i
  let bad := (i.vs.map (lineNo s.who)).any s.grp.badLines.contains
  match body c s with
  | .error e =>
    if bad && !e.first then .error (.unc ⟨.uncorrectable, c.todo, 0⟩)
    else if absent.isEmpty || e.traps then .error e
    else .error (.park s c.todo (absent.map .regLine))
  | .ok d =>
    if bad then .error (.unc ⟨.uncorrectable, c.todo, 0⟩)
    else if absent.isEmpty then .ok (d.lines i c)
    else .error (.park s c.todo (absent.map .regLine))

/-- Run a word whose operand checks have passed. A class L word that selects no lane completes empty (R31), and a scalar
or control word that selects none has no effect; unguarded by m0, either executes if it is a control-thread word (R28,
R273). DESIGN CHOICE (log 82), unsafe: a word that completes empty leaves no region (R48), ends no deferral (R39), and
takes no element positions of the generator (R82). -/
def State.runBody (s : State) (i : Info) (c : Ctx) (body : Body) : Except Exit Done :=
  if i.lanewise then s.runLines i c body
  else match i.long with
    | some x =>
      if c.sel = 0 && !(i.ctl && s.executes i.g c.sel) then .ok (.next (s.addOp (s.flagOf x) .plain [] []))
      else s.runLines i c body
    | none => if s.executes i.g c.sel then s.runLines i c body else .ok (.next s)

/-- THE FRAME OF EVERY INSTRUCTION WORD. Without a live group there is no control thread to execute it. A parked arm
issues nothing. A replayed word acts for its unfinished lanes only. -/
def wordOp (i : Info) (body : Body) (s : State) : Host.Outcome State Fault Refusal :=
  if !s.grp.live then .fault .noGroup
  else
    let sel := s.selOf i.g
    if !s.infoOk i then .next (s.raise s.arm.pc s.arm.cl (illegal sel))
    else match s.arm.park with
      | none => if s.mustWait i then .next s else .next (s.finish ⟨sel, sel, []⟩ (s.runBody i ⟨sel, sel, []⟩ body))
      | some p =>
        if !p.causes.isEmpty || s.mustWait i then .next s
        else
          let c : Ctx := ⟨sel, sel &&& p.lanes, p.rejected⟩
          match p.fail with
          | some f => .next (s.finish c (.error (replayExit c f)))
          | none => .next (s.finish c (s.runBody i c body))

/-- A scalar result: the word writes one scalar and goes on. -/
def setS (d : SReg) (x : Word) (s : State) : Except Exit Done := .ok (.next (s.writeS d.val x))

/-- A class L word that has done its work: it is counted on its flag, with the registers it will write. -/
def longDone (x : Bool) (slots : List Nat) (wb : List WriteBack) (s : State) : Except Exit Done :=
  .ok (.next (s.addOp (s.flagOf x) .plain slots wb))

end Sys2Proof.Machine
end

