-- ==== Sys2Proof/Machine/Flags.lean ====
section
/-! DEFINITION. Completion flags (R31, R63): which flags read zero, the traps that are delivered at a flag's tests
(R156, R194), and the hall passes a completing MMA returns (R149, R150). -/

namespace Sys2Proof.Machine

/-- Whether every flag of a set reads zero. -/
def Arm.clear (a : Arm) (wait : BitVec 12) : Bool :=
  (List.range 12).all fun f => !wait.getLsbD f || a.flag f == 0

/-! ## Failures of engine requests (R156) -/

/-- The oldest command record that ended failed and satisfies a test. -/
def Group.failedRec (g : Group) (p : Nat → CmdRec → Bool) : Option (Nat × CmdRec) :=
  minBy (fun x => x.2.op) (g.eng.recs.filter fun x => x.2.st == 3 && p x.1 x.2)

/-- Free a command record; it leaves the open set and every batch (R162). -/
def EngBlock.free (e : EngBlock) (r : Nat) : EngBlock :=
  let off : BitVec 32 := ~~~(BitVec.ofNat 32 (2 ^ r))
  { openSet := e.openSet &&& off
    batches := (e.batches.map fun (k, b) => (k, b &&& off)).filter fun x => x.2 != 0
    recs := e.recs.del r }

/-- The trap of a failed request: TLM every lane of the width; engine, flag and chunk in TINFO. -/
def CmdRec.trapOf (r : CmdRec) (width : Nat) : TrapRec :=
  ⟨r.fkind.getD .memFault, lanesBelow width,
    BitVec.ofNat 64 (r.engine + (if r.gather then 0x80 else 0) + r.flag * 2 ^ 8 + r.fchunk % 2 ^ 32 * 2 ^ 16)⟩

/-- Deliver a failure at the executing arm's word; a poisoned one restarts a region (R50). While a restart waits for
operations the record stays. -/
def State.deliverEng (s : State) (r : Nat) (c : CmdRec) : State :=
  let t := c.trapOf s.grp.shape.width
  let restarts := c.fpoison && s.grp.rg.inside && decide (s.grp.rg.restarts < 4)
  if restarts && !s.grp.ops.isEmpty then s
  else
    let s := s.modGrp fun g => { g with eng := g.eng.free r }
    if c.fpoison then s.consume t else s.raise s.arm.pc s.arm.cl t

/-- The failure to deliver at a point that satisfies a test, if there is one; while TM is 1 it kills the group (R228). -/
def State.engFailure (s : State) (p : Nat → CmdRec → Bool) : Option State :=
  (s.grp.failedRec p).map fun x => s.deliverEng x.1 x.2

/-! ## DEP_UNDERFLOW (R194) -/

/-- The oldest completed underflow of the executing arm is delivered before its next word issues, also where the fetch of
that word has parked; a word with finished lanes completes first. While TM is 1 it kills the group (R228). -/
def State.depUnderflow (s : State) : Option State :=
  match s.arm.under with
  | [] => none
  | l :: rest =>
    if (match s.arm.park with | some p => decide (p.lanes ≠ lanesBelow 64) | none => false) then none
    else
      let s := s.modArm fun a => { a with under := rest }
      some (s.raise s.arm.pc s.arm.cl ⟨.depUnderflow, l, 1⟩)

/-! ## Hall passes (R149, R150) -/

/-- Passes a group holds. -/
def Group.held (g : Group) : Nat := g.passes + if g.passReady then 1 else 0

/-- Passes held over the package, by a partition, and on a core. -/
def State.passesUsed (s : State) : Nat := (s.groups.map Group.held).sum
def State.passesOf (s : State) (p : Nat) : Nat := ((s.groups.filter fun g => g.part == p).map Group.held).sum
def State.passesOn (s : State) (c : Nat) : Nat := ((s.groups.filter fun g => g.key.core == c).map Group.held).sum

/-- Whether a waiting group may be given a pass: its partition is below its quota and its core below four (R149, R219). -/
def State.mayPass (s : State) (g : Group) : Bool :=
  g.passWait && !g.passReady && decide (s.passesOn g.key.core < 4) &&
    (match s.parts.look g.part with | some p => decide (s.passesOf g.part < p.quota) | none => false)

/-- The order of R150: replay groups, then clusters round-robin from the one after the last served, then age. DESIGN CHOICE
(log 109), unsafe: several waiting replay groups are served in the order in which the model lists them. -/
def State.passOrder (s : State) (g : Group) : Nat :=
  if g.replayId.isSome then 0
  else (1 + (clusterOfCore g.key.core + 47 - s.pm.lastCluster) % 48) * 2 ^ 72 + g.team * 32 + g.gid

/-- Hand out free passes to the waiting requests in the order of R150. -/
def State.grantPasses (s : State) : Nat → State
  | 0 => s
  | fuel + 1 =>
    if s.pm.pool ≤ s.passesUsed then s
    else match minBy s.passOrder (s.groups.filter s.mayPass) with
      | none => s
      | some g =>
        let s := s.modKey g.key fun h => { h with passWait := false, passReady := true }
        let s := if g.replayId.isSome then s else { s with pm := { s.pm with lastCluster := clusterOfCore g.key.core } }
        s.grantPasses fuel

/-- Element positions of an MSTZ. -/
def stzCount (form : StzForm) (count : Nat) : Nat := match form with | .packed => 64 * count | _ => 2048

/-- An MSTZ that is taken back has had no effect: it gives its draws back (R82, R146, R147). DESIGN CHOICE (log 76), unsafe:
where the generator has been used or reseeded since, it stays as it is. -/
def Group.undraw (g : Group) : CollOp → Group
  | .mstz _ _ _ _ _ count form _ r gen =>
    if r.mode = .sr ∧ g.gen = (srDraws gen (stzCount form count)).2 then { g with gen := gen } else g
  | _ => g

/-- A collective instruction in its touch phase or version wait is withdrawn: it returns its pass and its flag count, and issues
again later (R132, R147). One that has read its accumulator is in its passes. -/
def Group.withdrawOp (g : Group) (id : Nat) : Group :=
  match g.ops.look id with
  | some o => match o.kind with
    | .coll z _ op pass none _ =>
      { (g.undraw op).setArm o.who ((g.arm o.who).decFlag o.flag) with
        ops := g.ops.del id, passes := g.passes - (if pass then 1 else 0)
        redo := sortBy (·.id) (⟨o.who, z, id, o.word, o.cl, o.isStz⟩ :: g.redo) }
    | _ => g
  | none => g

/-- The accumulator of a collective instruction, and whether it is in its passes. -/
def Op.collZ (o : Op) : Option (Nat × Bool) :=
  match o.kind with | .coll z _ _ _ snap _ => some (z, snap.isSome) | _ => none

/-- Withdraw the collective instructions on some accumulators, the youngest first. -/
def Group.withdrawAll (g : Group) (zs : Nat → Bool) : Group :=
  g.ops.keys.reverse.foldl (fun h id => match (h.ops.look id).bind Op.collZ with
    | some (z, false) => if zs z then h.withdrawOp id else h
    | _ => h) g

/-- Request a pass for the executing group, and hand out what is free. -/
def State.askPass (s : State) : State :=
  (if s.grp.passReady then s else s.modGrp fun g => { g with passWait := true }).grantPasses 768

end Sys2Proof.Machine
end

