-- ==== Sys2Proof/Machine/Arith.lean ====
section
/-! DEFINITION. Integer operations shared by the scalar and vector units: exact results, narrowing and extension by type
(R339–R341, R360–R362, R366), and bitwise operations (R324). -/

namespace Sys2Proof

open Machine

def ITy.bits : ITy → Nat
  | .i64 | .n64 => 64 | .i32 | .n32 => 32 | .i16 | .n16 => 16 | .i8 | .n8 => 8

/-- The low w bits of a value, read as the type says. -/
def ITy.read (t : ITy) (x : Nat) : Int := if t.signed then signedOf t.bits x else ((x % 2 ^ t.bits : Nat) : Int)

def ITy.lo (t : ITy) : Int := if t.signed then -((2 ^ (t.bits - 1) : Nat) : Int) else 0
def ITy.hi (t : ITy) : Int := if t.signed then ((2 ^ (t.bits - 1) : Nat) : Int) - 1 else ((2 ^ t.bits : Nat) : Int) - 1

/-- Saturate to the range of a type. -/
def ITy.clamp (t : ITy) (r : Int) : Int := if r < t.lo then t.lo else if t.hi < r then t.hi else r

/-- An exact result narrowed to w bits, wrapping or saturating, and read back under the type. -/
def ITy.narrow (t : ITy) (sat : Bool) (r : Int) : Int := if sat then t.clamp r else t.read (wrapInt t.bits r)

/-- |SDIV| and .rem: a ÷ b truncated toward zero, and a − b × quotient; b is not 0. -/
def divTrunc (rem : Bool) (a b : Int) : Int := if rem then a - b * Int.tdiv a b else Int.tdiv a b

/-- A bitwise operation on w-bit patterns; `not` and `mov` read A alone. -/
def LogOp.bits (op : LogOp) (a b : Word) : Word :=
  match op with
  | .and => a &&& b | .or => a ||| b | .xor => a ^^^ b | .andn => a &&& ~~~b | .orn => a ||| ~~~b
  | .xnor => ~~~(a ^^^ b) | .not => ~~~a | .mov => a

def Rel.holds (r : Rel) (a b : Int) : Bool :=
  match r with
  | .eq => a == b | .ne => a != b | .lt => decide (a < b) | .le => decide (a ≤ b) | .gt => decide (b < a) | .ge => decide (b ≤ a)

def popcount (x w : Nat) : Nat := ((List.range w).filter fun i => bitB x i).length
/-- Leading zeros among w bits; w for zero. -/
def leadingZeros (x w : Nat) : Nat := if x % 2 ^ w = 0 then w else w - 1 - Nat.log2 (x % 2 ^ w)

/-! Operations of two or three integers under a type; shift counts, positions and lengths are unsigned. -/

def opMulh (w : Nat) (a b : Int) : Int := a * b / ((2 ^ w : Nat) : Int)
def opShl (w : Nat) (a : Int) (n : Nat) : Int := if w ≤ n then 0 else a * ((2 ^ n : Nat) : Int)
def opShr (w : Nat) (a : Int) (n : Nat) : Int := if w ≤ n then 0 else ((wrapInt w a / 2 ^ n : Nat) : Int)
def opSra (w : Nat) (a : Int) (n : Nat) : Int := signedOf w (wrapInt w a) / ((2 ^ min n (w - 1) : Nat) : Int)

/-- Field of a at position `pos` of length `len` (R341, R366). -/
def opBfx (t : ITy) (a : Int) (pos len : Nat) : Int :=
  let w := t.bits
  if len = 0 ∨ w ≤ pos then 0
  else
    let n := min len (w - pos)
    let f := wrapInt w a / 2 ^ pos % 2 ^ n
    if t.signed then signedOf n f else f

/-- d with the field at `pos` of length `len` replaced by the low bits of a. -/
def opBfi (t : ITy) (d a : Int) (pos len : Nat) : Int :=
  let w := t.bits
  if len = 0 ∨ w ≤ pos then d
  else
    let n := min len (w - pos)
    let x := wrapInt w d
    t.read (x - x / 2 ^ pos % 2 ^ n * 2 ^ pos + wrapInt w a % 2 ^ n * 2 ^ pos)

/-- An integer as a 64-bit word: its value modulo 2^64, so a signed value is sign-extended (R340). -/
def wordOf (r : Int) : Word := BitVec.ofInt 64 r

end Sys2Proof
end

