-- ==== Sys2Proof/Decode.lean ====
section
/-! DEFINITION. Instruction words: the layouts of R255, R259 and R261, the decoder, and after it the encoder. Words are
read and built as natural numbers, field by field. -/

namespace Sys2Proof

/-- Why a word is no instruction (R267). Every one of them raises ILLEGAL_OP. -/
inductive DecodeError where
  | unassignedOpcode | xBit | operandCode | reservedField | illFormed | truncated
deriving DecidableEq, Repr

/-- Bits [lo + n − 1 : lo] of a word (R5). -/
def fld (w lo n : Nat) : Nat := w / 2 ^ lo % 2 ^ n

/-! ## Word layouts (R259, R261) -/

/-- The top fields: OP, GM, GN, X (R259). -/
structure TopW where
  (op gm : Nat) (gn x : Bool)
deriving DecidableEq, Repr

/-- V and E formats share one layout: D A B C SUB FSL MOD, or P0 P1 P2 P3 SUB F1 F2. -/
structure VW where
  (d a b c sub fa fb : Nat)
deriving DecidableEq, Repr

/-- VC format (R262). -/
structure VcW where
  (d a c win ofs mod : Nat)
deriving DecidableEq, Repr

/-- I format. -/
structure IW where
  (d sub imm : Nat)
deriving DecidableEq, Repr

/-- M format (R263). -/
structure MW where
  (d base idx size ord sco sub off : Nat)
deriving DecidableEq, Repr

/-- B format (R264). -/
structure BW where
  (cond cm cs sub off : Nat)
deriving DecidableEq, Repr

def TopW.parse (w : Nat) : TopW := ⟨fld w 56 8, fld w 52 4, fld w 51 1 == 1, fld w 50 1 == 1⟩
def VW.parse (w : Nat) : VW := ⟨fld w 41 9, fld w 32 9, fld w 23 9, fld w 14 9, fld w 8 6, fld w 4 4, fld w 0 4⟩
def VcW.parse (w : Nat) : VcW := ⟨fld w 41 9, fld w 32 9, fld w 23 9, fld w 20 3, fld w 3 17, fld w 0 3⟩
def IW.parse (w : Nat) : IW := ⟨fld w 41 9, fld w 32 9, fld w 0 32⟩
def MW.parse (w : Nat) : MW :=
  ⟨fld w 41 9, fld w 32 9, fld w 23 9, fld w 20 3, fld w 17 3, fld w 14 3, fld w 10 4, fld w 0 10⟩
def BW.parse (w : Nat) : BW := ⟨fld w 46 4, fld w 42 4, fld w 33 9, fld w 32 1, fld w 0 32⟩

/-! ## Operand codes (R266) -/

def SReg.ofCode (c : Nat) : Option SReg := if 256 ≤ c ∧ c < 384 then some (Fin.ofNat 128 (c - 256)) else none
def VReg.ofCode (c : Nat) : Option VReg := if c < 256 then some (Fin.ofNat 256 c) else none
def MReg.ofCode (c : Nat) : Option MReg := if 384 ≤ c ∧ c < 400 then some (Fin.ofNat 16 (c - 384)) else none

def SSrc.ofCode (c : Nat) : Option SSrc :=
  if 256 ≤ c ∧ c < 384 then some (.s (Fin.ofNat 128 (c - 256)))
  else if 384 ≤ c ∧ c < 400 then some (.m (Fin.ofNat 16 (c - 384)))
  else if c = 401 then some .gwid
  else if c = 402 then some .zero
  else if 448 ≤ c ∧ c < 512 then some (.imm (Fin.ofNat 64 (c - 448)))
  else none

def VSrc.ofCode (c : Nat) : Option VSrc :=
  if c < 256 then some (.v (Fin.ofNat 256 c))
  else if c < 384 then some (.s (Fin.ofNat 128 (c - 256)))
  else if c < 400 then some (.m (Fin.ofNat 16 (c - 384)))
  else if c = 400 then some .lane
  else if c = 401 then some .gwid
  else if c = 402 then some .zero
  else if 448 ≤ c ∧ c < 512 then some (.imm (Fin.ofNat 64 (c - 448)))
  else none

def MSrc.ofCode (c : Nat) : Option MSrc :=
  if 384 ≤ c ∧ c < 400 then some (.m (Fin.ofNat 16 (c - 384))) else if c = 402 then some .zero else none
def SBase.ofCode (c : Nat) : Option SBase :=
  if 256 ≤ c ∧ c < 384 then some (.s (Fin.ofNat 128 (c - 256))) else if c = 402 then some .zero else none

def SReg.code (k : SReg) : Nat := 256 + k.val
def VReg.code (k : VReg) : Nat := k.val
def MReg.code (k : MReg) : Nat := 384 + k.val
def SSrc.code : SSrc → Nat
  | .s k => 256 + k.val | .m k => 384 + k.val | .gwid => 401 | .zero => 402 | .imm c => 448 + c.val
def VSrc.code : VSrc → Nat
  | .v k => k.val | .s k => 256 + k.val | .m k => 384 + k.val | .lane => 400 | .gwid => 401 | .zero => 402
  | .imm c => 448 + c.val
def MSrc.code : MSrc → Nat
  | .m k => 384 + k.val | .zero => 402
def SBase.code : SBase → Nat
  | .s k => 256 + k.val | .zero => 402

/-! ## Field codes -/

def ITy.ofS : Nat → ITy
  | 0 => .i64 | 1 => .n64 | 2 => .i32 | 3 => .n32 | 4 => .i16 | 5 => .n16 | 6 => .i8 | _ => .n8
def ITy.codeS : ITy → Nat
  | .i64 => 0 | .n64 => 1 | .i32 => 2 | .n32 => 3 | .i16 => 4 | .n16 => 5 | .i8 => 6 | .n8 => 7
def ITy.ofV : Nat → ITy
  | 0 => .i32 | 1 => .n32 | 2 => .i16 | 3 => .n16 | 4 => .i8 | 5 => .n8 | 6 => .i64 | _ => .n64
def ITy.codeV : ITy → Nat
  | .i32 => 0 | .n32 => 1 | .i16 => 2 | .n16 => 3 | .i8 => 4 | .n8 => 5 | .i64 => 6 | .n64 => 7
def FTy.ofCode : Nat → Option FTy
  | 0 => some .f32 | 1 => some .f16 | 2 => some .bf16 | _ => none
def FTy.code : FTy → Nat
  | .f32 => 0 | .f16 => 1 | .bf16 => 2
def RedTy.ofCode : Nat → Option RedTy
  | 0 => some .i32 | 1 => some .n32 | 2 => some .i64 | 3 => some .n64 | 4 => some .f32 | _ => none
def RedTy.code : RedTy → Nat
  | .i32 => 0 | .n32 => 1 | .i64 => 2 | .n64 => 3 | .f32 => 4
def RedOp.ofCode : Nat → Option RedOp
  | 0 => some .add | 1 => some .min | 2 => some .max | 3 => some .and | 4 => some .or | 5 => some .xor | _ => none
def RedOp.code : RedOp → Nat
  | .add => 0 | .min => 1 | .max => 2 | .and => 3 | .or => 4 | .xor => 5
def LogOp.ofCode : Nat → Option LogOp
  | 0 => some .and | 1 => some .or | 2 => some .xor | 3 => some .andn | 4 => some .orn | 5 => some .xnor
  | 6 => some .not | 7 => some .mov | _ => none
def LogOp.code : LogOp → Nat
  | .and => 0 | .or => 1 | .xor => 2 | .andn => 3 | .orn => 4 | .xnor => 5 | .not => 6 | .mov => 7
def Rel.ofCode : Nat → Option Rel
  | 0 => some .eq | 1 => some .ne | 2 => some .lt | 3 => some .le | 4 => some .gt | 5 => some .ge | _ => none
def Rel.code : Rel → Nat
  | .eq => 0 | .ne => 1 | .lt => 2 | .le => 3 | .gt => 4 | .ge => 5
def FRel.ofCode (n : Nat) : Option FRel :=
  if n = 6 then some .un else if n = 7 then some .ord else (Rel.ofCode n).map .rel
def FRel.code : FRel → Nat
  | .rel r => r.code | .un => 6 | .ord => 7
def SCond.ofCode : Nat → Option SCond
  | 1 => some .eqz | 2 => some .nez | 3 => some .ltz | 4 => some .gez | 5 => some .gtz | 6 => some .lez | _ => none
def SCond.code : SCond → Nat
  | .eqz => 1 | .nez => 2 | .ltz => 3 | .gez => 4 | .gtz => 5 | .lez => 6
def MCond.ofCode : Nat → Option MCond
  | 1 => some .any | 2 => some .none | 3 => some .all | 4 => some .nall | _ => .none
def MCond.code : MCond → Nat
  | .any => 1 | .none => 2 | .all => 3 | .nall => 4
def CvtKind.ofCode : Nat → Option CvtKind
  | 0 => some .f32 | 1 => some .fs | 2 => some .i32 | 3 => some .n32 | 4 => some .i64 | 5 => some .n64 | _ => none
def CvtKind.code : CvtKind → Nat
  | .f32 => 0 | .fs => 1 | .i32 => 2 | .n32 => 3 | .i64 => 4 | .n64 => 5
def Scope.ofCode : Nat → Option Scope
  | 0 => some .grp | 1 => some .team | 2 => some .clu | 3 => some .dev | 4 => some .sys | 5 => some .fab | _ => none
def Scope.code : Scope → Nat
  | .grp => 0 | .team => 1 | .clu => 2 | .dev => 3 | .sys => 4 | .fab => 5
def MemOrd.ofCode : Nat → Option MemOrd
  | 0 => some .rlx | 1 => some .acq | 2 => some .rel | 3 => some .ar | 4 => some .sc | _ => none
def MemOrd.code : MemOrd → Nat
  | .rlx => 0 | .acq => 1 | .rel => 2 | .ar => 3 | .sc => 4
def MSize.ofCode : Nat → Option MSize
  | 0 => some .b1 | 1 => some .b2 | 2 => some .b4 | 3 => some .b8 | _ => none
def MSize.code : MSize → Nat
  | .b1 => 0 | .b2 => 1 | .b4 => 2 | .b8 => 3
def AtTy.ofCode : Nat → Option AtTy
  | 2 => some .i32 | 3 => some .i64 | 4 => some .f32 | 6 => some .n32 | 7 => some .n64 | _ => none
def AtTy.code : AtTy → Nat
  | .i32 => 2 | .i64 => 3 | .f32 => 4 | .n32 => 6 | .n64 => 7
def AtOp.ofCode : Nat → Option AtOp
  | 0 => some .swap | 1 => some .add | 2 => some .and | 3 => some .or | 4 => some .xor | 5 => some .min | 6 => some .max
  | _ => none
def AtOp.code : AtOp → Nat
  | .swap => 0 | .add => 1 | .and => 2 | .or => 3 | .xor => 4 | .min => 5 | .max => 6
def CmOp.ofCode : Nat → Option CmOp
  | 0 => some .pfl2 | 1 => some .pfl1 | 2 => some .clean | 3 => some .inval | 4 => some .cinv | _ => none
def CmOp.code : CmOp → Nat
  | .pfl2 => 0 | .pfl1 => 1 | .clean => 2 | .inval => 3 | .cinv => 4
def SMode.ofCode : Nat → Option SMode
  | 0 => some .none | 1 => some .e5m3 | 2 => some .e8m0 | _ => .none
def SMode.code : SMode → Nat
  | .none => 0 | .e5m3 => 1 | .e8m0 => 2
def SlKind.ofCode : Nat → Option SlKind
  | 1 => some .scratch | 2 => some .mapped | 3 => some .derived | _ => none
def SlKind.code : SlKind → Nat
  | .scratch => 1 | .mapped => 2 | .derived => 3
def StzForm.ofCode : Nat → Option StzForm
  | 0 => some .packed | 1 => some .tileB | 3 => some .tileA | _ => none
def StzForm.code : StzForm → Nat
  | .packed => 0 | .tileB => 1 | .tileA => 3
def Spr.ofCode : Nat → Option Spr
  | 0 => some .time | 1 => some .rclk | 2 => some .gid | 3 => some .tid | 4 => some .gwidth | 5 => some .arm
  | 6 => some .tkind | 7 => some .tpcv | 8 => some .tlm | 9 => some .tinfo | 10 => some .tstat | 11 => some .rgpc
  | 12 => some .qstat | 13 => some .srseed | 14 => some .capsrc | 15 => some .prov | 16 => some .mmrev | _ => none
def Spr.code : Spr → Nat
  | .time => 0 | .rclk => 1 | .gid => 2 | .tid => 3 | .gwidth => 4 | .arm => 5 | .tkind => 6 | .tpcv => 7 | .tlm => 8
  | .tinfo => 9 | .tstat => 10 | .rgpc => 11 | .qstat => 12 | .srseed => 13 | .capsrc => 14 | .prov => 15 | .mmrev => 16
/-- The rounding field of R79: modes 6 and 7 are reserved. -/
def Rnd.ofCode (n : Nat) : Option Rnd :=
  (match n % 8 with
   | 0 => some RMode.rn | 1 => some .rz | 2 => some .ru | 3 => some .rd | 4 => some .rna | 5 => some .sr
   | _ => Option.none).map (⟨·, n / 8 % 2 == 1⟩)
def RMode.code : RMode → Nat
  | .rn => 0 | .rz => 1 | .ru => 2 | .rd => 3 | .rna => 4 | .sr => 5
def Rnd.code (r : Rnd) : Nat := r.mode.code + (if r.sat then 8 else 0)
/-- SETA and SETB: a flag, or 0xF for none; 12–14 are reserved (R255). -/
def flagFieldOf (n : Nat) : Option (Option Flag) :=
  if n < 12 then some (some (Fin.ofNat 12 n)) else if n = 15 then some none else none
def flagFieldCode : Option Flag → Nat
  | some f => f.val | none => 15
def SMoviForm.ofCode : Nat → Option SMoviForm
  | 0 => some .sext | 1 => some .zext | 2 => some .hi | _ => none
def SMoviForm.code : SMoviForm → Nat
  | .sext => 0 | .zext => 1 | .hi => 2
def VMoviForm.ofCode : Nat → Option VMoviForm
  | 0 => some .w32 | 1 => some .i64 | 2 => some .n64 | _ => none
def VMoviForm.code : VMoviForm → Nat
  | .w32 => 0 | .i64 => 1 | .n64 => 2

/-! ## The decoder -/

abbrev Dec (α : Type) := Except DecodeError α

/-- An operand code must be one its position allows (R61). -/
def opnd {α : Type} (o : Option α) : Dec α := match o with | some x => .ok x | none => .error .operandCode
/-- A field must hold an assigned value (R261, R267). -/
def field {α : Type} (o : Option α) : Dec α := match o with | some x => .ok x | none => .error .reservedField
def need (b : Bool) : Dec Unit := if b then .ok () else .error .reservedField
def bit (n k : Nat) : Bool := n / 2 ^ k % 2 == 1
def bool01 (n : Nat) : Option Bool := if n = 0 then some false else if n = 1 then some true else none

/-- B of a class A scalar word, with D, A, C, SUB, FSL and MOD of its V or VC form (R260, R262). -/
structure AW (β : Type) where
  (d a : Nat) (b : β) (c sub fsl mod : Nat)

def decSA (w : Nat) (x : Bool) : Dec (AW SB) := do
  if x then
    let v := VcW.parse w
    .ok ⟨v.d, v.a, .cw (Fin.ofNat 8 v.win) (BitVec.ofNat 17 v.ofs), v.c, 0, 0, v.mod⟩
  else
    let v := VW.parse w
    let b ← opnd (SSrc.ofCode v.b)
    .ok ⟨v.d, v.a, .src b, v.c, v.sub, v.fa, v.fb⟩

def decVA (w : Nat) (x : Bool) : Dec (AW VB) := do
  if x then
    let v := VcW.parse w
    .ok ⟨v.d, v.a, .cw (Fin.ofNat 8 v.win) (BitVec.ofNat 17 v.ofs), v.c, 0, 0, v.mod⟩
  else
    let v := VW.parse w
    let b ← opnd (VSrc.ofCode v.b)
    .ok ⟨v.d, v.a, .src b, v.c, v.sub, v.fa, v.fb⟩

/-- Scalar words of R339: the variant and the operands. -/
def decSOp1 (g : Guard) (w : Nat) (x : Bool) : Dec (Nat × SOp1) := do
  if x then .error .xBit
  let v := VW.parse w
  let d ← opnd (SReg.ofCode v.d)
  let a ← opnd (SSrc.ofCode v.a)
  need (v.b == 0 && v.c == 0 && v.fa == 0 && v.fb == 0)
  .ok (v.sub / 8, ⟨g, ITy.ofS (v.sub % 8), d, a⟩)

def decSOp2 (g : Guard) (w : Nat) (x : Bool) : Dec (Nat × SOp2) := do
  let v ← decSA w x
  let d ← opnd (SReg.ofCode v.d)
  let a ← opnd (SSrc.ofCode v.a)
  need (v.c == 0 && v.fsl == 0 && v.mod == 0)
  .ok (v.sub / 8, ⟨g, ITy.ofS (v.sub % 8), d, a, v.b⟩)

def decSOp3 (g : Guard) (w : Nat) (x : Bool) : Dec (Nat × SOp3) := do
  let v ← decSA w x
  let d ← opnd (SReg.ofCode v.d)
  let a ← opnd (SSrc.ofCode v.a)
  let c ← opnd (SSrc.ofCode v.c)
  need (v.fsl == 0 && v.mod == 0)
  .ok (v.sub / 8, ⟨g, ITy.ofS (v.sub % 8), d, a, v.b, c⟩)

def decVOp1 (g : Guard) (w : Nat) (x : Bool) : Dec (Nat × VOp1) := do
  if x then .error .xBit
  let v := VW.parse w
  let d ← opnd (VReg.ofCode v.d)
  let a ← opnd (VSrc.ofCode v.a)
  need (v.b == 0 && v.c == 0 && v.fa == 0 && v.fb == 0)
  .ok (v.sub / 8, ⟨g, ITy.ofV (v.sub % 8), d, a⟩)

def decVOp2 (g : Guard) (w : Nat) (x : Bool) : Dec (Nat × VOp2) := do
  let v ← decVA w x
  let d ← opnd (VReg.ofCode v.d)
  let a ← opnd (VSrc.ofCode v.a)
  need (v.c == 0 && v.fsl == 0 && v.mod == 0)
  .ok (v.sub / 8, ⟨g, ITy.ofV (v.sub % 8), d, a, v.b⟩)

def decVOp3 (g : Guard) (w : Nat) (x : Bool) : Dec (Nat × VOp3) := do
  let v ← decVA w x
  let d ← opnd (VReg.ofCode v.d)
  let a ← opnd (VSrc.ofCode v.a)
  let c ← opnd (VSrc.ofCode v.c)
  need (v.fsl == 0 && v.mod == 0)
  .ok (v.sub / 8, ⟨g, ITy.ofV (v.sub % 8), d, a, v.b, c⟩)

def decFOp1 (g : Guard) (w : Nat) (x : Bool) : Dec FOp1 := do
  if x then .error .xBit
  let v := VW.parse w
  let d ← opnd (VReg.ofCode v.d)
  let a ← opnd (VSrc.ofCode v.a)
  let ty ← field (FTy.ofCode v.sub)
  need (v.b == 0 && v.c == 0 && v.fa == 0 && v.fb == 0)
  .ok ⟨g, ty, d, a⟩

def decFOp2 (g : Guard) (w : Nat) (x : Bool) : Dec (FOp2 × Rnd) := do
  let v ← decVA w x
  let d ← opnd (VReg.ofCode v.d)
  let a ← opnd (VSrc.ofCode v.a)
  let ty ← field (FTy.ofCode v.sub)
  let r ← field (Rnd.ofCode v.mod)
  need (v.c == 0 && v.fsl == 0)
  .ok (⟨g, ty, d, a, v.b⟩, r)

def decFOp3 (g : Guard) (w : Nat) (x : Bool) : Dec (FOp3 × Rnd) := do
  let v ← decVA w x
  let d ← opnd (VReg.ofCode v.d)
  let a ← opnd (VSrc.ofCode v.a)
  let c ← opnd (VSrc.ofCode v.c)
  let ty ← field (FTy.ofCode v.sub)
  let r ← field (Rnd.ofCode v.mod)
  need (v.fsl == 0)
  .ok (⟨g, ty, d, a, v.b, c⟩, r)

/-- A variant that is 0 or 1, a .sat or .rem bit. -/
def var01 {α : Type} (f : Bool → α → Instr) (r : Nat × α) : Dec Instr := do .ok (f (← field (bool01 r.1)) r.2)
/-- An instruction with variant 0 only. -/
def var0 {α : Type} (f : α → Instr) (r : Nat × α) : Dec Instr := do need (r.1 == 0); .ok (f r.2)
def noRnd {α : Type} (f : α → Instr) (r : α × Rnd) : Dec Instr := do need (r.2 == Rnd.none); .ok (f r.1)

def decBra (g : Guard) (w : Nat) : Dec BraOp := do
  let v := BW.parse w
  need (v.cm == 0 && v.sub == 0)
  if v.cond = 0 then
    need (v.cs == 0)
    .ok ⟨g, none, BitVec.ofNat 32 v.off⟩
  else
    let c ← field (SCond.ofCode v.cond)
    let s ← opnd (SSrc.ofCode v.cs)
    .ok ⟨g, some (c, s), BitVec.ofNat 32 v.off⟩

def decVMem (g : Guard) (w : Nat) (x : Bool) : Dec VMem := do
  let v := MW.parse w
  let r ← opnd (VReg.ofCode v.d)
  let base ← opnd (SBase.ofCode v.base)
  let idx ← opnd (VSrc.ofCode v.idx)
  let size ← field (MSize.ofCode v.size)
  let ord ← field (MemOrd.ofCode v.ord)
  let sco ← field (Scope.ofCode v.sco)
  need (!bit v.sub 2)
  .ok ⟨g, x, r, base, idx, BitVec.ofNat 10 v.off, size, ord, sco, bit v.sub 3, bit v.sub 1, bit v.sub 0⟩

def decVMemS (g : Guard) (w : Nat) (x : Bool) : Dec VMemS := do
  let v := MW.parse w
  let r ← opnd (VReg.ofCode v.d)
  let base ← opnd (SBase.ofCode v.base)
  let idx ← opnd (SSrc.ofCode v.idx)
  let size ← field (MSize.ofCode v.size)
  let ord ← field (MemOrd.ofCode v.ord)
  let sco ← field (Scope.ofCode v.sco)
  need (!bit v.sub 2)
  .ok ⟨g, x, r, base, idx, BitVec.ofNat 10 v.off, size, ord, sco, bit v.sub 3, bit v.sub 1, bit v.sub 0⟩

def decSlMem (g : Guard) (w : Nat) (x : Bool) : Dec SlMem := do
  let v := MW.parse w
  let r ← opnd (VReg.ofCode v.d)
  let base ← opnd (SBase.ofCode v.base)
  let idx ← opnd (VSrc.ofCode v.idx)
  let size ← field (MSize.ofCode v.size)
  let ord ← field (MemOrd.ofCode v.ord)
  let sco ← field (Scope.ofCode v.sco)
  need (v.sub == 0)
  .ok ⟨g, x, r, base, idx, BitVec.ofNat 10 v.off, size, ord, sco⟩

def decResMem (g : Guard) (w : Nat) (x : Bool) : Dec ResMem := do
  let v := MW.parse w
  let r ← opnd (VReg.ofCode v.d)
  let base ← opnd (SBase.ofCode v.base)
  let idx ← opnd (VSrc.ofCode v.idx)
  let ord ← field (MemOrd.ofCode v.ord)
  let sco ← field (Scope.ofCode v.sco)
  need (v.sub == 0 && (v.size == 2 || v.size == 3))
  .ok ⟨g, x, r, base, idx, BitVec.ofNat 10 v.off, v.size == 3, ord, sco⟩

/-- VCMP and VFCMP split D into the true-mask and the false-mask (R262). -/
def decMaskPair (d : Nat) : Dec (MReg × MReg) := do
  need (d % 2 == 0)
  .ok (Fin.ofNat 16 (d / 32), Fin.ofNat 16 (d / 2))

/-- A control word that uses no field (R265). -/
def decPlain (w : Nat) : Dec Unit := need (VW.parse w == ⟨0, 0, 0, 0, 0, 0, 0⟩)

def decControl (op : Nat) (g : Guard) (w : Nat) : Dec Instr := do
  let e := VW.parse w
  match op with
  | 0x00 => if w = 0 then .ok .nop else .error .reservedField
  | 0x01 => .ok (.bra (← decBra g w))
  | 0x02 =>
    let v := BW.parse w
    need (v.cs == 0 && v.sub == 0)
    if v.cond = 0 then
      need (v.cm == 0)
      .ok (.bmask g none (BitVec.ofNat 32 v.off))
    else
      let c ← field (MCond.ofCode v.cond)
      .ok (.bmask g (some (c, Fin.ofNat 16 v.cm)) (BitVec.ofNat 32 v.off))
  | 0x03 =>
    let i ← opnd (VSrc.ofCode e.d)
    let t ← opnd (SSrc.ofCode e.a)
    let n ← opnd (SSrc.ofCode e.b)
    need (e.c == 0 && e.sub == 0 && e.fa == 0 && e.fb == 0)
    .ok (.btab g i t n)
  | 0x04 => .ok (.call (← decBra g w))
  | 0x05 => decPlain w; .ok (.ret g)
  | 0x06 =>
    let v := BW.parse w
    need (v.cond == 0 && v.cs == 0)
    .ok (.fork g (v.sub == 1) (Fin.ofNat 16 v.cm) (BitVec.ofNat 32 v.off))
  | 0x07 => decPlain w; .ok (.join g)
  | 0x08 => decPlain w; .ok (.exit g)
  | 0x09 =>
    let n ← opnd (SSrc.ofCode e.d)
    need (e == ⟨e.d, 0, 0, 0, 0, 0, 0⟩)
    .ok (.yield g n)
  | 0x0A =>
    let a ← opnd (SSrc.ofCode e.d)
    need (e == ⟨e.d, 0, 0, 0, 0, 0, 0⟩)
    .ok (.trap g a)
  | 0x0B => decPlain w; .ok (.rft g)
  | 0x0C =>
    let t ← opnd (SSrc.ofCode e.d)
    need (e == ⟨e.d, 0, 0, 0, 0, e.fa, 0⟩ && decide (e.fa < 12))
    .ok (.waitt g t (Fin.ofNat 12 e.fa))
  | _ => .error .unassignedOpcode

def decScalar (op : Nat) (g : Guard) (x : Bool) (w : Nat) : Dec Instr := do
  match op with
  | 0x10 => var01 .sadd (← decSOp2 g w x)
  | 0x11 => var01 .ssub (← decSOp2 g w x)
  | 0x12 => var01 .smul (← decSOp2 g w x)
  | 0x13 => var0 .smulh (← decSOp2 g w x)
  | 0x14 => var01 .smad (← decSOp3 g w x)
  | 0x15 => var01 .sdiv (← decSOp2 g w x)
  | 0x16 =>
    if !x && (VW.parse w).sub / 8 == 6 then
      let (_, y) ← decSOp1 g w x
      .ok (.slog .not y none)
    else
      let (v, y) ← decSOp2 g w x
      let o ← field (LogOp.ofCode v)
      .ok (.slog o ⟨y.g, y.ty, y.d, y.a⟩ (some y.b))
  | 0x17 => var0 .sshl (← decSOp2 g w x)
  | 0x18 => var0 .sshr (← decSOp2 g w x)
  | 0x19 => var0 .ssra (← decSOp2 g w x)
  | 0x1A => var0 .smin (← decSOp2 g w x)
  | 0x1B => var0 .smax (← decSOp2 g w x)
  | 0x1C =>
    let (v, y) ← decSOp2 g w x
    .ok (.scmp (← field (Rel.ofCode v)) y)
  | 0x1D => var0 .ssel (← decSOp3 g w x)
  | 0x1E => var0 .smov (← decSOp1 g w x)
  | 0x1F =>
    if x then .error .xBit
    let v := IW.parse w
    .ok (.smovi g (← field (SMoviForm.ofCode v.sub)) (← opnd (SReg.ofCode v.d)) (BitVec.ofNat 32 v.imm))
  | 0x20 => var0 .spopc (← decSOp1 g w x)
  | 0x21 => var0 .sclz (← decSOp1 g w x)
  | 0x22 => var0 .sbfx (← decSOp3 g w x)
  | 0x23 => var0 .sbfi (← decSOp3 g w x)
  | 0x24 =>
    if !x then .error .xBit
    let v := VcW.parse w
    need (v.a == 0 && v.c == 0 && v.mod == 0)
    .ok (.sldc g (← opnd (SReg.ofCode v.d)) (Fin.ofNat 8 v.win) (BitVec.ofNat 17 v.ofs))
  | 0x25 =>
    if x then .error .xBit
    let e := VW.parse w
    need (e.a == 0 && e.b == 0 && e.c == 0 && e.fa == 0)
    .ok (.srd g (← field (bool01 e.fb)) (← opnd (SReg.ofCode e.d)) (← field (Spr.ofCode e.sub)))
  | 0x26 =>
    if x then .error .xBit
    let e := VW.parse w
    need (e.a == 0 && e.b == 0 && e.c == 0 && e.fa == 0)
    .ok (.swr g (← field (bool01 e.fb)) (← field (Spr.ofCode e.sub)) (← opnd (SSrc.ofCode e.d)))
  | _ => .error .unassignedOpcode

/-- Mask and cross-lane words: V format, class N. -/
def decMaskCross (op : Nat) (g : Guard) (w : Nat) : Dec Instr := do
  let v := VW.parse w
  match op with
  | 0x30 =>
    let o ← field (LogOp.ofCode v.sub)
    let d ← opnd (MReg.ofCode v.d)
    let a ← opnd (MSrc.ofCode v.a)
    need (v.c == 0 && v.fa == 0 && v.fb == 0)
    if o = .not ∨ o = .mov then
      need (v.b == 0)
      .ok (.mlog g o d a none)
    else
      .ok (.mlog g o d a (some (← opnd (MSrc.ofCode v.b))))
  | 0x31 =>
    need (v == ⟨v.d, v.a, 0, 0, 0, 0, 0⟩)
    .ok (.mpopc g (← opnd (SReg.ofCode v.d)) (← opnd (MReg.ofCode v.a)))
  | 0x32 =>
    need (v == ⟨v.d, v.a, 0, 0, v.sub, 0, 0⟩)
    .ok (.mffs g (← field (bool01 v.sub)) (← opnd (SReg.ofCode v.d)) (← opnd (MReg.ofCode v.a)))
  | 0x33 =>
    need (v == ⟨v.d, v.a, 0, 0, 0, 0, 0⟩)
    .ok (.mset g (← opnd (MReg.ofCode v.d)) (← opnd (SSrc.ofCode v.a)))
  | 0x34 =>
    need (v == ⟨v.d, v.a, 0, 0, v.sub, 0, 0⟩)
    .ok (.mget g (← field (bool01 v.sub)) (← opnd (VReg.ofCode v.d)) (← opnd (MReg.ofCode v.a)))
  | 0x70 =>
    need (v.c == 0 && v.fa == 0 && v.fb == 0)
    .ok (.vshfl g (← field (bool01 v.sub)) (← opnd (VReg.ofCode v.d)) (← opnd (VReg.ofCode v.a)) (← opnd (VSrc.ofCode v.b)))
  | 0x71 =>
    need (v.c == 0 && v.fa == 0 && v.fb == 0)
    .ok (.vbcast g (← field (bool01 v.sub)) (← opnd (VReg.ofCode v.d)) (← opnd (VReg.ofCode v.a)) (← opnd (SSrc.ofCode v.b)))
  | 0x72 =>
    need (v.b == 0 && v.c == 0 && v.fa == 0)
    let o ← field (RedOp.ofCode (v.sub / 8))
    let t ← field (RedTy.ofCode (v.sub % 8))
    let r ← field (Rnd.ofCode v.fb)
    let a ← opnd (VSrc.ofCode v.a)
    let d ← opnd (match SReg.ofCode v.d with | some k => some (RedDst.s k) | none => (VReg.ofCode v.d).map .v)
    .ok (.vred g o t r d a)
  | 0x73 =>
    need (v.c == 0 && v.fa == 0)
    let o ← field (RedOp.ofCode (v.sub / 8))
    let t ← field (RedTy.ofCode (v.sub % 8))
    let r ← field (Rnd.ofCode v.fb)
    .ok (.vscan g o t r (← opnd (VReg.ofCode v.d)) (← opnd (VSrc.ofCode v.a)) (← opnd (SSrc.ofCode v.b)))
  | 0x74 =>
    need (v == ⟨v.d, v.a, 0, 0, v.sub, 0, 0⟩)
    .ok (.vcmpr g (← field (bool01 v.sub)) (← opnd (VReg.ofCode v.d)) (← opnd (VReg.ofCode v.a)))
  | 0x75 =>
    need (v == ⟨v.d, v.a, 0, 0, v.sub, 0, 0⟩)
    if (← field (bool01 v.sub)) then
      .ok (.mbal g (.rank (← opnd (VReg.ofCode v.d)) (← opnd (MReg.ofCode v.a))))
    else
      .ok (.mbal g (.mask (← opnd (MReg.ofCode v.d)) (← opnd (VSrc.ofCode v.a))))
  | _ => .error .unassignedOpcode

def decVector (op : Nat) (g : Guard) (x : Bool) (w : Nat) : Dec Instr := do
  match op with
  | 0x40 => var01 .vadd (← decVOp2 g w x)
  | 0x41 => var01 .vsub (← decVOp2 g w x)
  | 0x42 => var01 .vmul (← decVOp2 g w x)
  | 0x43 => var0 .vmulh (← decVOp2 g w x)
  | 0x44 => var01 .vmad (← decVOp3 g w x)
  | 0x45 =>
    if !x && (VW.parse w).sub / 8 == 6 then
      let (_, y) ← decVOp1 g w x
      .ok (.vlog .not y none)
    else
      let (v, y) ← decVOp2 g w x
      let o ← field (LogOp.ofCode v)
      .ok (.vlog o ⟨y.g, y.ty, y.d, y.a⟩ (some y.b))
  | 0x46 => var0 .vshl (← decVOp2 g w x)
  | 0x47 => var0 .vshr (← decVOp2 g w x)
  | 0x48 => var0 .vsra (← decVOp2 g w x)
  | 0x49 => var0 .vmin (← decVOp2 g w x)
  | 0x4A => var0 .vmax (← decVOp2 g w x)
  | 0x4B => var01 .vabs (← decVOp1 g w x)
  | 0x4C =>
    let v ← decVA w x
    let (mt, mf) ← decMaskPair v.d
    let a ← opnd (VSrc.ofCode v.a)
    need (v.c == 0 && v.fsl == 0 && v.mod == 0)
    .ok (.vcmp g (← field (Rel.ofCode (v.sub / 8))) (ITy.ofV (v.sub % 8)) mt mf a v.b)
  | 0x4D => var0 .vsel (← decVOp3 g w x)
  | 0x4E => var0 .vmov (← decVOp1 g w x)
  | 0x4F =>
    if x then .error .xBit
    let v := IW.parse w
    .ok (.vmovi g (← field (VMoviForm.ofCode v.sub)) (← opnd (VReg.ofCode v.d)) (BitVec.ofNat 32 v.imm))
  | 0x50 =>
    if x then .error .xBit
    let v := VW.parse w
    let d ← field (CvtKind.ofCode (v.sub / 8))
    let s ← field (CvtKind.ofCode (v.sub % 8))
    let r ← field (Rnd.ofCode v.fb)
    need (v.b == 0 && v.c == 0)
    .ok (.vcvt g d s r (← opnd (VReg.ofCode v.d)) (← opnd (VSrc.ofCode v.a)) (Fin.ofNat 16 v.fa))
  | 0x51 => var0 .vpopc (← decVOp1 g w x)
  | 0x52 => var0 .vclz (← decVOp1 g w x)
  | 0x53 => var0 .vbfx (← decVOp3 g w x)
  | 0x54 => var0 .vbfi (← decVOp3 g w x)
  | 0x60 => let (y, r) ← decFOp2 g w x; .ok (.vfadd y r)
  | 0x61 => let (y, r) ← decFOp2 g w x; .ok (.vfsub y r)
  | 0x62 => let (y, r) ← decFOp2 g w x; .ok (.vfmul y r)
  | 0x63 => let (y, r) ← decFOp3 g w x; .ok (.vfma y r)
  | 0x64 => noRnd .vfmin (← decFOp2 g w x)
  | 0x65 => noRnd .vfmax (← decFOp2 g w x)
  | 0x66 =>
    let v ← decVA w x
    let (mt, mf) ← decMaskPair v.d
    let a ← opnd (VSrc.ofCode v.a)
    let ty ← field (FTy.ofCode (v.sub % 4))
    need (v.c == 0 && v.fsl == 0 && v.mod == 0)
    .ok (.vfcmp g (← field (FRel.ofCode (v.sub / 4))) ty mt mf a v.b)
  | 0x67 => noRnd .vmed3 (← decFOp3 g w x)
  | 0x68 => .ok (.vfrcp (← decFOp1 g w x))
  | 0x69 => .ok (.vfrsq (← decFOp1 g w x))
  | 0x6A => .ok (.vfexp2 (← decFOp1 g w x))
  | 0x6B => .ok (.vflog2 (← decFOp1 g w x))
  | 0x6C => .ok (.vfcls (← decFOp1 g w x))
  | _ => .error .unassignedOpcode

def decMemory (op : Nat) (g : Guard) (x : Bool) (w : Nat) : Dec Instr := do
  let v := MW.parse w
  let off := BitVec.ofNat 10 v.off
  match op with
  | 0x80 => .ok (.vld (← decVMem g w x))
  | 0x81 => .ok (.vst (← decVMem g w x))
  | 0x82 => .ok (.vlds (← decVMemS g w x))
  | 0x83 => .ok (.vsts (← decVMemS g w x))
  | 0x84 =>
    need (v.idx == 402 && !bit v.sub 2 && !bit v.sub 1)
    .ok (.sld g x (← opnd (SReg.ofCode v.d)) (← opnd (SBase.ofCode v.base)) off (← field (MSize.ofCode v.size))
      (← field (MemOrd.ofCode v.ord)) (← field (Scope.ofCode v.sco)) (bit v.sub 3) (bit v.sub 0))
  | 0x85 =>
    need (v.idx == 402 && !bit v.sub 2 && !bit v.sub 1 && !bit v.sub 0)
    .ok (.sst g x (← opnd (SSrc.ofCode v.d)) (← opnd (SBase.ofCode v.base)) off (← field (MSize.ofCode v.size))
      (← field (MemOrd.ofCode v.ord)) (← field (Scope.ofCode v.sco)) (bit v.sub 3))
  | 0x86 => .ok (.ldsl (← decSlMem g w x))
  | 0x87 => .ok (.stsl (← decSlMem g w x))
  | 0x88 =>
    .ok (.atom g x (← opnd (VReg.ofCode v.d)) (← opnd (SBase.ofCode v.base)) (← opnd (VSrc.ofCode v.idx)) off
      (← field (AtTy.ofCode v.size)) (← field (AtOp.ofCode (v.sub % 8))) (← field (MemOrd.ofCode v.ord))
      (← field (Scope.ofCode v.sco)) (bit v.sub 3))
  | 0x89 =>
    need (v.sub % 8 == 0 && (v.size == 2 || v.size == 3))
    .ok (.acas g x (← opnd (VReg.ofCode v.d)) (← opnd (SBase.ofCode v.base)) (← opnd (VSrc.ofCode v.idx)) off
      (v.size == 3) (← field (MemOrd.ofCode v.ord)) (← field (Scope.ofCode v.sco)) (bit v.sub 3))
  | 0x8A => .ok (.ldr (← decResMem g w x))
  | 0x8B => .ok (.stc (← decResMem g w x))
  | 0x8C =>
    need (v.d == 0 && v.base == 0 && v.idx == 0 && v.size == 0 && v.sub == 0 && v.off == 0)
    .ok (.fence g x (← field (MemOrd.ofCode v.ord)) (← field (Scope.ofCode v.sco)))
  | 0x8D =>
    need (v.d == 0 && v.size == 0 && !bit v.sub 3 && (v.ord == 0 || v.ord == 2))
    .ok (.cmaint g x (← field (CmOp.ofCode v.sub)) (v.ord == 2) (← field (Scope.ofCode v.sco))
      (← opnd (SBase.ofCode v.base)) (← opnd (VSrc.ofCode v.idx)) off)
  | _ => .error .unassignedOpcode

/-- E-format words of class N. -/
def decEN (op : Nat) (g : Guard) (w : Nat) : Dec Instr := do
  let e := VW.parse w
  match op with
  | 0x79 => decPlain w; .ok (.ffence g)
  | 0x7A =>
    need (e == ⟨e.d, 0, 0, 0, e.sub, e.fa, 0⟩ && decide (e.sub < 5))
    .ok (.fqry g (← opnd (SReg.ofCode e.d)) (Fin.ofNat 5 e.sub) (Fin.ofNat 16 e.fa))
  | 0xA0 =>
    need (e == ⟨e.d, e.a, e.b, 0, e.sub, 0, 0⟩ && decide (e.sub < 8))
    .ok (.slalloc g (← opnd (SReg.ofCode e.d)) (← opnd (SSrc.ofCode e.a)) (← opnd (SSrc.ofCode e.b)) (bit e.sub 2)
      (← field (SlKind.ofCode (e.sub % 4))))
  | 0xA3 =>
    need (e == ⟨e.d, e.a, 0, 0, e.sub, 0, 0⟩ && decide (e.sub < 8))
    .ok (.slqry g (← opnd (SReg.ofCode e.d)) (← opnd (SSrc.ofCode e.a)) (Fin.ofNat 4 e.sub) (bit e.sub 2))
  | 0xA6 =>
    need (e == ⟨e.d, 0, 0, 0, 0, 0, 0⟩)
    .ok (.crdrop g (← opnd (SSrc.ofCode e.d)))
  | 0xB4 =>
    need (e == ⟨e.d, 0, 0, 0, e.sub, 0, 0⟩ && e.sub % 8 == 0)
    .ok (.mver g (← opnd (SReg.ofCode e.d)) (Fin.ofNat 8 (e.sub / 8)))
  | 0xC2 =>
    need (e == ⟨e.d, 0, 0, 0, 0, 0, 0⟩)
    .ok (.bseal g (← opnd (SSrc.ofCode e.d)))
  | 0xC3 =>
    let n ← opnd (SSrc.ofCode e.d)
    need (e == ⟨e.d, e.a, 0, 0, e.sub, 0, 0⟩)
    if (← field (bool01 e.sub)) then .ok (.bwait g n (some (← opnd (SReg.ofCode e.a))))
    else
      need (e.a == 0)
      .ok (.bwait g n none)
  | 0xD0 =>
    let a ← opnd (SSrc.ofCode e.d)
    need (e == ⟨e.d, e.a, 0, 0, e.sub, 0, 0⟩)
    match e.sub with
    | 0 => .ok (.bari g a (.set (← opnd (SSrc.ofCode e.a))))
    | 1 => need (e.a == 0); .ok (.bari g a .all)
    | 2 => need (e.a == 0); .ok (.bari g a .free)
    | _ => .error .reservedField
  | 0xD2 =>
    let a ← opnd (SSrc.ofCode e.d)
    let p ← opnd (SSrc.ofCode e.a)
    need (e == ⟨e.d, e.a, e.b, 0, e.sub, 0, 0⟩)
    if (← field (bool01 e.sub)) then .ok (.barw g a p (some (← opnd (SReg.ofCode e.b))))
    else
      need (e.b == 0)
      .ok (.barw g a p none)
  | 0xD5 =>
    need (e == ⟨e.d, e.a, e.b, 0, e.sub, 0, 0⟩)
    .ok (.rclaim g (← field (bool01 e.sub)) (← opnd (SReg.ofCode e.d)) (← opnd (SSrc.ofCode e.a)) (← opnd (SSrc.ofCode e.b)))
  | 0xD7 =>
    need (e == ⟨e.d, e.a, e.b, 0, e.sub, 0, 0⟩)
    .ok (.rawait g (← field (bool01 e.sub)) (← opnd (SReg.ofCode e.d)) (← opnd (SSrc.ofCode e.a)) (← opnd (SSrc.ofCode e.b)))
  | 0xD9 =>
    need (e == ⟨e.d, 0, 0, 0, 0, 0, 0⟩)
    .ok (.qpush g (← opnd (VSrc.ofCode e.d)))
  | 0xDA =>
    need (e == ⟨e.d, 0, 0, 0, 0, 0, 0⟩)
    .ok (.qpop g (← opnd (VReg.ofCode e.d)))
  | _ => .error .unassignedOpcode

/-- E-format words of class L: `x` selects the flag. -/
def decEL (op : Nat) (g : Guard) (x : Bool) (w : Nat) : Dec Instr := do
  let e := VW.parse w
  match op with
  | 0x78 =>
    let d ← opnd (SReg.ofCode e.d)
    let m ← opnd (SSrc.ofCode e.b)
    need (e == ⟨e.d, e.a, e.b, 0, e.sub, e.fa, 0⟩)
    match e.sub with
    | 0 => .ok (.fswap g x d (.expert (← opnd (SSrc.ofCode e.a))) m (Fin.ofNat 16 e.fa))
    | 1 => .ok (.fswap g x d (.basic (← opnd (SSrc.ofCode e.a))) m (Fin.ofNat 16 e.fa))
    | 2 => need (e.a == 0); .ok (.fswap g x d .unbind m (Fin.ofNat 16 e.fa))
    | _ => .error .reservedField
  | 0x7B =>
    .ok (.qnt g x (← opnd (SSrc.ofCode e.d)) (← opnd (SSrc.ofCode e.a)) (← opnd (SSrc.ofCode e.b))
      (← opnd (SSrc.ofCode e.c)) (← field (SMode.ofCode e.sub)) (Fin.ofNat 16 e.fa) (← field (Rnd.ofCode e.fb)))
  | 0x7C =>
    .ok (.dqnt g x (← opnd (VReg.ofCode e.d)) (← opnd (SSrc.ofCode e.a)) (← opnd (SSrc.ofCode e.b))
      (← opnd (SSrc.ofCode e.c)) (← field (SMode.ofCode e.sub)) (Fin.ofNat 16 e.fa) (← field (Rnd.ofCode e.fb)))
  | 0xA1 =>
    need (e == ⟨e.d, 0, 0, 0, 0, 0, 0⟩)
    .ok (.slfree g x (← opnd (SSrc.ofCode e.d)))
  | 0xA2 =>
    need (e == ⟨e.d, e.a, 0, 0, 0, 0, 0⟩)
    .ok (.slrenew g x (← opnd (SSrc.ofCode e.d)) (← opnd (SSrc.ofCode e.a)))
  | 0xA4 =>
    let t ← opnd (SSrc.ofCode e.d)
    let c ← opnd (SSrc.ofCode e.a)
    let a ← opnd (SSrc.ofCode e.b)
    need (decide (e.sub < 16) && decide (e.sub % 8 < 5) && e.fa == 0 && e.fb == 0)
    if e.sub % 8 = 0 then
      need (e.c == 402)
      .ok (.crib g x t c a none 0 (bit e.sub 3))
    else
      .ok (.crib g x t c a (some (← opnd (SReg.ofCode e.c))) (Fin.ofNat 5 (e.sub % 8)) (bit e.sub 3))
  | 0xA5 =>
    need (e == ⟨e.d, e.a, 0, 0, e.sub, 0, 0⟩ && decide (e.sub < 8))
    .ok (.crtouch g x (← opnd (SSrc.ofCode e.d)) (← opnd (SReg.ofCode e.a)) (bit e.sub 0) (bit e.sub 1) (bit e.sub 2))
  | 0xB0 =>
    need (e.sub % 8 == 0)
    .ok (.mma g x (Fin.ofNat 8 (e.sub / 8)) (← opnd (SSrc.ofCode e.d)) (← opnd (SSrc.ofCode e.a))
      (← opnd (SSrc.ofCode e.b)) (← opnd (SSrc.ofCode e.c)) (Fin.ofNat 16 e.fa) (Fin.ofNat 16 e.fb))
  | 0xB1 =>
    need (e == ⟨e.d, 0, 0, 0, e.sub, 0, 0⟩ && e.sub % 8 == 0)
    .ok (.mzero g x (Fin.ofNat 8 (e.sub / 8)) (← opnd (SSrc.ofCode e.d)))
  | 0xB2 =>
    need (e.c == 0)
    .ok (.mstz g x (Fin.ofNat 8 (e.sub / 8)) (← opnd (SSrc.ofCode e.d)) (← opnd (SSrc.ofCode e.a))
      (← opnd (SSrc.ofCode e.b)) (← field (StzForm.ofCode (e.sub % 8))) (Fin.ofNat 16 e.fa) (← field (Rnd.ofCode e.fb)))
  | 0xB3 =>
    need (e == ⟨e.d, e.a, 0, 0, e.sub, 0, 0⟩ && e.sub % 8 == 0)
    .ok (.mldz g x (Fin.ofNat 8 (e.sub / 8)) (← opnd (SSrc.ofCode e.d)) (← opnd (SSrc.ofCode e.a)))
  | 0xC0 =>
    need (e.sub == 0 && e.fa == 0 && e.fb == 0)
    .ok (.cpy g x (← opnd (SReg.ofCode e.d)) (← opnd (SSrc.ofCode e.a)) (← opnd (SSrc.ofCode e.b)) (← opnd (SSrc.ofCode e.c)))
  | 0xC1 =>
    let d ← opnd (SReg.ofCode e.d)
    let r ← opnd (SSrc.ofCode e.a)
    let o ← opnd (SReg.ofCode e.b)
    need (e.fa == 0 && e.fb == 0)
    if (← field (bool01 e.sub)) then .ok (.gath g x d r o (.slate (← opnd (SSrc.ofCode e.c))))
    else .ok (.gath g x d r o (.vec (← opnd (VReg.ofCode e.c))))
  | 0xD1 =>
    need (e == ⟨e.d, e.a, 0, 0, 0, 0, 0⟩)
    .ok (.bara g x (← opnd (SSrc.ofCode e.d)) (← opnd (SReg.ofCode e.a)))
  | 0xD3 =>
    let h ← opnd (VSrc.ofCode e.d)
    let c ← opnd (VSrc.ofCode e.a)
    need (e == ⟨e.d, e.a, e.b, 0, 0, 0, 0⟩)
    match VReg.ofCode e.b with
    | some k => .ok (.tray g x h c (.v k))
    | none => .ok (.tray g x h c (.s (← opnd (SSrc.ofCode e.b))))
  | 0xD4 =>
    need (e == ⟨e.d, e.a, 0, 0, 0, 0, 0⟩)
    .ok (.depdec g x (← opnd (SSrc.ofCode e.d)) (← opnd (VSrc.ofCode e.a)))
  | 0xD6 =>
    need (e == ⟨e.d, e.a, e.b, 0, 0, 0, 0⟩)
    .ok (.rcommit g x (← opnd (SSrc.ofCode e.d)) (← opnd (SSrc.ofCode e.a)) (← opnd (SSrc.ofCode e.b)))
  | 0xD8 =>
    need (e == ⟨e.d, e.a, e.b, 0, 0, 0, 0⟩)
    .ok (.rretire g x (← opnd (SSrc.ofCode e.d)) (← opnd (SSrc.ofCode e.a)) (← opnd (SSrc.ofCode e.b)))
  | 0xE0 =>
    need (e == ⟨e.d, e.a, e.b, 0, 0, 0, 0⟩)
    .ok (.tlbinv g x (← opnd (SSrc.ofCode e.d)) (← opnd (SSrc.ofCode e.a)) (← opnd (SSrc.ofCode e.b)))
  | _ => .error .unassignedOpcode

/-- A clause header (R255): tag 0xF8; END decides before any other field. -/
def decHdr (w : Nat) : Dec Instr := do
  if bit w 31 then .ok (.clauseHeader .endMark)
  else
    need (fld w 0 29 == 0)
    let a ← field (flagFieldOf (fld w 40 4))
    let b ← field (flagFieldOf (fld w 36 4))
    .ok (.clauseHeader (.clause (BitVec.ofNat 12 (fld w 44 12)) a b (Fin.ofNat 8 (fld w 33 3)) (bit w 32) (bit w 30) (bit w 29)))

/-- The opcodes of class N that are neither V format class A nor E format class N: control, mask, cross-lane. -/
def opcodeN (op : Nat) : Bool :=
  op < 0x0D || (0x30 ≤ op && op < 0x35) || (0x70 ≤ op && op < 0x76)

/-- The E-format opcodes of class N (R268). -/
def opcodeEN (op : Nat) : Bool :=
  op == 0x79 || op == 0x7A || op == 0xA0 || op == 0xA3 || op == 0xA6 || op == 0xB4 || op == 0xC2 || op == 0xC3 ||
    op == 0xD0 || op == 0xD2 || op == 0xD5 || op == 0xD7 || op == 0xD9 || op == 0xDA

/-- The fields of a word, with every operand code and field value checked but the checks of `Instr.wf`. -/
def unpack (w : Nat) : Dec Instr :=
  let t := TopW.parse w
  let g : Guard := ⟨Fin.ofNat 16 t.gm, t.gn⟩
  if t.op = 0xF8 then decHdr w
  else if opcodeN t.op then
    if t.x then .error .xBit
    else if t.op < 0x0D then decControl t.op g w
    else decMaskCross t.op g w
  else if t.op < 0x40 then decScalar t.op g t.x w
  else if t.op < 0x70 then decVector t.op g t.x w
  else if 0x80 ≤ t.op && t.op < 0x90 then decMemory t.op g t.x w
  else if opcodeEN t.op then
    if t.x then .error .xBit else decEN t.op g w
  else decEL t.op g t.x w

/-- The instruction a 64-bit word holds, or why it holds none (R255–R268). -/
def decode (w : Word) : Dec Instr := do
  let i ← unpack w.toNat
  if i.wf then .ok i else .error .illFormed

/-- Eight little-endian bytes (R5). -/
def wordOfBytes (l : List Byte) : Word := BitVec.ofNat 64 (l.foldr (fun b n => b.toNat + 256 * n) 0)

/-- Decoding of any bytes: the instruction of the first eight, and the bytes after them. -/
def decodeBytes (l : List Byte) : Dec (Instr × List Byte) :=
  if l.length < 8 then .error .truncated
  else match decode (wordOfBytes (l.take 8)) with
    | .ok i => .ok (i, l.drop 8)
    | .error e => .error e

def bytesOfWord (w : Word) : List Byte := (List.range 8).map fun k => BitVec.ofNat 8 (w.toNat / 256 ^ k)

/-- The decoder's answer for an instruction whose bits are `w`, laid out as the hardware stores it. -/
def decodeTableWord (_nbits w : Nat) : Option Instr :=
  match decodeBytes (bytesOfWord (BitVec.ofNat 64 w)) with
  | .ok (i, _) => some i
  | .error _ => none

/-! ## The encoder -/

def b2n (b : Bool) : Nat := if b then 1 else 0

def TopW.pack (t : TopW) : Nat := t.op * 2 ^ 56 + t.gm * 2 ^ 52 + b2n t.gn * 2 ^ 51 + b2n t.x * 2 ^ 50
def VW.pack (v : VW) : Nat :=
  v.d * 2 ^ 41 + v.a * 2 ^ 32 + v.b * 2 ^ 23 + v.c * 2 ^ 14 + v.sub * 2 ^ 8 + v.fa * 2 ^ 4 + v.fb
def VcW.pack (v : VcW) : Nat := v.d * 2 ^ 41 + v.a * 2 ^ 32 + v.c * 2 ^ 23 + v.win * 2 ^ 20 + v.ofs * 2 ^ 3 + v.mod
def IW.pack (v : IW) : Nat := v.d * 2 ^ 41 + v.sub * 2 ^ 32 + v.imm
def MW.pack (v : MW) : Nat :=
  v.d * 2 ^ 41 + v.base * 2 ^ 32 + v.idx * 2 ^ 23 + v.size * 2 ^ 20 + v.ord * 2 ^ 17 + v.sco * 2 ^ 14 + v.sub * 2 ^ 10 + v.off
def BW.pack (v : BW) : Nat := v.cond * 2 ^ 46 + v.cm * 2 ^ 42 + v.cs * 2 ^ 33 + v.sub * 2 ^ 32 + v.off

def encTop (op : Nat) (g : Guard) (x : Bool) : Nat := TopW.pack ⟨op, g.m.val, g.neg, x⟩
def encV (op : Nat) (g : Guard) (x : Bool) (v : VW) : Nat := encTop op g x + v.pack
def encI (op : Nat) (g : Guard) (v : IW) : Nat := encTop op g false + v.pack
def encM (op : Nat) (g : Guard) (x : Bool) (v : MW) : Nat := encTop op g x + v.pack
def encB (op : Nat) (g : Guard) (v : BW) : Nat := encTop op g false + v.pack

/-- A class A word in its V or VC form. -/
def encSA (op : Nat) (g : Guard) (d a : Nat) (b : SB) (c sub fsl mod : Nat) : Nat :=
  match b with
  | .src x => encV op g false ⟨d, a, x.code, c, sub, fsl, mod⟩
  | .cw w o => encTop op g true + VcW.pack ⟨d, a, c, w.val, o.toNat, mod⟩
def encVA (op : Nat) (g : Guard) (d a : Nat) (b : VB) (c sub fsl mod : Nat) : Nat :=
  match b with
  | .src x => encV op g false ⟨d, a, x.code, c, sub, fsl, mod⟩
  | .cw w o => encTop op g true + VcW.pack ⟨d, a, c, w.val, o.toNat, mod⟩

def encSOp1 (op var : Nat) (x : SOp1) : Nat := encV op x.g false ⟨SReg.code x.d, x.a.code, 0, 0, 8 * var + x.ty.codeS, 0, 0⟩
def encSOp2 (op var : Nat) (x : SOp2) : Nat := encSA op x.g (SReg.code x.d) x.a.code x.b 0 (8 * var + x.ty.codeS) 0 0
def encSOp3 (op var : Nat) (x : SOp3) : Nat := encSA op x.g (SReg.code x.d) x.a.code x.b x.c.code (8 * var + x.ty.codeS) 0 0
def encVOp1 (op var : Nat) (x : VOp1) : Nat := encV op x.g false ⟨VReg.code x.d, x.a.code, 0, 0, 8 * var + x.ty.codeV, 0, 0⟩
def encVOp2 (op var : Nat) (x : VOp2) : Nat := encVA op x.g (VReg.code x.d) x.a.code x.b 0 (8 * var + x.ty.codeV) 0 0
def encVOp3 (op var : Nat) (x : VOp3) : Nat := encVA op x.g (VReg.code x.d) x.a.code x.b x.c.code (8 * var + x.ty.codeV) 0 0
def encFOp1 (op : Nat) (x : FOp1) : Nat := encV op x.g false ⟨VReg.code x.d, x.a.code, 0, 0, x.ty.code, 0, 0⟩
def encFOp2 (op : Nat) (x : FOp2) (r : Rnd) : Nat := encVA op x.g (VReg.code x.d) x.a.code x.b 0 x.ty.code 0 r.code
def encFOp3 (op : Nat) (x : FOp3) (r : Rnd) : Nat := encVA op x.g (VReg.code x.d) x.a.code x.b x.c.code x.ty.code 0 r.code
def encBra (op : Nat) (x : BraOp) : Nat :=
  match x.cond with
  | none => encB op x.g ⟨0, 0, 0, 0, x.off.toNat⟩
  | some (c, s) => encB op x.g ⟨c.code, 0, s.code, 0, x.off.toNat⟩
def encVMem (op : Nat) (m : VMem) : Nat := encM op m.g m.x ⟨VReg.code m.r, m.base.code, m.idx.code, m.size.code,
  m.ord.code, m.sco.code, 8 * b2n m.sl + 2 * b2n m.nt + b2n m.sx, m.off.toNat⟩
def encVMemS (op : Nat) (m : VMemS) : Nat := encM op m.g m.x ⟨VReg.code m.r, m.base.code, m.stride.code, m.size.code,
  m.ord.code, m.sco.code, 8 * b2n m.sl + 2 * b2n m.nt + b2n m.sx, m.off.toNat⟩
def encSlMem (op : Nat) (m : SlMem) : Nat := encM op m.g m.x ⟨VReg.code m.r, m.base.code, m.idx.code, m.size.code,
  m.ord.code, m.sco.code, 0, m.off.toNat⟩
def encResMem (op : Nat) (m : ResMem) : Nat := encM op m.g m.x ⟨VReg.code m.r, m.base.code, m.idx.code,
  (if m.wide then 3 else 2), m.ord.code, m.sco.code, 0, m.off.toNat⟩
def encE (op : Nat) (g : Guard) (p0 p1 p2 p3 sub f1 f2 : Nat) : Nat := encV op g false ⟨p0, p1, p2, p3, sub, f1, f2⟩
def encEL (op : Nat) (g : Guard) (x : Bool) (p0 p1 p2 p3 sub f1 f2 : Nat) : Nat := encV op g x ⟨p0, p1, p2, p3, sub, f1, f2⟩
def maskPair (mt mf : MReg) : Nat := mt.val * 32 + mf.val * 2

/-- The word of an instruction (R255–R268); none for the steps that are not words. -/
def encodeNat : Instr → Option Nat
  | .nop => some 0
  | .bra x => some (encBra 0x01 x)
  | .bmask g none off => some (encB 0x02 g ⟨0, 0, 0, 0, off.toNat⟩)
  | .bmask g (some (c, m)) off => some (encB 0x02 g ⟨c.code, m.val, 0, 0, off.toNat⟩)
  | .btab g i t n => some (encE 0x03 g i.code t.code n.code 0 0 0 0)
  | .call x => some (encBra 0x04 x)
  | .ret g => some (encE 0x05 g 0 0 0 0 0 0 0)
  | .fork g sh m off => some (encB 0x06 g ⟨0, m.val, 0, b2n sh, off.toNat⟩)
  | .join g => some (encE 0x07 g 0 0 0 0 0 0 0)
  | .exit g => some (encE 0x08 g 0 0 0 0 0 0 0)
  | .yield g n => some (encE 0x09 g n.code 0 0 0 0 0 0)
  | .trap g a => some (encE 0x0A g a.code 0 0 0 0 0 0)
  | .rft g => some (encE 0x0B g 0 0 0 0 0 0 0)
  | .waitt g t f => some (encE 0x0C g t.code 0 0 0 0 f.val 0)
  | .sadd sat x => some (encSOp2 0x10 (b2n sat) x)
  | .ssub sat x => some (encSOp2 0x11 (b2n sat) x)
  | .smul sat x => some (encSOp2 0x12 (b2n sat) x)
  | .smulh x => some (encSOp2 0x13 0 x)
  | .smad sat x => some (encSOp3 0x14 (b2n sat) x)
  | .sdiv rem x => some (encSOp2 0x15 (b2n rem) x)
  | .slog op x none => some (encSOp1 0x16 op.code x)
  | .slog op x (some b) => some (encSOp2 0x16 op.code ⟨x.g, x.ty, x.d, x.a, b⟩)
  | .sshl x => some (encSOp2 0x17 0 x)
  | .sshr x => some (encSOp2 0x18 0 x)
  | .ssra x => some (encSOp2 0x19 0 x)
  | .smin x => some (encSOp2 0x1A 0 x)
  | .smax x => some (encSOp2 0x1B 0 x)
  | .scmp rel x => some (encSOp2 0x1C rel.code x)
  | .ssel x => some (encSOp3 0x1D 0 x)
  | .smov x => some (encSOp1 0x1E 0 x)
  | .smovi g form d imm => some (encI 0x1F g ⟨SReg.code d, form.code, imm.toNat⟩)
  | .spopc x => some (encSOp1 0x20 0 x)
  | .sclz x => some (encSOp1 0x21 0 x)
  | .sbfx x => some (encSOp3 0x22 0 x)
  | .sbfi x => some (encSOp3 0x23 0 x)
  | .sldc g d w o => some (encTop 0x24 g true + VcW.pack ⟨SReg.code d, 0, 0, w.val, o.toNat, 0⟩)
  | .srd g hi d r => some (encE 0x25 g (SReg.code d) 0 0 0 r.code 0 (b2n hi))
  | .swr g hi r a => some (encE 0x26 g a.code 0 0 0 r.code 0 (b2n hi))
  | .mlog g op d a b => some (encV 0x30 g false ⟨MReg.code d, a.code, (match b with | some y => y.code | none => 0), 0, op.code, 0, 0⟩)
  | .mpopc g d a => some (encV 0x31 g false ⟨SReg.code d, MReg.code a, 0, 0, 0, 0, 0⟩)
  | .mffs g last d a => some (encV 0x32 g false ⟨SReg.code d, MReg.code a, 0, 0, b2n last, 0, 0⟩)
  | .mset g d a => some (encV 0x33 g false ⟨MReg.code d, a.code, 0, 0, 0, 0, 0⟩)
  | .mget g neg d a => some (encV 0x34 g false ⟨VReg.code d, MReg.code a, 0, 0, b2n neg, 0, 0⟩)
  | .mbal g (.mask d a) => some (encV 0x75 g false ⟨MReg.code d, a.code, 0, 0, 0, 0, 0⟩)
  | .mbal g (.rank d a) => some (encV 0x75 g false ⟨VReg.code d, MReg.code a, 0, 0, 1, 0, 0⟩)
  | .vadd sat x => some (encVOp2 0x40 (b2n sat) x)
  | .vsub sat x => some (encVOp2 0x41 (b2n sat) x)
  | .vmul sat x => some (encVOp2 0x42 (b2n sat) x)
  | .vmulh x => some (encVOp2 0x43 0 x)
  | .vmad sat x => some (encVOp3 0x44 (b2n sat) x)
  | .vlog op x none => some (encVOp1 0x45 op.code x)
  | .vlog op x (some b) => some (encVOp2 0x45 op.code ⟨x.g, x.ty, x.d, x.a, b⟩)
  | .vshl x => some (encVOp2 0x46 0 x)
  | .vshr x => some (encVOp2 0x47 0 x)
  | .vsra x => some (encVOp2 0x48 0 x)
  | .vmin x => some (encVOp2 0x49 0 x)
  | .vmax x => some (encVOp2 0x4A 0 x)
  | .vabs sat x => some (encVOp1 0x4B (b2n sat) x)
  | .vcmp g rel ty mt mf a b => some (encVA 0x4C g (maskPair mt mf) a.code b 0 (8 * rel.code + ty.codeV) 0 0)
  | .vsel x => some (encVOp3 0x4D 0 x)
  | .vmov x => some (encVOp1 0x4E 0 x)
  | .vmovi g form d imm => some (encI 0x4F g ⟨VReg.code d, form.code, imm.toNat⟩)
  | .vcvt g dst src r d a fsl => some (encV 0x50 g false ⟨VReg.code d, a.code, 0, 0, 8 * dst.code + src.code, fsl.val, r.code⟩)
  | .vpopc x => some (encVOp1 0x51 0 x)
  | .vclz x => some (encVOp1 0x52 0 x)
  | .vbfx x => some (encVOp3 0x53 0 x)
  | .vbfi x => some (encVOp3 0x54 0 x)
  | .vfadd x r => some (encFOp2 0x60 x r)
  | .vfsub x r => some (encFOp2 0x61 x r)
  | .vfmul x r => some (encFOp2 0x62 x r)
  | .vfma x r => some (encFOp3 0x63 x r)
  | .vfmin x => some (encFOp2 0x64 x Rnd.none)
  | .vfmax x => some (encFOp2 0x65 x Rnd.none)
  | .vfcmp g rel ty mt mf a b => some (encVA 0x66 g (maskPair mt mf) a.code b 0 (4 * rel.code + ty.code) 0 0)
  | .vmed3 x => some (encFOp3 0x67 x Rnd.none)
  | .vfrcp x => some (encFOp1 0x68 x)
  | .vfrsq x => some (encFOp1 0x69 x)
  | .vfexp2 x => some (encFOp1 0x6A x)
  | .vflog2 x => some (encFOp1 0x6B x)
  | .vfcls x => some (encFOp1 0x6C x)
  | .vshfl g wide d a idx => some (encV 0x70 g false ⟨VReg.code d, VReg.code a, idx.code, 0, b2n wide, 0, 0⟩)
  | .vbcast g wide d a n => some (encV 0x71 g false ⟨VReg.code d, VReg.code a, n.code, 0, b2n wide, 0, 0⟩)
  | .vred g op ty r d a => some (encV 0x72 g false ⟨(match d with | .s k => SReg.code k | .v k => VReg.code k), a.code, 0, 0,
      8 * op.code + ty.code, 0, r.code⟩)
  | .vscan g op ty r d a c => some (encV 0x73 g false ⟨VReg.code d, a.code, c.code, 0, 8 * op.code + ty.code, 0, r.code⟩)
  | .vcmpr g wide d a => some (encV 0x74 g false ⟨VReg.code d, VReg.code a, 0, 0, b2n wide, 0, 0⟩)
  | .fswap g x d (.expert a) m s => some (encEL 0x78 g x (SReg.code d) a.code m.code 0 0 s.val 0)
  | .fswap g x d (.basic a) m s => some (encEL 0x78 g x (SReg.code d) a.code m.code 0 1 s.val 0)
  | .fswap g x d .unbind m s => some (encEL 0x78 g x (SReg.code d) 0 m.code 0 2 s.val 0)
  | .ffence g => some (encE 0x79 g 0 0 0 0 0 0 0)
  | .fqry g d k s => some (encE 0x7A g (SReg.code d) 0 0 0 k.val s.val 0)
  | .qnt g x a b c t mode s r => some (encEL 0x7B g x a.code b.code c.code t.code mode.code s.val r.code)
  | .dqnt g x d b c t mode s r => some (encEL 0x7C g x (VReg.code d) b.code c.code t.code mode.code s.val r.code)
  | .vld m => some (encVMem 0x80 m)
  | .vst m => some (encVMem 0x81 m)
  | .vlds m => some (encVMemS 0x82 m)
  | .vsts m => some (encVMemS 0x83 m)
  | .sld g x d base off size ord sco sl sx => some (encM 0x84 g x ⟨SReg.code d, base.code, 402, size.code, ord.code, sco.code,
      8 * b2n sl + b2n sx, off.toNat⟩)
  | .sst g x a base off size ord sco sl => some (encM 0x85 g x ⟨a.code, base.code, 402, size.code, ord.code, sco.code,
      8 * b2n sl, off.toNat⟩)
  | .ldsl m => some (encSlMem 0x86 m)
  | .stsl m => some (encSlMem 0x87 m)
  | .atom g x d base idx off ty op ord sco sl => some (encM 0x88 g x ⟨VReg.code d, base.code, idx.code, ty.code, ord.code,
      sco.code, 8 * b2n sl + op.code, off.toNat⟩)
  | .acas g x d base idx off wide ord sco sl => some (encM 0x89 g x ⟨VReg.code d, base.code, idx.code, (if wide then 3 else 2),
      ord.code, sco.code, 8 * b2n sl, off.toNat⟩)
  | .ldr m => some (encResMem 0x8A m)
  | .stc m => some (encResMem 0x8B m)
  | .fence g x ord sco => some (encM 0x8C g x ⟨0, 0, 0, 0, ord.code, sco.code, 0, 0⟩)
  | .cmaint g x op rel sco base idx off => some (encM 0x8D g x ⟨0, base.code, idx.code, 0, (if rel then 2 else 0), sco.code,
      op.code, off.toNat⟩)
  | .slalloc g d n lx part kind => some (encE 0xA0 g (SReg.code d) n.code lx.code 0 (4 * b2n part + kind.code) 0 0)
  | .slfree g x a => some (encEL 0xA1 g x a.code 0 0 0 0 0 0)
  | .slrenew g x a len => some (encEL 0xA2 g x a.code len.code 0 0 0 0 0)
  | .slqry g d a k cr => some (encE 0xA3 g (SReg.code d) a.code 0 0 (4 * b2n cr + k.val) 0 0)
  | .crib g x t c a src n warm => some (encEL 0xA4 g x t.code c.code a.code (match src with | some k => SReg.code k | none => 402)
      (8 * b2n warm + n.val) 0 0)
  | .crtouch g x a d renew warm cold => some (encEL 0xA5 g x a.code (SReg.code d) 0 0 (4 * b2n cold + 2 * b2n warm + b2n renew) 0 0)
  | .crdrop g a => some (encE 0xA6 g a.code 0 0 0 0 0 0)
  | .mma g x z ver a b sc fa fb => some (encEL 0xB0 g x ver.code a.code b.code sc.code (8 * z.val) fa.val fb.val)
  | .mzero g x z ver => some (encEL 0xB1 g x ver.code 0 0 0 (8 * z.val) 0 0)
  | .mstz g x z ver a rng form s r => some (encEL 0xB2 g x ver.code a.code rng.code 0 (8 * z.val + form.code) s.val r.code)
  | .mldz g x z ver a => some (encEL 0xB3 g x ver.code a.code 0 0 (8 * z.val) 0 0)
  | .mver g d z => some (encE 0xB4 g (SReg.code d) 0 0 0 (8 * z.val) 0 0)
  | .cpy g x d a b c => some (encEL 0xC0 g x (SReg.code d) a.code b.code c.code 0 0 0)
  | .gath g x d r o (.vec v) => some (encEL 0xC1 g x (SReg.code d) r.code (SReg.code o) (VReg.code v) 0 0 0)
  | .gath g x d r o (.slate s) => some (encEL 0xC1 g x (SReg.code d) r.code (SReg.code o) s.code 1 0 0)
  | .bseal g n => some (encE 0xC2 g n.code 0 0 0 0 0 0)
  | .bwait g n none => some (encE 0xC3 g n.code 0 0 0 0 0 0)
  | .bwait g n (some d) => some (encE 0xC3 g n.code (SReg.code d) 0 0 1 0 0)
  | .bari g a (.set m) => some (encE 0xD0 g a.code m.code 0 0 0 0 0)
  | .bari g a .all => some (encE 0xD0 g a.code 0 0 0 1 0 0)
  | .bari g a .free => some (encE 0xD0 g a.code 0 0 0 2 0 0)
  | .bara g x a d => some (encEL 0xD1 g x a.code (SReg.code d) 0 0 0 0 0)
  | .barw g a p none => some (encE 0xD2 g a.code p.code 0 0 0 0 0)
  | .barw g a p (some d) => some (encE 0xD2 g a.code p.code (SReg.code d) 0 1 0 0)
  | .tray g x h c (.v k) => some (encEL 0xD3 g x h.code c.code (VReg.code k) 0 0 0 0)
  | .tray g x h c (.s y) => some (encEL 0xD3 g x h.code c.code y.code 0 0 0 0)
  | .depdec g x base idx => some (encEL 0xD4 g x base.code idx.code 0 0 0 0 0)
  | .rclaim g nb d r n => some (encE 0xD5 g (SReg.code d) r.code n.code 0 (b2n nb) 0 0)
  | .rcommit g x r p n => some (encEL 0xD6 g x r.code p.code n.code 0 0 0 0)
  | .rawait g nb d r n => some (encE 0xD7 g (SReg.code d) r.code n.code 0 (b2n nb) 0 0)
  | .rretire g x r q n => some (encEL 0xD8 g x r.code q.code n.code 0 0 0 0)
  | .qpush g a => some (encE 0xD9 g a.code 0 0 0 0 0 0)
  | .qpop g d => some (encE 0xDA g (VReg.code d) 0 0 0 0 0 0)
  | .tlbinv g x va len p => some (encEL 0xE0 g x va.code len.code p.code 0 0 0 0)
  | .clauseHeader .endMark => some (0xF8 * 2 ^ 56 + 2 ^ 31)
  | .clauseHeader (.clause wait a b n region yieldh nr) => some (0xF8 * 2 ^ 56 + wait.toNat * 2 ^ 44 + flagFieldCode a * 2 ^ 40 +
      flagFieldCode b * 2 ^ 36 + n.val * 2 ^ 33 + b2n region * 2 ^ 32 + b2n yieldh * 2 ^ 30 + b2n nr * 2 ^ 29)
  | _ => none

def encode (i : Instr) : Option Word := (encodeNat i).map (BitVec.ofNat 64)

end Sys2Proof
end

