-- ==== Sys2Proof/Machine/Issue.lean ====
section
/-! DEFINITION. What happens before an instruction runs: which control thread may issue (R32, R38–R40, R216, R240), and
the fetch of its next word (R56–R58, R223, R234, R255). -/

namespace Sys2Proof.Machine

/-! ## Readiness -/

def Arm.waiting (a : Arm) : Bool :=
  a.yield.isSome || a.sleep.isSome || (match a.park with | some p => !p.causes.isEmpty | none => false)

/-- A control thread that has something to issue. While TM is 1 only the trapping arm issues (R40); a monitor wave has a
thread of its own (R45). -/
def Group.ready (g : Group) (w : Who) : Bool :=
  g.liveArm w && !(g.arm w).waiting && (w == .mon || !g.tr.tm || w == g.tr.arm)

/-- Whether groups on a core issue: not while its package is stopped or left to management, its core examined or quarantined, its partition
fenced or without the cluster, or its team saved or held for a save; a group in its handler goes on until the deadline (R23, R202, R216, R218,
R240, R214, R253). -/
def State.coreRuns (s : State) (g : Group) : Bool :=
  let e := (s.coreAt g.key.core).exam
  let held : Bool := match s.teams.look g.team with
    | some t => (t.pre == .saving && !(g.tr.tm && (match t.deadline with | some d => decide (s.pm.time < d) | none => false))) ||
        t.pre == .saved || t.pre == .discard
    | none => true
  let n := clusterOfCore g.key.core
  let outside : Bool := match s.parts.look g.part with
    | some p => p.fenced || !decide (p.par.clbase ≤ n ∧ n ≤ p.par.cllimit)
    | none => true
  !s.pm.stopped && !s.pm.failed && !e.running && !e.quarantined && !outside && !held

/-- An arm that holds a live reservation keeps the group's opportunities until its deferral ends (R39). -/
def Arm.defers (a : Arm) : Bool := a.defer && !a.resv.isEmpty

/-- The arm that gets an opportunity meant for `w`: the other one, where it defers or its ageing counter has reached 63
(R38, R39). -/
def Group.turnOf (g : Group) (w : Who) : Who :=
  let o := otherArm w
  if w == .mon || !g.ready o then w
  else if !g.ready w then o
  else if (g.arm w).defers then w
  else if (g.arm o).defers || decide (63 ≤ (g.arm o).age) then o
  else w

/-- Count an opportunity in a group as it is after it: the issuing arm's counter clears, and the other's counts it where it had a
ready instruction. -/
def Group.ageOnto (g h : Group) (w : Who) (other : Bool) : Group :=
  let h := h.setArm w { h.arm w with age := 0 }
  let o := otherArm w
  if w != .mon && g.ready o && other then h.setArm o { h.arm o with age := (h.arm o).age + 1 } else h

/-! ## The not-ready period of YIELD (R381) -/

/-- The period of an arm ends: it does not count towards the 1,024 opportunities of R208. -/
def Group.endYield (g : Group) (w : Who) (opps : Nat) : Group :=
  match (g.arm w).yield with
  | none => g
  | some y => { g.setArm w { g.arm w with yield := none } with lastIssue := min opps (g.lastIssue + (opps - y.start)) }

/-- Whether a period with n = 0 is over: every group it waits for has been offered an opportunity, or 64 have passed. -/
def Yield.over (y : Yield) (opps : Nat) : Bool :=
  match y.left with | some l => l.isEmpty || decide (y.start + 64 ≤ opps) | none => false

/-- Another group of the core has been offered an opportunity. -/
def Group.heard (g : Group) (k : GKey) (opps : Nat) : Group :=
  let one (g : Group) (w : Who) : Group :=
    match (g.arm w).yield with
    | none => g
    | some y =>
      let y' : Yield := { y with left := y.left.map fun l => l.filter (· ≠ k) }
      let h := g.setArm w { g.arm w with yield := some y' }
      if y'.over opps then h.endYield w opps else h
  one (one g .arm0) .arm1

/-- The period of a YIELD that executes now: with n = 0 it waits for the core's other ready groups. -/
def State.yieldOf (s : State) (n : Nat) : Yield :=
  let k := s.grp.key
  ⟨if n = 0 then some ((s.others.filter fun g => g.key.core == k.core && s.coreRuns g && (g.ready .arm0 || g.ready .arm1)).map (·.key))
    else none, (s.coreAt k.core).opps⟩

/-! ## Fetch -/

/-- What issuing a control thread comes to: an instruction to run, or a step already made. -/
inductive Fetched where
  | run (i : Instr) (s : State)
  | done (s : State)

/-- Whether the leaf entry a fetch uses has EX clear while its key is the partition's. -/
def State.exClear (s : State) (p core va : Nat) : Bool :=
  let clear (e : Nat) (pa : Nat) : Bool := !bitB e 4 && (decide (2 ^ 51 ≤ pa) || (s.par p).keys.contains (bits e 52 9))
  let walked : Bool := match (s.walk p va).1 with | .leaf pa e => clear e.toNat pa | _ => false
  match assoc (s.coreAt core).tlb (p, va / 8192) with
  | some e => if s.choose (va / 8192) then clear e.toNat (entryPa e.toNat) else walked
  | none => walked

/-- A trap at a fetched address: TPCV is the address. -/
def State.fetchTrap (s : State) (k : TrapKind) (info : Word) : State :=
  s.raise s.arm.pc s.arm.cl ⟨k, s.active, info⟩

/-- The executing arm's next word, or the step its fetch comes to (R56, R58, R231, R234). The words of a clause have been fetched
with their header, so that a fetch parks at a header alone (R231; log 48); it parks with a ticket cause of no lanes. -/
def State.fetchWord (s : State) : Except State (Word × State) :=
  let pc := s.arm.pc
  let p := s.grp.part
  match s.arm.cl.words with
  | w :: _ => .ok (w, s)
  | [] =>
  match (match s.arm.park with | some k => k.fail | none => none) with
  | some (.trap .fetchFault info) => .error (s.fetchTrap .fetchFault info)
  | _ =>
    if 2 ^ 71 ≤ pc then .error (s.fetchTrap .fetchFault 0)
    else if pc % 8 != 0 then .error (s.fetchTrap .badTarget (if s.arm.jumped then 1 else 0))
    else match s.localTr p s.core .fetch pc with
      | .ok pa key =>
        let s' := (s.useVa p s.core pc pa key).recall (pa / 128)
        if s'.poisonAt pa 8 then .error (s'.consume ⟨.uncorrectable, s.active, vaInfo pc⟩)
        else .ok (BitVec.ofNat 64 (s'.mem.num pa 8), s')
      | .park level =>
        let (s', id) := s.ticketFor p pc Acc.fetch.code level s.core
        .error (s'.parkFetch id)
      | .noPage => .error ((s.claimWalk p pc).fetchTrap .fetchFault 4)
      | .trap .permission =>
        if s.exClear p s.core pc then .error ((s.claimWalk p pc).fetchTrap .fetchFault 2)
        else .error ((s.claimWalk p pc).fetchTrap .permission (vaInfo pc))
      | .trap .keyConflict => .error ((s.claimWalk p pc).fetchTrap .keyConflict (vaInfo pc))
      | .trap _ => .error ((s.claimWalk p pc).fetchTrap .fetchFault 3)
      | .remote _ _ => .error (s.fetchTrap .fetchFault 0)

/-- A request of a control thread that waits, or was granted, at a ring's home (R197). -/
def State.ringWait (s : State) : Option RingWait := s.waits.find? fun w => decide (w.key = s.grp.key) && w.who == s.who

/-- A granted RCLAIM or RAWAIT completes with its position. -/
def State.takeGrant (s : State) (w : RingWait) (p : Word) : State :=
  ({ s with waits := s.waits.filter (· != w) }.writeS w.dst p).advance

/-- A withdrawn collective word that the executing arm issues again before it goes on, the oldest first (R132, R147). Where
its accumulator is still copied out, the arm stalls at it. -/
def State.nextRedo (s : State) : Option Redo :=
  if s.arm.back.isSome || s.arm.park.isSome then none else s.grp.redo.find? fun r => r.who == s.who

/-- The executing arm turns to a withdrawn word, which had selected every lane of the width (R140), and keeps where it was. -/
def State.takeRedo (s : State) : State :=
  match s.nextRedo with
  | none => s
  | some r => (s.modGrp fun g => { g with redo := g.redo.erase r }).modArm fun a =>
    { a with
      pc := r.pc, jumped := false, cl := r.cl, mask := lanesBelow s.grp.shape.width, ended := false
      back := some ⟨r, a.pc, a.jumped, a.cl, a.mask, a.ended⟩ }

/-! ## Touch phases (R144), and the lanes of a load -/

/-- The operand bytes that an MMA's touch phase ends with: of each sector, as copied at issue or as it is now. The manual
gives no time at which a phase that has begun ends, so each sector that has changed is a free choice. -/
def State.settleOperand (s : State) (n : Nat) (o : Operand) : Operand :=
  match s.desc? o.core o.desc with
  | none => o
  | some d =>
    let one (j : Nat) : List Byte :=
      let i := o.ofs / 128 + j
      let old := slice o.bytes (128 * j) 128
      let now := s.slBytes o.core o.desc (o.ofs + 128 * j) old.length
      let live := match d.kind with
        | .scratch => true
        | .derived => !d.dropped
        | .mapped => (d.sec i).present
      if live && decide (now ≠ old) && s.choose (2 ^ 73 + n * 2 ^ 12 + j) then now else old
    { o with bytes := (List.range ((o.bytes.length + 127) / 128)).flatMap one }

def State.settleColl (s : State) (n : Nat) : CollOp → CollOp
  | .mma a b sc pa keep pb mode =>
    .mma (s.settleOperand (4 * n) a) (s.settleOperand (4 * n + 1) b) (s.settleOperand (4 * n + 2) sc) pa keep pb mode
  | .mldz src => .mldz (s.settleOperand (4 * n) src)
  | op => op

/-- Whether the bytes a lane has read can still be read there. -/
def State.stillThere (s : State) (n : Nat) : Place → Bool
  | .mem pa _ key => s.mem.frameOk pa key && !s.poisonAt pa n
  | .slate x => match s.desc? x.core x.id with
    | none => false
    | some d => match d.kind with
      | .scratch => (d.sec (x.ofs / 128)).st == .good
      | .derived => !d.dropped
      | .mapped => (d.sec (x.ofs / 128)).present && (d.sec (x.ofs / 128)).st == .good

/-- A vector load's lanes have no order among themselves: by the time its arm's next word acts, each has read what stood there
at issue or, by a free choice, what stands there now (R170, R387; log 2). -/
def State.settleLoad (s : State) (n : Nat) (l : List LaneRead) : List WriteBack :=
  l.flatMap fun y =>
    let now := s.readAt y.place y.bytes
    if s.stillThere y.bytes y.place && decide (now ≠ y.got) && s.choose (2 ^ 75 + n * 2 ^ 12 + y.lane) then y.wb now else []

/-- An operation's touch phase ends, or a vector load's lanes have all read. -/
def State.endTouch (s : State) (n : Nat) (o : Op) : Op :=
  match o.kind with
  | .coll z ver op pass snap true => { o with kind := .coll z ver (s.settleColl n op) pass snap false }
  | .load l => { o with kind := .plain, wb := o.wb ++ s.settleLoad n l }
  | _ => o

/-- The touch phases of an arm end before its next word acts: what it writes then never reaches them. -/
def State.endTouches (s : State) (w : Who) : State :=
  let isOpen (o : Op) : Bool := match o.kind with | .coll _ _ _ _ _ b => b && o.who == w | .load _ => o.who == w | _ => false
  if s.grp.ops.any fun x => isOpen x.2 then
    s.modGrp fun g => { g with ops := g.ops.mapV fun n o => if isOpen o then s.endTouch n o else o }
  else s

/-- Fetch and decode the executing arm's next word. Where a clause is over, only a header is one (R255, R256); inside a
clause a header word is no instruction (R267). An arm that waits at a ring's home issues nothing until it is granted. -/
def State.fetchNext (s : State) : Fetched :=
  match (if s.nextRedo.isSome || s.arm.back.isSome then none else s.ringWait) with
  | some w => .done (match w.grant with | some p => s.takeGrant w p | none => s)
  | none => match s.depUnderflow with
  | some s' => .done s'
  | none => match s.takeRedo.fetchWord with
    | .error s' => .done s'
    | .ok (w, s') =>
      let s' := s'.endTouches s'.who
      let tag := bits w.toNat 56 8
      let inside := s'.arm.cl.left != 0
      if !inside && tag != 0xF8 then .done (s'.fetchTrap .badTarget (if s'.arm.jumped then 1 else 0))
      else
        let g : Guard := ⟨Fin.ofNat 16 (bits w.toNat 52 4), bitB w.toNat 51⟩
        let bad := s'.raise s'.arm.pc s'.arm.cl (illegal (if inside then s'.selOf g else s'.active))
        match decode w with
        | .ok i => if inside && tag == 0xF8 then .done bad else .run i s'
        | .error _ => .done bad

/-! ## Time (R17) -/

/-- A step begins: TIME advances by a free amount, and the step's free values are its own (log 3). -/
def State.tick (s : State) : State :=
  { s with
    pm := { s.pm with time := (s.pm.time + Config.elapsed s.cnt.steps) % 2 ^ 64 }
    cnt := { s.cnt with steps := s.cnt.steps + 1 } }

/-! ## A state that fetches a given word -/

/-- Translation entries that map VA 0 to 8 GiB onto the same physical addresses under key 1 with every permission: one
for each of levels 0 to 3, in nodes at 0x8000, 0xA000, 0xC000 and 0xE000 (R233, R234). -/
def identityMap : List (Nat × Nat) :=
  [(0x8000, 0xA001), (0xA000, 0xC001), (0xC000, 0xE001), (0xE000, 2 ^ 52 + 0x3F)]

/-- Bytes of 64-bit words at physical addresses. -/
def wordCells (l : List (Nat × Nat)) : List (Nat × Byte) := l.flatMap fun x => cellsAt x.1 (toBytes 8 x.2)

/-- A launched group of one partition and one team on core 0: at its entry's header, 0x1000, where the word to run is a header;
else at program counter 0x1008, inside a clause of that one word with both flags named (log 6). -/
def loadedGroup (w : Nat) : Group :=
  let hdr := bits w 56 8 == 0xF8
  { Group.idle with
    live := true, key := ⟨0, 0⟩, part := 0, team := 0, shape := ⟨64, 256, 8, 0, false, 3⟩
    a0 := { Arm.start (if hdr then 0x1000 else 0x1008) (lanesBelow 64) with
      cl := if hdr then Clause.start else ⟨0x1000, [BitVec.ofNat 64 w], some 0, some 1, false⟩, jumped := hdr } }

def loadedTeam : Team :=
  { part := 0, type := 0, tid := 0, khdr := 0xF934_4001_8000_0000#64, core := 0, pair := false, queue := 64, recs := []
    recBlock := 0, ctxAt := 2 ^ 38, descAt := 2 ^ 38, imgBytes := 0, descBytes := 0, noImg := false, extra := [], slot := 0, launch := 0, retired := [], bars := []
    start := 0, pre := .none, deadline := none, needAcc := 0, needLeaves := 0, late := false, killed := false, saved := []
    needSlots := [], fsreq := [] }

def loadedPart : Part :=
  { par := { partDefault with
      keys := [1], tkey := 1, hdmKey := 1, troot := 0x8000, ctxBase := 2 ^ 38, ctxPages := 8192, recBase := 2 ^ 37, recSize := 2 ^ 16
      spillBase := 2 ^ 37 + 2 ^ 20, spillCap := 2 ^ 10 }
    fenced := false, colours := [], regions := [], roll := 0, mapped := [], spill := [], home := [], grids := [], hostRings := []
    keys := [], log := [], logReserved := 0, chain := 0, verified := [], tickets := [], nextTicket := 1, starved := 0
    losterr := 0, late := 0, avgrun := [], replayCtx := [], capsrc := ⟨.none, false, 0, 0, 0⟩, held := none, throttle := [], quota := 768, dry := 0 }

/-- Load a word so that the next step runs it: the state a launch leaves when this is the word its group issues next. -/
def State.load (s : State) (w : Nat) : State :=
  let hdr := bits w 56 8 == 0xF8
  { s with
    grp := loadedGroup w, who := .arm0, parts := s.parts.ins 0 loadedPart, teams := s.teams.ins 0 loadedTeam
    mem := s.mem.store (wordCells (identityMap ++ [(if hdr then 0x1000 else 0x1008, w % 2 ^ 64)]))
    agenda := [.issue ⟨0, 0⟩ .arm0] }

end Sys2Proof.Machine
end

