-- ==== Sys2Proof/Machine/Preempt.lean ====
section
/-! DEFINITION. The choice between drain, save and discard for a team that is pre-empted (R213–R215, R230). -/

namespace Sys2Proof.Machine

/-- The groups of a team that are no replay groups. -/
def State.teamGroups (s : State) (tid : Nat) : List Group := s.groups.filter fun g => g.team == tid && g.replayId.isNone

/-- Whether a group has an FSWAP in flight. -/
def Group.swapping (g : Group) : Bool := g.ops.vals.any fun o => match o.kind with | .fswap _ => true | _ => false

/-- PREPOL of a cluster; 0 under basic control (R202). -/
def State.prepolOf (s : State) (p cluster : Nat) : Nat :=
  let x := s.par p
  if x.expert then x.prepol.getD cluster 0 else 0

/-- E_save in ns: accumulators and scratch leaves copied out eagerly at 64 bytes per ns. -/
def saveEstimate (newAcc newLeaves : Nat) : Nat := 2000 + (16448 * newAcc + 2048 * newLeaves) / 64

/-- E_drain in ns; none while AVGRUN is unknown. -/
def State.drainEstimate (s : State) (t : Team) : Option Int :=
  match (s.parts.look t.part).bind fun p => p.avgrun.look t.type with
  | none => none
  | some a => if a = 0xFFFFFFFF then none else some ((1000 * a : Nat) - (s.pm.time - t.start : Nat))

/-- E_rerun in ns, over groups that are all inside a region. -/
def State.rerunEstimate (s : State) (gs : List Group) : Nat :=
  s.pm.time - ((gs.map (·.rg.entered)).foldl min s.pm.time)

/-- A pre-emption that drains or saves a team clears its groups' reservations (R175). -/
def State.clearResv (s : State) (tid : Nat) : State :=
  s.mapGroups fun g => if g.team == tid && g.replayId.isNone then g.mapArms fun a => { a with resv := [] } else g

/-- The first row of R214's table that holds. -/
def State.preemptChoice (s : State) (tid : Nat) (t : Team) (deadline newAcc newLeaves : Nat) : PreSt :=
  let gs := s.teamGroups tid
  let w : Int := (deadline : Int) - (s.pm.time : Int)
  let pol := s.prepolOf t.part (clusterOfCore t.core)
  let drains : Bool := match s.drainEstimate t with | some e => decide (e ≤ w) | none => false
  if pol = 3 ∨ gs.any fun g => g.tr.tm || g.swapping then .saving
  else if pol ≠ 1 ∧ drains then .drain
  else if pol ≠ 2 ∧ gs.all (·.rg.inside) ∧ s.rerunEstimate gs ≤ 2 * saveEstimate newAcc newLeaves then .discard
  else .saving

/-- Pre-empt a team with a deadline, for a newcomer that needs accumulators and leaves it cannot do without. A team that
drains is chosen for afresh, with the earlier of the two deadlines (DESIGN CHOICE, log 96, safe); one whose save or
discard is in progress goes on with it (R215), under the earlier deadline. Replay groups of a team that is saved or discarded are killed (R138). -/
def State.preempt (s : State) (tid deadline newAcc newLeaves : Nat) : State :=
  match s.teams.look tid with
  | none => s
  | some t =>
    let d := match t.pre, t.deadline with | .none, _ | _, none => deadline | _, some d => min d deadline
    if t.pre = .saved then s
    else if t.pre ≠ .none ∧ t.pre ≠ .drain then s.modTeam tid fun u => { u with deadline := some d }
    else
      let c := s.preemptChoice tid t d newAcc newLeaves
      let s := s.modTeam tid fun u => { u with
        pre := c, deadline := some d, needAcc := newAcc, needLeaves := newLeaves, late := u.late && decide (u.pre = .drain) }
      if c = .drain then s.clearResv tid else s.killReplays tid

/-- After an RFT before the deadline, the team of a group that was to be saved in its handler is chosen for afresh, with the
remaining time and the same newcomer (R214, R230). -/
def State.rechoose (s : State) (tid : Nat) : State :=
  match s.teams.look tid with
  | none => s
  | some t => match t.pre, t.deadline with
    | .saving, some d =>
      if s.pm.time < d then (s.modTeam tid fun t => { t with pre := .none }).preempt tid d t.needAcc t.needLeaves else s
    | _, _ => s

end Sys2Proof.Machine
end

