-- ==== Sys2Proof/Machine/Control.lean ====
section
/-! DEFINITION. Control instructions: branches, calls, table calls, forks and joins, traps and returns from them, and
clause headers (R33–R42, R47–R49, R255–R257, R280–R282, R291–R293, R313–R315, R330, R337–R338, R355, R381). -/

namespace Sys2Proof.Machine

/-- A control-thread word that names no vector register. -/
def ctl (g : Guard) (ss : List Nat) (mon : Bool := true) : Info := { g := g, ss := ss, mon := mon }

/-- A trap condition of the control thread: TLM holds the lanes the word selects (R224). -/
def trapNow (c : Ctx) (k : TrapKind) (info : Word) : Except Exit Done := .error (.trap ⟨k, c.sel, info⟩)

/-- The target of a branch from a clause header; none where FETCH_FAULT is raised (R264). -/
def branchTarget (h : Nat) (off : Int) : Option Nat :=
  let t : Int := (h : Int) + off
  if 0 ≤ t ∧ t < 2 ^ 71 then some t.toNat else none

def offBytes (off : BitVec 32) : Int := 8 * off.toInt

/-- The header after the clause the arm is in. -/
def Arm.afterClause (a : Arm) : Nat := a.pc + 8 * a.cl.left

def execNop (s : State) : Host.Outcome State Fault Refusal :=
  wordOp (ctl ⟨0, false⟩ []) (fun _ s => .ok (.next s)) s

/-! ## Branches and calls -/

/-- COND of BRA and CALL (R281). -/
def scondTaken (c : SCond) (x : Int) : Bool :=
  match c with
  | .eqz => x == 0 | .nez => x != 0 | .ltz => decide (x < 0) | .gez => decide (0 ≤ x) | .gtz => decide (0 < x)
  | .lez => decide (x ≤ 0)

/-- COND of B over the lanes it tests (R281). -/
def mcondTaken (c : MCond) (t m : LaneSet) : Bool :=
  match c with
  | .any => t &&& m != 0 | .none => t &&& m == 0 | .all => t &&& ~~~m == 0 | .nall => t &&& ~~~m != 0

def braSregs (x : BraOp) : List Nat := match x.cond with | some (_, y) => y.sregs | none => []
def braTaken (x : BraOp) (s : State) : Bool :=
  match x.cond with | some (c, y) => scondTaken c (y.value s).toInt | none => true

/-- A taken branch (R282). -/
def branch (c : Ctx) (s : State) (off : BitVec 32) : Except Exit Done :=
  match branchTarget s.arm.cl.hdr (offBytes off) with
  | some t => .ok (.goto s t)
  | none => trapNow c .fetchFault 0

def execBra (x : BraOp) (s : State) : Host.Outcome State Fault Refusal :=
  wordOp (ctl x.g (braSregs x)) (fun c s => if braTaken x s then branch c s x.off else .ok (.next s)) s

def execBmask (g : Guard) (cond : Option (MCond × MReg)) (off : BitVec 32) (s : State) :
    Host.Outcome State Fault Refusal :=
  wordOp (ctl g []) (fun c s =>
    let taken : Bool := match cond with | some (k, m) => mcondTaken k c.sel (s.readM m.val) | none => true
    if taken then branch c s off else .ok (.next s)) s

def execCall (x : BraOp) (s : State) : Host.Outcome State Fault Refusal :=
  wordOp (ctl x.g (braSregs x)) (fun c s =>
    if !braTaken x s then .ok (.next s)
    else if s.arm.rets.length = 256 then trapNow c .callOverflow 256
    else match branchTarget s.arm.cl.hdr (offBytes x.off) with
      | some t => .ok (.goto (s.modArm fun a => { a with rets := .plain a.afterClause :: a.rets }) t)
      | none => trapNow c .fetchFault 0) s

/-! ## BTAB (R292) -/

/-- What a dispatch reads. -/
def tableInfo (g : Guard) (idx : VSrc) (tab n : SSrc) : Info :=
  { g := g, vs := idx.vregs false, ss := idx.sregs ++ tab.sregs ++ n.sregs, mon := true }

/-- One dispatch of the table entry on top of the fork stack, with a return-stack depth of `depth` before its call. -/
def dispatch (c : Ctx) (s : State) (depth : Nat) (word : Nat) (cl : Clause) (saved pending : LaneSet) (idx : VSrc)
    (tab n : SSrc) (rest : List ForkEntry) (rets : List RetEntry) : Except Exit Done := do
  if depth = 256 then trapNow c .callOverflow 256
  else
    let count := (n.value s).toNat % 2 ^ 32
    let key (i : Nat) : Nat := min (idx.lane32 s i).toNat count
    let k := (laneList pending).foldl (fun m i => min m (key i)) count
    let t := lanesWhere 64 fun i => pending.getLsbD i && key i == k
    let ea := (tab.value s).toNat + 8 * k
    if ea % 8 != 0 then .error (.trap ⟨.misalign, c.sel, vaInfo ea⟩)
    else
      let (pa, s) ← s.globalAt c .read ea 8
      match branchTarget cl.hdr (signedOf 64 (s.mem.num pa 8)) with
      | none => trapNow c .fetchFault 0
      | some target =>
        .ok (.goto (s.modArm fun a => { a with
          mask := t, forks := .table word cl saved (pending &&& ~~~t) idx tab n :: rest, rets := .table :: rets }) target)

def execBtab (g : Guard) (idx : VSrc) (tab n : SSrc) (s : State) : Host.Outcome State Fault Refusal :=
  wordOp (tableInfo g idx tab n) (fun c s =>
    if c.sel = 0 then .ok (.next s)
    else if s.arm.forks.length = 8 then trapNow c .forkDepth 0
    else dispatch c s s.arm.rets.length s.arm.pc s.arm.cl s.arm.mask c.sel idx tab n s.arm.forks s.arm.rets) s

/-- A RET that pops below the depth recorded at REGION leaves the region (R48); `n` is the depth it pops to. -/
def State.retRegion (s : State) (n : Nat) : State :=
  if s.who != .mon && s.grp.rg.inside && decide (n < s.grp.rg.depth) then s.modGrp Group.leaveRegion else s

/-- The dispatch that a RET starts reads the registers of BTAB afresh: it waits and parks for them as BTAB does (R292). -/
def redispatch (c : Ctx) (s : State) (word : Nat) (cl : Clause) (saved pending : LaneSet) (idx : VSrc) (tab n : SSrc)
    (forks : List ForkEntry) (rets : List RetEntry) : Except Exit Done :=
  let i := tableInfo ⟨0, false⟩ idx tab n
  if s.mustWait i then .error (.stall s)
  else (s.runLines i c fun c s => dispatch c s rets.length word cl saved pending idx tab n forks rets).map fun d => match d with
    | .goto t pc => .goto (t.retRegion rets.length) pc
    | d => d

def execRet (g : Guard) (s : State) : Host.Outcome State Fault Refusal :=
  wordOp (ctl g []) (fun c s =>
    match s.arm.rets with
    | [] => trapNow c .callUnderflow 0
    | .plain pc :: rest => .ok (.goto ((s.modArm fun a => { a with rets := rest }).retRegion rest.length) pc)
    | .table :: rest =>
      match s.arm.forks with
      | .table word cl saved pending idx tab n :: forks =>
        if pending != 0 then redispatch c s word cl saved pending idx tab n forks rest
        else
          let s := s.modArm fun a => { a with mask := saved, forks := forks, rets := rest }
          .ok (.goto (s.retRegion rest.length) (word + 8 * cl.left))
      | _ => trapNow c .illegalOp 0) s

/-! ## FORK and JOIN (R33–R37) -/

/-- The serial form of FORK: an entry of phase child, and the arm runs the child's part (R37). A monitor wave has one
control thread and forks only so. -/
def forkSerial (c : Ctx) (s : State) (shared : Bool) (child parent : LaneSet) (target : Nat) : Except Exit Done :=
  let a := s.arm
  if a.forks.length = 8 then trapNow c .forkDepth 0
  else
    let e : ForkEntry := .fork (a.pc + 8) a.cl.step a.mask parent 0 shared false
    let s := if s.who = .mon then s else s.modGrp Group.leaveRegion
    .ok (.goto (s.modArm fun a => { a with forks := e :: a.forks, mask := child }) target)

/-- FORK by a group with one arm: the child is created and the parent goes on (R33). -/
def forkNew (s : State) (shared : Bool) (child parent : LaneSet) (target : Nat) : State :=
  s.modGrp fun g => { g.leaveRegion with
    two := true, a1 := Arm.start target child, a0 := if shared then g.a0 else { g.a0 with mask := parent } }

def execFork (g : Guard) (shared : Bool) (m : MReg) (off : BitVec 32) (s : State) : Host.Outcome State Fault Refusal :=
  wordOp { ctl g [] with rel := true } (fun c s =>
    match branchTarget s.arm.cl.hdr (offBytes off) with
    | none => trapNow c .fetchFault 0
    | some target =>
      let act := s.active
      let child := act &&& s.readM m.val
      let parent := if shared then s.arm.mask else act &&& ~~~child
      if s.grp.two || s.who = .mon then forkSerial c s shared child parent target
      else .ok (.next (forkNew s shared child parent target))) s

/-- The other arm's flag counts added to an arm's; none where a sum exceeds 63 (R35). -/
def sumFlags (a b : Arm) : Option (Tbl Nat) :=
  (List.range 12).foldl (fun acc f => match acc with
    | none => none
    | some t => let n := a.flag f + b.flag f; if 63 < n then none else some (Tbl.put 0 t f n)) (some [])

/-- The group has one arm again: masks united, flags summed, and what the other arm had outstanding is arm 0's. -/
def Group.merge (g : Group) (w : Who) (flags : Tbl Nat) : Group :=
  let a := g.arm w
  let o := g.arm (otherArm w)
  let fix (x : Who) : Who := if x = .mon then .mon else .arm0
  { g with
    a0 := { a with
      mask := a.mask ||| o.mask, flags := flags, under := o.under ++ a.under, depLanes := o.depLanes ||| a.depLanes
      depRecs := o.depRecs ++ a.depRecs, age := 0 }
    a1 := Arm.absent, two := false, ops := g.ops.mapV fun _ o => { o with who := fix o.who }
    redo := g.redo.map fun r => { r with who := fix r.who }, tr := { g.tr with arm := fix g.tr.arm }, rg := { g.rg with arm := fix g.rg.arm }
    eng := { g.eng with recs := g.eng.recs.mapV fun _ r => { r with who := fix r.who } } }

/-- A child ends at its JOIN: its mask and flags are held for the parent (R35). -/
def Arm.finish (a : Arm) : Arm := { a with ended := true, resv := [], park := none, remote := [], uses := [], sleep := none, barw := none }

/-- Whether an arm's command record is delivered in arm `w`: its own, or an ended arm's (R156). -/
def Group.countsFor (g : Group) (w : Who) (r : CmdRec) : Bool :=
  r.who == w || (g.two && w != .mon && r.who == otherArm w && (g.arm (otherArm w)).ended)

/-- JOIN with no serial fork on top (R35, R52). What an arm that has ended has still to write is performed first (R36, R170). -/
def joinArms (s : State) : Except Exit Done :=
  let g := s.grp
  let w := s.who
  if !g.two || w = .mon then .ok (.next s)
  else if (g.arm (otherArm w)).ended then
    if !(g.stzOps (otherArm w)).isEmpty || g.owes (otherArm w) then .error (.stall s) else
    match sumFlags s.arm (g.arm (otherArm w)) with
    | none => .error (.stall s)
    | some fl => .ok (.next ({ s with grp := g.merge w fl, who := .arm0 }))
  else if w = .arm0 then .error (.stall s)
  else match s.engFailure fun _ r => g.countsFor w r with
    | some s' => .ok (.here s')
    | none => .ok (.here (s.advance.modArm Arm.finish))

def execJoin (g : Guard) (s : State) : Host.Outcome State Fault Refusal :=
  wordOp { ctl g [] with rel := true } (fun _ s =>
    match s.arm.forks with
    | .fork cont cl saved parent _ shared false :: rest =>
      let s := s.modArm fun a => { a with
        pc := cont, jumped := false, cl := cl, park := none, mask := parent
        forks := .fork cont cl saved parent a.mask shared true :: rest }
      .ok (.here s)
    | .fork _ _ saved _ recorded shared true :: rest =>
      .ok (.next (s.modArm fun a => { a with mask := if shared then saved else recorded ||| a.mask, forks := rest }))
    | _ => joinArms s) s

/-! ## TRAP, RFT, YIELD -/

/-- TRAP: SW_TRAP with TPCV at the word that follows (R355). -/
def execTrap (g : Guard) (a : SSrc) (s : State) : Host.Outcome State Fault Refusal :=
  wordOp (ctl g a.sregs) (fun c s =>
    let x := s.arm
    let s' := if x.cl.left = 1 then s.endClause x.cl else s
    .ok (.here (s'.raise (x.pc + 8) x.cl.step ⟨.swTrap, c.sel, a.value s⟩))) s

def execRft (g : Guard) (s : State) : Host.Outcome State Fault Refusal :=
  wordOp { ctl g [] false with rep := false } (fun c s =>
    if !s.grp.tr.tm then trapNow c .illegalOp 0 else .ok (.here ((s.endClause s.arm.cl).returnTrap.rechoose s.grp.team))) s

/-- YIELD: the arm is not ready for a while (R381). -/
def execYield (g : Guard) (n : SSrc) (s : State) : Host.Outcome State Fault Refusal :=
  wordOp (ctl g n.sregs) (fun _ s =>
    let y := s.yieldOf (n.value s).toNat
    .ok (.next (s.modArm fun a => { a with yield := if y.over y.start then none else some y }))) s

/-! ## Clause headers (R255) -/

/-- A REGION header starts a region, unless two arms are live (R47, R49). The count of restarts goes on at the RGPC of a
region that is already running (R50). -/
def State.enterRegion (s : State) : State :=
  if s.who = .mon then s
  else if s.grp.two then s.modGrp Group.leaveRegion
  else
    let a := s.arm
    let pc := BitVec.ofNat 71 a.pc
    s.modRg fun r => { r with
      inside := true, rgpc := pc, depth := a.rets.length, firstOp := s.cnt.op, arm := s.who
      restarts := if r.inside && r.rgpc == pc then r.restarts else 0, entered := s.pm.time }

/-- The words that follow a header: they stand in its 64 bytes, and so in its page (R56, R255). -/
def State.clauseWords (s : State) (n : Nat) : List Word :=
  (List.range n).map fun k => match s.localTr s.grp.part s.core .fetch s.arm.pc with
    | .ok pa _ => BitVec.ofNat 64 (s.mem.num (pa + 8 * (k + 1)) 8)
    | _ => 0

/-- The first word of a clause may issue: the arm stands at it, and the clause's words have been fetched. -/
def State.enterClause (s : State) (seta setb : Option Flag) (count : Fin 8) (region hint nr : Bool) : State :=
  let words := s.clauseWords count.val
  let s := if region then s.enterRegion else s
  s.modArm fun a => { a with
    pc := a.pc + 8, jumped := false, park := none, hint := hint
    cl := ⟨a.pc, words, seta.map (·.val), setb.map (·.val), nr⟩ }

/-- The ILLEGAL_OP conditions of a header that its word alone does not decide: it crosses a 64-byte boundary, or a
monitor wave names a flag it does not have (R43, R255). -/
def State.headerBad (s : State) (wait : BitVec 12) (seta setb : Option Flag) (count : Fin 8) : Bool :=
  decide (64 < s.arm.pc % 64 + 8 * (count.val + 1)) ||
    (s.who == .mon && (wait.toNat ≥ 16 || seta.any (fun f => f.val ≥ 4) || setb.any (fun f => f.val ≥ 4)))

/-- A clause header: END, its checks, the failures its WAIT delivers, then the WAIT test (R31, R57, R156, R255). -/
def execClauseHeader (h : Hdr) (s : State) : Host.Outcome State Fault Refusal :=
  if !s.grp.live then .fault .noGroup
  else match h with
    | .endMark => .next (s.raise s.arm.pc s.arm.cl ⟨.codeEnd, s.active, 0⟩)
    | .clause wait seta setb count region hint nr =>
      if s.headerBad wait seta setb count then .next (s.raise s.arm.pc s.arm.cl (illegal s.active))
      else match s.engFailure fun _ r => s.grp.countsFor s.who r && wait.getLsbD r.flag with
        | some s' => .next s'
        | none => if s.arm.clear wait then .next (s.enterClause seta setb count region hint nr) else .next s

end Sys2Proof.Machine
end

