-- ==== Sys2Proof/Machine/Masks.lean ====
section
/-! DEFINITION. Mask instructions (R324, R325). -/

namespace Sys2Proof.Machine

/-- A word that acts on lanes and may not run in a replay-only or monitor-only place by its registers alone. -/
def lanes (g : Guard) (vs vd ss : List Nat) (mon : Bool := true) : Info :=
  { g := g, vs := vs, vd := vd, ss := ss, lanewise := true, mon := mon }

/-- Replace the bits of a mask register in a set. -/
def State.mergeM (s : State) (d : Nat) (sel x : LaneSet) : State := s.writeM d ((s.readM d &&& ~~~sel) ||| (x &&& sel))

def execMlog (g : Guard) (op : LogOp) (d : MReg) (a : MSrc) (b : Option MSrc) (s : State) :
    Host.Outcome State Fault Refusal :=
  wordOp (lanes g [] [] []) (fun c s =>
    let y := match b with | some x => x.value s | none => 0
    .ok (.next (s.mergeM d.val c.sel (op.bits (a.value s) y)))) s

def execMset (g : Guard) (d : MReg) (a : SSrc) (s : State) : Host.Outcome State Fault Refusal :=
  wordOp (lanes g [] [] a.sregs) (fun c s => .ok (.next (s.mergeM d.val c.sel (a.value s)))) s

def execMget (g : Guard) (neg : Bool) (d : VReg) (a : MReg) (s : State) : Host.Outcome State Fault Refusal :=
  wordOp (lanes g [] [d.val] []) (fun c s =>
    let m := s.readM a.val
    .ok (.next (s.writeLanes d.val c.sel fun i => if m.getLsbD i then (if neg then 0xFFFF_FFFF else 1) else 0))) s

/-- MBAL clears every bit outside sel; MBAL.rank counts the selected lanes of mA below each lane. -/
def execMbal (g : Guard) (form : BalForm) (s : State) : Host.Outcome State Fault Refusal :=
  match form with
  | .mask d a => wordOp (lanes g (a.vregs false) [] a.sregs false) (fun c s =>
      .ok (.next (s.writeM d.val (lanesWhere 64 fun i => c.sel.getLsbD i && a.lane32 s i != 0)))) s
  | .rank d a => wordOp (lanes g [] [d.val] [] false) (fun c s =>
      let m := (s.readM a.val &&& c.sel).toNat
      .ok (.next (s.writeLanes d.val c.sel fun i => BitVec.ofNat 32 (popcount m i)))) s

def execMpopc (g : Guard) (d : SReg) (a : MReg) (s : State) : Host.Outcome State Fault Refusal :=
  wordOp (ctl g [d.val]) (fun c s => setS d (BitVec.ofNat 64 (popcount (s.readM a.val &&& c.sel).toNat 64)) s) s

def execMffs (g : Guard) (last : Bool) (d : SReg) (a : MReg) (s : State) : Host.Outcome State Fault Refusal :=
  wordOp (ctl g [d.val]) (fun c s =>
    let l := laneList (s.readM a.val &&& c.sel)
    let r : Word := match (if last then l.getLast? else l.head?) with | some i => BitVec.ofNat 64 i | none => ~~~0#64
    setS d r s) s

end Sys2Proof.Machine
end

