-- ==== Sys2Proof/Machine/Slots.lean ====
section
/-! DEFINITION. Format slots as instructions see them (R92, R94), and the generator of stochastic rounding as they draw
from it (R82). -/

namespace Sys2Proof.Machine

/-- FORMAT_ABSENT of a slot on the executing core's die (R103). -/
def absentTrap (c : Ctx) (slot die : Nat) : TrapRec := ⟨.formatAbsent, c.todo, BitVec.ofNat 64 (slot + die * 16)⟩

/-- Whether a slot in TRANSITION stalls the word that names it: it does unless the word holds a use of the old binding. -/
def State.slotStalls (s : State) (slot : Nat) : Bool :=
  let b := s.slotOf s.grp.part (dieOfCore s.core) slot
  decide (8 ≤ slot) && b.st == .transition && !(s.arm.uses.contains slot && b.wasBound)

/-- A slot named by an instruction: in TRANSITION it stalls, UNBOUND it is absent. The checks that depend on the binding are
the caller's. -/
def State.slotFmt (s : State) (c : Ctx) (slot : Nat) : Except Exit Fmt :=
  if slot < 8 then .ok (hardSlot slot)
  else
    let die := dieOfCore s.core
    let b := s.slotOf s.grp.part die slot
    if s.slotStalls slot then .error (.stall s)
    else if b.st = .unbound then .error (.absent (absentTrap c slot die))
    else .ok (Fmt.ofRecord b.record b.meas)

/-- A slot with the use that an instruction needs: a bit of USES (R94, R95). -/
def State.slotUse (s : State) (c : Ctx) (slot use : Nat) : Except Exit Fmt := do
  let f ← s.slotFmt c slot
  if bitB f.uses use then .ok f else .error (.trap (illegal c.todo))

/-- Bits for the lanes of the group width, and the state whose generator has advanced over them, under .sr. -/
def State.drawLanes (s : State) (m : RMode) : (Nat → Nat) × State :=
  if m = .sr then
    let (l, g) := srDraws s.grp.gen s.grp.shape.width
    (fun i => l.getD i 0, s.modGrp fun x => { x with gen := g })
  else (fun _ => 0, s)

end Sys2Proof.Machine
end

