-- ==== Sys2Proof/Machine/Access.lean ====
section
/-! DEFINITION. Accesses of lanes: the conditions of R274 in their order, the choice among lanes of R224, the parks they
set in motion (R113, R129, R231, R232), and the reads and writes they come to (R111, R113, R165, R169). -/

namespace Sys2Proof.Machine

/-! ## What a lane asks, and where its bytes stand -/

inductive Tgt where
  | glob (ea : Int)
  | slate (a : Nat)
deriving DecidableEq, Repr

/-- One access of a lane: what it does, the permission its page must grant (R234), where and how many bytes. `atHome` is
an access performed at the line's home even where a mapped slate covers it (R279); `consume`, whether a read of poison
consumes it (R296); `late`, whether only its checks are made now (R143); `nt`, whether it is no candidate for the L1 (R375). -/
structure Ask where
  acc : Acc
  tgt : Tgt
  n : Nat
  perm : Acc := acc
  atHome : Bool := false
  consume : Bool := true
  late : Bool := false
  nt : Bool := false
deriving DecidableEq, Repr

/-- What a lane waits for. -/
inductive Need where
  | page (va access level : Nat)
  | fill (core desc sector : Nat)
  | crib (core desc : Nat)
deriving DecidableEq, Repr

inductive Chk where
  | ok (p : Place)
  /-- A write to a derived slate whose leaf has no physical leaf yet: it goes ahead if one can be had. -/
  | take (x : SlAddr)
  | trap (k : TrapKind) (info : Word)
  | need (n : Need)
deriving DecidableEq, Repr

/-! ## Slates -/

/-- The mapped slate of the executing team that covers a global address: on the group's core, or on the partner of a
team that spans a pair (R113). -/
def State.mappedAt (s : State) (ea n : Nat) : Option SlAddr :=
  let team := s.grp.team
  let pair : Bool := match s.teams.look team with | some t => t.pair | none => false
  (if pair then [s.core, partnerOf s.core] else [s.core]).findSome? fun c =>
    ((s.coreAt c).descs.find? fun p => p.2.team == team && p.2.kind == .mapped && !p.2.closed &&
      decide (p.2.mapva ≤ ea ∧ ea + n ≤ p.2.mapva + p.2.leaves * 2048)).map fun p => ⟨c, p.1, ea - p.2.mapva⟩

/-- Whether a group is the replay group of a slate's crib (R126, R133). -/
def Group.replays (g : Group) (core : Nat) (d : Desc) : Bool :=
  match g.replayId, d.crib with
  | some r, some i => r.home == core && r.crib == i
  | _, _ => false

def State.ownReplay (s : State) (core : Nat) (d : Desc) : Bool := s.grp.replays core d

/-- A write that pins, a crib or a replay group's bounds forbid (R125, R126, R133): by a group, an engine on its behalf, or, where
`mon`, its monitor wave. -/
def State.pinnedFor (s : State) (g : Group) (mon : Bool) (core id : Nat) (d : Desc) : Bool :=
  if g.replayId.isSome && !mon then !(d.kind == .derived && g.replays core d)
  else decide (0 < s.pins core id) || (d.kind == .derived && d.crib.isSome)

def State.pinned (s : State) (x : SlAddr) (d : Desc) : Bool := s.pinnedFor s.grp (s.who == .mon) x.core x.id d

/-- Whether a touch of a derived slate misses (R129): it is DROPPED, or its crib is being replayed by another. -/
def State.misses (s : State) (x : SlAddr) (d : Desc) : Bool :=
  d.kind == .derived && !s.ownReplay x.core d &&
    (d.dropped || match d.crib.bind (s.crib? x.core) with | some y => y.st != .live | none => false)

/-- Leaves of the reserve that the executing group may take: a replay group's whose chain holds it (R109, R130). -/
def State.extraOf (s : State) (g : Group) : Nat :=
  match g.replayId with
  | some r => match (s.coreAt r.core).chains.look r.chain with
    | some ch => if ch.reserve then 32 else 0
    | none => 0
  | none => 0

def State.extra (s : State) : Nat := s.extraOf s.grp

/-- What a translation of a mapped sector's line comes to, for a lane that touches it (R113). -/
def State.lineTr (s : State) (a : Acc) (d : Desc) (sector : Nat) : Except Chk Unit :=
  let va := d.mapva + sector * 128
  match s.translate s.grp.part s.core a va with
  | .ok _ _ => .ok ()
  | .park level => .error (.need (.page va a.code level))
  | .trap k => .error (.trap k (vaInfo va))
  | .noPage => .error (.trap .memFault (vaInfo va))
  | .remote _ _ => .error (.trap .memFault (vaInfo va))

/-- The translations that an access through a mapped slate needs: a fill of an absent sector, and a write (R113). -/
def State.lineTrs (s : State) (a : Acc) (d : Desc) (i : Nat) : Except Chk Unit :=
  if d.kind = .mapped then do
    if !(d.sec i).present then s.lineTr .read d i
    if a != .read then s.lineTr .write d i
  else .ok ()

/-- Steps 3 to 9 of R274 for a slate. -/
def State.chkSlate (s : State) (a : Acc) (x : SlAddr) : Chk :=
  match s.desc? x.core x.id with
  | none => .trap .slateRange 0
  | some d =>
    let i := x.ofs / 128
    let y := d.sec i
    let writes := a != .read
    let reads := a != .write
    match s.lineTrs a d i with
    | .error e => e
    | .ok _ =>
      if writes && s.pinned x d then .trap .pinViolation (pinInfo s.core x)
      else if s.misses x d && (reads || d.crib.isSome) then
        (if d.crib.isSome then .need (.crib x.core x.id)
         else .trap .cribStale (BitVec.ofNat 64 (x.id + 0xFF * 256)))
      else if d.kind = .mapped && !y.present then .need (.fill x.core x.id i)
      else if reads && d.kind = .scratch && d.leafLost (x.ofs / 2048) then .trap .staleRead (slateInfo s.core x)
      else if reads && y.st = .poisoned then .trap .uncorrectable (slateInfo s.core x)
      else if writes && d.kind = .derived && (d.leafs.look (x.ofs / 2048)).isNone then .take x
      else .ok (.slate x)

/-! ## The conditions of R274 -/

/-- A global address that no mapped slate serves, or that is performed at its home; `pin` is the PIN_VIOLATION that a write
meets there. -/
def State.chkHome (s : State) (q : Ask) (pin : Option Word) (ea : Nat) : Chk :=
  let pin := if s.grp.replayId.isSome && s.who != .mon then some 0 else pin
  match s.translate s.grp.part s.core q.perm ea with
  | .ok pa key =>
    if q.acc != .read && pin.isSome then .trap .pinViolation (pin.getD 0)
    else if q.acc != .write && q.consume && s.poisonAt pa q.n then .trap .uncorrectable (vaInfo ea) else .ok (.mem pa ea key)
  | .park level => .need (.page ea q.perm.code level)
  | .trap k => .trap k (vaInfo ea)
  | .noPage => .trap .memFault (vaInfo ea)
  | .remote _ _ => .trap .memFault (vaInfo ea)

/-- An address that a slate covers: served by the slate, or performed at the home. -/
def State.chkCovered (s : State) (q : Ask) (x : SlAddr) (va : Nat) : Chk :=
  if q.atHome then
    s.chkHome q ((s.desc? x.core x.id).bind fun y => if s.pinned x y then some (pinInfo s.core x) else none) va
  else s.chkSlate q.acc x

/-- The global address of a byte of a mapped slate. -/
def State.slateVa (s : State) (x : SlAddr) : Option Nat :=
  (s.desc? x.core x.id).bind fun y => if y.kind = .mapped then some (y.mapva + x.ofs) else none

/-- One access of a lane, for which some pages have been rejected. No scalar base reaches the fabric window, so a remote
place does not arise here (R263). -/
def State.chk (s : State) (rejected : List Nat) (q : Ask) : Chk :=
  match q.tgt with
  | .slate a =>
    if a % q.n != 0 then .trap .misalign (vaInfo a)
    else match s.resolve s.core s.grp.team a q.n with
      | none => .trap .slateRange (BitVec.ofNat 64 (a % 2 ^ 32))
      | some x => match s.slateVa x with
        | some va => if rejected.contains (localVa va / 8192) then .trap .memFault (vaInfo va) else s.chkCovered q x va
        | none => s.chkSlate q.acc x
  | .glob ea =>
    let info := BitVec.ofNat 64 (wrapInt 72 ea / 1024)
    if ea < 0 ∨ 2 ^ 72 ≤ ea then .trap .memFault info
    else
      let va := ea.toNat
      if va % q.n != 0 then .trap .misalign info
      else if rejected.contains (localVa va / 8192) then .trap .memFault info
      else match s.mappedAt va q.n with
        | some x => s.chkCovered q x va
        | none => s.chkHome q none va

/-! ## The choice among lanes (R224) -/

/-- A lane (or the control thread), the lanes it stands for, its accesses, and how each came out. -/
structure LaneRes where
  lane : Nat
  set : LaneSet
  chks : List Chk
  asks : List Ask := []

def Chk.place : Chk → Option Place
  | .ok p => some p
  | _ => none
def Chk.need? : Chk → Option Need
  | .need n => some n
  | _ => none

def LaneRes.done (r : LaneRes) : Bool := r.chks.all fun k => k.place.isSome
def LaneRes.needs (r : LaneRes) : List Need := r.chks.filterMap Chk.need?

/-- The traps met: kind, lanes, detail. -/
def trapsOf (l : List LaneRes) : List TrapRec :=
  l.flatMap fun r => r.chks.filterMap fun k => match k with | .trap k w => some ⟨k, r.set, w⟩ | _ => none

/-- The derived slates whose tiles are missing, in operand order. -/
def touchedOf (l : List LaneRes) : List (Nat × Nat) :=
  (l.flatMap fun r => r.needs.filterMap fun n => match n with | .crib c d => some (c, d) | _ => none).eraseDups

/-- The one trap of R224: the first kind in its order, all lanes that meet it, and the detail of the lowest. -/
def chooseTrap (l : List TrapRec) : Option TrapRec :=
  (minBy (fun t => trapRank t.kind) l).map fun t =>
    ⟨t.kind, (l.filter fun u => u.kind == t.kind).foldl (fun x u => x ||| u.lanes) 0, t.info⟩

/-- Depth at which a miss of the executing group starts (R136). -/
def State.missDepth (s : State) : Nat := match s.grp.replayId with | some r => r.depth + 1 | none => 1

/-- Set in motion what one lane waits for (R113, R232). A ticket cause of no lanes marks a fetch, so a control thread that
selects none is given every lane. -/
def State.startNeed (set : LaneSet) (acc : State × List Cause) (n : Need) : State × List Cause :=
  let (s, cs) := acc
  match n with
  | .page va access level =>
    let (s, id) := s.ticketFor s.grp.part va access level s.core
    (s, cs ++ [.ticket id (if set = 0 then lanesBelow 64 else set)])
  | .fill c d i => ((s.takeLeaf c d (i / 16) 0).getD s, cs ++ [.sector c d i])
  | .crib _ _ => (s, cs)

/-- Set in motion what the parked lanes wait for (R113, R129, R232). -/
def State.startNeeds (s : State) (l : List LaneRes) (chain : List (Nat × Nat × Nat)) : State × List Cause :=
  let (s, cs) := l.foldl (fun acc r => r.needs.foldl (State.startNeed r.set) acc) (s, [])
  if (touchedOf l).isEmpty then (s, cs)
  else
    let (s, cs') := s.startMiss (touchedOf l) chain
    (s, cs ++ cs')

/-- A read of a core reaches a line of its L1, but one with .nt, and of its die's L2, a write the L2 (R11, R13, R375). Host memory
stands in no L2. -/
def State.cacheUse (s : State) (pa : Nat) (nt write : Bool) : State :=
  let s := if write || nt then s else s.l1Use s.core (pa / 128)
  if pa < 2 ^ 51 then s.l2Use s.grp.part (dieOfCore s.core) (pa / 128) write else s

/-- Use the translations of the finished lanes, one for each page, and the lines that they read. -/
def State.usePlaces (s : State) (ps : List (Place × Ask)) : State :=
  let ms := ps.filterMap fun (p, q) => match p with
    | .mem pa va key => some (pa, va, key, q.acc == .read && !q.atHome)
    | .slate _ => none
  let nt := ps.any (·.2.nt)
  let one (acc : State × List Nat) (x : Nat × Nat × Nat × Bool) : State × List Nat :=
    if acc.2.contains (x.2.1 / 8192) then acc else (acc.1.useVa s.grp.part s.core x.2.1 x.1 x.2.2.1, x.2.1 / 8192 :: acc.2)
  let t := (ms.foldl one (s, [])).1
  let lines := ms.foldl (fun l x => if x.2.2.2 then insNat l (x.1 / 128) else l) []
  lines.foldl (fun t ln => t.cacheUse (ln * 128) nt false) t

/-- The addresses whose translation an access needs. -/
def State.askVas (s : State) (q : Ask) : List Nat :=
  let covered (x : SlAddr) (va : Nat) : List Nat :=
    match s.desc? x.core x.id with
    | some d => if q.atHome || q.acc != .read || !(d.sec (x.ofs / 128)).present then [va] else []
    | none => []
  match q.tgt with
  | .slate a => match s.resolve s.core s.grp.team a q.n with
    | some x => match s.slateVa x with
      | some va => covered x va
      | none => []
    | none => []
  | .glob ea =>
    if ea < 0 ∨ 2 ^ 72 ≤ ea ∨ ea.toNat % q.n ≠ 0 then []
    else match s.mappedAt ea.toNat q.n with
      | some x => covered x ea.toNat
      | none => [ea.toNat]

/-- Walks for some accesses have read their entries, one for each page (R236). -/
def State.claimAsks (s : State) (l : List Ask) : State :=
  let pages := ((l.flatMap s.askVas).map (· / 8192)).eraseDups
  pages.foldl (fun t k => t.claimWalk s.grp.part (k * 8192)) s

def State.hasMapped (s : State) : Bool := s.cores.any fun x => x.2.descs.any fun d => d.2.kind == .mapped

/-- Dirty copies of the lines that accesses reach in memory are written back first (R113). -/
def State.recallAsks (s : State) (l : List Ask) : State :=
  if !s.hasMapped then s
  else l.foldl (fun t q => match q.tgt with
    | .slate _ => t
    | .glob ea =>
      if ea < 0 ∨ 2 ^ 72 ≤ ea ∨ (!q.atHome && (s.mappedAt ea.toNat q.n).isSome) then t
      else match s.translate s.grp.part s.core q.perm ea.toNat with
        | .ok pa _ => t.recall (pa / 128)
        | _ => t) s

/-! ### Physical leaves (R108) -/

/-- The physical leaf that an access must be given: core, descriptor, leaf. -/
def State.leafWant (s : State) : Chk → Option (Nat × Nat × Nat)
  | .take x => some (x.core, x.id, x.ofs / 2048)
  | .need (.fill c d i) => match s.desc? c d with
    | some y => if (y.leafs.look (i / 16)).isNone then some (c, d, i / 16) else none
    | none => none
  | _ => none

/-- Give an access its physical leaf: SLATE_FULL where one more is not to be had beside those that earlier lanes take. Fills of
mapped slates have no part of the replay reserve (R109). -/
def State.grantChk (s : State) (acc : List (Nat × Nat × Nat) × List Chk) (k : Chk) : List (Nat × Nat × Nat) × List Chk :=
  let (got, out) := acc
  let ok : Chk := match k with | .take x => .ok (.slate x) | k => k
  match s.leafWant k with
  | none => (got, out ++ [k])
  | some w =>
    if got.contains w then (got, out ++ [ok])
    else
      let got' := w :: got
      let derived (x : Nat × Nat × Nat) : Bool := match s.desc? x.1 x.2.1 with | some d => d.kind == .derived | none => false
      let mine := got'.filter fun x => x.1 == w.1
      let keep := (mine.filter derived).map (·.2.1)
      let fills := (mine.filter fun x => !derived x).length
      if (s.room w.1 mine.length s.extra keep).isSome && (fills = 0 || (s.room w.1 fills 0 keep).isSome) then (got', out ++ [ok])
      else (got, out ++ [.trap .slateFull 4])

def State.grantLeaves (s : State) (l : List LaneRes) : List LaneRes :=
  if l.all fun r => r.chks.all fun k => (s.leafWant k).isNone then l
  else (l.foldl (fun (acc : List (Nat × Nat × Nat) × List LaneRes) r =>
    let (got, cs) := r.chks.foldl s.grantChk (acc.1, [])
    (got, acc.2 ++ [{ r with chks := cs }])) ([], [])).2

/-! ### Behind an MSTZ (R170; log 79) -/

/-- Lines of memory that the `n` bytes of a place stand in. -/
def State.placeLines (s : State) (p : Place) (n : Nat) : List Nat :=
  match p with
  | .mem pa _ _ => (List.range ((pa % 128 + n + 127) / 128)).map fun k => pa / 128 + k
  | .slate x => s.stzLines x.core x.id x.ofs n

/-- Whether a place of `n` bytes overlaps what an MSTZ of the executing arm will write. -/
def State.stzHits (s : State) (p : Place) (n : Nat) : Bool :=
  s.stzOnLines (s.placeLines p n) || match p with
    | .slate x => (s.grp.stzOps s.who).any fun y => match y.2.stzSpan with
      | some (core, id, ofs, size) => x.core == core && x.id == id && decide (x.ofs < ofs + size ∧ ofs < x.ofs + n)
      | none => false
    | .mem _ _ _ => false

/-- Whether accesses must wait for an MSTZ: they reach bytes that one of their arm will write, or a fence or revision 2 holds
them back. -/
def State.stzHolds (s : State) (l : List (Place × Ask)) : Bool :=
  let l := l.filter fun x => !x.2.late
  if s.grp.stzAll.isEmpty || l.isEmpty then false
  else s.stzFenced (l.any fun x => x.2.acc != .read) || l.any fun x => s.stzHits x.1 x.2.n

/-- What an instruction's accesses come to: the lanes that may act with their places, and the lanes and causes of the
park it leaves, if any. -/
structure Granted where
  st : State
  done : List (Nat × List Place)
  park : Option (LaneSet × List Cause)

/-- The traps of the chains of an instruction's misses, for the lanes that touch the slates concerned (R129). -/
def cribTraps (l : List LaneRes) (errs : List ((Nat × Nat) × TrapKind × Word)) : List TrapRec :=
  errs.flatMap fun (t, k, w) => l.filterMap fun r =>
    if r.needs.any (fun n => match n with | .crib c d => (c, d) == t | _ => false) then some ⟨k, r.set, w⟩ else none

/-- Whether what a granted place stands in has been evicted since, for another lane's fill: its lane misses or fills when it issues
again (R115). -/
def State.gone (s t : State) : Place → Bool
  | .mem _ _ _ => false
  | .slate x => match s.desc? x.core x.id, t.desc? x.core x.id with
    | some d, some e => match e.kind with
      | .mapped => !(e.sec (x.ofs / 128)).present
      | .derived => e.dropped && !d.dropped
      | .scratch => false
    | _, _ => true

/-- The accesses of an instruction, decided together (R224, R231, R274). -/
def State.access (s : State) (l : List LaneRes) : Except Exit Granted :=
  let l := s.grantLeaves l
  let asks := l.flatMap (·.asks)
  let (errs, chain) := s.missWalk (touchedOf l) s.missDepth
  match chooseTrap (trapsOf l ++ cribTraps l errs) with
  | some t => .error (.trapIn (s.claimAsks asks) t)
  | none =>
    let done := (l.filter LaneRes.done).map fun r => (r.lane, r.chks.filterMap Chk.place)
    let used := (l.filter LaneRes.done).flatMap fun r => (r.chks.filterMap Chk.place).zip r.asks
    if s.stzHolds used then .error (.stall s)
    else
      let left := l.filter fun r => !r.done
      let s := (if left.isEmpty && !s.hasMapped then s else s.claimAsks asks).usePlaces used
      if left.isEmpty then .ok ⟨s, done, none⟩
      else
        let (t, cs) := s.startNeeds left chain
        let gone := (l.filter LaneRes.done).filter fun r => (r.chks.filterMap Chk.place).any (s.gone t)
        .ok ⟨t, done.filter fun x => !gone.any fun r => r.lane == x.1, some ((left ++ gone).foldl (fun x r => x ||| r.set) 0, cs)⟩

/-- How a lane's accesses come out: MEM_FAULT on a page that was rejected for it, which it may no longer ask for (R231, R232). -/
def State.chkLane (s : State) (rejected : List Nat) (l : List Ask) : List Chk :=
  let r := l.map (s.chk rejected)
  match rejected with
  | [] => r
  | q :: _ => if r.any (fun k => match k with | .trap _ _ => true | _ => false) then r else [.trap .memFault (vaInfo (q * 8192))]

/-- The accesses of the unfinished lanes of a vector word. -/
def State.laneAccess (s : State) (c : Ctx) (asks : Nat → List Ask) : Except Exit Granted :=
  let s := s.recallAsks ((laneList c.todo).flatMap asks)
  s.access ((laneList c.todo).map fun i => ⟨i, laneBit i, s.chkLane (c.pages i) (asks i), asks i⟩)

/-- The accesses of a control-thread word. -/
def State.oneAccess (s : State) (c : Ctx) (l : List Ask) : Except Exit Granted :=
  let s := s.recallAsks l
  s.access [⟨0, c.sel, s.chkLane c.allPages l, l⟩]

/-! ## Reading and writing places -/

/-- A touch of a slate's bytes by a read: its leaf and, where mapped, its sector are touched. -/
def State.touchPlace (s : State) (p : Place) : State :=
  match p with
  | .mem _ _ _ => s
  | .slate x =>
    let s := s.touchLeaf x.core x.id (x.ofs / 2048)
    s.modDesc x.core x.id fun d => if d.kind = .mapped then
      let y := d.sec (x.ofs / 128)
      d.setSec (x.ofs / 128) { y with touched := true } else d

/-- After a word with .nt the leaves of mapped slates that it reached are the least recently touched (R375). -/
def State.leastTouched (s : State) (nt : Bool) (ps : List Place) : State :=
  if nt then ps.foldl (fun t p => match p with
    | .mem _ _ _ => t
    | .slate x => t.modDesc x.core x.id fun d =>
        if d.kind = .mapped then { d with leafs := d.leafs.upd (x.ofs / 2048) fun _ => 0 } else d) s
  else s

/-- The bytes of one write. -/
structure Put where
  at' : Place
  bytes : List Byte
deriving Repr

/-- Cells of a list of writes that fall in memory, and in each slate. -/
def memCells (l : List Put) : List (Nat × Byte) :=
  l.flatMap fun w => match w.at' with | .mem pa _ _ => cellsAt pa w.bytes | .slate _ => []
def slateIds (l : List Put) : List (Nat × Nat) :=
  (l.filterMap fun w => match w.at' with | .slate x => some (x.core, x.id) | .mem _ _ _ => none).eraseDups
def slateCells (l : List Put) (core id : Nat) : List (Nat × Byte) :=
  l.flatMap fun w => match w.at' with
    | .slate x => if x.core = core ∧ x.id = id then cellsAt x.ofs w.bytes else []
    | .mem _ _ _ => []

/-- Make the writes of one instruction: its bytes first, those of mapped slates before any leaf is taken for another slate,
then what the writes to memory do beside. Of the bytes at the places `part` some bits are not written (R78). -/
def State.putHome (s : State) (l : List Put) (part : List Place := []) : State :=
  let m := memCells l
  let mapped (p : Nat × Nat) : Bool := match s.desc? p.1 p.2 with | some d => d.kind == .mapped | none => false
  let put (t : State) (p : Nat × Nat) : State :=
    t.slWritePart p.1 p.2 t.extra ((slateCells (part.map fun q => ⟨q, [0]⟩) p.1 p.2).map (·.1)) (slateCells l p.1 p.2)
  let ms := (slateIds l).filter mapped
  let t := ms.foldl put s
  let t := { t with mem := t.mem.store m }
  let t := ((slateIds l).filter fun p => !mapped p).foldl put t
  let t := ms.foldl (fun t p => t.afterWrite (s.homeCells p.1 p.2 (slateCells l p.1 p.2)) (some p)) t
  t.afterWrite m none

/-- The same for writes that are not performed at the line's home: the lines stand in the die's L2. -/
def State.putAll (s : State) (l : List Put) (part : List Place := []) : State :=
  (linesOf (memCells l)).foldl (fun t ln => t.cacheUse (ln * 128) false true) (s.putHome l part)

/-- Whether two places of `n` bytes overlap. -/
def overlap (n : Nat) (a b : Place) : Bool :=
  match a, b with
  | .mem p _ _, .mem q _ _ => decide (p < q + n ∧ q < p + n)
  | .slate x, .slate y => x.core == y.core && x.id == y.id && decide (x.ofs < y.ofs + n ∧ y.ofs < x.ofs + n)
  | _, _ => false

/-- Lanes in the order in which their writes land: lane order, or where any two overlap a free order (log 17). -/
def State.laneOrder (s : State) (n : Nat) (l : List (Nat × Place)) : List (Nat × Place) :=
  let clash := l.any fun a => l.any fun b => a.1 != b.1 && overlap n a.2 b.2
  if clash then sortBy (fun x => Config.laneKey s.cnt.steps x.1) l else l

/-! ## Addresses (R263, R276, R376) -/

/-- Signed offset in units of the access size. -/
def offOf (off : BitVec 10) (unit : Nat) : Int := off.toInt * (unit : Int)

/-- The target of an address: global and exact, or a slate address modulo 2^32. -/
def tgtOf (sl : Bool) (base : Word) (add : Int) : Tgt :=
  if sl then .slate (wrapInt 32 ((base.toNat : Int) + add)) else .glob ((base.toNat : Int) + add)

/-- Address of lane `i` with a vector index. -/
def eaIdx (s : State) (sl : Bool) (base : SBase) (idx : VSrc) (off : BitVec 10) (unit i : Nat) : Tgt :=
  tgtOf sl (base.value s) ((idx.lane32 s i).toInt + offOf off unit)

/-- Address of lane `i` with a scalar stride. -/
def eaStride (s : State) (sl : Bool) (base : SBase) (stride : SSrc) (off : BitVec 10) (unit i : Nat) : Tgt :=
  tgtOf sl (base.value s) ((i : Int) * (stride.value s).toInt + offOf off unit)

def msize : MSize → Nat
  | .b1 => 1 | .b2 => 2 | .b4 => 4 | .b8 => 8

/-! ## How a memory word ends -/

/-- An order that releases (R166). -/
def relOf : MemOrd → Bool
  | .rel | .ar | .sc => true
  | .rlx | .acq => false

/-- Registers of a class L word. -/
def longInfo (g : Guard) (x : Bool) (vs vd ss : List Nat) (mon : Bool) : Info :=
  { g := g, vs := vs, vd := vd, ss := ss, long := some x, mon := mon }

/-- The word completes with its register writes still to come, or parks with those of its finished lanes made. -/
def endAccess (x : Bool) (g : Granted) (s : State) (wb : List WriteBack) (kind : OpKind := .plain) : Except Exit Done :=
  match g.park with
  | none => .ok (.next (s.addOp (s.flagOf x) kind [] wb))
  | some (l, cs) => .error (.park (s.modGrp fun y => y.applyWbs s.cnt.steps s.who wb) l cs)

end Sys2Proof.Machine
end

