-- ==== Sys2Proof/Machine/Quant.lean ====
section
/-! DEFINITION. Format slots as instructions act on them: FSWAP's issue, FFENCE, FQRY (R94, R96, R100, R312, R316–R318),
and the block conversions QNT and DQNT (R76–R78, R88–R91, R308–R309, R331–R332). -/

namespace Sys2Proof

open Machine

/-- The per-tensor scale: FP32 in the low bits of a scalar; a small integer converts exactly (R308). -/
def SSrc.scaleT (s : State) : SSrc → FVal
  | .imm c => FVal.ofInt (smallInt c)
  | x => fp32.decode ((x.value s).toNat % 2 ^ 32)

end Sys2Proof

namespace Sys2Proof.Machine

/-! ## Ranges of slate bytes -/

/-- The accesses of a range of slate bytes: one in each sector, with as many bytes as it has there. -/
def rangeAsks (a : Acc) (addr n : Nat) : List Ask :=
  let addr := addr % 2 ^ 32
  (List.range ((addr + n - 1) / 128 + 1 - addr / 128)).map fun k =>
    let b := max addr ((addr / 128 + k) * 128)
    { acc := a, tgt := .slate b, n := min (addr + n) ((addr / 128 + k + 1) * 128) - b }

/-- The checks of a range of slate bytes, which must lie within one slate. -/
def State.rangeChks (s : State) (a : Acc) (rejected : List Nat) (addr n : Nat) : List Chk :=
  match s.resolve s.core s.grp.team (addr % 2 ^ 32) n with
  | none => [.trap .slateRange (BitVec.ofNat 64 (addr % 2 ^ 32))]
  | some _ => (rangeAsks a addr n).map fun q => s.chk rejected { q with n := 1 }

/-- The same for several ranges that a lane, or the control thread, accesses: MEM_FAULT on a rejected page. -/
def State.rangesRes (s : State) (lane : Nat) (set : LaneSet) (rejected : List Nat) (l : List (Acc × Nat × Nat)) : LaneRes :=
  let r := l.flatMap fun (a, addr, n) => s.rangeChks a rejected addr n
  let trapped := r.any fun k => match k with | .trap _ _ => true | _ => false
  { lane := lane, set := set, asks := l.flatMap fun (a, addr, n) => rangeAsks a addr n
    chks := match rejected with
      | [] => r
      | q :: _ => if trapped then r else [.trap .memFault (vaInfo (q * 8192))] }

/-- The place of a byte of a slate range that has been granted. -/
def State.slatePlace (s : State) (addr : Nat) : Option Place :=
  (s.resolve s.core s.grp.team (addr % 2 ^ 32) 1).map .slate

def State.slateBytes (s : State) (addr n : Nat) : List Byte :=
  match s.resolve s.core s.grp.team (addr % 2 ^ 32) 1 with
  | some x => s.slBytes x.core x.id x.ofs n
  | none => List.replicate n 0

/-- Writes of single bytes by slate address. -/
def State.bytePuts (s : State) (l : List (Nat × Byte)) : List Put :=
  l.filterMap fun (a, b) => (s.slatePlace a).map fun p => ⟨p, [b]⟩

/-! ## Packed streams (R78) -/

/-- Elements of width `w` in a line. -/
def perLine (w : Nat) : Nat := 1024 / w

/-- Bit position of an element of a stream, from the start of the stream. -/
def elemBit (w n : Nat) : Nat := 1024 * (n / perLine w) + n % perLine w * w

/-- The code of an element, read from the bytes that hold it. -/
def State.elemCode (s : State) (addr w n : Nat) : Nat :=
  let b := elemBit w n
  ofBytes (s.slateBytes (addr + b / 8) (w / 8 + 2)) / 2 ^ (b % 8) % 2 ^ w

/-- First byte of a run of elements, and the byte after it; the spare bits belong to a line's last element. -/
def runBytes (w first count : Nat) : Nat × Nat :=
  let last := first + count - 1
  (elemBit w first / 8,
    if last % perLine w = perLine w - 1 then 128 * (last / perLine w + 1) else (elemBit w last + w - 1) / 8 + 1)

/-- Replace `w` bits at a bit position of a byte table by a code. -/
def orBits (t : Tbl Byte) (pos w code : Nat) : Tbl Byte :=
  (List.range (w / 8 + 2)).foldl (fun t k =>
    let a := pos / 8 + k
    let lo := 8 * k
    let sh := pos % 8
    let mask := (2 ^ w - 1) * 2 ^ sh / 2 ^ lo % 256
    if mask = 0 then t
    else t.upd a fun b => (b &&& ~~~(BitVec.ofNat 8 mask)) ||| (BitVec.ofNat 8 (code * 2 ^ sh / 2 ^ lo) &&& BitVec.ofNat 8 mask)) t

/-- Clear the spare bits of a line. -/
def clearSpare (t : Tbl Byte) (line w : Nat) : Tbl Byte :=
  let used := perLine w * w
  if used = 1024 then t else orBits t (1024 * line + used) (1024 - used) 0

/-- The bytes of a stream after elements are written: offsets from its start. -/
def State.streamBytes (s : State) (addr w : Nat) (runs : List (Nat × List Nat)) : Tbl Byte :=
  let t : Tbl Byte := runs.foldl (fun t (first, l) =>
    let (a, z) := runBytes w first l.length
    (List.range (z - a)).foldl (fun t k => t.ins (a + k) ((s.slateBytes (addr + a + k) 1).headD 0)) t) []
  runs.foldl (fun t (first, l) =>
    let t := (l.zipIdx).foldl (fun t (c, k) => orBits t (elemBit w (first + k)) w c) t
    (List.range l.length).foldl (fun t k =>
      if (first + k) % perLine w = perLine w - 1 then clearSpare t ((first + k) / perLine w) w else t) t) t

/-- Whether runs of elements write every bit of a byte of a stream, spare bits with a line's last element. -/
def wholeByte (w : Nat) (runs : List (Nat × Nat)) (o : Nat) : Bool :=
  (List.range 8).all fun k =>
    let p := 8 * o + k
    let e := p / 1024 * perLine w + min (p % 1024 / w) (perLine w - 1)
    runs.any fun (first, n) => decide (first ≤ e ∧ e < first + n)

/-! ## QNT (R88, R331, R332) -/

def blockLen : SMode → Nat
  | .none => 1 | .e5m3 => 128 | .e8m0 => 32

inductive Mark where
  | none | lo | hi | nan
deriving DecidableEq, Repr

/-- n1 ÷ d1 ≤ n2 ÷ d2, where a zero denominator is +∞. -/
def ratLe (a b : Nat × Nat) : Bool := decide (a.1 * b.2 ≤ b.1 * a.2)

/-- |x| ÷ y of a value and a positive finite one. -/
def ratOver (x y : FVal) : Nat × Nat :=
  match x, y with
  | .num _ m e, .num _ k f =>
    let (n, d) := ratOf m e
    let (n', d') := ratOf k f
    (n * d', d * n')
  | _, _ => (1, 0)

/-- One block: element codes, scale code and mark (R88). -/
def quantBlock (f : Fmt) (mode : SMode) (r : Rnd) (t : FVal) (rnd : Nat → Nat) (xs : List FVal) : List Nat × Nat × Mark :=
  let bad : Bool := match t with | .num false m _ => m == 0 | _ => true
  if bad || xs.contains .nan then (xs.map fun _ => 0, 0xFF, .nan)
  else
    let a := (xs.map (ratOver · t)).foldl (fun m q => if ratLe m q then q else m) (0, 1)
    if a.1 = 0 then (xs.map fun _ => f.round ⟨r.mode, true⟩ 0 (.num false 0 0), 0, .none)
    else
      let mx := ratOver f.maxVal (.num false 1 0)
      let b := (a.1 * mx.2, a.2 * mx.1)
      let least := if mode = .e5m3 then 1 else 0
      let val (c : Nat) : Nat × Nat := ratOver (scaleDecode mode c) (.num false 1 0)
      let found := (List.range 0xFF).find? fun c => decide (least ≤ c) && ratLe b (val c)
      let scale := found.getD 0xFE
      let mark : Mark := if found.isNone then .hi else if scale = least && !ratLe (val least) b then .lo else .none
      let (sn, sd) := val scale
      let codes := xs.zipIdx.map fun (x, k) =>
        let q : FVal := x
        match q with
        | .num neg m _ =>
          if m = 0 then f.round ⟨r.mode, true⟩ (rnd k) q
          else
            let (n, d) := ratOver q t
            f.roundRat ⟨r.mode, true⟩ (rnd k) neg (n * sd) (d * sn)
        | _ => f.round ⟨r.mode, true⟩ (rnd k) q
      (codes, scale, mark)

/-- QSTAT after a QNT (R90). -/
def qstatAdd (q : Word) (lo hi nan : Bool) (count : Nat) : Word :=
  let bit (b : Bool) (k : Nat) : Word := if b then BitVec.ofNat 64 (2 ^ k) else 0
  let n := min (bits q.toNat 16 32 + count) (2 ^ 32 - 1)
  let keep : Word := q &&& ~~~(BitVec.ofNat 64 ((2 ^ 32 - 1) * 2 ^ 16))
  keep ||| bit lo 0 ||| bit hi 1 ||| bit nan 2 ||| BitVec.ofNat 64 (n * 2 ^ 16)

def execQnt (g : Guard) (x : Bool) (src dst sc t : SSrc) (mode : SMode) (slot : Slot) (r : Rnd) (s : State) :
    Host.Outcome State Fault Refusal :=
  wordOp (longInfo g x [] [] (src.sregs ++ dst.sregs ++ sc.sregs ++ t.sregs) false) (fun c s => do
    let p0 := (src.value s).toNat
    let p1 := (dst.value s).toNat
    let p2 := (sc.value s).toNat
    if 2 ^ 32 ≤ p0 ∨ 2 ^ 48 ≤ p1 ∨ 2 ^ 32 ≤ p2 then .error (.trap (illegal c.todo))
    let f ← s.slotUse c slot.val 3
    let a1 := p1 % 2 ^ 32
    if p0 % 128 ≠ 0 then .error (.trap ⟨.misalign, c.todo, vaInfo p0⟩)
    if a1 % 128 ≠ 0 then .error (.trap ⟨.misalign, c.todo, vaInfo a1⟩)
    let len := blockLen mode
    let e0 := p1 / 2 ^ 32
    let w := f.width
    let first (i : Nat) : Nat := e0 + len * i
    let todo := laneList c.todo
    let res := todo.map fun i =>
      let (a, z) := runBytes w (first i) len
      s.rangesRes i (laneBit i) (c.pages i) [(.read, p0 + 4 * len * i, 4 * len), (.write, a1 + a, z - a), (.write, p2 + i, 1)]
    let gr ← s.access res
    match gr.park with
    | some (_, cs) => .error (.park gr.st c.todo cs)
    | none =>
      let s := gr.st
      let width := s.grp.shape.width
      let (draws, gen) := if r.mode = .sr then srDraws s.grp.gen (len * width) else ([], s.grp.gen)
      let tv := t.scaleT s
      let blocks := todo.map fun i =>
        let raw := s.slateBytes (p0 + 4 * len * i) (4 * len)
        let xs := (List.range len).map fun k => fp32.decode (fieldAt raw (4 * k) 4)
        (i, quantBlock f mode r tv (fun k => draws.getD (len * i + k) 0) xs)
      let marked (m : Mark) : List Nat := (blocks.filter fun b => b.2.2.2 == m).map (·.1)
      let q := s.grp.qstat
      let trapping := (if q.getLsbD 8 then marked .lo else []) ++ (if q.getLsbD 9 then marked .hi else [])
      let count := (marked .lo).length + (marked .hi).length
      if !trapping.isEmpty then
        let info := (if (marked .lo).isEmpty then 0 else 1) + (if (marked .hi).isEmpty then 0 else 2) + count * 2 ^ 16
        .error (.trapIn s ⟨.quantRange, trapping.foldl (fun l i => l ||| laneBit i) 0, BitVec.ofNat 64 info⟩)
      else
        let out := s.streamBytes a1 w (blocks.map fun b => (first b.1, b.2.1))
        let part := (out.keys.filter fun o => !wholeByte w (blocks.map fun b => (first b.1, len)) o).filterMap fun o => s.slatePlace (a1 + o)
        let puts := s.bytePuts (out.map fun (o, b) => (a1 + o, b)) ++
          s.bytePuts (blocks.map fun b => (p2 + b.1, BitVec.ofNat 8 b.2.2.1))
        let s := (gr.done.flatMap (·.2)).foldl State.touchPlace ((s.modGrp fun y => { y with gen := gen }).putAll puts part)
        .ok (.next (s.addOp (s.flagOf x) (.quant (!(marked .lo).isEmpty) (!(marked .hi).isEmpty) (!(marked .nan).isEmpty) count)
          [slot.val] []))) s

/-! ## DQNT (R89, R308, R309) -/

/-- The result of one lane of DQNT. -/
def dquant (mode : SMode) (r : Rnd) (rnd : Nat) (q sc t : FVal) : Nat :=
  let p := (q.mul sc).mul t
  let p : FVal := match p with
    | .num _ _ _ => if mode = .e5m3 && sc.isZero then .num false 0 0 else p
    | _ => p
  fp32.round r rnd p

def execDqnt (g : Guard) (x : Bool) (d : VReg) (src sc t : SSrc) (mode : SMode) (slot : Slot) (r : Rnd) (s : State) :
    Host.Outcome State Fault Refusal :=
  wordOp (longInfo g x [] [d.val] (src.sregs ++ sc.sregs ++ t.sregs) false) (fun c s => do
    let p1 := (src.value s).toNat
    let p2 := if mode = .none then 0 else (sc.value s).toNat
    if 2 ^ 48 ≤ p1 ∨ 2 ^ 32 ≤ p2 then .error (.trap (illegal c.todo))
    let f ← s.slotUse c slot.val 3
    let a1 := p1 % 2 ^ 32
    if a1 % 128 ≠ 0 then .error (.trap ⟨.misalign, c.todo, vaInfo a1⟩)
    let e0 := p1 / 2 ^ 32
    let w := f.width
    let len := blockLen mode
    let res := (laneList c.todo).map fun i =>
      let b := elemBit w (e0 + i)
      s.rangesRes i (laneBit i) (c.pages i) ((.read, a1 + b / 8, (b % 8 + w + 7) / 8) ::
        (if mode = .none then [] else [(.read, p2 + (e0 + i) / len, 1)]))
    let gr ← s.access res
    let s := gr.st
    let (draw, s') := s.drawLanes r.mode
    let wb := gr.done.map fun (i, _) =>
      let q := f.decode (s.elemCode a1 w (e0 + i))
      let sv := if mode = .none then .num false 1 0
        else scaleDecode mode (ofBytes (s.slateBytes (p2 + (e0 + i) / len) 1))
      WriteBack.v d.val i (BitVec.ofNat 32 (dquant mode r (draw i) q sv (t.scaleT s)))
    let touched := (gr.done.flatMap (·.2)).foldl State.touchPlace (if gr.park.isSome then s else s')
    match gr.park with
    | none => longDone x [slot.val] wb touched
    | some (l, cs) =>
      let t := touched.modGrp fun y => y.applyWbs s.cnt.steps s.who wb
      .error (.park (if l = c.sel then t else t.modArm fun a => { a with uses := [slot.val] }) l cs)) s

/-! ## FSWAP, FFENCE, FQRY -/

/-- FSWAP issues: its step on each selected die begins (R96, R317, R318). -/
def execFswap (g : Guard) (x : Bool) (d : SReg) (form : SwapForm) (dies : SSrc) (slot : Slot) (s : State) :
    Host.Outcome State Fault Refusal :=
  let (src, ops) : Nat × List Nat := match form with
    | .expert r => (0, r.sregs) | .basic k => (1, k.sregs) | .unbind => (2, [])
  wordOp { longInfo g x [] [] (d.val :: (ops ++ dies.sregs)) false with lanewise := true, rep := false } (fun c s =>
    let mask := (dies.value s).toNat
    let arg := match form with | .expert r => (r.value s).toNat | .basic k => (k.value s).toNat | .unbind => 0
    if !s.executes g c.sel then longDone x [] [.s d.val 0xFFFF] s
    else if 16 ≤ mask ∨ (src = 1 ∧ ¬(1 ≤ arg ∧ arg ≤ 6)) then .error (.trap (illegal c.sel))
    else
      let p := s.par s.grp.part
      let own := dieOfCore s.core
      let sel (k : Nat) : Bool := if mask = 0 then k == own else bitB mask k
      let steps : Tbl SwapSt := ((List.range 4).filter sel).map fun k =>
        (k, if partHasDie p k then SwapSt.verify else .done 0xE)
      let id := s.cnt.swap
      let y : Swap :=
        { key := s.grp.key, part := s.grp.part, op := s.cnt.op, dst := d.val, slot := slot.val, src := src, arg := arg
          dies := steps, record := none, meas := 0, ticket := none, rejected := false, unlogged := [] }
      let s := { s with swaps := s.swaps.ins id y, cnt := { s.cnt with swap := id + 1 } }
      .ok (.next (s.addOp (s.flagOf x) (.fswap id) [] [.s d.val 0]))) s

/-- FFENCE waits until every loadable slot of the partition on its die has left TRANSITION (R100). -/
def execFfence (g : Guard) (s : State) : Host.Outcome State Fault Refusal :=
  wordOp { g := g } (fun _ s =>
    let busy := (List.range 8).any fun k => (s.slotOf s.grp.part (dieOfCore s.core) (8 + k)).st == .transition
    if busy then .error (.stall s) else .ok (.next s)) s



/-- The status word of a slot (R316). -/
def State.slotWord (s : State) (slot : Nat) : Nat :=
  if slot < 8 then
    let f := hardSlot slot
    1 + 0xF * 2 ^ 16 + f.width * 2 ^ 20 + (if slot = 0 then 0 else f.planes) * 2 ^ 26 + (if slot = 0 then 4 else 0x3F) * 2 ^ 32
  else
    let b := s.slotOf s.grp.part (dieOfCore s.core) slot
    let code := match b.st with | .unbound => 0 | .bound => 1 | .transition => 2
    let bound := b.st == .bound || (b.st == .transition && b.wasBound)
    code + b.gen.toNat * 2 ^ 8 + if bound then
      b.region * 2 ^ 16 + fieldAt b.record 6 1 % 64 * 2 ^ 20 + fieldAt b.record 7 1 % 32 * 2 ^ 26 + fieldAt b.record 0x11 1 * 2 ^ 32
    else 0xF * 2 ^ 16

/-- A word of MEAS. -/
def State.slotMeas (s : State) (slot k : Nat) : Nat :=
  if slot < 8 then 0
  else
    let b := s.slotOf s.grp.part (dieOfCore s.core) slot
    if b.st == .bound || (b.st == .transition && b.wasBound) then bits b.meas.toNat (64 * k) 64 else 0

def execFqry (g : Guard) (d : SReg) (word : Fin 5) (slot : Slot) (s : State) : Host.Outcome State Fault Refusal :=
  wordOp { g := g, ss := [d.val] } (fun _ s =>
    setS d (BitVec.ofNat 64 (if word.val = 0 then s.slotWord slot.val else s.slotMeas slot.val (word.val - 1))) s) s

end Sys2Proof.Machine
end

