-- ==== Sys2Proof/Machine/Matrix.lean ====
section
/-! DEFINITION. The matrix engine: planar tiles (R120), collective instructions (R140–R149, R326–R329), the summation of an
MMA (R84–R87), and what a collective operation does once its version is ready (R145). -/

namespace Sys2Proof.Machine

/-! ## Planar tiles (R120) -/

/-- Bytes of a tile of `p` planes. -/
def tileBytes (p : Nat) : Nat := 0x900 + 0x100 * p

/-- Bit `i` of a plane of a tile. -/
def planeBit (t : List Byte) (ofs i : Nat) : Bool := bitB (t.getD (ofs + i / 8) 0).toNat (i % 8)

/-- Element `i` of a tile of `p` planes, of which only the first `keep` are read. -/
def tileElem (t : List Byte) (p keep i : Nat) : FVal :=
  let sig := (List.range keep).foldl (fun n j => if planeBit t (0x900 + 0x100 * j) i then n + 2 ^ (p - 1 - j) else n) 0
  planarVal p (planeBit t 0 i) (t.getD (0x100 + i) 0).toNat sig

/-- A byte of eight flags. -/
def packByte (f : Nat → Bool) : Byte := BitVec.ofNat 8 ((List.range 8).foldl (fun n i => if f i then n + 2 ^ i else n) 0)

/-- The bytes of a tile of 2,048 elements given by their parts. -/
def tileOf (p : Nat) (el : List (Bool × Nat × Nat)) : List Byte :=
  let at' (i : Nat) : Bool × Nat × Nat := el.getD i (false, 0, 0)
  let plane (f : Bool × Nat × Nat → Bool) : List Byte := (List.range 256).map fun b => packByte fun i => f (at' (8 * b + i))
  plane (·.1) ++ (List.range 2048).map (fun i => BitVec.ofNat 8 (at' i).2.1) ++
    (List.range p).flatMap fun j => plane fun x => bitB x.2.2 (p - 1 - j)

/-! ## The summation (R84–R87) -/

/-- floor(log2) of a magnitude that is not zero. -/
def topBit (m : Nat) (e : Int) : Int := (Nat.log2 m : Int) + e

/-- floor(m · 2^e ÷ 2^u). -/
def shiftTo (m : Nat) (e u : Int) : Nat := if u ≤ e then m * 2 ^ (e - u).toNat else m / 2 ^ (u - e).toNat

/-- The finite window sum (R86). -/
def windowSum (ps : List FVal) : FVal :=
  let parts := ps.filterMap fun p => match p with | .num neg m e => if m = 0 then none else some (neg, m, e) | _ => none
  match parts with
  | [] => .num false 0 0
  | (_, m, e) :: rest =>
    let top := rest.foldl (fun t x => max t (topBit x.2.1 x.2.2)) (topBit m e)
    let u := top - 44
    let sum : Int := parts.foldl (fun t x => let q : Int := shiftTo x.2.1 x.2.2 u; if x.1 then t - q else t + q) 0
    .num (decide (sum < 0)) sum.natAbs u

/-- The value P of an element from its products (R85, R86). -/
def mmaProduct (ps : List FVal) (sa sb : FVal) : FVal :=
  let infs (neg : Bool) : Bool := ps.contains (.inf neg)
  if ps.contains .nan || sa == .nan || sb == .nan then .nan
  else if infs true && infs false then .nan
  else
    let p : FVal := if infs true then .inf true else if infs false then .inf false else windowSum ps
    match (p.mul sa).mul sb with
    | .num neg m e => if m = 0 then .num false 0 0 else .num neg m e
    | q => q

/-- One element of an MMA (R87). -/
def mmaElem (a b sa sb : List FVal) (z : Lane) (m n : Nat) : Lane :=
  let ps := (List.range 32).map fun k => (a.getD (32 * m + k) default).mul (b.getD (32 * n + k) default)
  let p := mmaProduct ps (sa.getD m (.num false 1 0)) (sb.getD n (.num false 1 0))
  BitVec.ofNat 32 (fp32.round ⟨.rn, false⟩ 0 ((fp32.decode z.toNat).add false p))

/-! ## Issue -/

/-- The version a collective instruction expects (R142). -/
def verOf (s : State) (x : SSrc) : Nat := bits (x.value s).toNat 0 16

/-- Collective instructions past step 1 on a core (R148). -/
def State.collOps (s : State) (core : Nat) : Nat :=
  ((s.groups.filter fun g => g.key.core == core).map fun g =>
    (g.ops.vals.filter fun o => o.collZ.isSome).length).sum

/-- ILL_CONVERGENCE unless every lane of the width is selected; no lane selected completes empty before this (R140). -/
def converged (c : Ctx) (s : State) : Except Exit Unit :=
  let full := lanesBelow s.grp.shape.width
  if c.sel = full then .ok () else .error (.trap ⟨.illConvergence, full &&& ~~~c.sel, 0⟩)

/-- Take the leaf that a granted write to a derived slate will need, so that it is there when the bytes come (R108). -/
def State.holdLeaf (s : State) : Place → State
  | .mem _ _ _ => s
  | .slate x => match s.desc? x.core x.id with
    | some d => if d.kind = .derived then (s.takeLeaf x.core x.id (x.ofs / 2048) s.extra).getD s else s
    | none => s

/-- The touch phase (R143): alignment, then every sector of every operand. What it writes is stored later, in leaves that
it takes now. -/
def State.touchPhase (s : State) (c : Ctx) (a : Acc) (spans : List (Nat × Nat × Nat)) : Except Exit State := do
  match spans.find? fun x => x.1 % x.2.2 != 0 with
  | some x => .error (.trap ⟨.misalign, c.sel, vaInfo x.1⟩)
  | none =>
    let r := s.rangesRes 0 c.sel c.allPages (spans.map fun x => (a, x.1, x.2.1))
    let g ← s.access [{ r with asks := r.asks.map fun q => { q with late := a != .read } }]
    match g.park with
    | some (_, cs) => .error (.park g.st c.sel cs)
    | none =>
      let places := g.done.flatMap (·.2)
      .ok (places.foldl State.touchPlace (if a = .read then g.st else places.foldl State.holdLeaf g.st))

def collInfo (g : Guard) (x : Bool) (z : Sys2Proof.Acc) (ss : List Nat) : Info :=
  { longInfo g x [] [] ss false with z := some z.val }

/-- Enter the version wait. `open'` marks a touch phase that reads and has not ended. -/
def enterWait (x : Bool) (z : Sys2Proof.Acc) (ver : Nat) (op : CollOp) (pass : Bool) (slots : List Nat) (open' : Bool) (s : State) :
    Except Exit Done :=
  .ok (.next (s.addOp (s.flagOf x) (.coll z.val ver op pass none open') slots []))

/-- Operand bytes as the touch phase copies them. -/
def State.operandAt (s : State) (addr n : Nat) : Operand :=
  match s.resolve s.core s.grp.team (addr % 2 ^ 32) n with
  | some y => ⟨y.core, y.id, y.ofs, s.slBytes y.core y.id y.ofs n⟩
  | none => ⟨0, 0, 0, []⟩

def execMma (g : Guard) (x : Bool) (z : Sys2Proof.Acc) (ver a b sc : SSrc) (fa fb : Slot) (s : State) :
    Host.Outcome State Fault Refusal :=
  wordOp (collInfo g x z (ver.sregs ++ a.sregs ++ b.sregs ++ sc.sregs)) (fun c s => do
    let d := (sc.value s).toNat
    let ovr := bits d 32 4
    let mode : SMode := match bits d 36 2 with | 1 => .e5m3 | 2 => .e8m0 | _ => .none
    converged c s
    if 2 ^ 38 ≤ d ∨ bits d 36 2 = 3 then .error (.trap (illegal c.sel))
    if s.slotStalls fa.val || s.slotStalls fb.val then .error (.stall s)
    let f ← s.slotFmt c fa.val
    let h ← s.slotFmt c fb.val
    if !bitB f.uses 0 || !bitB h.uses 1 || f.planes = 0 || h.planes = 0 || f.planes ≤ ovr then
      .error (.trap (illegal c.sel))
    if 4 ≤ s.collOps s.core then .error (.stall s)
    let s := s.askPass
    if !s.grp.passReady then .error (.stall s)
    let ta := (a.value s).toNat % 2 ^ 32
    let tb := (b.value s).toNat % 2 ^ 32
    let ts := d % 2 ^ 32
    let s ← s.touchPhase c .read ([(ta, tileBytes f.planes, 256), (tb, tileBytes h.planes, 256)] ++
      if mode = .none then [] else [(ts, 128, 128)])
    let op : CollOp := .mma (s.operandAt ta (tileBytes f.planes)) (s.operandAt tb (tileBytes h.planes))
      (if mode = .none then ⟨0, 0, 0, []⟩ else s.operandAt ts 128) f.planes (if ovr = 0 then f.planes else ovr) h.planes mode
    let s := s.modGrp fun y => { y with passReady := false, passWait := false, passes := y.passes + 1 }
    enterWait x z (verOf s ver) op true [fa.val, fb.val] true s) s

def execMzero (g : Guard) (x : Bool) (z : Sys2Proof.Acc) (ver : SSrc) (s : State) : Host.Outcome State Fault Refusal :=
  wordOp (collInfo g x z ver.sregs) (fun c s => do
    converged c s
    if 4 ≤ s.collOps s.core then .error (.stall s)
    enterWait x z (verOf s ver) .mzero false [] false s) s

def execMldz (g : Guard) (x : Bool) (z : Sys2Proof.Acc) (ver a : SSrc) (s : State) : Host.Outcome State Fault Refusal :=
  wordOp (collInfo g x z (ver.sregs ++ a.sregs)) (fun c s => do
    converged c s
    if 4 ≤ s.collOps s.core then .error (.stall s)
    let ta := (a.value s).toNat % 2 ^ 32
    let s ← s.touchPhase c .read [(ta, 16384, 128)]
    enterWait x z (verOf s ver) (.mldz (s.operandAt ta 16384)) false [] true s) s

/-- Bytes of a row of a packed MSTZ (R329). -/
def rowBytes (w : Nat) : Nat := (64 * w + 1023) / 1024 * 128

/-- Whether MSTZ's range suits its form. -/
def stzRange (form : StzForm) (first count : Nat) : Bool :=
  match form with
  | .packed => decide (1 ≤ count ∧ first + count ≤ 64)
  | .tileB => count == 32 && (first == 0 || first == 32)
  | .tileA => count == 32 && (first == 0 || first == 32)

/-- Bytes of MSTZ's destination, and its alignment. -/
def stzSize (form : StzForm) (count : Nat) (f : Fmt) : Nat × Nat :=
  match form with
  | .packed => (count * rowBytes f.width, 128)
  | .tileB => (tileBytes f.planes, 256)
  | .tileA => (tileBytes f.planes, 256)

def execMstz (g : Guard) (x : Bool) (z : Sys2Proof.Acc) (ver a rng : SSrc) (form : StzForm) (slot : Slot) (r : Rnd) (s : State) :
    Host.Outcome State Fault Refusal :=
  wordOp (collInfo g x z (ver.sregs ++ a.sregs ++ rng.sregs)) (fun c s => do
    let w := (rng.value s).toNat
    let first := bits w 0 6
    let count := bits w 6 7
    converged c s
    if 2 ^ 13 ≤ w ∨ !stzRange form first count then .error (.trap (illegal c.sel))
    let f ← s.slotUse c slot.val 4
    if form ≠ .packed ∧ f.planes = 0 then .error (.trap (illegal c.sel))
    if 4 ≤ s.collOps s.core then .error (.stall s)
    let ta := (a.value s).toNat % 2 ^ 32
    let (n, al) := stzSize form count f
    let s ← s.touchPhase c .write [(ta, n, al)]
    match s.resolve s.core s.grp.team ta n with
    | none => .error (.trap ⟨.slateRange, c.sel, BitVec.ofNat 64 ta⟩)
    | some y =>
      let gen := s.grp.gen
      let s := if r.mode = .sr then s.modGrp fun g => { g with gen := (srDraws gen (stzCount form count)).2 } else s
      enterWait x z (verOf s ver) (.mstz y.core y.id y.ofs n first count form slot.val r gen) false [slot.val] false s) s

def execMver (g : Guard) (d : SReg) (z : Sys2Proof.Acc) (s : State) : Host.Outcome State Fault Refusal :=
  wordOp { g := g, ss := [d.val], z := some z.val } (fun _ s => setS d (BitVec.ofNat 64 (s.grp.regs.ver z.val)) s) s

/-! ## Completion (R145) -/

/-- The elements of an accumulator that are not +0. -/
def Regs.accTbl (r : Regs) (z : Nat) : Tbl Lane :=
  (r.z.filter fun p => decide (z * 4096 ≤ p.1 ∧ p.1 < (z + 1) * 4096)).map fun p => (p.1 - z * 4096, p.2)

/-- Replace an accumulator. -/
def Regs.setAcc (r : Regs) (z : Nat) (f : Nat → Lane) : Regs :=
  (List.range 4096).foldl (fun t i => t.writeZ z i (f i)) r

/-- The elements of an MMA's tiles, and of its scale block from an offset. -/
def mmaTile (t : Operand) (p keep : Nat) : List FVal := (List.range 2048).map (tileElem t.bytes p keep)
def mmaScale (sc : Operand) (mode : SMode) (o : Nat) : List FVal :=
  if mode = .none then [] else (List.range 64).map fun i => scaleDecode mode (sc.bytes.getD (o + i) 0).toNat

/-- The accumulator a collective operation leaves; none for MSTZ. -/
def collResult (r : Regs) (z : Nat) : CollOp → Option Regs
  | .mma a b sc pa keep pb mode =>
    let av := mmaTile a pa keep
    let bv := mmaTile b pb pb
    let sa := mmaScale sc mode 0
    let sb := mmaScale sc mode 64
    some (r.setAcc z fun i => mmaElem av bv sa sb (Tbl.get 0 r.z (z * 4096 + i)) (i / 64) (i % 64))
  | .mzero => some (r.setAcc z fun _ => 0)
  | .mldz l => some (r.setAcc z fun i => BitVec.ofNat 32 (fieldAt l.bytes (4 * i) 4))
  | .mstz .. => none

/-- The bytes an MSTZ writes, from the accumulator it reads (R329). -/
def stzBytes (zt : Tbl Lane) (f : Fmt) (form : StzForm) (first count : Nat) (r : Rnd) (draw : Nat → Nat) : List Byte :=
  let z (m n : Nat) : FVal := fp32.decode (Tbl.get 0 zt (64 * m + n)).toNat
  let code (e : Nat) (v : FVal) : Nat := f.round r (draw e) v
  let tile (el : Nat → FVal) : List Byte :=
    tileOf f.planes ((List.range 2048).map fun i => planarOf f f.planes (f.decode (code i (el i))))
  match form with
  | .packed => (List.range count).flatMap fun j =>
      let row := (List.range 64).foldl (fun n k => n + code (64 * j + k) (z (first + j) k) * 2 ^ elemBit f.width k) 0
      toBytes (rowBytes f.width) row
  | .tileB => tile fun i => z (first + i % 32) (i / 32)
  | .tileA => tile fun i => z (i / 32) (first + i % 32)

/-- Write bytes of a slate once their accesses have been granted; a sector of a mapped slate that has been dropped since
is written at its line. -/
def State.putSlate (s : State) (core id ofs : Nat) (bs : List Byte) : State :=
  match s.desc? core id with
  | none => s
  | some d =>
    let cells := cellsAt ofs bs
    if d.kind = .mapped then
      let there (o : Nat) : Bool := (d.sec (o / 128)).present
      let far := (cells.filter fun c => !there c.1).filterMap fun (o, b) =>
        let p := match s.teams.look d.team with | some t => t.part | none => 0
        match (s.walk p (d.mapva + o)).1 with | .leaf pa _ => some (pa, b) | _ => none
      let s := if far.isEmpty then s else ({ s with mem := s.mem.store far } : State).afterWrite far (some (core, id))
      s.slPut core id 0 (cells.filter fun c => there c.1)
    else s.slPut core id s.extra cells

/-- Keep what an MSTZ that expects the present version reads, before the version advances (R145). -/
def Op.snapFor (o : Op) (r : Regs) (z ver : Nat) : Op :=
  match o.kind with
  | .coll z' ver' (.mstz c d k l a n f sl rd gen) p none b =>
    if z' = z ∧ ver' = ver then { o with kind := .coll z' ver' (.mstz c d k l a n f sl rd gen) p (some (r.accTbl z)) b } else o
  | _ => o

/-- Whether a collective operation's version is ready: it equals the expected one, or an MSTZ has its reading. -/
def Group.collReady (g : Group) (z ver : Nat) (snap : Option (Tbl Lane)) : Bool :=
  snap.isSome || (g.regs.ver z == ver && !g.zout.contains z)

/-- Whether two MSTZ write some byte in common: of one slate, or of one line of memory (R113, R170). -/
def State.stzMeet (s : State) (a b : Op) : Bool :=
  match a.stzSpan, b.stzSpan with
  | some (c, d, ofs, n), some (c', d', ofs', n') =>
    (c == c' && d == d' && decide (ofs < ofs' + n' ∧ ofs' < ofs + n)) ||
      (s.stzLines c d ofs n).any fun l => (s.stzLines c' d' ofs' n').contains l
  | _, _ => false

/-- Whether an MSTZ must write after an older one: their bytes overlap, a FENCE of their arm that holds writes back stands
between them, the group runs under revision 2, or the older one is withdrawn and has still to be issued again (R147, R170, R184;
log 79). -/
def State.stzBehind (s : State) (g : Group) (id : Nat) (o : Op) : Bool :=
  let fence (a b : Nat) : Bool := g.ops.any fun x => decide (a < x.1 ∧ x.1 < b) && x.2.who == o.who &&
    match x.2.kind with | .fence _ => true | _ => false
  o.isStz && (g.stzOwed o.who id || (g.stzOps o.who).any (fun x => decide (x.1 < id) && (s.stzMeet x.2 o || fence x.1 id)) ||
    (g.shape.mmrev == 2 && (g.stzAll.any (fun x => decide (x.1 < id)) || [Who.arm0, .arm1].any fun w => g.stzOwed w id)))

/-- The passes of a collective operation of the focused group, whose version is ready. -/
def State.runColl (s : State) (z ver : Nat) (op : CollOp) (snap : Option (Tbl Lane)) : State :=
  match op with
  | .mstz core id ofs _ first count form slot r gen =>
    let b := s.slotOf s.grp.part (dieOfCore s.core) slot
    let f := if slot < 8 then hardSlot slot else Fmt.ofRecord b.record b.meas
    let l := if r.mode = .sr then (srDraws gen (stzCount form count)).1 else []
    let zt := snap.getD (s.grp.regs.accTbl z)
    s.putSlate core id ofs
      (stzBytes zt f form first count r fun e => l.getD e 0)
  | _ => s.modGrp fun g => match collResult g.regs z op with
    | none => g
    | some r => { g with regs := r.setVer z ((ver + 1) % 2 ^ 16), ops := g.ops.mapV fun _ o => o.snapFor g.regs z ver }

end Sys2Proof.Machine
end

