-- ==== Sys2Proof/Machine/Layout.lean ====
section
/-! DEFINITION. What an engine request moves: the tensor shape record (R151), the rows and elements of its box (R152, R160),
the streams on its slate side (R153), and where its chunks end (R155). -/

namespace Sys2Proof.Machine

/-! ## The tensor shape record (R151) -/

/-- A record: BASE, SLOT, EWIDTH, NDIM, extents, strides (that of dimension 0 unused), box sizes, FLAGS. -/
structure ShapeRec where
  (base slot w ndim : Nat)
  ext : List Nat
  stride : List Int
  box : List Nat
  flags : Nat
deriving DecidableEq, Repr

def ShapeRec.of (l : List Byte) : ShapeRec :=
  { base := fieldAt l 0 9 % 2 ^ 72, slot := fieldAt l 9 1 % 16, w := fieldAt l 0xA 1, ndim := fieldAt l 0xB 1
    ext := (List.range 5).map fun d => fieldAt l (0xC + 4 * d) 4
    stride := 0 :: (List.range 4).map fun d => signedOf 48 (fieldAt l (0x20 + 6 * d) 6)
    box := (List.range 5).map fun d => fieldAt l (0x38 + d) 1 + 1
    flags := fieldAt l 0x3D 1 }

def ShapeRec.mode (r : ShapeRec) : Nat := r.flags % 4
/-- Raw direction: slate to global. -/
def ShapeRec.back (r : ShapeRec) : Bool := bitB r.flags 2
def ShapeRec.iod (r : ShapeRec) : Bool := bitB r.flags 3
/-- Whether the destination is global memory. -/
def ShapeRec.outward (r : ShapeRec) : Bool := r.mode == 2 || (r.mode == 0 && r.back)

/-- The offset of the first field outside its accepted values. -/
def recordBad (l : List Byte) : Option Nat :=
  let r := ShapeRec.of l
  let dim (f : Nat → Bool) (ofs : Nat → Nat) (ds : List Nat) : List (Nat × Bool) := ds.map fun d => (ofs d, f d)
  let checks : List (Nat × Bool) :=
    [(0x9, decide (16 ≤ fieldAt l 9 1)), (0xA, !(decide (2 ≤ r.w ∧ r.w ≤ 32) || r.w == 64)), (0xB, r.ndim == 0 || decide (5 < r.ndim))] ++
    dim (fun d => if d < r.ndim then r.ext.getD d 0 == 0 else r.ext.getD d 0 != 1) (fun d => 0xC + 4 * d) [0, 1, 2, 3, 4] ++
    dim (fun d => decide (r.ndim ≤ d) && r.stride.getD d 0 != 0) (fun d => 0x20 + 6 * (d - 1)) [1, 2, 3, 4] ++
    dim (fun d => decide (r.ndim ≤ d) && r.box.getD d 1 != 1) (fun d => 0x38 + d) [0, 1, 2, 3, 4] ++
    [(0x3D, r.mode == 3 || decide (16 ≤ r.flags)), (0x3E, fieldAt l 0x3E 2 != 0)]
  (checks.find? (·.2)).map (·.1)

/-- A width whose rows are plain arrays. -/
def plainWidth (w : Nat) : Bool := w == 8 || w == 16 || w == 32 || w == 64

/-- The multiple that BASE and the strides must be. -/
def ShapeRec.grain (r : ShapeRec) : Nat := if plainWidth r.w then r.w / 8 else 128
def ShapeRec.aligned (r : ShapeRec) : Bool := r.base % r.grain == 0 && r.stride.all fun x => x % (r.grain : Int) == 0

/-! ## What a request moves -/

/-- A request: its record, tile indices, slate address, and for a gather its rows as row number and index. -/
structure Job where
  sh : ShapeRec
  t : List Nat
  slate : Nat
  gather : Bool
  rows : List (Nat × Nat)
deriving DecidableEq, Repr

def tilesOf (origin : Word) : List Nat := (List.range 5).map fun d => bits origin.toNat (12 * d) 12

def Job.b (j : Job) (d : Nat) : Nat := j.sh.box.getD d 1
def Job.start (j : Job) (d : Nat) : Nat := j.t.getD d 0 * j.b d
def Job.nrows (j : Job) : Nat := if j.gather then j.rows.length else j.b 1 * j.b 2 * j.b 3 * j.b 4

/-- Coordinates 1–4 of the `k`-th row (R152, R160). -/
def Job.coords (j : Job) (k : Nat) : List Nat :=
  if j.gather then [(j.rows.getD k (0, 0)).2, j.start 2, j.start 3, j.start 4]
  else [j.start 1 + k % j.b 1, j.start 2 + k / j.b 1 % j.b 2, j.start 3 + k / (j.b 1 * j.b 2) % j.b 3,
    j.start 4 + k / (j.b 1 * j.b 2 * j.b 3)]

/-- Coordinate 0 of position `c` of a row. -/
def Job.x0 (j : Job) (c : Nat) : Nat := j.start 0 + c

/-- Whether an element lies in the tensor. -/
def Job.inside (j : Job) (k c : Nat) : Bool :=
  decide (j.x0 c < j.sh.ext.getD 0 1) && ((j.coords k).zipIdx 1).all fun x => decide (x.1 < j.sh.ext.getD x.2 1)

/-- First byte of a row in global memory, exact. -/
def Job.rowAt (j : Job) (k : Nat) : Int :=
  ((j.coords k).zipIdx 1).foldl (fun a x => a + (x.1 : Int) * j.sh.stride.getD x.2 0) (j.sh.base : Int)

/-- Bit address of an element in global memory, exact. -/
def Job.bitAt (j : Job) (k c : Nat) : Int := 8 * j.rowAt k + (elemBit j.sh.w (j.x0 c) : Int)

/-- Bytes of a row on the slate side, where each row starts a line; and from one gathered row to the next (R153, R160). -/
def Job.rowBytes (j : Job) : Nat := (j.b 0 + perLine j.sh.w - 1) / perLine j.sh.w * 128
def Job.pitch (j : Job) : Nat := if j.gather then (j.b 0 * j.sh.w + 1023) / 1024 * 128 else j.rowBytes
def Job.rowNo (j : Job) (k : Nat) : Nat := if j.gather then (j.rows.getD k (0, 0)).1 else k

/-- Offset of the `k`-th row from the request's slate address. -/
def Job.slateRow (j : Job) (k : Nat) : Nat := j.rowNo k * j.pitch

/-- The element bit that a bit of a row's slate stream is, if it is one. -/
def Job.streamBit (j : Job) (q : Nat) : Option (Nat × Nat) :=
  let c := q / 1024 * perLine j.sh.w + q % 1024 / j.sh.w
  if q % 1024 / j.sh.w < perLine j.sh.w ∧ c < j.b 0 then some (c, q % 1024 % j.sh.w) else none

/-! ## Units and chunks (R155) -/

/-- The units of a request are its elements in order, dimension 0 fastest: a chunk moves whole ones. -/
def Job.units (j : Job) : Nat := j.nrows * j.b 0

/-- Destination bytes of a row. -/
def Job.destRow (j : Job) : Nat :=
  if j.sh.outward && plainWidth j.sh.w then j.b 0 * j.sh.w / 8 else j.rowBytes

/-- First destination byte of a unit, and the byte after it; each element of a planar tile counts as 9 + planes bits. -/
def Job.dest (j : Job) (planes u : Nat) : Nat × Nat :=
  if j.sh.mode = 1 then (u * (9 + planes) / 8, (u + 1) * (9 + planes) / 8)
  else
    let k := u / j.b 0
    let c := u % j.b 0
    (k * j.destRow + elemBit j.sh.w c / 8,
      if c + 1 = j.b 0 then (k + 1) * j.destRow else k * j.destRow + (elemBit j.sh.w (c + 1) + 7) / 8)

/-- Global bytes of an element: first and last, exact. -/
def Job.bytesAt (j : Job) (k c : Nat) : Int × Int := (j.bitAt k c / 8, (j.bitAt k c + (j.sh.w : Int) - 1) / 8)

/-- The 8 KiB page of global memory that a unit lies in; none outside the tensor. -/
def Job.page (j : Job) (u : Nat) : Option Int :=
  if j.inside (u / j.b 0) (u % j.b 0) then some ((j.bytesAt (u / j.b 0) (u % j.b 0)).1 / 8192) else none

/-- Offset of the byte of an element's sign, its exponent, and its bit in each plane (R120). -/
def tileBytesOf (planes e : Nat) : List Nat :=
  [e / 8, 0x100 + e] ++ (List.range planes).map fun p => 0x900 + 0x100 * p + e / 8

/-- Offsets on the slate side of the bytes that a unit stands in. -/
def Job.slateOfs (j : Job) (planes u : Nat) : List Nat :=
  if j.sh.mode = 0 then
    let q := elemBit j.sh.w (u % j.b 0)
    [j.slateRow (u / j.b 0) + q / 8, j.slateRow (u / j.b 0) + (q + j.sh.w - 1) / 8]
  else tileBytesOf planes u

/-- The end of the chunk that starts at a unit: at most 4 KiB of destination bytes, one page of global memory, and the
pages of the slate that its first unit stands in (`sp` gives the page of a slate offset). DESIGN CHOICE (log 97), safe: an
element of a planar tile whose own bytes stand in two pages of a mapped slate is moved whole, by a chunk that reaches both. -/
def Job.grow (j : Job) (planes stop : Nat) (sp : Nat → Nat) (here : List Nat) (page : Option Int) : Nat → Nat → Nat
  | 0, u => u
  | fuel + 1, u =>
    let p := j.page u
    if decide (u < j.units) && decide ((j.dest planes u).2 ≤ stop) && (j.slateOfs planes u).all (fun o => here.contains (sp o)) &&
        (p.isNone || page.isNone || decide (p = page)) then
      j.grow planes stop sp here (if page.isNone then p else page) fuel (u + 1)
    else u

def Job.chunkEnd (j : Job) (planes : Nat) (sp : Nat → Nat) (u : Nat) : Nat :=
  j.grow planes ((j.dest planes u).1 + 4096) sp ((j.slateOfs planes u).map sp) (j.page u) 32768 (u + 1)

/-- Bytes of a request's slate side: from the lowest to the byte after the highest, as offsets. -/
def Job.slateSpan (j : Job) (planes : Nat) : Nat × Nat :=
  if j.sh.mode = 0 then
    if j.gather then
      let ns := j.rows.map (·.1)
      let lo := ns.foldl min (ns.headD 0)
      (lo * j.pitch, ns.foldl max 0 * j.pitch + j.rowBytes)
    else (0, j.nrows * j.rowBytes)
  else (0, tileBytes planes)

/-- Destination bytes of a request, in whole lines (R157, R320). -/
def Job.total (j : Job) (planes : Nat) : Nat :=
  let n := if j.sh.mode = 1 then tileBytes planes else j.nrows * j.destRow
  (n + 127) / 128 * 128

end Sys2Proof.Machine
end

