-- ==== Sys2Proof/Machine/Image.lean ====
section
/-! DEFINITION. Context images in device memory (R67), the engine block they hold (R162), and what is written to them: vector
lines as the register cache lets them go (R68–R71), accumulators as they are copied out (R70, R132), and the other blocks at
a save. -/

namespace Sys2Proof.Machine

/-! ## Places of an image's blocks (R67) -/

/-- Bytes of a vector line. -/
def Group.lineSize (g : Group) : Nat := 4 * g.shape.width
def Group.scalarAt (g : Group) : Nat := g.shape.vregs * g.lineSize
def Group.monAt (g : Group) : Nat := g.scalarAt + 0x1800
def Group.hasMon (g : Group) : Bool := g.mon.st != .absent
def Group.accAt (g : Group) (z : Nat) : Nat := g.monAt + (if g.hasMon then 16 * g.lineSize + 0x100 else 0) + z * 0x4100
def Group.engAt (g : Group) : Nat := g.accAt g.shape.nacc
/-- Offset of a vector line; the monitor wave's are numbered from 256 on. -/
def Group.lineAt (g : Group) (n : Nat) : Nat :=
  if n < 256 then n * g.lineSize else g.monAt + (n - 256) * g.lineSize

/-! ## Their contents -/

def Group.lineBytes (g : Group) (n : Nat) : List Byte :=
  let t := if n < 256 then g.regs.v else g.mon.v
  (List.range g.shape.width).flatMap fun i => toBytes 4 (Tbl.get 0 t (n % 256 * 64 + i)).toNat

/-- Lanes of a vector line read from its bytes. -/
def Group.putLine (g : Group) (n : Nat) (l : List Byte) : Group :=
  let put (t : Tbl Lane) : Tbl Lane :=
    (List.range g.shape.width).foldl (fun t i => Tbl.put 0 t (n % 256 * 64 + i) (BitVec.ofNat 32 (fieldAt l (4 * i) 4))) t
  if n < 256 then { g with regs := { g.regs with v := put g.regs.v } } else { g with mon := { g.mon with v := put g.mon.v } }

def Group.scalarBytes (g : Group) : List Byte := (List.range 128).flatMap fun k => toBytes 8 (Tbl.get 0 g.regs.s k).toNat

/-- Elements in row order, then the version line. -/
def Group.accBytes (g : Group) (z : Nat) : List Byte :=
  ((List.range 4096).flatMap fun i => toBytes 4 (Tbl.get 0 g.regs.z (z * 4096 + i)).toNat) ++ toBytes 64 (g.regs.ver z)

/-- Bytes whose layout the manual leaves open, for one save. -/
def openBytes (step ofs n : Nat) : List Byte := (List.range n).map fun k => Config.imageByte step (ofs + k)

/-- FLAG of a command record: the flag and the arm. -/
def CmdRec.flagByte (r : CmdRec) : Nat := r.flag % 16 + if r.who = .arm1 then 16 else 0

/-- The 512 bytes of a command record. -/
def CmdRec.bytes (r : CmdRec) : List Byte :=
  slice (r.shape ++ List.replicate 64 (0 : Byte)) 0 64 ++ toBytes 8 r.origin.toNat ++ toBytes 8 r.slate.toNat ++ toBytes 8 r.index.toNat ++
    toBytes 8 r.sel.toNat ++ toBytes 8 r.promise ++ toBytes 4 r.next ++
    toBytes 1 (r.engine % 128 + if r.gather then 128 else 0) ++ toBytes 1 r.flagByte ++ toBytes 1 r.st ++
    toBytes 1 (match r.fkind with | some k => k.code | none => 0) ++ toBytes 4 r.fchunk ++ List.replicate 140 (0 : Byte) ++
    ((List.range 64).flatMap fun j => toBytes 4 (if r.sel = 0 then 0 else (Tbl.get 0 r.indices j).toNat))

/-- The engine block: sets, then the 32 records. The requests of a child that has ended count on arm 0's flags (R35, R156). -/
def Group.engBytes (g : Group) : List Byte :=
  let e := { g.eng with recs := g.eng.recs.mapV fun _ r => if g.a1.ended then { r with who := .arm0 } else r }
  let failed := e.recs.foldl (fun n x => if x.2.st = 3 then n + 2 ^ x.1 else n) 0
  toBytes 4 e.openSet.toNat ++ toBytes 4 failed ++
    ((List.range 16).flatMap fun b => toBytes 4 (Tbl.get 0 e.batches b).toNat) ++ List.replicate 184 (0 : Byte) ++
    ((List.range 32).flatMap fun r => match e.recs.look r with
      | some x => x.bytes
      | none => List.replicate 512 (0 : Byte))

/-! ## Groups of a core, saved ones included -/

/-- Saved groups whose cached lines and accumulators a core still holds (R70, R71). -/
def State.savedOn (s : State) (core : Nat) : List Group :=
  s.teams.vals.flatMap fun t => t.saved.filter fun g => g.key.core == core

def State.allOn (s : State) (core : Nat) : List Group := (s.groups.filter fun g => g.key.core == core) ++ s.savedOn core

def Group.same (g h : Group) : Bool := g.team == h.team && g.gid == h.gid && decide (g.replayId = h.replayId)

/-- Change a group, resident or saved. -/
def State.modSame (s : State) (g : Group) (f : Group → Group) : State :=
  (s.mapGroups fun h => if g.same h then f h else h).modTeam g.team fun t =>
    { t with saved := t.saved.map fun h => if g.same h then f h else h }

/-! ## The register cache (R11, R68) -/

/-- Bytes of 768 KiB that the cached lines of a core take. -/
def State.lineLoad (s : State) (core : Nat) : Nat :=
  ((s.allOn core).map fun g => g.lineSize * (g.lines.vals.filter (·.cached)).length).sum

/-- Write a dirty line back to the image, and let it go. -/
def State.evictLine (s : State) (g : Group) (n : Nat) (x : VLine) : State :=
  let s := if x.dirty then s.writeArea g.part (g.img + g.lineAt n) (g.lineBytes n) else s
  s.modSame g fun h => { h with lines := h.lines.upd n fun y => { y with cached := false, dirty := false } }

/-- Evict lines while the cached ones of a core exceed its register cache: evictable ones first, then the one used longest
ago (R68). -/
def State.trimLines (s : State) (core : Nat) : Nat → State
  | 0 => s
  | fuel + 1 =>
    if s.lineLoad core ≤ 786432 then s
    else
      let all := (s.allOn core).flatMap fun g => g.lines.filterMap fun (n, x) => if x.cached then some (g, n, x) else none
      match minBy (fun (_, _, x) => (if x.evict then 0 else 2 ^ 64) + x.used) all with
      | none => s
      | some (g, n, x) => (s.evictLine g n x).trimLines core fuel

/-- Write every dirty line of a group back (R71). -/
def State.flushLines (s : State) (g : Group) : State :=
  g.lines.foldl (fun t (n, x) => if x.cached && x.dirty then t.evictLine g n x else t) s

/-! ## Accumulators (R70, R132) -/

/-- Copy an accumulator of a group out, with its version. -/
def State.accOut (s : State) (g : Group) (z : Nat) : State :=
  (s.writeArea g.part (g.img + g.accAt z) (g.accBytes z)).modSame g fun h => { h with zout := insNat h.zout z }

/-- Accumulators of saved groups that still stand in a core's engine. -/
def State.accKept (s : State) (core : Nat) : List (Group × Nat) :=
  (s.savedOn core).flatMap fun g => ((List.range g.shape.nacc).filter fun z => !g.zout.contains z).map fun z => (g, z)

/-- Copy out accumulators of saved groups until `n` more than the resident ones fit the core's eight. -/
def State.claimAcc (s : State) (core n : Nat) : Nat → State
  | 0 => s
  | fuel + 1 => match s.accKept core with
    | [] => s
    | (g, z) :: rest =>
      if s.accUsed core + n + rest.length + 1 ≤ 8 then s else (s.accOut g z).claimAcc core n fuel

/-- A core's caches hold no more than their size: it lets go of lines, and of saved groups' accumulators. -/
def State.trimCore (s : State) (core : Nat) : State := (s.trimLines core 13000).claimAcc core 0 300

/-! ## A save (R70) -/

/-- The blocks that a save writes: scalars, masks, control, arms, monitor and engine. DESIGN CHOICE (log 16), unsafe: bytes
whose layout R67 leaves open are free values. -/
def State.writeImage (s : State) (g : Group) : State :=
  let put (s : State) (ofs : Nat) (l : List Byte) : State := s.writeArea g.part (g.img + ofs) l
  let masks := openBytes s.cnt.steps 0 8 ++ (List.range 15).flatMap fun k => toBytes 8 (Tbl.get 0 g.regs.m (k + 1)).toNat
  let s := put s g.scalarAt g.scalarBytes
  let s := put s (g.scalarAt + 0x400) masks
  let s := put s (g.scalarAt + 0x500) (openBytes s.cnt.steps 8 (0x100 + 2 * 0x900))
  let s := if g.hasMon then put s (g.monAt + 16 * g.lineSize) (openBytes s.cnt.steps 0x2000 0x100) else s
  put s g.engAt g.engBytes

/-- A group as the core leaves it at a save: its lines are evictable. -/
def Group.linesEvictable (g : Group) (b : Bool) : Group := { g with lines := g.lines.mapV fun _ x => { x with evict := b } }

/-- What a fill of a vector line brings: the value last written, or the image's, which differs where something else has been
written there (R69); an uncorrectable error where the image is poisoned (R68, R239), or where its frame is owned under another
key, so that the read returns nothing (R236; log 16). -/
def State.fillLine (s : State) (k : GKey) (n : Nat) (foreign : Bool) : State :=
  match s.groupAt k with
  | none => s
  | some g =>
    let a := g.img + g.lineAt n
    let now := s.mem.bytes a g.lineSize
    let key := (s.par g.part).hdmKey
    let shut := (framesOf a g.lineSize).any fun f => !s.mem.frameOk (f * 8192) key
    let bad := shut || s.poisonAt a g.lineSize
    let s := if shut then s else s.claimRange a g.lineSize key
    s.modKey k fun h =>
      let h := if foreign && !shut then h.putLine n now else h
      { h with
        lines := h.lines.upd n fun x => { x with cached := true, dirty := false, evict := false, used := s.cnt.steps }
        badLines := if bad then insNat h.badLines n else h.badLines }

end Sys2Proof.Machine
end

