-- ==== Sys2Proof/Machine/Replay.lean ====
section
/-! DEFINITION. Replay groups (R130–R132, R134), the retirement of a group whose operations have completed (R52), and
EXIT (R310). -/

namespace Sys2Proof.Machine

/-! ## Contexts and space -/

/-- A group slot, or the reserved context, with nothing in it. -/
def State.ctxIdle (s : State) (core slot : Nat) : Bool :=
  (s.groupAt ⟨core, slot⟩).isNone && !(s.coreAt core).chains.vals.any fun ch => ch.ctx == some slot

/-- The image of a context in which a chain may start (R131): the reserved one's, or for a free group slot an area of the pool
for the largest lesson of the chain. -/
def State.ctxFor (s : State) (core slot : Nat) (ch : Chain) : Option Nat :=
  if !s.ctxIdle core slot then none
  else if slot = 32 then (s.parts.look ch.part).bind fun x => x.replayCtx.look core
  else if slot < 32 then ((s.poolTake ch.part [(4096, s.lessonImage ch.part ch.all)]).bind (·.head?))
  else none

/-- How the leaves of a member's slate come out: claimed, not to be had now, or not to be had at all (R130). -/
inductive Claim where
  | got (s : State)
  | wait
  | never

/-- Claim every leaf of a member's slate, from the free leaves and the evictable ones of its core, then from the replay
reserve. -/
def State.claimLeaves (s : State) (core cid : Nat) (ch : Chain) (m : Nat × Nat × Nat) : Claim :=
  let c := m.1
  let id := s.memberSlate m
  let n := s.memberLeaves m
  let keep := s.chainKeep c ch.all
  let give (s : State) : State := s.modDesc c id fun d =>
    { d with leafs := (List.range n).map fun k => (k, s.cnt.touch), bytes := [], secs := [], dflt := Sector.fresh (s.rclk c) }
  match s.room c n (if ch.reserve then 32 else 0) keep with
  | some s' => .got (give s')
  | none =>
    if ch.reserve then .never
    else if (s.coreAt c).chains.any (fun x => x.2.reserve && x.1 != cid) then .wait
    else match s.room c n 32 keep with
      | some s' => .got (give (s'.modCore core fun x => { x with chains := x.chains.upd cid fun y => { y with reserve := true } }))
      | none => .never

/-- Whether an accumulator can be copied out now: no collective instruction on it is in its passes (R132). -/
def Group.zFree (g : Group) (z : Nat) : Bool :=
  !g.zout.contains z && g.ops.vals.all fun o => match o.collZ with
    | some (k, passes) => k != z || !passes
    | none => true

/-- Copy out accumulators of resident groups until `n` are free: parked groups first, then the youngest (R132). -/
def State.copyOut (s : State) (core n : Nat) : Nat → Option State
  | 0 => none
  | fuel + 1 =>
    if s.accUsed core + n ≤ 8 then some s
    else
      let parked (g : Group) : Bool := g.a0.park.isSome || g.a1.park.isSome
      let able := s.groups.filter fun g => g.key.core == core && g.replayId.isNone && (List.range g.shape.nacc).any g.zFree
      match minBy (fun g => (if parked g then 0 else 2 ^ 80) + (2 ^ 79 - g.ageKey)) able with
      | none => none
      | some g =>
        let z := ((List.range g.shape.nacc).find? g.zFree).getD 0
        ((s.modKey g.key fun h => h.withdrawAll (· == z)).accOut g z).copyOut core n fuel

/-! ## Starting a member -/

/-- A group at its start (R34, R59, R62, R63, R68). -/
def Group.start (key : GKey) (part team gid tid : Nat) (k : Khdr) (entry mon : Nat) (cw : Tbl CWin) : Group :=
  let w := lanesBelow (lanesOf k.width)
  { Group.idle with
    live := true, key := key, part := part, team := team, gid := gid, tid := tid, shape := k.shape, cw := cw
    a0 := Arm.start entry w
    mon := if mon = 0 then Monitor.absent else ⟨.live, Arm.start mon w, [], [], []⟩ }

/-- The scalars of a replay group (R131). -/
def State.replayRegs (s : State) (own : Nat) (m : Nat × Nat × Nat) (y : Crib) : Tbl Word :=
  let name (c id : Nat) : Nat := match s.desc? c id with | some d => slateNameOf own c d.base | none => 0xFFFFFFFF
  let src (j : Nat) : Nat := match y.srcs[j]? with
    | some (id, far) => name (if far then partnerOf m.1 else m.1) id
    | none => 0xFFFFFFFF
  let l := [(1, y.arg.toNat), (2, bits y.coord.toNat 0 48), (3, name m.1 y.slate), (4, src 0), (5, src 1), (6, src 2),
    (7, src 3), (8, m.2.1 + m.2.2 * 2 ^ 8)]
  l.foldl (fun t (k, x) => Tbl.put 0 t k (BitVec.ofNat 64 x)) []
where
  slateNameOf (own core base : Nat) : Nat := base * 2048 + if core = own then 0 else 2 ^ 23

/-- A failed lesson check aborts the chain (R124, R136). -/
def State.failChain (s : State) (core cid : Nat) (k : TrapKind) : State :=
  s.abortChain core cid fun c => some (.trap k (BitVec.ofNat 64 (2 ^ 63 + c * 2 ^ 48)))

/-- Whether a member must wait: one of its derived sources is still being replayed for another chain (R129). -/
def State.memberWaits (s : State) (m : Nat × Nat × Nat) : Bool :=
  match s.crib? m.1 m.2.1 with
  | none => false
  | some y => y.srcs.any fun (id, far) =>
    let c := if far then partnerOf m.1 else m.1
    match (s.desc? c id).bind fun d => d.crib.bind (s.crib? c) with
    | some z => z.st == .replaying
    | none => false

/-- Start the next member of a chain in a context it may use, unless it must wait (R130–R132). -/
def State.startMember (s : State) (core cid slot : Nat) : State :=
  match (s.coreAt core).chains.look cid with
  | none => s
  | some ch =>
    match ch.all[ch.ended]? with
    | none => s
    | some m =>
      match s.crib? m.1 m.2.1 with
      | none => s
      | some y =>
        let die := dieOfCore core
        match (if s.lessonOk ch.part y.lesson then s.taskEntry ch.part y.lesson else none) with
        | none => s.failChain core cid .illegalOp
        | some e =>
          let k := Khdr.ofWord (TaskEntry.khdr e)
          let st (j : Nat) : SlotSt := (s.slotOf ch.part die j).st
          if k.slots.any fun j => st j == .unbound then s.failChain core cid .illegalOp
          else if (k.slots.any fun j => st j == .transition) || s.memberWaits m then s
          else match s.copyOut core k.acc 300 with
            | none => s
            | some s1 => match s1.claimLeaves core cid ch m with
              | .wait => s
              | .never => s.failChain core cid .cribNospace
              | .got s2 =>
                let s2 := s2.claimEntry ch.part y.lesson
                let tid := match s.teams.look ch.team with | some t => t.tid | none => 0
                let key : GKey := ⟨core, slot⟩
                let cw := (s2.windows ch.part (TaskEntry.cwtab e)).getD []
                let g := Group.start key ch.part ch.team 0 tid k (TaskEntry.entry e) 0 cw
                let g := { g with
                  img := ch.img, lastIssue := (s.coreAt core).opps
                  replayId := some ⟨core, cid, m.1, m.2.1, m.2.2⟩
                  regs := { Regs.zero with s := s2.replayRegs core m y } }
                let s3 := s2.modCore core fun c => { c with chains := c.chains.upd cid fun x =>
                  { x with running := some key, ctx := some slot } }
                { s3 with others := s3.others ++ [g] }

/-- REPLAY_START: the CRU starts the next member of a queued chain, in the context the chain holds or in one it may
take. -/
def execReplayStart (core chain : Nat) (slot : Option Nat) (s : State) : Host.Outcome State Fault Refusal :=
  match (s.coreAt core).chains.look chain with
  | none => .next s
  | some ch =>
    if ch.running.isSome then .next s
    else match ch.ctx with
      | some k => .next (s.startMember core chain k)
      | none =>
        let k := slot.getD 32
        match s.ctxFor core k ch with
        | none => .next s
        | some a => .next ((s.modCore core fun c => { c with chains := c.chains.upd chain fun x => { x with img := a } }).startMember core chain k)

/-! ## Retirement (R52, R132) -/

/-- A derived slate that is LIVE again is held by every other chain of whose members it is a source (R134). -/
def State.holdSource (s : State) (core id self : Nat) : State :=
  s.cores.foldl (fun t (c, x) => x.chains.foldl (fun t (n, ch) =>
    let names (m : Nat × Nat × Nat) : Bool := match t.crib? m.1 m.2.1 with
      | some y => y.srcs.any fun q => cribSource m.1 q == (core, id)
      | none => false
    if n = self || ch.sources.contains (core, id) || !ch.all.any names then t
    else (t.modDesc core id fun d => { d with holds := .chain n :: d.holds.filter (· != .chain n) }).modCore c fun y =>
      { y with chains := y.chains.upd n fun z => { z with sources := (core, id) :: z.sources } }) t) s

/-- The EXIT of a replay group: its crib is LIVE, its touchers stop waiting on it, and the chain goes on or ends. -/
def State.endReplay (s : State) (k : GKey) (r : ReplayId) : State :=
  let s := s.removeGroup k
  let s := s.modCrib r.home r.crib fun y => { y with st := .live, replays := min (y.replays + 1) 0xFFFF }
  let s := match s.crib? r.home r.crib with
    | some y => (s.modDesc r.home y.slate fun d => { d with dropped := false }).holdSource r.home y.slate r.chain
    | none => s
  let s := s.mapGroups fun g => g.mapArms fun a => a.unparkCrib r.home r.crib
  let s := s.modCore r.core fun c => { c with chains := c.chains.upd r.chain fun x =>
    { x with running := none, ended := x.ended + 1 } }
  match (s.coreAt r.core).chains.look r.chain with
  | some ch => if ch.ended = ch.all.length then s.endChain r.core r.chain else s.startMember r.core r.chain (ch.ctx.getD 32)
  | none => s

/-- Every arm of a group has ended and everything it issued has completed. -/
def Group.done (g : Group) : Bool := g.live && g.a0.ended && (!g.two || g.a1.ended) && g.ops.isEmpty && g.redo.isEmpty

/-- A group that has nothing left to do retires (R52). -/
def State.retireIfDone (s : State) (k : GKey) : State :=
  match s.groupAt k with
  | some g =>
    if g.done then
      (match g.replayId with
       | some r => s.endReplay k r
       | none => s.retireGroup k false)
    else s
  | none => s

/-! ## EXIT (R310) -/

/-- Step 3 of EXIT for an arm: it ends with an empty mask. -/
def Arm.exit (a : Arm) : Arm := { a.finish with mask := 0, forks := [], rets := [] }

/-- What finished lanes of a DEPDEC that did not go on have left is delivered at EXIT: their underflow (R194). -/
def State.leftUnder (s : State) : Option State :=
  let l := s.arm.depLanes
  if l = 0 then none
  else some ((s.modArm fun a => { a with depLanes := 0 }).raise s.arm.pc s.arm.cl ⟨.depUnderflow, l, 1⟩)

/-- Outstanding DEPDECs of an arm. -/
def Group.hasDep (g : Group) (w : Who) : Bool :=
  g.ops.vals.any fun o => o.who == w && match o.kind with | .dep _ _ _ => true | _ => false

def execExit (g : Guard) (s : State) : Host.Outcome State Fault Refusal :=
  wordOp (ctl g []) (fun _ s =>
    if s.who = .mon then .ok (.here (s.modGrp fun g => { g with mon := { g.mon with st := .ended } }))
    else match s.engFailure fun _ r => s.grp.countsFor s.who r with
      | some s' => .ok (.here s')
      | none =>
        if s.grp.hasDep s.who then .error (.stall s)
        else match s.depUnderflow.orElse fun _ => s.leftUnder with
          | some s' => .ok (.here s')
          | none =>
            if s.grp.tr.tm then .ok (.here (s.killGroup s.grp.key))
            else .ok (.here ((s.modArm Arm.exit).retireIfDone s.grp.key))) s

end Sys2Proof.Machine
end

