-- ==== Sys2Proof/Machine/Chunks.lean ====
section
/-! DEFINITION. One chunk of an engine request: what it reads and writes on its two sides, and how it stops (R153–R156,
R235). -/

namespace Sys2Proof.Machine

/-- Why a chunk does not move: its request ends failed, pauses on a page, or waits for another device after sending it
some requests (line, payload, mask). -/
inductive Halt where
  | fail (k : TrapKind) (poison : Bool)
  | wait (va access level : Nat)
  | far (send : List (Nat × List Byte × List Byte))
deriving DecidableEq, Repr

/-! ## Engines -/

def State.engineAt (s : State) (e : Nat) : Engine := (s.engines.look e).getD ⟨[], none, [], []⟩
def State.modEngine (s : State) (e : Nat) (f : Engine → Engine) : State := { s with engines := s.engines.ins e (f (s.engineAt e)) }

/-- The engine of a record: copy engines 0–127, gather engines from 128. -/
def CmdRec.engineNo (r : CmdRec) : Nat := r.engine + if r.gather then 128 else 0

/-! ## The global side -/

/-- Lines of global memory as a chunk finds them: local ones with their physical address and key, remote ones that have
answered with their bytes, and whether any has still to answer, with those still to be asked. -/
structure Lines where
  loc : List (Nat × Nat × Nat)
  far : List (Nat × Nat)
  ask : List Nat
  pending : Bool
deriving DecidableEq, Repr

/-- An engine's translation of a group's address, by its own TLB (R155). -/
def State.engTr (s : State) (g : Group) (r : CmdRec) (a : Acc) (va : Nat) : Tr :=
  s.translateBy (s.engineAt r.engineNo).tlb g.part a va

/-- Find lines for a chunk, each for an access kind; the first that cannot be had decides. -/
def State.engLines (s : State) (g : Group) (r : CmdRec) (a : Acc) : List Int → Except Halt Lines
  | [] => .ok ⟨[], [], [], false⟩
  | ln :: rest =>
    if ln < 0 ∨ 2 ^ 65 ≤ ln then .error (.fail .memFault false)
    else
      let line := ln.toNat
      let va := line * 128
      match s.engTr g r a va with
      | .ok pa key =>
        if a == .read && s.poisonAt pa 128 then .error (.fail .uncorrectable true)
        else (s.engLines g r a rest).map fun x => { x with loc := (line, pa, key) :: x.loc }
      | .park level => .error (.wait va (16 + a.code) level)
      | .trap k => .error (.fail k false)
      | .noPage => .error (.fail .memFault false)
      | .remote dev q =>
        match r.remote.find? fun y => y.addr == remoteAddr dev q with
        | some y => match y.answer with
          | none => (s.engLines g r a rest).map fun x => { x with pending := true }
          | some (.ok d) => (s.engLines g r a rest).map fun x => { x with far := (line, d) :: x.far }
          | some .permission => .error (.fail .permission false)
          | some .memFault => .error (.fail .memFault false)
          | some .poisoned => .error (.fail .uncorrectable true)
        | none =>
          if !(s.portsTo dev).isEmpty then (s.engLines g r a rest).map fun x => { x with ask := line :: x.ask, pending := true }
          else .error (.fail .memFault false)

/-- A byte of global memory that a chunk reads. -/
def State.lineByte (s : State) (x : Lines) (va : Nat) : Byte :=
  match assoc x.loc (va / 128) with
  | some (pa, _) => s.mem.byte (pa + va % 128)
  | none => match assoc x.far (va / 128) with
    | some d => BitVec.ofNat 8 (d / 256 ^ (va % 128))
    | none => 0

/-- A translation enters an engine's TLB, which keeps the newest 256 (R155). -/
def State.enterTlb (s : State) (e p va : Nat) : State :=
  match s.walkEntry p va with
  | some x => s.modEngine e fun y => { y with
      tlb := (((p, va / 8192), x) :: y.tlb.filter fun t => t.1 != (p, va / 8192)).take 256 }
  | none => s

/-- An engine keeps a translation it has used, and the frame reached becomes owned (R155, R236). -/
def State.useEng (s : State) (e p va pa key : Nat) : State :=
  (({ s with mem := s.mem.claim pa key }).claimWalk p va).enterTlb e p va

/-- The translations of a chunk's local lines are used, and lines that it reads stand in the L2 of the engine's die. -/
def State.useLines (s : State) (g : Group) (r : CmdRec) (read : Bool) (x : Lines) : State :=
  x.loc.foldl (fun t (line, pa, key) =>
    let t := t.useEng r.engineNo g.part (line * 128) pa key
    if read && !(ShapeRec.of r.shape).iod && decide (pa < 2 ^ 51) then
      t.l2Use g.part (dieOfCore g.key.core) (pa / 128) false else t) s

/-- Dirty copies of the lines that a chunk reaches are written back first (R113). -/
def State.recallLines (s : State) (g : Group) (r : CmdRec) (a : Acc) (l : List Int) : State :=
  l.foldl (fun (t : State) (ln : Int) =>
    if ln < 0 ∨ 2 ^ 65 ≤ ln then t
    else match t.engTr g r a (ln.toNat * 128) with
      | .ok pa _ => t.recall (pa / 128)
      | _ => t) s

/-- A byte of a masked write: address, mask, value. -/
abbrev MByte := Nat × Nat × Nat

/-- The bytes that bits [lo, hi) of a stream change, where `f` gives each bit or leaves it. -/
def maskBytes (lo hi : Nat) (f : Nat → Option Bool) : List MByte :=
  (List.range ((hi + 7) / 8 - lo / 8)).filterMap fun k =>
    let b := lo / 8 + k
    let (m, v) := (List.range 8).foldl (fun (m, v) t =>
      let q := 8 * b + t
      if lo ≤ q ∧ q < hi then
        (match f q with | some x => (m + 2 ^ t, if x then v + 2 ^ t else v) | none => (m, v))
      else (m, v)) (0, 0)
    if m = 0 then none else some (b, m, v)

def mergeByte (old : Byte) (m v : Nat) : Byte := (old &&& ~~~(BitVec.ofNat 8 m)) ||| (BitVec.ofNat 8 v &&& BitVec.ofNat 8 m)

/-- Masked writes to local lines, as one event each at their homes; a line written only in part keeps its poison. -/
def State.putMasked (s : State) (x : Lines) (l : List MByte) : State :=
  let at' (va : Nat) : Option Nat := (assoc x.loc (va / 128)).map fun y => y.1 + va % 128
  let cells := l.filterMap fun (va, m, v) => (at' va).map fun pa => (pa, mergeByte (s.mem.byte pa) m v)
  let torn := l.filterMap fun (va, m, _) => if m = 255 then none else (at' va).map (· / 128)
  let t := if cells.isEmpty then s else s.writeMem cells
  (torn.filter s.mem.poison.contains).foldl (fun t ln => { t with mem := t.mem.setPoison ln }) t

/-- The payload and the bit mask of a masked write to one line. -/
def linePayload (l : List MByte) (line : Nat) : List Byte × List Byte :=
  let at' (k : Nat) : Nat × Nat := match l.find? fun y => y.1 == line * 128 + k with | some (_, m, v) => (m, v) | none => (0, 0)
  ((List.range 128).map fun k => BitVec.ofNat 8 (at' k).2, (List.range 128).map fun k => BitVec.ofNat 8 (at' k).1)

/-! ## The slate side -/

/-- A request's slate: core, descriptor id, and where in it the byte at offset `lo` from the request's slate address stands,
the lowest byte that the request reaches (R320). -/
structure SlSide where
  (core id base lo : Nat)
deriving DecidableEq, Repr

/-- Offset in the slate of a byte at an offset from the request's slate address. -/
def SlSide.at' (x : SlSide) (o : Nat) : Nat := x.base + (o - x.lo)

def State.slSide (s : State) (g : Group) (a lo : Nat) : Option SlSide :=
  let b := a + lo
  let c := if bitB b 23 then partnerOf g.key.core else g.key.core
  (s.anySlate c g.team (bits b 11 11)).map fun x => ⟨c, x.1, b % 2 ^ 22 - x.2.base * 2048, lo⟩

/-- A sector of a mapped slate becomes resident with the line at a physical address: a poisoned line makes it POISONED, and the
line stands in the L2 of the core's die (R113, R118). -/
def State.putSector (s : State) (core id i p pa : Nat) : State :=
  let s := s.recall (pa / 128)
  let x : Sector := ⟨s.rclk core, if s.poisonAt pa 128 then .poisoned else .good, true, false, true, pa / 128⟩
  let s := s.modDesc core id fun e => e.setSec i x
  if pa < 2 ^ 51 then s.l2Use p (dieOfCore core) (pa / 128) false else s

/-- An engine's translation of a sector's line for one kind of access. -/
def State.sideTr (s : State) (g : Group) (r : CmdRec) (a : Acc) (va : Nat) : Except Halt (Nat × Nat) :=
  match s.engTr g r a va with
  | .ok pa key => .ok (pa, key)
  | .park level => .error (.wait va (16 + a.code) level)
  | .trap k => .error (.fail k false)
  | .noPage => .error (.fail .memFault false)
  | .remote _ _ => .error (.fail .memFault false)

/-- One sector of a mapped slate as a chunk touches it: translated for a write, and filled where it is absent (R113). -/
def State.engTouch (s : State) (g : Group) (r : CmdRec) (x : SlSide) (a : Acc) (d : Desc) (i : Nat) : Except Halt State := do
  let va := d.mapva + 128 * i
  let s ← if (d.sec i).present then .ok s else do
    let (pa, key) ← s.sideTr g r .read va
    match s.takeLeaf x.core x.id (i / 16) 0 [x.id] with
    | none => .error (.fail .slateFull false)
    | some t => .ok ((t.useEng r.engineNo g.part va pa key).putSector x.core x.id i g.part pa)
  if a != .read then
    let (pa, key) ← s.sideTr g r .write va
    .ok (s.useEng r.engineNo g.part va pa key)
  else .ok s

/-- The sectors of a slate as a chunk reaches them: a pinned destination fails the request (R126, R302), absent sectors of a mapped
slate are filled (R113), and a derived destination takes the leaves it needs one after another (R108). -/
def State.engSectors (s : State) (g : Group) (r : CmdRec) (x : SlSide) (a : Acc) : List Nat → Except Halt State
  | [] => .ok s
  | i :: rest =>
    match s.desc? x.core x.id with
    | none => .error (.fail .staleRead false)
    | some d =>
      if a == .read && ((d.kind == .derived && d.dropped) || (d.kind == .scratch && d.leafLost (i / 16))) then
        .error (.fail .staleRead false)
      else if a == .write && s.pinnedFor g false x.core x.id d then .error (.fail .pinViolation false)
      else if a == .write && d.kind == .derived then
        match s.takeLeaf x.core x.id (i / 16) (s.extraOf g) with
        | none => .error (.fail .slateFull false)
        | some t => t.engSectors g r x a rest
      else match (if d.kind = .mapped then s.engTouch g r x a d i else .ok s) with
        | .error h => .error h
        | .ok t =>
          if a == .read && (match t.desc? x.core x.id with | some e => (e.sec i).st == .poisoned | none => true) then
            .error (.fail .uncorrectable true)
          else t.engSectors g r x a rest

/-- A chunk's reads touch the leaves, and the sectors of a mapped slate (R114, R115). -/
def State.touchSecs (s : State) (x : SlSide) (secs : List Nat) : State :=
  secs.foldl (fun t i => (t.touchLeaf x.core x.id (i / 16)).modDesc x.core x.id fun d =>
    if d.kind = .mapped then d.setSec i { d.sec i with touched := true } else d) s

/-- Masked writes to the slate side, by offset in the slate. -/
def State.putSide (s : State) (g : Group) (x : SlSide) (w : List MByte) : State :=
  let cells := w.map fun (o, m, v) => (o, mergeByte (s.slByte x.core x.id o) m v)
  if w.isEmpty then s
  else s.slPut x.core x.id (s.extraOf g) cells (w.filterMap fun (o, m, _) => if m = 255 then none else some o)

/-! ## A chunk -/

/-- The parts of rows that elements [u, v) of a request cover: row, first position, position after the last. -/
def Job.parts (j : Job) (u v : Nat) : List (Nat × Nat × Nat) :=
  if v ≤ u then []
  else (List.range ((v - 1) / j.b 0 + 1 - u / j.b 0)).map fun n =>
    let k := u / j.b 0 + n
    (k, u - k * j.b 0, min (j.b 0) (v - k * j.b 0))

/-- Lines of global memory that units [u, v) lie in. -/
def Job.lines (j : Job) (u v : Nat) : List Int :=
  ((List.range (v - u)).filter fun n => j.inside ((u + n) / j.b 0) ((u + n) % j.b 0)).foldl (fun l n =>
    let (a, z) := j.bytesAt ((u + n) / j.b 0) ((u + n) % j.b 0)
    let l := if l.contains (a / 128) then l else l ++ [a / 128]
    if l.contains (z / 128) then l else l ++ [z / 128]) []

/-- Bit of a stream of bytes. -/
def bitOf (f : Nat → Byte) (q : Nat) : Bool := bitB (f (q / 8)).toNat (q % 8)

/-- The code of an element read from global memory; 0 outside the tensor. -/
def Job.codeAt (j : Job) (rd : Nat → Byte) (k c : Nat) : Nat :=
  if j.inside k c then
    let q := (j.bitAt k c).toNat
    ofBytes ((List.range (j.sh.w / 8 + 2)).map fun n => rd (q / 8 + n)) / 2 ^ (q % 8) % 2 ^ j.sh.w
  else 0

/-- What raw mode writes to the slate, by offset from the slate address: element bits, zero for elements outside the
tensor, zero spare bits. -/
def Job.rawIn (j : Job) (rd : Nat → Byte) (u v : Nat) : List MByte :=
  (j.parts u v).flatMap fun (k, a, z) =>
    let lo := elemBit j.sh.w a
    let hi := if z = j.b 0 then 8 * j.rowBytes else elemBit j.sh.w z
    (maskBytes lo hi fun q => match j.streamBit q with
      | some (c, i) => some (j.inside k c && bitOf rd ((j.bitAt k c).toNat + i))
      | none => some false).map fun (b, m, x) => (j.slateRow k + b, m, x)

/-- What a row part writes to global memory, from the code of each element of the row; `spare` zeroes a line's spare bits
with its last element (R153). -/
def Job.rowOut (j : Job) (spare : Bool) (k a z : Nat) (code : Nat → Nat) : List MByte :=
  let w := j.sh.w
  let x0 := j.start 0
  let hi := if spare && (x0 + z) % perLine w = 0 then elemBit w (x0 + z) else elemBit w (x0 + z - 1) + w
  (maskBytes (elemBit w (x0 + a)) hi fun q =>
    let n := q % 1024 / w
    if n < perLine w then
      let c := q / 1024 * perLine w + n - x0
      if j.inside k c then some (bitB (code c) (q % 1024 % w)) else none
    else if spare then some false else none).map fun (b, m, x) => ((j.rowAt k).toNat + b, m, x)

/-- The code a planar element is packed to: a value of the slot, or its canonical NaN or +Max (R153); −0 is +0 where the
slot has no −0 (log 78). -/
def packCode (f : Fmt) (v : FVal) : Nat :=
  let c := f.round ⟨.rn, false⟩ 0 v
  let d := f.decode c
  if (v == .nan && d == .nan) || (match v.cmp d with | some .eq => true | _ => false) then c
  else if f.hasNan then f.nan else f.max

/-- What planarise writes of a tile for elements [u, v): their sign bits, exponents and plane bits. -/
def Job.planarBits (j : Job) (f : Fmt) (rd : Nat → Byte) (u v : Nat) : List MByte :=
  let part (e : Nat) : Bool × Nat × Nat :=
    planarOf f f.planes (if j.inside (e / j.b 0) (e % j.b 0) then f.decode (j.codeAt rd (e / j.b 0) (e % j.b 0)) else .num false 0 0)
  let ps := (List.range (v - u)).map fun n => part (u + n)
  let at' (e : Nat) : Bool × Nat × Nat := ps.getD (e - u) (false, 0, 0)
  maskBytes u v (fun e => some (at' e).1) ++
    (List.range (v - u)).map (fun n => (0x100 + u + n, 255, (BitVec.ofNat 8 (at' (u + n)).2.1).toNat)) ++
    (List.range f.planes).flatMap fun p =>
      (maskBytes u v fun e => some (bitB (at' e).2.2 (f.planes - 1 - p))).map fun (b, m, x) => (0x900 + 0x100 * p + b, m, x)

/-- Offsets, from the slate address, of the bytes that a chunk of a copy out of a slate reads. -/
def Job.slateReads (j : Job) (planes u v : Nat) : List Nat :=
  if j.sh.mode = 2 then (List.range (v - u)).flatMap fun n => tileBytesOf planes (u + n)
  else (j.parts u v).flatMap fun (k, a, z) =>
    let lo := elemBit j.sh.w a / 8
    let hi := (elemBit j.sh.w (z - 1) + j.sh.w + 7) / 8
    (List.range (hi - lo)).map fun n => j.slateRow k + lo + n

/-- Requests to other devices that a chunk's lines still have to send, or none where every one has answered. -/
def Lines.halt (x : Lines) (w : List MByte) (write : Bool) : Option Halt :=
  if x.pending then some (.far (x.ask.map fun ln => if write then (ln, linePayload w ln) else (ln, [], []))) else none

/-- Move the elements of units [u, v) from global memory to the slate. -/
def State.moveIn (s : State) (g : Group) (r : CmdRec) (j : Job) (f : Fmt) (x : SlSide) (u v : Nat) : Except Halt State := do
  let ls ← s.engLines g r .read (j.lines u v)
  match ls.halt [] false with
  | some h => .error h
  | none =>
    let rd := s.lineByte ls
    let w := (if j.sh.mode = 1 then j.planarBits f rd u v else j.rawIn rd u v).map fun (b, m, y) => (x.at' b, m, y)
    let t ← (s.useLines g r true ls).engSectors g r x .write (sectorsOf (w.map (·.1)))
    .ok (t.putSide g x w)

/-- Move the elements of units [u, v) from the slate to global memory. -/
def State.moveOut (s : State) (g : Group) (r : CmdRec) (j : Job) (f : Fmt) (x : SlSide) (u v : Nat) : Except Halt State := do
  let secs := sectorsOf ((j.slateReads f.planes u v).map x.at')
  let t ← s.engSectors g r x .read secs
  let s := t.touchSecs x secs
  let rd (o : Nat) : Byte := s.slByte x.core x.id (x.at' o)
  let tile := if j.sh.mode = 2 then (List.range (tileBytes f.planes)).map rd else []
  let w := (j.parts u v).flatMap fun (k, a, z) =>
    if j.sh.mode = 2 then
      let codes := (List.range (z - a)).map fun n => packCode f (tileElem tile f.planes f.planes (32 * k + a + n))
      j.rowOut true k a z fun c => codes.getD (c - a) 0
    else
      let lo := j.slateRow k
      j.rowOut false k a z fun c =>
        let q := 8 * lo + elemBit j.sh.w c
        ofBytes ((List.range (j.sh.w / 8 + 2)).map fun n => rd (q / 8 + n)) / 2 ^ (q % 8) % 2 ^ j.sh.w
  let ls ← s.engLines g r .write (j.lines u v)
  match ls.halt w true with
  | some h => .error h
  | none => .ok ((s.useLines g r false ls).putMasked ls w)

/-- The format that a record's slot names, as the engine read it at acceptance (R97). -/
def CmdRec.fmt (r : CmdRec) : Fmt :=
  let slot := (ShapeRec.of r.shape).slot
  if slot < 8 then hardSlot slot
  else match r.bind with
    | some (_, b) => Fmt.ofRecord b.record b.meas
    | none => hardSlot 0

/-- The rows of a gather: the selected lanes with their indices, or the entries of its index slate (R160). -/
def CmdRec.gathRows (r : CmdRec) : List (Nat × Nat) :=
  if r.sel = 0 then (List.range (bits r.index.toNat 32 12 + 1)).map fun n => (n, (Tbl.get 0 r.indices n).toNat)
  else (laneList r.sel).map fun i => (i, (Tbl.get 0 r.indices i).toNat)

def CmdRec.job (r : CmdRec) : Job :=
  { sh := ShapeRec.of r.shape, t := tilesOf r.origin, slate := r.slate.toNat % 2 ^ 32, gather := r.gather
    rows := if r.gather then r.gathRows else [] }

/-- Whether a request has still to read its index slate (R320). -/
def CmdRec.unread (r : CmdRec) : Bool := r.gather && decide (r.sel = 0) && r.next == 0

/-- A gather reads its index slate as it starts (R320). -/
def State.readIndices (s : State) (g : Group) (r : CmdRec) : Except Halt (State × CmdRec) :=
  if r.unread then
    match s.slSide g (bits r.index.toNat 0 32) 0 with
    | none => .error (.fail .staleRead false)
    | some x => do
      let n := bits r.index.toNat 32 12 + 1
      let secs := sectorsOf ((List.range (4 * n)).map x.at')
      let t ← s.engSectors g r x .read secs
      .ok (t.touchSecs x secs, { r with indices := (List.range n).foldl (fun l k => Tbl.put 0 l k
        (BitVec.ofNat 32 (ofBytes ((List.range 4).map fun b => t.slByte x.core x.id (x.at' (4 * k + b)))))) [] })
  else .ok (s, r)

/-- The page of a mapped slate that a byte of a request's slate side stands in; 0 in another slate. -/
def State.sidePage (s : State) (x : SlSide) (o : Nat) : Nat :=
  match s.desc? x.core x.id with
  | some d => if d.kind = .mapped then (d.mapva + x.at' o) / 8192 + 1 else 0
  | none => 0

/-- Pages of a mapped index slate. -/
def State.indexWalks (s : State) (g : Group) (r : CmdRec) : List Nat :=
  match s.slSide g (bits r.index.toNat 0 32) 0 with
  | none => []
  | some x => ((((List.range (bits r.index.toNat 32 12 + 1)).map fun k => s.sidePage x (4 * k)).eraseDups).filter (0 < ·)).map (· - 1)

/-- The slate side of a request: its place. -/
def State.jobSide (s : State) (g : Group) (r : CmdRec) : Option SlSide :=
  s.slSide g r.job.slate (r.job.slateSpan r.fmt.planes).1

/-- Where the next chunk of a request ends. -/
def State.chunkStop (s : State) (g : Group) (r : CmdRec) : Nat :=
  match s.jobSide g r with
  | none => r.unit
  | some x => r.job.chunkEnd r.fmt.planes (s.sidePage x) r.unit

/-- Pages whose walks a chunk makes: that of global memory, and those of a mapped slate. -/
def State.chunkWalks (s : State) (g : Group) (r : CmdRec) : List Nat :=
  let here : List Nat := match r.job.page r.unit with
    | some p => if 0 ≤ p ∧ p < 2 ^ 59 then [p.toNat] else []
    | none => []
  let side : List Nat := match s.jobSide g r with
    | some x => (r.job.slateOfs r.fmt.planes r.unit).map (s.sidePage x)
    | none => []
  here ++ (side.eraseDups.filter (0 < ·)).map (· - 1)

/-- Pages of the chunks that follow, up to `n` (R155). -/
def State.pagesAhead (s : State) (g : Group) (r : CmdRec) : Nat → List Nat
  | 0 => []
  | n + 1 =>
    let v := s.chunkStop g r
    if v ≤ r.unit ∨ r.job.units ≤ v then []
    else
      let r := { r with unit := v }
      s.chunkWalks g r ++ s.pagesAhead g r n

/-- An engine translates up to 16 pages ahead of the chunk it is moving; a page that is not present is met by its chunk (R155). -/
def State.walkAhead (s : State) (g : Group) (r : CmdRec) : State :=
  ((s.pagesAhead g r 16).eraseDups.take 16).foldl (fun t k =>
    if (assoc (t.engineAt r.engineNo).tlb (g.part, k)).isSome then t
    else (t.claimWalk g.part (k * 8192)).enterTlb r.engineNo g.part (k * 8192)) s

/-- One chunk of a request whose indices are read: the state it leaves, and where the next chunk starts. -/
def State.chunk (s : State) (g : Group) (r : CmdRec) : Except Halt (State × Nat) := do
  let j := r.job
  match s.jobSide g r with
  | none => .error (.fail .staleRead false)
  | some x =>
    let v := s.chunkStop g r
    let s' ← if j.sh.outward then s.moveOut g r j r.fmt x r.unit v else s.moveIn g r j r.fmt x r.unit v
    .ok (s', v)

end Sys2Proof.Machine
end

