-- ==== Sys2Proof/Machine/Slates.lean ====
section
/-! DEFINITION. Slate and crib instructions (R108, R123–R125, R300–R305, R344–R348), and TLBINV (R237, R354). -/

namespace Sys2Proof.Machine

/-- A slate address operand: the low 32 bits of a scalar (R106). -/
def slateOperand (w : Word) : Nat := w.toNat % 2 ^ 32

/-- SLATE_RANGE of a slate address operand (R226). -/
def slateRange (c : Ctx) (a : Nat) : Except Exit Done :=
  .error (.trap ⟨.slateRange, c.sel, BitVec.ofNat 64 (a % 2 ^ 32)⟩)

/-- The slate an operand names, with its descriptor. -/
def State.slateAt (s : State) (a : Nat) : Option (SlAddr × Desc) :=
  (s.resolve s.core s.grp.team a 1).bind fun x => (s.desc? x.core x.id).map fun d => (x, d)

/-- The slate address of a slate's first byte as a core of its team names it (R106). -/
def slateName (own core base : Nat) : Nat := base * 2048 + if core = own then 0 else 2 ^ 23

def trapWord (c : Ctx) (k : TrapKind) (info : Word) : Except Exit Done := .error (.trap ⟨k, c.sel, info⟩)

/-! ## SLALLOC (R108, R344, R345) -/

/-- The lowest run of `n` leaves free in a team's space on a core. -/
def State.freeRun (s : State) (core team n : Nat) : Option Nat :=
  let ds := (s.coreAt core).descs.vals.filter fun d => d.team == team
  (List.range 2048).find? fun b =>
    decide (b + n ≤ 2048) && ds.all fun d => decide (b + n ≤ d.base ∨ d.base + d.leaves ≤ b)

/-- A mapped slate of the team that overlaps a range of addresses. -/
def State.overlapped (s : State) (team va n : Nat) : Option (Nat × Desc) :=
  match s.teams.look team with
  | none => none
  | some t => (teamCores t).findSome? fun c =>
    ((s.coreAt c).descs.vals.find? fun d => d.team == team && d.kind == .mapped &&
      decide (va < d.mapva + 2048 * d.leaves ∧ d.mapva < va + 2048 * n)).map fun d => (c, d)

/-- Leaves of save area that a scratch slate takes from the context pool, beyond the team's LEAVES (R204). -/
def State.saveNeed (s : State) (team n : Nat) : Nat :=
  match s.teams.look team with
  | none => 0
  | some t =>
    let used := s.scratchLeaves team
    (used + n - leavesOf t.khdr) - (used - leavesOf t.khdr)

/-- The area of the context pool for them, with their number; none where the pool has no room. -/
def State.saveTake (s : State) (team n : Nat) : Option (List (Nat × Nat)) :=
  let k := s.saveNeed team n
  if k = 0 then some [] else (s.poolTake s.grp.part [(2048, 2048 * k)]).map fun l => l.map fun a => (a, k)

/-- Causes of SLATE_FULL, as bits of TINFO, with the state in which the leaves of a scratch slate are free. -/
def State.slateFull (s : State) (core n : Nat) (kind : SlKind) : Nat × Option State :=
  let room := if kind = .scratch then s.room core n 0 [] else some s
  let bit (b : Bool) (k : Nat) : Nat := if b then 2 ^ k else 0
  (bit ((s.coreAt core).descs.length ≥ 256) 0 + bit (s.freeRun core s.grp.team n).isNone 1 + bit room.isNone 2 +
    bit (kind == .scratch && (s.saveTake s.grp.team n).isNone) 3, room)

/-- The descriptor of a new slate. -/
def newDesc (kind : SlKind) (team base n life va t touch : Nat) : Desc :=
  { kind := kind, warm := false, dropped := false, closed := false, team := team, base := base, leaves := n, crib := none
    life := if kind = .mapped then 0 else life, mapva := if kind = .mapped then va else 0
    dflt := Sector.fresh (if kind = .mapped then 0 else t), secs := [], bytes := []
    leafs := if kind = .scratch then (List.range n).map fun k => (k, touch) else [], holds := [] }

def execSlalloc (g : Guard) (d : SReg) (n lx : SSrc) (part : Bool) (kind : SlKind) (s : State) :
    Host.Outcome State Fault Refusal :=
  wordOp { g := g, ss := d.val :: (n.sregs ++ lx.sregs), rep := false } (fun c s =>
    let n := (n.value s).toNat
    let x := (lx.value s).toNat
    let team := s.grp.team
    let pair : Bool := match s.teams.look team with | some t => t.pair | none => false
    let core := if part then partnerOf s.core else s.core
    if n < 1 ∨ 2048 < n ∨ (kind ≠ .mapped ∧ (x < 1 ∨ 64 < x)) then .error (.trap (illegal c.sel))
    else if part && !pair then trapWord c .slateRange (BitVec.ofNat 64 (2 ^ 32))
    else if kind = .mapped ∧ x % 128 ≠ 0 then trapWord c .misalign (vaInfo x)
    else if kind = .mapped ∧ 2 ^ 71 < x + 2048 * n then trapWord c .permission (vaInfo x)
    else match (if kind = .mapped then s.overlapped team x n else none) with
      | some (oc, o) => trapWord c .slateRange (BitVec.ofNat 64 (2 ^ 32 + slateName s.core oc o.base))
      | none => match s.slateFull core n kind, s.freeRun core team n, (s.coreAt core).descs.fresh 256 with
        | (0, some s'), some base, some id =>
          let y := newDesc kind team base n x x (s.rclk core) s'.cnt.touch
          let s' := { s' with cnt := { s'.cnt with touch := s'.cnt.touch + 1 } }
          let more := if kind = .scratch then (s.saveTake team n).getD [] else []
          let s' := if more.isEmpty then s' else s'.modTeam team fun t => { t with extra := t.extra ++ more }
          setS d (BitVec.ofNat 64 (slateName s.core core base)) (s'.setDesc core id y)
        | (why, _), _, _ => trapWord c .slateFull (BitVec.ofNat 64 why)) s

/-! ## SLFREE, SLRENEW, SLQRY (R346–R348) -/

/-- Whether the crib of a slate is being replayed. -/
def State.replaying (s : State) (core : Nat) (d : Desc) : Bool :=
  match d.crib.bind (s.crib? core) with | some y => y.st == .replaying | none => false

/-- SLFREE closes the slate at once; the rest happens at completion, once no engine request names the slate. -/
def execSlfree (g : Guard) (x : Bool) (a : SSrc) (s : State) : Host.Outcome State Fault Refusal :=
  wordOp { longInfo g x [] [] a.sregs false with ctl := true, rel := true, rep := false } (fun c s =>
    let a := slateOperand (a.value s)
    match s.slateAt a with
    | none => slateRange c a
    | some (y, d) =>
      if y.ofs ≠ 0 then slateRange c a
      else if 0 < s.pins y.core y.id then trapWord c .pinViolation (pinInfo s.core y)
      else if s.replaying y.core d then .error (.stall s)
      else
        let s := s.modDesc y.core y.id fun e => { e with closed := true }
        .ok (.next (s.addOp (s.flagOf x) (.free y.core y.id) [] []))) s

/-- Renew the GOOD resident sectors of a range of bytes. -/
def State.renewRange (s : State) (core id ofs n : Nat) : State :=
  s.modDesc core id fun d =>
    if d.kind = .mapped ∨ d.dropped then d
    else (List.range (n / 128)).foldl (fun e k =>
      let i := ofs / 128 + k
      if (d.leafs.look (i / 16)).isSome then e.setSec i ((d.sec i).renew (s.rclk core)) else e) d

def execSlrenew (g : Guard) (x : Bool) (a len : SSrc) (s : State) : Host.Outcome State Fault Refusal :=
  wordOp { longInfo g x [] [] (a.sregs ++ len.sregs) false with ctl := true } (fun c s =>
    let a := slateOperand (a.value s)
    let n := (len.value s).toNat
    if a % 128 ≠ 0 ∨ n % 128 ≠ 0 then trapWord c .misalign (vaInfo a)
    else match s.slateAt a with
      | none => slateRange c a
      | some (y, d) =>
        let n := if n = 0 then d.leaves * 2048 - y.ofs else n
        if d.leaves * 2048 < y.ofs + n then slateRange c a
        else longDone x [] [] (s.renewRange y.core y.id y.ofs n)) s

def kindCode : SlKind → Nat
  | .scratch => 1 | .mapped => 2 | .derived => 3

/-- A descriptor as R107 lays it out. -/
def State.descWord (s : State) (core id : Nat) (d : Desc) : Nat :=
  let bit (b : Bool) (k : Nat) : Nat := if b then 2 ^ k else 0
  let slot := match s.teams.look d.team with | some t => t.slot | none => 0
  let lost := d.kind == .scratch && d.anySec fun x => x.st == .lost
  let dirty := d.kind == .mapped && d.anySec (·.dirty)
  kindCode d.kind + bit d.warm 2 + bit d.dropped 3 + bit dirty 4 + bit (s.teamSaved d.team) 5 + bit lost 6 +
    bit (d.anySec fun x => x.st == .poisoned) 7 + slot % 32 * 2 ^ 8 + d.base * 2 ^ 16 + d.leaves * 2 ^ 32 +
    (match d.crib with | some k => k * 2 ^ 48 + 2 ^ 56 | none => 0) +
    (if d.dropped then 0 else d.expiry (s.rclk core)) * 2 ^ 64 + d.life * 2 ^ 96 + d.mapva * 2 ^ 128 +
    s.pins core id % 2 ^ 11 * 2 ^ 200

def cribCode : CribSt → Nat
  | .live => 1 | .dropped => 2 | .replaying => 3 | .stale => 4

/-- A crib entry as R122 lays it out. -/
def Crib.word (x : Crib) : Nat :=
  let src (j : Nat) : Nat := match x.srcs[j]? with | some (d, far) => (d + if far then 256 else 0) * 2 ^ (160 + 9 * j) | none => 0
  x.lesson + cribCode x.st * 2 ^ 12 + x.slate * 2 ^ 16 + x.srcs.length * 2 ^ 24 + x.coord.toNat % 2 ^ 48 * 2 ^ 32 +
    x.replays * 2 ^ 80 + x.arg.toNat * 2 ^ 96 + src 0 + src 1 + src 2 + src 3

def execSlqry (g : Guard) (d : SReg) (a : SSrc) (k : Fin 4) (crib : Bool) (s : State) :
    Host.Outcome State Fault Refusal :=
  wordOp { g := g, ss := d.val :: a.sregs } (fun c s =>
    let a := slateOperand (a.value s)
    match s.slateAt a with
    | none => slateRange c a
    | some (y, e) =>
      let w := if crib then (match e.crib.bind (s.crib? y.core) with | some q => q.word | none => 0)
        else s.descWord y.core y.id e
      setS d (BitVec.ofNat 64 (bits w (64 * k.val) 64)) s) s

/-! ## CRIB (R123–R125, R300–R302) -/

/-- Lines in one controller's watch table. -/
def State.watchedAt (s : State) (h : Nat) : List Nat :=
  s.cores.foldl (fun l (_, c) => c.cribs.foldl (fun l (_, y) =>
    let p := match s.teams.look y.team with | some t => t.part | none => 0
    y.watch.foldl (fun l ln => if s.homeOf p (ln.1 * 128) = h then insNat l ln.1 else l) l) l) []

/-- Whether every controller has room for the watches of new lines (R125). -/
def State.watchRoom (s : State) (lines : List Nat) : Bool :=
  (List.range 8).all fun h =>
    let new := lines.filter fun ln => s.homeOf s.grp.part (ln * 128) == h
    new.isEmpty || decide ((new.foldl insNat (s.watchedAt h)).length ≤ 262144)

/-- Source slate addresses: 32-bit fields of consecutive scalars. -/
def State.sourceAddrs (s : State) (k n : Nat) : List Nat :=
  (List.range n).map fun j => (s.readS (k + j / 2)).toNat / 2 ^ (32 * (j % 2)) % 2 ^ 32

/-- A source must be another slate of the team and, where derived, have a crib that is not STALE (R123). -/
def State.sourceOk (s : State) (t x : SlAddr) (d : Desc) : Bool :=
  !(x.core == t.core && x.id == t.id) &&
    (d.kind != .derived || match d.crib.bind (s.crib? x.core) with | some y => y.st != .stale | none => false)

/-- The sources resolved, or the first address that fails. -/
def State.sources (s : State) (t : SlAddr) : List Nat → Except Nat (List (SlAddr × Desc))
  | [] => .ok []
  | a :: rest => match s.slateAt a with
    | none => .error a
    | some (x, d) => if s.sourceOk t x d then (s.sources t rest).map ((x, d) :: ·) else .error a

/-- The translation of a mapped source's line, as a read by the arm (R125). -/
def State.watchChk (s : State) (rejected : List Nat) (d : Desc) (i : Nat) : Chk :=
  let va := d.mapva + 128 * i
  if rejected.contains (localVa va / 8192) then .trap .memFault (vaInfo va)
  else match s.translate s.grp.part s.core .read va with
    | .ok pa key => .ok (.mem pa va key)
    | .park level => .need (.page va Acc.read.code level)
    | .trap k => .trap k (vaInfo va)
    | .noPage => .trap .memFault (vaInfo va)
    | .remote _ _ => .trap .memFault (vaInfo va)

def State.watchChks (s : State) (rejected : List Nat) (l : List (SlAddr × Desc)) : List Chk :=
  l.flatMap fun (_, d) =>
    if d.kind = .mapped then (List.range (d.leaves * 16)).map (s.watchChk rejected d) else []

/-- The lines to watch, each with the position of its source, as the checks found them. -/
def watchLines (l : List (SlAddr × Desc)) (chks : List Chk) : List (Nat × Nat) :=
  let pos := l.zipIdx.flatMap fun x => if x.1.2.kind = .mapped then List.replicate (x.1.2.leaves * 16) x.2 else []
  (chks.zip pos).filterMap fun (k, j) => match k.place with
    | some (.mem pa _ _) => some (pa / 128, j)
    | _ => none

/-- The walks of the lines of the mapped sources have read their entries (R236). -/
def State.claimLines (s : State) (l : List (SlAddr × Desc)) : State :=
  l.foldl (fun t (_, d) => if d.kind = .mapped then
    (List.range ((d.mapva + 2048 * d.leaves - 1) / 8192 + 1 - d.mapva / 8192)).foldl (fun u k =>
      u.claimWalk s.grp.part (d.mapva / 8192 * 8192 + 8192 * k)) t else t) s

/-- CRIB takes effect: the entry, the descriptor's fields; pins are the entry's sources, and its watches are registered
(R301). DESIGN CHOICE (log 88), unsafe: R128 leaves open when between CRIB's effect and its flag's decrement a line's watch
is registered, and each is registered at once. -/
def State.addCrib (s : State) (t : SlAddr) (id : Nat) (y : Crib) (warm : Bool) : State :=
  (s.modCore t.core fun c => { c with cribs := c.cribs.ins id y }).modDesc t.core t.id fun d =>
    { d with crib := some id, warm := warm }

/-- Whether an MSTZ of any group has still to write some slate (R302; log 79). -/
def State.stzInto (s : State) (l : List (Nat × Nat)) : Bool :=
  s.groups.any fun g => g.stzAll.any fun x => match x.2.stzSpan with | some (c, d, _, _) => l.contains (c, d) | none => false

def execCrib (g : Guard) (x : Bool) (t cr arg : SSrc) (src : Option SReg) (nsrc : Fin 5) (warm : Bool) (s : State) :
    Host.Outcome State Fault Refusal :=
  let k := match src with | some r => r.val | none => 0
  let regs := (List.range ((nsrc.val + 1) / 2)).map (k + ·)
  wordOp { longInfo g x [] [] (t.sregs ++ cr.sregs ++ arg.sregs ++ regs) false with ctl := true, rel := true, rep := false } (fun c s =>
    let w := (t.value s).toNat
    let a := w % 2 ^ 32
    if 2 ^ 44 ≤ w ∨ regs.any (127 < ·) then .error (.trap (illegal c.sel))
    else match s.slateAt a with
      | none => slateRange c a
      | some (ta, td) =>
        if td.kind ≠ .derived ∨ td.crib.isSome then slateRange c a
        else match s.sources ta (s.sourceAddrs k nsrc.val) with
          | .error b => slateRange c b
          | .ok l =>
            if !s.lessonOk s.grp.part (bits w 32 12) then .error (.trap (illegal c.sel))
            else if td.dropped then trapWord c .cribStale (BitVec.ofNat 64 (ta.id + 0xFF * 256))
            else
              let r : LaneRes := ⟨0, c.sel, s.watchChks c.allPages l, []⟩
              let noSpace := trapWord c .cribNospace (BitVec.ofNat 64 ta.id)
              match chooseTrap (trapsOf [r]), (s.coreAt ta.core).cribs.fresh 256 with
              | some e, _ => .error (.trapIn (s.claimLines l) e)
              | none, none => noSpace
              | none, some id =>
                if s.stzInto ((ta.core, ta.id) :: l.map fun (z, _) => (z.core, z.id)) then .error (.stall s) else
                let s := (s.claimLines l).claimEntry s.grp.part (bits w 32 12)
                if !r.done then
                  let (s', cs) := s.startNeeds [r] []
                  .error (.park s' c.sel cs)
                else
                  let lines := watchLines l r.chks
                  if !s.watchRoom (lines.map (·.1)) then noSpace
                  else
                    let y : Crib := ⟨bits w 32 12, .live, ta.id, s.grp.team, BitVec.ofNat 64 (bits (cr.value s).toNat 0 48),
                      arg.value s, 0, l.map fun (z, _) => (z.id, z.core != ta.core), lines⟩
                    longDone x [] [] (s.addCrib ta id y warm)) s

/-! ## CRTOUCH and CRDROP (R303–R305) -/

/-- CRTOUCH of a slate whose tile is missing parks as any touch does; what it reads and changes is settled at
completion. -/
def execCrtouch (g : Guard) (x : Bool) (a : SSrc) (d : SReg) (renew warm cold : Bool) (s : State) :
    Host.Outcome State Fault Refusal :=
  wordOp { longInfo g x [] [] (d.val :: a.sregs) false with ctl := true } (fun c s =>
    let a := slateOperand (a.value s)
    match s.slateAt a with
    | none => slateRange c a
    | some (y, e) =>
      if e.kind ≠ .derived then slateRange c a
      else if e.crib.isNone && e.dropped then trapWord c .cribStale (BitVec.ofNat 64 (y.id + 0xFF * 256))
      else do
        let r ← s.access [⟨0, c.sel, [if s.misses y e then .need (.crib y.core y.id) else .ok (.slate y)], []⟩]
        match r.park with
        | some (l, cs) => .error (.park r.st l cs)
        | none =>
          let s' := r.st.touchPlace (.slate y)
          .ok (.next (s'.addOp (s'.flagOf x) (.touch y.core y.id d.val renew warm cold s.arm.park.isSome) [] [.s d.val 0]))) s

/-- The completion of a CRTOUCH: WARM, the renewal, and the result as the crib stands then (R304). -/
def State.touchDone (s : State) (core id : Nat) (renew warm cold waited : Bool) : State × Word :=
  match s.desc? core id with
  | none => (s, 0)
  | some d =>
    let s' := s.setDesc core id { d with warm := if warm then true else if cold then false else d.warm }
    let s' := if renew then s'.renewSlate core id else s'
    match d.crib with
    | none => (s', 0)
    | some k =>
      let n := match s.crib? core k with | some y => y.replays | none => 0
      (s', BitVec.ofNat 64 ((if waited then 1 else 0) + k * 2 ^ 8 + n * 2 ^ 16))

def execCrdrop (g : Guard) (a : SSrc) (s : State) : Host.Outcome State Fault Refusal :=
  wordOp { g := g, ss := a.sregs, rep := false } (fun c s =>
    let a := slateOperand (a.value s)
    match s.slateAt a with
    | none => slateRange c a
    | some (y, d) =>
      if d.kind ≠ .derived then slateRange c a
      else match d.crib with
        | none => .ok (.next s)
        | some k =>
          if 0 < s.pins y.core y.id then trapWord c .pinViolation (pinInfo s.core y)
          else if s.replaying y.core d then .error (.stall s)
          else .ok (.next (s.retireCrib y.core k))) s

/-! ## TLBINV (R237, R354) -/

def execTlbinv (g : Guard) (x : Bool) (va len part : SSrc) (s : State) : Host.Outcome State Fault Refusal :=
  wordOp { longInfo g x [] [] (va.sregs ++ len.sregs ++ part.sregs) false with ctl := true, rep := false, mgr := true } (fun c s =>
    let a := (va.value s).toNat
    let n := (len.value s).toNat
    let p := (part.value s).toNat
    if 16 ≤ p || (s.parts.look p).isNone || 2 ^ 71 < a + n then
      .error (.trap (illegal c.sel))
    else if a % 8192 ≠ 0 ∨ n % 8192 ≠ 0 then trapWord c .misalign (vaInfo a)
    else
      let (lo, hi) := if n = 0 then (0, 2 ^ 71) else (a, a + n)
      .ok (.next (s.addOp (s.flagOf x) (.shoot p lo hi) [] []))) s

/-- The shoot-down of a range of a partition's addresses, acknowledged by every agent: cached translations go, sectors of
mapped slates are written back and dropped, and cribs with a watched line of the range become STALE (R128, R237). -/
def State.shootDown (s : State) (p lo hi : Nat) : State :=
  let mine (t : Nat) : Bool := match s.teams.look t with | some x => x.part == p | none => false
  let inside (va : Nat) : Bool := decide (lo ≤ va ∧ va < hi)
  let gone (e : (Nat × Nat) × Word) : Bool := e.1.1 == p && inside (e.1.2 * 8192)
  let s := { s with
    cores := s.cores.mapV fun _ c => { c with tlb := c.tlb.filter fun e => !gone e }
    engines := s.engines.mapV fun _ c => { c with tlb := c.tlb.filter fun e => !gone e } }
  let s := s.cores.foldl (fun t (c, x) => x.descs.foldl (fun t (id, d) =>
    if d.kind = .mapped && mine d.team then
      d.secs.foldl (fun t (i, _) => if inside (d.mapva + 128 * i) then (t.writeBack c id i).dropSec c id i else t) t
    else t) t) s
  let watched (c : Nat) (y : Crib) : Bool := mine y.team && y.srcs.any fun (id, far) =>
    match s.desc? (if far then partnerOf c else c) id with
    | some d => d.kind == .mapped && decide (lo < d.mapva + 2048 * d.leaves ∧ d.mapva < hi)
    | none => false
  s.staleAll (s.cores.flatMap fun (c, x) => x.cribs.filterMap fun (i, y) => if watched c y then some (c, i) else none)

end Sys2Proof.Machine
end

