-- ==== Sys2Proof/Machine/Engines.lean ====
section
/-! DEFINITION. Engine instructions (R154, R157–R162, R289–R290, R297–R299, R319–R320), WAITT (R158, R379–R380), and the
service of the engines (R155–R159, R212). -/

namespace Sys2Proof.Machine

/-! ## Shares, promises and estimates (R157, R158, R212) -/

/-- CORE of a fault record for an engine (R232). -/
def engineCore (e : Nat) : Nat := if e < 128 then 0x8000 + e else 0xC000 + (e - 128)

/-- PEAK in bytes per ns. -/
def enginePeak (e : Nat) : Nat := if e < 96 then 256 else if e < 128 then 512 else 128

/-- A queued request with its group and record. -/
def State.request (s : State) (q : GKey × Nat) : Option (Group × CmdRec) :=
  (s.groupAt q.1).bind fun g => (g.eng.recs.look q.2).map fun r => (g, r)

def CmdRec.left (r : CmdRec) : Nat := (r.total - r.moved + 127) / 128 * 128

/-- Bytes queued on an engine. -/
def State.queued (s : State) (l : List (GKey × Nat)) : Nat :=
  (l.map fun q => match s.request q with | some (_, r) => r.total - r.moved | none => 0).sum

/-- Partitions with requests on an engine. -/
def State.engineParts (s : State) (e : Nat) : List Nat :=
  (s.engineAt e).queue.foldl (fun l q => match s.request q with | some (g, _) => insNat l g.part | none => l) []

/-- ceil(bytes ÷ share) for a partition on an engine. -/
def State.engineTime (s : State) (e part bytes : Nat) : Nat :=
  let sum := ((insNat (s.engineParts e) part).map fun p => (s.par p).engw).sum
  let d := enginePeak e * (s.par part).engw
  if d = 0 then 0 else (bytes * sum + d - 1) / d

def Engine.budgetOf (e : Engine) (p : Nat) : Int := Tbl.get 0 e.budget p

/-- A paused request whose slot use blocks a drain on its die (R97). -/
def State.blocksDrain (s : State) (part : Nat) (r : CmdRec) : Bool :=
  r.st == 2 && match r.bind with
    | some (die, _) => (s.slotOf part die (ShapeRec.of r.shape).slot).st == .transition
    | none => false

/-- Rank of a request among those waiting: one that blocks a drain, then EPRIO, then budget, then arrival (R97, R212). -/
def State.before (s : State) (e : Nat) (a b : GKey × Nat) : Bool :=
  match s.request a, s.request b with
  | some (g, r), some (h, z) =>
    let da := s.blocksDrain g.part r
    let db := s.blocksDrain h.part z
    let x := (s.par g.part).eprio
    let y := (s.par h.part).eprio
    let bx := (s.engineAt e).budgetOf g.part
    let by' := (s.engineAt e).budgetOf h.part
    (da && !db) || (da == db && (decide (y < x) || (x == y && (decide (by' < bx) || (bx == by' &&
      decide ((s.engineAt e).queue.idxOf a < (s.engineAt e).queue.idxOf b))))))
  | _, _ => false

/-- The requests an engine serves before a request's next chunk. -/
def State.ahead (s : State) (e : Nat) (q : GKey × Nat) : List (GKey × Nat) :=
  let x := s.engineAt e
  if x.cur = some q then []
  else x.queue.filter fun y => y != q && (x.cur == some y || s.before e y q)

/-- The estimate of a request (R158); fuel bounds the chain of requests served first. -/
def State.estimate (s : State) (e : Nat) (q : GKey × Nat) : Nat → Nat
  | 0 => s.pm.time
  | fuel + 1 =>
    match s.request q with
    | none => s.pm.time
    | some (g, r) =>
      let l := s.ahead e q
      if r.next = 0 then s.pm.time + 300 + s.engineTime e g.part (s.queued l + r.total)
      else
        let t := l.foldl (fun t y => max t (match s.request y with
          | some (_, z) => if z.next = 0 then z.promise else s.estimate e y fuel
          | none => 0)) s.pm.time
        t + s.engineTime e g.part r.left

/-- The latest estimate among an arm's unfinished requests on a flag; TIME where there is none (R158, R380). -/
def State.flagEstimate (s : State) (f : Nat) : Nat :=
  let l := s.grp.eng.recs.filter fun x => (x.2.st == 1 || x.2.st == 2) && x.2.flag == f && s.grp.countsFor s.who x.2
  match l.map fun x => s.estimate x.2.engineNo (s.grp.key, x.1) 2000 with
  | [] => s.pm.time
  | a :: rest => rest.foldl max a

/-! ## Issue (R298, R320) -/

/-- The tensor shape record, read with the arm's translation (step 2 of R298). -/
def State.readShape (s : State) (c : Ctx) (va : Nat) : Except Exit (List Byte × State) :=
  if va % 64 != 0 then .error (.trap ⟨.misalign, c.sel, vaInfo va⟩)
  else (s.globalAt { c with todo := c.sel } .read va 64).map fun r => (r.2.mem.bytes r.1 64, r.2)

/-- ILLEGAL_OP with an offset or 0 in TINFO. -/
def illegalAt (c : Ctx) (n : Nat) : Except Exit Unit := .error (.trap ⟨.illegalOp, c.sel, BitVec.ofNat 64 n⟩)

/-- The mode rules of R153 that depend on the record alone; for a gather, those of R320. -/
def ShapeRec.modeOk (r : ShapeRec) (gather : Bool) : Bool :=
  let j : Job := ⟨r, [], 0, false, []⟩
  if gather then r.mode == 0 && !r.back && !r.iod
  else if r.mode = 0 then decide (j.nrows * j.rowBytes ≤ 2 ^ 22)
  else r.box == [32, 64, 1, 1, 1]

/-- The slot of a planarise or pack request: its state, then EWIDTH, USES[5] and planes against the binding. -/
def State.shapeSlot (s : State) (c : Ctx) (r : ShapeRec) : Except Exit Fmt := do
  if r.mode = 0 then .ok (hardSlot 0)
  else
    let f ← s.slotFmt c r.slot
    if f.width != r.w || !bitB f.uses 5 || f.planes == 0 then .error (.trap (illegal c.sel)) else .ok f

/-- How one slate operand of a request stands (R154): SLATE_RANGE, PIN_VIOLATION for a destination, or a derived source
whose tile is missing. -/
def State.sideChk (s : State) (addr ofs n : Nat) (write : Bool) : Chk :=
  match (if addr + ofs < 2 ^ 32 then s.resolve s.core s.grp.team (addr + ofs) n else none) with
  | none => .trap .slateRange (BitVec.ofNat 64 addr)
  | some x => match s.desc? x.core x.id with
    | none => .trap .slateRange (BitVec.ofNat 64 addr)
    | some d =>
      if write && s.pinned x d then .trap .pinViolation (pinInfo s.core x)
      else if !write && s.misses x d then
        (if d.crib.isSome then .need (.crib x.core x.id) else .trap .cribStale (BitVec.ofNat 64 (x.id + 0xFF * 256)))
      else .ok (.slate x)

/-- The slate side of a request (R154). A replay group may not write global memory (R133). A request that writes it has left the
region as it issued, also where it parks here (R299). -/
def State.slateSide (s : State) (c : Ctx) (l : List Chk) (outward : Bool) : Except Exit State := do
  let out : List Chk := if outward && s.grp.replayId.isSome then [.trap .pinViolation 0] else []
  let g ← s.access [⟨0, c.sel, l ++ out, []⟩]
  match g.park with
  | some (_, cs) => .error (.park (if outward then g.st.modGrp Group.leaveRegion else g.st) c.sel cs)
  | none => .ok ((g.done.flatMap (·.2)).foldl State.touchPlace g.st)

/-- The engine that accepts a request: the cluster's gather engine, or the cluster's copy engine with the fewest bytes queued,
the lower-numbered on a tie (R16, R298). DESIGN CHOICE (log 80), unsafe: which of the 32 IOD engines accepts a request that
names an IOD engine is not given, and the model takes it the same way. -/
def State.pickEngine (s : State) (gather iod : Bool) : Nat :=
  let cl := clusterOfCore s.core
  if gather then 128 + cl
  else
    let l := if iod then (List.range 32).map (96 + ·) else [2 * cl, 2 * cl + 1]
    (minBy (fun e => s.queued (s.engineAt e).queue) l).getD (l.headD 0)

/-- Step 4 of R298: the request is accepted, its promise written, its flag counted, and it joins the open set. -/
def State.accept (s : State) (x : Bool) (d n : Nat) (r : CmdRec) (slots : List Nat) : State :=
  let e := s.pickEngine r.gather (ShapeRec.of r.shape).iod
  let ahead := s.queued (s.engineAt e).queue
  let promise := (s.pm.time + 300 + s.engineTime e s.grp.part (ahead + r.total)) % 2 ^ 64
  let f := s.flagOf x
  let slot := (ShapeRec.of r.shape).slot
  let die := dieOfCore s.core
  let r := { r with
    bind := if slots.isEmpty then none else some (die, s.slotOf s.grp.part die slot),
    promise := promise, engine := if r.gather then e - 128 else e, flag := f, who := s.who, st := 1, op := s.cnt.op }
  let s := s.modEngine e fun y => { y with queue := y.queue ++ [(s.grp.key, n)] }
  let s := s.modGrp fun g => { g with eng := { g.eng with
    openSet := g.eng.openSet ||| BitVec.ofNat 32 (2 ^ n), recs := g.eng.recs.ins n r } }
  (s.writeS d (BitVec.ofNat 64 promise)).addOp f (.engine n) slots []

/-- A record not yet accepted. -/
def CmdRec.fresh (shape : List Byte) (origin : Word) (slate : Nat) (gather : Bool) : CmdRec :=
  { shape := shape, origin := origin, slate := BitVec.ofNat 64 slate, index := 0, sel := 0, promise := 0, next := 0, engine := 0
    gather := gather, flag := 0, who := .arm0, st := 0, fkind := none, fchunk := 0, fpoison := false, indices := [], op := 0
    unit := 0, moved := 0, total := 0, ticket := none, remote := [], bind := none }

/-- An empty CPY or GATH: the current TIME, and an operation that completes. -/
def emptyRequest (x : Bool) (d : SReg) (s : State) : Except Exit Done :=
  longDone x [] [] (s.writeS d.val (BitVec.ofNat 64 s.pm.time))

/-- Checks of a record before its slot (step 3 of R298). -/
def shapeChecks (c : Ctx) (bs : List Byte) (origin : Word) (gather : Bool) : Except Exit Unit := do
  let sh := ShapeRec.of bs
  match recordBad bs with
  | some o => illegalAt c o
  | none => .ok ()
  if bits origin.toNat 60 4 ≠ 0 then illegalAt c 0
  if !sh.aligned then .error (.trap ⟨.misalign, c.sel, vaInfo sh.base⟩)
  if !sh.modeOk gather then illegalAt c 0

def execCpy (g : Guard) (x : Bool) (d : SReg) (rec org sl : SSrc) (s : State) : Host.Outcome State Fault Refusal :=
  wordOp { longInfo g x [] [] (d.val :: (rec.sregs ++ org.sregs ++ sl.sregs)) false with lanewise := true } (fun c s => do
    if c.sel = 0 then emptyRequest x d s
    else
      let a := slateOperand (sl.value s)
      let (bs, s') ← s.readShape c (rec.value s).toNat
      let sh := ShapeRec.of bs
      shapeChecks c bs (org.value s) false
      let f ← s.shapeSlot c sh
      if a % (if sh.mode = 0 then 128 else 256) ≠ 0 then .error (.trap ⟨.misalign, c.sel, vaInfo a⟩)
      match s.grp.eng.recs.fresh 32 with
      | none => .error (.stall s)
      | some n =>
        let r := CmdRec.fresh bs (org.value s) a false
        let (lo, hi) := r.job.slateSpan f.planes
        let s' ← s'.slateSide c [s'.sideChk a lo (hi - lo) (!sh.outward)] sh.outward
        let s' := if sh.outward then s'.modGrp Group.leaveRegion else s'
        .ok (.next (s'.accept x d.val n { r with total := r.job.total f.planes } (if sh.mode = 0 then [] else [sh.slot])))) s

/-- The index operand of a GATH: selected lanes with their indices, or the index slate. -/
def State.gathIndices (s : State) (c : Ctx) (idx : GathIdx) (r : CmdRec) : CmdRec :=
  match idx with
  | .vec v => { r with sel := c.sel, indices := (laneList c.sel).foldl (fun t i => Tbl.put 0 t i (s.readV v.val i)) [] }
  | .slate p => { r with index := p.value s }

def execGath (g : Guard) (x : Bool) (d : SReg) (rec : SSrc) (op : SReg) (idx : GathIdx) (s : State) :
    Host.Outcome State Fault Refusal :=
  let vs := match idx with | .vec v => [v.val] | .slate _ => []
  let is := match idx with | .vec _ => [] | .slate p => p.sregs
  wordOp { longInfo g x vs [] ([d.val, op.val, op.val + 1] ++ rec.sregs ++ is) false with
    lanewise := true } (fun c s => do
    if c.sel = 0 && !(vs.isEmpty && s.executes g c.sel) then emptyRequest x d s
    else
      let p2 := (s.readS (op.val + 1)).toNat
      let (sw, ix) := match idx with | .vec _ => (false, 0) | .slate p => (true, (p.value s).toNat)
      if 2 ^ 32 ≤ p2 ∨ 2 ^ 44 ≤ ix then illegalAt c 0
      let (bs, s') ← s.readShape c (rec.value s).toNat
      let org := s.readS op.val
      shapeChecks c bs org true
      if p2 % 128 ≠ 0 then .error (.trap ⟨.misalign, c.sel, vaInfo p2⟩)
      if sw ∧ ix % 4 ≠ 0 then .error (.trap ⟨.misalign, c.sel, vaInfo (ix % 2 ^ 32)⟩)
      match s.grp.eng.recs.fresh 32 with
      | none => .error (.stall s)
      | some n =>
        let r := s.gathIndices c idx (CmdRec.fresh bs org p2 true)
        let (lo, hi) := r.job.slateSpan 0
        let side := s'.sideChk p2 lo (hi - lo) true :: (if sw then [s'.sideChk (ix % 2 ^ 32) 0 (4 * (ix / 2 ^ 32 + 1)) false] else [])
        let s' ← s'.slateSide c side false
        .ok (.next (s'.accept x d.val n { r with total := r.job.total 0 } []))) s

/-! ## Batches (R161, R289, R290) -/

def execBseal (g : Guard) (n : SSrc) (s : State) : Host.Outcome State Fault Refusal :=
  wordOp (ctl g n.sregs false) (fun c s =>
    let k := (n.value s).toNat
    if 16 ≤ k then .error (.trap (illegal c.sel))
    else .ok (.next (s.modGrp fun g => { g with eng := { g.eng with
      openSet := 0, batches := Tbl.put 0 g.eng.batches k (Tbl.get 0 g.eng.batches k ||| g.eng.openSet) } }))) s

/-- A request leaves its batch as it completes, so a batch is empty once every request of it has. -/
def execBwait (g : Guard) (n : SSrc) (test : Option SReg) (s : State) : Host.Outcome State Fault Refusal :=
  let ds := match test with | some d => [d.val] | none => []
  wordOp (ctl g (ds ++ n.sregs) false) (fun c s =>
    let k := (n.value s).toNat
    if 16 ≤ k then .error (.trap (illegal c.sel))
    else
      let b := Tbl.get 0 s.grp.eng.batches k
      match s.engFailure fun r _ => b.getLsbD r with
      | some s' => .ok (.here s')
      | none => match test with
        | some d => setS d (if b = 0 then 1 else 0) s
        | none => if b = 0 then .ok (.next s) else .error (.stall s)) s

/-! ## WAITT (R158, R380) -/

/-- Step 1 of R380, and steps 3 and 4 once TIME has reached the value; a failure that came while the arm slept is raised
at its wake (log 42). -/
def waittTest (c : Ctx) (f w : Nat) (s : State) : Except Exit Done :=
  match s.engFailure fun _ r => s.grp.countsFor s.who r && r.flag == f with
  | some s' => .ok (.here s')
  | none =>
    if s.pm.time < w then .error (.stall (s.modArm fun a => { a with sleep := some (w, f, c.sel) }))
    else if s.arm.flag f = 0 then .ok (.next s)
    else trapNow c .promiseMiss (BitVec.ofNat 64 (s.flagEstimate f))

def execWaitt (g : Guard) (t : SSrc) (f : Flag) (s : State) : Host.Outcome State Fault Refusal :=
  wordOp { ctl g t.sregs with flags := [f.val] } (fun c s => waittTest c f.val (t.value s).toNat s) s

/-- WAITT_WAKE: TIME has reached the value of a sleeping WAITT whose arm may issue, and it tests its flag. -/
def execWaittWake (k : GKey) (who : Who) (s : State) : Host.Outcome State Fault Refusal :=
  match s.groupAt k with
  | none => .next s
  | some g =>
    let a := { g.arm who with sleep := none }
    match (g.arm who).sleep with
    | none => .next s
    | some (t, f, sel) =>
      if s.pm.time < t || !(g.setArm who a).ready who || !s.coreRuns g then .next s
      else
        let s := (s.focus k who).modArm fun _ => a
        let c : Ctx := ⟨sel, sel, []⟩
        .next (s.finish c (waittTest c f t s))

/-! ## Service (R155, R156, R159, R212) -/

/-- A request an engine may move now: accepted or paused, waiting on no ticket and no other device. -/
def State.servable (s : State) (q : GKey × Nat) : Bool :=
  match s.request q with
  | some (_, r) => (r.st == 1 || r.st == 2) && r.ticket.isNone && r.remote.all fun y => y.answer.isSome
  | none => false

/-- The request an engine moves next: the current one, or the first of those waiting in the order of R212. -/
def State.nextRequest (s : State) (e : Nat) : Option (GKey × Nat) :=
  let x := s.engineAt e
  match x.cur.filter s.servable with
  | some q => some q
  | none => (x.queue.filter s.servable).foldl (fun best q => match best with
    | none => some q
    | some b => if s.before e q b then some q else some b) none

def State.modRec (s : State) (q : GKey × Nat) (f : CmdRec → CmdRec) : State :=
  s.modKey q.1 fun g => { g with eng := { g.eng with recs := g.eng.recs.upd q.2 f } }

/-- A request is paused with its position kept (R159). -/
def State.pauseReq (s : State) (e : Nat) (q : GKey × Nat) : State :=
  (s.modRec q fun r => { r with st := 2 }).modEngine e fun x => { x with cur := x.cur.filter (· != q) }

/-- A request leaves its engine, and the operation it counts as ends. -/
def State.endRequest (s : State) (e : Nat) (q : GKey × Nat) (op : Nat) : State :=
  let s := s.modEngine e fun x => { x with queue := x.queue.filter (· != q), cur := x.cur.filter (· != q) }
  (s.modKey q.1 fun g => g.endOp s.cnt.steps op).retireIfDone q.1

/-- Failure of a request at its next chunk (R156). -/
def State.failReq (s : State) (e : Nat) (q : GKey × Nat) (op : Nat) (k : TrapKind) (poison : Bool) : State :=
  (s.modRec q fun r => { r with st := 3, fkind := some k, fchunk := r.next, fpoison := poison, ticket := none, remote := [] }).endRequest e q op

/-- Send a chunk's requests to other devices. A line written in part goes as a masked write, its mask after its bytes (R153;
log 66). -/
def State.askFar (s : State) (q : GKey × Nat) (part : Nat) (write : Bool) (l : List (Nat × List Byte × List Byte)) : State :=
  l.foldl (fun t (line, pay, mask) =>
    match t.translateBy [] part (if write then .write else .read) (line * 128) with
    | .remote dev va =>
      let whole := mask.all (· == 0xFF)
      let (kind, opc, pay) : Nat × Nat × List Byte :=
        if !write then (0, 0, []) else if whole then (1, 0, pay) else (2, Config.maskedOpc.toNat, pay ++ mask)
      (match t.sendRequest kind dev va 7 opc pay ⟨q.1, .arm0, part, some q.2, t.pm.time, if write then 0 else 128⟩ with
       | some (t', n) => t'.modRec q fun r => { r with remote := ⟨line, remoteAddr dev va, n, none⟩ :: r.remote }
       | none => t)
    | _ => t) s

/-- A higher-priority request waits while a partition's budget has run out (R159, R212). -/
def State.outranked (s : State) (e : Nat) (q : GKey × Nat) (part : Nat) : Bool :=
  decide ((s.engineAt e).budgetOf part ≤ 0) && (s.engineAt e).queue.any fun y => y != q && s.servable y &&
    match s.request y with | some (h, _) => decide ((s.par part).eprio < (s.par h.part).eprio) | none => false

/-- A request's next chunk does not move (R155, R156, R235). -/
def State.haltReq (s : State) (e : Nat) (q : GKey × Nat) (g : Group) (r : CmdRec) : Halt → State
  | .fail k poison => s.failReq e q r.op k poison
  | .wait va access level =>
    let (s, id) := s.ticketFor g.part va access level (engineCore e)
    (s.modRec q fun r => { r with ticket := some id, remote := [] }).pauseReq e q
  | .far l => s.askFar q g.part (ShapeRec.of r.shape).outward l

/-- A chunk has moved: its bytes are charged, and the request goes on or ends. -/
def State.chunkDone (s : State) (e : Nat) (q : GKey × Nat) (g : Group) (r : CmdRec) (v : Nat) : State :=
  let j := r.job
  let bytes := (j.dest r.fmt.planes (v - 1)).2 - (j.dest r.fmt.planes r.unit).1
  let s := s.modEngine e fun x => { x with budget := Tbl.put 0 x.budget g.part (x.budgetOf g.part - (bytes : Int)) }
  if j.units ≤ v then (s.modKey q.1 fun g => { g with eng := g.eng.free q.2 }).endRequest e q r.op
  else
    let s := s.modRec q fun y => { y with
      unit := v, next := y.next + 1, moved := y.moved + bytes, indices := r.indices, remote := [] }
    if s.outranked e q g.part then s.pauseReq e q else s

/-- The walks of some pages read their entries (R236). -/
def State.claimPages (s : State) (p : Nat) (l : List Nat) : State := l.foldl (fun t k => t.claimWalk p (k * 8192)) s

/-- What precedes a chunk's bytes: its walks, and the write-back of dirty copies of its lines. -/
def State.chunkSetup (s : State) (g : Group) (r : CmdRec) : State :=
  let s := s.claimPages g.part (s.chunkWalks g r)
  s.recallLines g r (if (ShapeRec.of r.shape).outward then .write else .read) (r.job.lines r.unit (s.chunkStop g r))

/-- Move one chunk of a request. -/
def State.moveChunk (s : State) (e : Nat) (q : GKey × Nat) : State :=
  match s.request q with
  | none => s
  | some (g, r) =>
    let s := (s.modRec q fun r => { r with st := 1 }).modEngine e fun x => { x with cur := some q }
    let s := if r.unread then s.claimPages g.part (s.indexWalks g r) else s
    match s.readIndices g r with
    | .error h => s.haltReq e q g r h
    | .ok (s, r) =>
      let s := (s.chunkSetup g r).walkAhead g r
      match s.chunk g r with
      | .error h => s.haltReq e q g r h
      | .ok (s, v) => s.chunkDone e q g r v

/-- ENGINE_CHUNK_DONE: an engine finishes moving one chunk of the request it serves. -/
def execEngineChunkDone (engine : Nat) (s : State) : Host.Outcome State Fault Refusal :=
  match (if s.pm.stopped then none else s.nextRequest engine) with
  | some q => .next (s.moveChunk engine q)
  | none => .next s

/-- ENGINE_RESUME: a paused request that the engine serves next resumes, at the chunk after the last complete one. -/
def execEngineResume (engine req : Nat) (s : State) : Host.Outcome State Fault Refusal :=
  match (s.engineAt engine).queue[req]? with
  | some q =>
    if s.nextRequest engine = some q && (s.engineAt engine).cur.isNone then
      .next ((s.modRec q fun r => { r with st := 1 }).modEngine engine fun x => { x with cur := some q })
    else .next s
  | none => .next s

/-- ENGINE_BUDGET_PERIOD: every 10 µs a partition's budget on an engine is its share × 10,000 bytes. -/
def execEngineBudgetPeriod (s : State) : Host.Outcome State Fault Refusal :=
  .next { s with engines := s.engines.mapV fun e x =>
    let ps := s.engineParts e
    let sum := (ps.map fun p => (s.par p).engw).sum
    { x with budget := ps.foldl (fun t p => Tbl.put 0 t p ((enginePeak e * (s.par p).engw * 10000 / max sum 1 : Nat) : Int)) [] } }

/-- A group leaves its core at a save: its requests pause with their flags counted (R159, R299). -/
def State.pauseGroup (s : State) (k : GKey) : State :=
  let s := s.modKey k fun g => { g with eng := { g.eng with
    recs := g.eng.recs.mapV fun _ r => if r.st = 1 ∨ r.st = 2 then { r with st := 2, ticket := none, remote := [] } else r } }
  { s with engines := s.engines.mapV fun _ x =>
    { x with queue := x.queue.filter fun q => !decide (q.1 = k), cur := x.cur.filter fun q => !decide (q.1 = k) } }

/-- A restored group's requests wait on their engines again. -/
def State.requeue (s : State) (k : GKey) : State :=
  match s.groupAt k with
  | none => s
  | some g => (g.eng.recs.filter fun x => x.2.st == 1 || x.2.st == 2).foldl (fun t (n, r) =>
      t.modEngine r.engineNo fun x => { x with queue := x.queue ++ [(k, n)] }) s

end Sys2Proof.Machine
end

