-- ==== Sys2Proof/Machine/Front.lean ====
section
/-! DEFINITION. The command front end's work on task records: the record's fields, trays, the spill queue and routing
(R186–R190, R193, R204). -/

namespace Sys2Proof.Machine

/-! ## Task records (R186) -/

def Rec.type (r : Rec) : Nat := bits r.lo.toNat 0 12
def Rec.flush (r : Rec) : Bool := bitB r.lo.toNat 12
def Rec.pad (r : Rec) : Bool := bitB r.lo.toNat 13
/-- A reserved bit is set, as the record was stored (log 105). -/
def Rec.rsvd (r : Rec) : Bool := bits r.lo.toNat 14 2 != 0
def Rec.coord (r : Rec) (k : Nat) : Nat := bits r.lo.toNat (16 + 16 * k) 16
/-- Teams of a grid record. -/
def Rec.grid (r : Rec) : Nat := r.coord 0 * r.coord 1 * r.coord 2
def Rec.bytes (r : Rec) : List Byte := toBytes 8 r.lo.toNat ++ toBytes 8 r.hi.toNat
/-- A record read from memory. -/
def Rec.ofBytes (l : List Byte) (queue qslot : Nat) : Rec :=
  ⟨BitVec.ofNat 64 (fieldAt l 0 8), BitVec.ofNat 64 (fieldAt l 8 8), queue, qslot⟩

/-! ## Trays (R188, R189) -/

/-- The 64 bytes of a type's entry as the table holds them. -/
def State.rawEntry (s : State) (p type : Nat) : TaskEntry := s.mem.bytes (s.entryAt p type) 64

/-- A record joins a tray, which is ready at its CLASS or with a FLUSH; the bell of an empty tray starts. -/
def Tray.join (t : Tray) (r : Rec) (cls time : Nat) : Tray :=
  let l := t.recs ++ [r]
  let ready := t.ready || decide (cls ≤ l.length) || r.flush
  { t with recs := l, ready := ready, since := if ready && !t.ready then time else t.since
           bell := if t.recs.isEmpty then time else t.bell }

/-- The open tray of a type on a die. -/
def State.openTray (s : State) (p die type : Nat) : Option (Nat × Tray) :=
  (s.dieAt die).trays.find? fun x => x.2.part == p && x.2.type == type

/-- A record joins its type's open tray on a die, or a free one; none where there is no room. -/
def State.toTray (s : State) (p die : Nat) (r : Rec) : Option State :=
  let cls := TaskEntry.cls (s.rawEntry p r.type)
  let put (n : Nat) (t : Tray) : State := s.modDie die fun d => { d with trays := d.trays.ins n (t.join r cls s.pm.time) }
  match s.openTray p die r.type with
  | some (n, t) => if t.recs.length < 64 then some (put n t) else none
  | none => ((s.dieAt die).trays.fresh 256).map fun n => put n ⟨p, r.type, [], false, 0, 0⟩

/-- Whether the spill queue holds a record of a type that waits for a die. -/
def State.spilled (s : State) (p die type : Nat) : Bool :=
  match s.parts.look p with
  | some x => x.spill.any fun y => y.die == die && y.recd.type == type
  | none => false

/-- The lowest free place of the spill queue's area (log 16). -/
def Part.spillSlot (x : Part) : Nat :=
  let used := x.spill.map (·.slot)
  (minBy id ((0 :: used.map (· + 1)).filter fun n => !used.contains n)).getD 0

/-- Address of a place of the spill queue's area. -/
def State.spillAt (s : State) (p slot : Nat) : Nat := (s.par p).spillBase + 16 * slot

/-- A record is appended to the spill queue in device memory, under the partition's key (R204); none where it is full. -/
def State.toSpill (s : State) (p die : Nat) (r : Rec) : Option State :=
  match s.parts.look p with
  | some x => if x.spill.length < x.par.spillCap then
      some ((s.modPart p fun y => { y with spill := y.spill ++ [⟨die, x.spillSlot, r⟩] }).writeArea p (s.spillAt p x.spillSlot) r.bytes)
    else none
  | none => none

/-- A spilled record as the CFE reads it back; as it was spilled where another key owns the frame (R236; log 16). -/
def State.spillRead (s : State) (p : Nat) (y : Spilled) : Rec :=
  let a := s.spillAt p y.slot
  if s.mem.frameOk a (s.par p).hdmKey then Rec.ofBytes (s.mem.bytes a 16) y.recd.queue y.recd.qslot else y.recd

/-- A grid record launches its teams, one placement each (R190). -/
def State.addGrid (s : State) (p die : Nat) (r : Rec) : State :=
  let n := r.grid
  if n = 0 then s
  else if 2 ^ 32 ≤ n then s.errReport p 0x10 r.type r.qslot 1 r
  else
    let g : Grid := ⟨p, r, n, 0, s.cnt.launch, die, s.pm.time⟩
    { (s.modPart p fun x => { x with grids := x.grids ++ [g] }) with cnt := { s.cnt with launch := s.cnt.launch + 1 } }

/-- Route a record from a die (R188); none while it can join neither a tray nor the spill queue. -/
def State.route (s : State) (p die : Nat) (r : Rec) : Option State :=
  if r.pad then some s
  else
    let s := s.claimRange (s.entryAt p r.type) 64 (s.par p).hdmKey
    match s.taskEntry p r.type with
    | none => some (s.errReport p 0x01 r.type r.qslot 1 r)
    | some e =>
      if TaskEntry.grid e then some (s.addGrid p die r)
      else match (if s.spilled p die r.type then none else s.toTray p die r) with
        | some s' => some s'
        | none => s.toSpill p die r

/-- Route records in order; those that had to wait are left over, and with them every later one. -/
def State.routeAll (s : State) (p die : Nat) : List Rec → State × List Rec
  | [] => (s, [])
  | r :: rest => match s.route p die r with
    | some s' => s'.routeAll p die rest
    | none => (s, r :: rest)

end Sys2Proof.Machine
end

