-- ==== Sys2Proof/Machine/Approx.lean ====
section
/-! DEFINITION. VFRCP, VFRSQ, VFEXP2 and VFLOG2 (R371): the exact result as a rational, or as a rational strictly
between the same two neighbours; under .f32 either neighbour, chosen by a free value. -/

namespace Sys2Proof

/-- floor(√n), bit by bit from 2^k. -/
def isqrt (n : Nat) : Nat → Nat → Nat
  | 0, r => if (r + 1) * (r + 1) ≤ n then r + 1 else r
  | k + 1, r => if (r + 2 ^ (k + 1)) * (r + 2 ^ (k + 1)) ≤ n then isqrt n k (r + 2 ^ (k + 1)) else isqrt n k r

/-- √(n ÷ d) scaled by 2^p, as (2 s + 1) ÷ 2 where it is not exact. -/
def sqrtRat (n d p : Nat) : Nat × Nat :=
  let x := n * 2 ^ (2 * p) / d
  let s := isqrt x (Nat.log2 x / 2 + 1) 0
  if s * s * d = n * 2 ^ (2 * p) then (s, 2 ^ p) else (2 * s + 1, 2 ^ (p + 1))

/-- 2^f for a fraction f of `k` bits, in fixed point with `p` bits: the product of the roots of 2 its bits select. -/
def exp2Frac (p f : Nat) : Nat → Nat → Nat → Nat
  | 0, _, acc => acc
  | k + 1, root, acc =>
    let root' := isqrt (root * 2 ^ p) (p + 2) 0
    exp2Frac p f k root' (if bitB f k then acc * root' / 2 ^ p else acc)

/-- 2^x for x = ±m·2^e, as a rational: exact for an integer x, and otherwise strictly between its neighbours. -/
def exp2Rat (neg : Bool) (m : Nat) (e : Int) : Nat × Nat :=
  let k : Nat := 96
  let x := if 0 ≤ e + k then m * 2 ^ (e + k).toNat else max 1 (m / 2 ^ (-(e + k)).toNat)
  let exact := decide (0 ≤ e + k)
  let t : Int := if neg then -(x : Int) else x
  let i : Int := t / (2 ^ k : Nat)
  let f := (t % ((2 ^ k : Nat) : Int)).toNat
  let (n, d) := if f = 0 && exact then (1, 1) else (2 * exp2Frac 200 f k (2 * 2 ^ 200) (2 ^ 200) + 1, 2 ^ 201)
  if 0 ≤ i then (n * 2 ^ i.toNat, d) else (n, d * 2 ^ (-i).toNat)

/-- Bits of log2 of y ÷ 2^p, 1 ≤ y ÷ 2^p < 2, by repeated squaring. -/
def log2Bits (p : Nat) : Nat → Nat → Nat → Nat
  | 0, _, acc => acc
  | k + 1, y, acc =>
    let y2 := y * y / 2 ^ p
    if 2 ^ (p + 1) ≤ y2 then log2Bits p k (y2 / 2) (2 * acc + 1) else log2Bits p k y2 (2 * acc)

/-- log2 of m·2^e: its sign and magnitude. -/
def log2Rat (m : Nat) (e : Int) : Bool × Nat × Nat :=
  let l := Nat.log2 m
  let i : Int := e + l
  let f := if m = 2 ^ l then 0 else 2 * log2Bits 400 110 (m * 2 ^ 400 / 2 ^ l) 0 + 1
  let t : Int := i * (2 ^ 111 : Nat) + f
  (decide (t < 0), t.natAbs, 2 ^ 111)

inductive ApproxOp where
  | rcp | rsq | exp2 | log2
deriving DecidableEq, Repr

/-- The special cases of R371; none where the result is a finite rational. -/
def ApproxOp.special (o : ApproxOp) (v : FVal) : Option FVal :=
  match o, v with
  | _, .nan => some .nan
  | .rcp, .inf s => some (.num s 0 0)
  | .rsq, .inf false => some (.num false 0 0)
  | .rsq, .inf true => some .nan
  | .exp2, .inf false => some (.inf false)
  | .exp2, .inf true => some (.num false 0 0)
  | .log2, .inf false => some (.inf false)
  | .log2, .inf true => some .nan
  | .rcp, .num s 0 _ => some (.inf s)
  | .rsq, .num s 0 _ => some (.inf s)
  | .exp2, .num _ 0 _ => some (.num false 1 0)
  | .log2, .num _ 0 _ => some (.inf true)
  | .rsq, .num true _ _ => some .nan
  | .log2, .num true _ _ => some .nan
  | _, _ => none

/-- Sign and rational of a finite result. -/
def ApproxOp.exact (o : ApproxOp) (v : FVal) : Bool × Nat × Nat :=
  match v with
  | .num s m e =>
    let (n, d) := ratOf m e
    match o with
    | .rcp => (s, d, n)
    | .rsq => let (a, b) := sqrtRat d n 400; (false, a, b)
    | .exp2 =>
      if 2 ^ 9 * d ≤ n then (false, if s then 1 else 2 ^ 200, if s then 2 ^ 200 else 1)
      else let (a, b) := exp2Rat s m e; (false, a, b)
    | .log2 => log2Rat m e
  | _ => (false, 0, 1)

def ApproxOp.num : ApproxOp → Nat
  | .rcp => 0 | .rsq => 1 | .exp2 => 2 | .log2 => 3

/-- A neighbour of a rational under .f32: further from zero where the free value says so. A result above Max overflows,
and one below the smallest subnormal underflows to zero. -/
def approx32 (o : ApproxOp) (bitsA : Nat) (neg : Bool) (n d : Nat) : Nat :=
  if n = 0 then 0
  else
    let p := fp32.place n d
    if p.num = 0 then (if fp32.max < p.rank then fp32.infCode neg else fp32.code neg p.rank)
    else if p.rank = 0 then fp32.code neg 0
    else if fp32.max ≤ p.rank then fp32.infCode neg
    else fp32.code neg (if Config.approxUp o.num bitsA then p.rank + 1 else p.rank)

/-- R371 gives +∞ for the overflow of a finite result, and names no sign: so too for VFRCP of a tiny negative operand. -/
def overPlus (f : Fmt) (code : Nat) : Nat := if code = f.infCode true then f.infCode false else code

/-- The result code for an operand code of a type's format. -/
def ApproxOp.result (o : ApproxOp) (f : Fmt) (a : Nat) : Nat :=
  let v := f.decode a
  match o.special v with
  | some r => f.round ⟨.rn, false⟩ 0 r
  | none =>
    let (neg, n, d) := o.exact v
    if n = 0 then 0
    else if f.width = 32 then overPlus f (approx32 o a neg n d)
    else overPlus f (f.roundRat ⟨.rn, false⟩ 0 neg n d)

end Sys2Proof
end

