-- ==== Sys2Proof/Machine/VecInt.lean ====
section
/-! DEFINITION. Vector integer instructions (R358–R366). -/

namespace Sys2Proof.Machine

/-! ## Lanes under a type -/

/-- Lane `i` of a source, as the low w bits. -/
def laneOf (s : State) (t : ITy) (x : VSrc) (i : Nat) : Nat :=
  if t.wide then (x.lane64 s i).toNat else (x.lane32 s i).toNat

/-- Write lanes with values extended by a type, to a register or a pair. -/
def State.writeTy (s : State) (t : ITy) (d : VReg) (sel : LaneSet) (f : Nat → Int) : State :=
  if t.wide then s.writePairs d.val sel fun i => wordOf (f i)
  else s.writeLanes d.val sel fun i => BitVec.ofInt 32 (f i)

/-! ## Shapes -/

def vector1 (sat : Bool) (x : VOp1) (f : Int → Int) (s : State) : Host.Outcome State Fault Refusal :=
  wordOp x.info (fun c s =>
    let t := x.ty
    .ok (.next (s.writeTy t x.d c.sel fun i => t.narrow sat (f (t.read (laneOf s t x.a i)))))) s

/-- B of a class A vector word as a number per lane, by the type. -/
def readB (s : State) (c : Ctx) (t : ITy) (b : VB) : Except Exit ((Nat → Nat) × State) := do
  let (l, w, s) ← b.read s c
  .ok (if t.wide then (fun i => (w i).toNat, s) else (fun i => (l i).toNat, s))

def vector2 (sat : Bool) (x : VOp2) (f : Int → Int → Int) (s : State) : Host.Outcome State Fault Refusal :=
  wordOp x.info (fun c s => do
    let t := x.ty
    let (b, s) ← readB s c t x.b
    .ok (.next (s.writeTy t x.d c.sel fun i => t.narrow sat (f (t.read (laneOf s t x.a i)) (t.read (b i)))))) s

/-- The count is B's low w bits, unsigned. -/
def vectorShift (x : VOp2) (f : Nat → Int → Nat → Int) (s : State) : Host.Outcome State Fault Refusal :=
  wordOp x.info (fun c s => do
    let t := x.ty
    let (b, s) ← readB s c t x.b
    .ok (.next (s.writeTy t x.d c.sel fun i =>
      t.narrow false (f t.bits (t.read (laneOf s t x.a i)) (b i % 2 ^ t.bits))))) s

/-! ## Instructions -/

def execVadd (sat : Bool) (x : VOp2) (s : State) : Host.Outcome State Fault Refusal := vector2 sat x (fun a b => a + b) s
def execVsub (sat : Bool) (x : VOp2) (s : State) : Host.Outcome State Fault Refusal := vector2 sat x (fun a b => a - b) s
def execVmul (sat : Bool) (x : VOp2) (s : State) : Host.Outcome State Fault Refusal := vector2 sat x (fun a b => a * b) s
def execVmulh (x : VOp2) (s : State) : Host.Outcome State Fault Refusal := vector2 false x (opMulh x.ty.bits) s

def execVmad (sat : Bool) (x : VOp3) (s : State) : Host.Outcome State Fault Refusal :=
  wordOp (x.info true) (fun c s => do
    let t := x.ty
    let (b, s) ← readB s c t x.b
    .ok (.next (s.writeTy t x.d c.sel fun i =>
      t.narrow sat (t.read (laneOf s t x.a i) * t.read (b i) + t.read (laneOf s t x.c i))))) s

def execVlog (op : LogOp) (x : VOp1) (b : Option VB) (s : State) : Host.Outcome State Fault Refusal :=
  let i := x.info
  let wide := x.ty.wide
  wordOp { i with
      vs := i.vs ++ (match b with | some y => y.vregs wide | none => [])
      ss := i.ss ++ (match b with | some y => y.sregs | none => []) } (fun c s => do
    let t := x.ty
    let (y, s) ← match b with | some z => readB s c t z | none => Except.ok (fun _ => 0, s)
    .ok (.next (s.writeTy t x.d c.sel fun i =>
      t.read (op.bits (BitVec.ofNat 64 (laneOf s t x.a i)) (BitVec.ofNat 64 (y i))).toNat))) s

def execVshl (x : VOp2) (s : State) : Host.Outcome State Fault Refusal := vectorShift x opShl s
def execVshr (x : VOp2) (s : State) : Host.Outcome State Fault Refusal := vectorShift x opShr s
def execVsra (x : VOp2) (s : State) : Host.Outcome State Fault Refusal := vectorShift x opSra s
def execVmin (x : VOp2) (s : State) : Host.Outcome State Fault Refusal := vector2 false x (fun a b => if a ≤ b then a else b) s
def execVmax (x : VOp2) (s : State) : Host.Outcome State Fault Refusal := vector2 false x (fun a b => if a ≤ b then b else a) s
def execVabs (sat : Bool) (x : VOp1) (s : State) : Host.Outcome State Fault Refusal := vector1 sat x (fun a => a.natAbs) s

/-- A mask pair from a relation: the true-mask first, then the false-mask (R363). -/
def State.writePairM (s : State) (mt mf : MReg) (sel : LaneSet) (p : Nat → Bool) : State :=
  (s.writeM mt.val (lanesWhere 64 fun i => sel.getLsbD i && p i)).writeM mf.val
    (lanesWhere 64 fun i => sel.getLsbD i && !p i)

def execVcmp (g : Guard) (rel : Rel) (ty : ITy) (mt mf : MReg) (a : VSrc) (b : VB) (s : State) :
    Host.Outcome State Fault Refusal :=
  wordOp (lanes g (a.vregs ty.wide ++ b.vregs ty.wide) [] (a.sregs ++ b.sregs)) (fun c s => do
    let (y, s) ← readB s c ty b
    .ok (.next (s.writePairM mt mf c.sel fun i => rel.holds (ty.read (laneOf s ty a i)) (ty.read (y i))))) s

/-- C is one 32-bit register under every type (R364). -/
def execVsel (x : VOp3) (s : State) : Host.Outcome State Fault Refusal :=
  wordOp (x.info false) (fun c s => do
    let t := x.ty
    let (b, s) ← readB s c t x.b
    .ok (.next (s.writeTy t x.d c.sel fun i =>
      t.read (if x.c.lane32 s i != 0 then laneOf s t x.a i else b i)))) s

def execVmov (x : VOp1) (s : State) : Host.Outcome State Fault Refusal := vector1 false x (fun a => a) s

def execVmovi (g : Guard) (form : VMoviForm) (d : VReg) (imm : BitVec 32) (s : State) : Host.Outcome State Fault Refusal :=
  wordOp (lanes g [] (vdst d (form != .w32)) []) (fun c s =>
    .ok (.next (match form with
      | .w32 => s.writeLanes d.val c.sel fun _ => imm
      | .i64 => s.writePairs d.val c.sel fun _ => imm.signExtend 64
      | .n64 => s.writePairs d.val c.sel fun _ => imm.setWidth 64))) s

def execVpopc (x : VOp1) (s : State) : Host.Outcome State Fault Refusal :=
  wordOp x.info (fun c s =>
    let t := x.ty
    .ok (.next (s.writeTy t x.d c.sel fun i => t.narrow false (popcount (laneOf s t x.a i) t.bits)))) s
def execVclz (x : VOp1) (s : State) : Host.Outcome State Fault Refusal :=
  wordOp x.info (fun c s =>
    let t := x.ty
    .ok (.next (s.writeTy t x.d c.sel fun i => t.narrow false (leadingZeros (laneOf s t x.a i) t.bits)))) s

def execVbfx (x : VOp3) (s : State) : Host.Outcome State Fault Refusal :=
  wordOp (x.info true) (fun c s => do
    let t := x.ty
    let (b, s) ← readB s c t x.b
    .ok (.next (s.writeTy t x.d c.sel fun i =>
      opBfx t (t.read (laneOf s t x.a i)) (b i % 2 ^ t.bits) (laneOf s t x.c i % 2 ^ t.bits)))) s

def execVbfi (x : VOp3) (s : State) : Host.Outcome State Fault Refusal :=
  let i := x.info true
  wordOp { i with vs := vdst x.d x.ty.wide ++ i.vs } (fun c s => do
    let t := x.ty
    let (b, s) ← readB s c t x.b
    .ok (.next (s.writeTy t x.d c.sel fun i =>
      opBfi t (t.read (laneOf s t (.v x.d) i)) (t.read (laneOf s t x.a i)) (b i % 2 ^ t.bits)
        (laneOf s t x.c i % 2 ^ t.bits)))) s

/-! ## VCVT (R365) -/

/-- Range of an integer kind. -/
def cvtRange : CvtKind → Int × Int
  | .i32 => (-(2 ^ 31), 2 ^ 31 - 1) | .n32 => (0, 2 ^ 32 - 1) | .i64 => (-(2 ^ 63), 2 ^ 63 - 1) | .n64 => (0, 2 ^ 64 - 1)
  | _ => (0, 0)
def cvtBits (k : CvtKind) : Nat := if k.wide then 64 else 32
def cvtSigned : CvtKind → Bool
  | .i32 | .i64 => true
  | _ => false

/-- The exact value of a source lane; a small integer under a float kind is its value (R61). -/
def cvtValue (s : State) (k : CvtKind) (f : Fmt) (a : VSrc) (i : Nat) : FVal :=
  match k with
  | .f32 => match a with | .imm c => FVal.ofInt (smallInt c) | _ => fp32.decode (a.lane32 s i).toNat
  | .fs => match a with | .imm c => FVal.ofInt (smallInt c) | _ => f.decode (a.lane32 s i).toNat
  | _ =>
    let x := if k.wide then (a.lane64 s i).toNat else (a.lane32 s i).toNat
    FVal.ofInt (if cvtSigned k then signedOf (cvtBits k) x else (x : Int))

/-- An integer lane's exact value. -/
def cvtInt (s : State) (k : CvtKind) (a : VSrc) (i : Nat) : Int :=
  let x := if k.wide then (a.lane64 s i).toNat else (a.lane32 s i).toNat
  if cvtSigned k then signedOf (cvtBits k) x else (x : Int)

def State.writeCvt (s : State) (k : CvtKind) (d : VReg) (sel : LaneSet) (f : Nat → Int) : State :=
  if k.wide then s.writePairs d.val sel fun i => wordOf (f i) else s.writeLanes d.val sel fun i => BitVec.ofInt 32 (f i)

def execVcvt (g : Guard) (dst src : CvtKind) (rnd : Rnd) (d : VReg) (a : VSrc) (fsl : Slot) (s : State) :
    Host.Outcome State Fault Refusal :=
  wordOp (lanes g (a.vregs src.wide) (vdst d dst.wide) a.sregs) (fun c s => do
    let f ← if fsl.val = 0 then Except.ok fp32 else s.slotUse c fsl.val 2
    if dst.isInt && src.isInt then
      let (lo, hi) := cvtRange dst
      .ok (.next (s.writeCvt dst d c.sel fun i =>
        let v := cvtInt s src a i
        if rnd.sat then (if v < lo then lo else if hi < v then hi else v) else v))
    else
      let (draw, s') := s.drawLanes rnd.mode
      let (lo, hi) := cvtRange dst
      .ok (.next (s'.writeCvt dst d c.sel fun i =>
        let v := cvtValue s src f a i
        match dst with
        | .f32 => (fp32.round rnd (draw i) v : Int)
        | .fs => (f.round rnd (draw i) v : Int)
        | _ => roundInt rnd.mode (draw i) lo hi v))) s

end Sys2Proof.Machine
end

