-- ==== Sys2Proof/Machine/VecFloat.lean ====
section
/-! DEFINITION. Vector floating-point instructions (R83, R367–R372). -/

namespace Sys2Proof.Machine

def ftyFmt : FTy → Fmt
  | .f32 => fp32 | .f16 => fp16 | .bf16 => bf16

/-- The code of a source lane under a type: its low bits, or a small integer converted exactly (R61, R367). -/
def codeOf (s : State) (t : FTy) (x : VSrc) (i : Nat) : Nat :=
  match x with
  | .imm c => (ftyFmt t).round ⟨.rn, false⟩ 0 (FVal.ofInt (smallInt c))
  | _ => (x.lane32 s i).toNat % 2 ^ (ftyFmt t).width

/-- B as codes; a constant-window word is FP32. -/
def readFB (s : State) (c : Ctx) (t : FTy) (b : VB) : Except Exit ((Nat → Nat) × State) :=
  match b with
  | .src x => .ok (fun i => codeOf s t x i, s)
  | .cw w o => (s.cwRead c w.val o.toNat).map fun r => (fun _ => r.1.toNat % 2 ^ (ftyFmt t).width, r.2)

/-- Write codes, with the bits above the type's width zero. -/
def State.writeF (s : State) (d : VReg) (sel : LaneSet) (f : Nat → Nat) : State :=
  s.writeLanes d.val sel fun i => BitVec.ofNat 32 (f i)

/-! ## Arithmetic (R368) -/

/-- D ← round (f a b). -/
def float2 (x : FOp2) (r : Rnd) (f : FVal → FVal → FVal) (s : State) : Host.Outcome State Fault Refusal :=
  wordOp x.info (fun c s => do
    let m := ftyFmt x.ty
    let (b, s) ← readFB s c x.ty x.b
    let (draw, s') := s.drawLanes r.mode
    .ok (.next (s'.writeF x.d c.sel fun i =>
      m.round r (draw i) (f (m.decode (codeOf s x.ty x.a i)) (m.decode (b i)))))) s

def execVfadd (x : FOp2) (r : Rnd) (s : State) : Host.Outcome State Fault Refusal :=
  float2 x r (fun a b => a.add (r.mode == .rd) b) s
def execVfsub (x : FOp2) (r : Rnd) (s : State) : Host.Outcome State Fault Refusal :=
  float2 x r (fun a b => a.add (r.mode == .rd) b.negate) s
def execVfmul (x : FOp2) (r : Rnd) (s : State) : Host.Outcome State Fault Refusal := float2 x r FVal.mul s

def execVfma (x : FOp3) (r : Rnd) (s : State) : Host.Outcome State Fault Refusal :=
  wordOp x.info (fun c s => do
    let m := ftyFmt x.ty
    let (b, s) ← readFB s c x.ty x.b
    let (draw, s') := s.drawLanes r.mode
    .ok (.next (s'.writeF x.d c.sel fun i =>
      let p := (m.decode (codeOf s x.ty x.a i)).mul (m.decode (b i))
      m.round r (draw i) (p.add (r.mode == .rd) (m.decode (codeOf s x.ty x.c i)))))) s

/-! ## Orders (R369, R370) -/

def floatPick (least : Bool) (x : FOp2) (s : State) : Host.Outcome State Fault Refusal :=
  wordOp x.info (fun c s => do
    let (b, s) ← readFB s c x.ty x.b
    .ok (.next (s.writeF x.d c.sel fun i => (ftyFmt x.ty).pick least (codeOf s x.ty x.a i) (b i)))) s

def execVfmin (x : FOp2) (s : State) : Host.Outcome State Fault Refusal := floatPick true x s
def execVfmax (x : FOp2) (s : State) : Host.Outcome State Fault Refusal := floatPick false x s

def execVmed3 (x : FOp3) (s : State) : Host.Outcome State Fault Refusal :=
  wordOp x.info (fun c s => do
    let (b, s) ← readFB s c x.ty x.b
    .ok (.next (s.writeF x.d c.sel fun i =>
      (ftyFmt x.ty).med3 (codeOf s x.ty x.a i) (b i) (codeOf s x.ty x.c i)))) s

/-- A relation of two values; with a NaN, .ne and .un alone hold. -/
def frelHolds (r : FRel) (a b : FVal) : Bool :=
  match a.cmp b, r with
  | none, .un => true
  | none, .rel .ne => true
  | none, _ => false
  | some _, .un => false
  | some _, .ord => true
  | some o, .rel q => match q with
    | .eq => o == .eq | .ne => o != .eq | .lt => o == .lt | .le => o != .gt | .gt => o == .gt | .ge => o != .lt

def execVfcmp (g : Guard) (rel : FRel) (ty : FTy) (mt mf : MReg) (a : VSrc) (b : VB) (s : State) :
    Host.Outcome State Fault Refusal :=
  wordOp (lanes g (a.vregs false ++ b.vregs false) [] (a.sregs ++ b.sregs) false) (fun c s => do
    let m := ftyFmt ty
    let (y, s) ← readFB s c ty b
    .ok (.next (s.writePairM mt mf c.sel fun i => frelHolds rel (m.decode (codeOf s ty a i)) (m.decode (y i))))) s

/-! ## Approximations and classes (R371, R372) -/

def floatApprox (o : ApproxOp) (x : FOp1) (s : State) : Host.Outcome State Fault Refusal :=
  wordOp x.info (fun c s => .ok (.next (s.writeF x.d c.sel fun i => o.result (ftyFmt x.ty) (codeOf s x.ty x.a i)))) s

def execVfrcp (x : FOp1) (s : State) : Host.Outcome State Fault Refusal := floatApprox .rcp x s
def execVfrsq (x : FOp1) (s : State) : Host.Outcome State Fault Refusal := floatApprox .rsq x s
def execVfexp2 (x : FOp1) (s : State) : Host.Outcome State Fault Refusal := floatApprox .exp2 x s
def execVflog2 (x : FOp1) (s : State) : Host.Outcome State Fault Refusal := floatApprox .log2 x s

def execVfcls (x : FOp1) (s : State) : Host.Outcome State Fault Refusal :=
  wordOp x.info (fun c s => .ok (.next (s.writeF x.d c.sel fun i =>
    2 ^ (ftyFmt x.ty).classOf (codeOf s x.ty x.a i)))) s

end Sys2Proof.Machine
end

