-- ==== Sys2Proof/Machine/Memory.lean ====
section
/-! DEFINITION. Memory instructions: loads and stores (R349, R375–R378), copies between slate and memory (R323, R353),
atomics (R275–R279), reservations (R322, R352), fences (R311) and cache maintenance (R294–R296). -/

namespace Sys2Proof.Machine

/-! ## Vector loads and stores -/

/-- A load of every lane: what each finished lane read goes to its destination at completion; until the arm's next word acts a
lane may read anew (State.settleLoad). -/
def loadLanes (x : Bool) (r : VReg) (n : Nat) (signed nt : Bool) (tgt : State → Nat → Tgt) : Body := fun c s => do
  let g ← s.laneAccess c fun i => [{ acc := .read, tgt := tgt s i, n := n, nt := nt }]
  let l := g.done.flatMap fun (i, ps) => ps.map fun p => (⟨p, n, r, i, signed, g.st.readAt p n⟩ : LaneRead)
  let ps := g.done.flatMap (·.2)
  endAccess x g ((ps.foldl State.touchPlace g.st).leastTouched nt ps) (l.flatMap fun y => y.wb y.got) (.load l)

/-- The bytes a lane of a register or pair holds. -/
def laneBytes (s : State) (r : VReg) (n i : Nat) : List Byte :=
  toBytes n (if n = 8 then (s.readPair r.val i).toNat else (s.readV r.val i).toNat)

/-- A store of every lane. -/
def storeLanes (x : Bool) (r : VReg) (n : Nat) (nt : Bool) (tgt : State → Nat → Tgt) : Body := fun c s => do
  let g ← s.laneAccess c fun i => [{ acc := .write, tgt := tgt s i, n := n, nt := nt }]
  let l := g.st.laneOrder n (g.done.flatMap fun (i, ps) => ps.map fun p => (i, p))
  endAccess x g ((g.st.putAll (l.map fun (i, p) => ⟨p, laneBytes s r n i⟩)).leastTouched nt (g.done.flatMap (·.2))) []

def vmemInfo (m : VMem) (load : Bool) : Info :=
  let w := vdst m.r (m.size == .b8)
  { longInfo m.g m.x (m.idx.vregs false ++ if load then [] else w) (if load then w else []) (m.base.sregs ++ m.idx.sregs) load with
    rel := relOf m.ord }
def vmemSInfo (m : VMemS) (load : Bool) : Info :=
  let w := vdst m.r (m.size == .b8)
  { longInfo m.g m.x (if load then [] else w) (if load then w else []) (m.base.sregs ++ m.stride.sregs) load with
    rel := relOf m.ord }

def execVld (m : VMem) (s : State) : Host.Outcome State Fault Refusal :=
  wordOp (vmemInfo m true) (loadLanes m.x m.r (msize m.size) m.sx m.nt fun s i =>
    eaIdx s m.sl m.base m.idx m.off (msize m.size) i) s
def execVst (m : VMem) (s : State) : Host.Outcome State Fault Refusal :=
  wordOp (vmemInfo m false) (storeLanes m.x m.r (msize m.size) m.nt fun s i =>
    eaIdx s m.sl m.base m.idx m.off (msize m.size) i) s
def execVlds (m : VMemS) (s : State) : Host.Outcome State Fault Refusal :=
  wordOp (vmemSInfo m true) (loadLanes m.x m.r (msize m.size) m.sx m.nt fun s i =>
    eaStride s m.sl m.base m.stride m.off (msize m.size) i) s
def execVsts (m : VMemS) (s : State) : Host.Outcome State Fault Refusal :=
  wordOp (vmemSInfo m false) (storeLanes m.x m.r (msize m.size) m.nt fun s i =>
    eaStride s m.sl m.base m.stride m.off (msize m.size) i) s

/-! ## Scalar loads and stores (R349) -/

def execSld (g : Guard) (x : Bool) (d : SReg) (base : SBase) (off : BitVec 10) (size : MSize) (ord : MemOrd)
    (_sco : Scope) (sl sx : Bool) (s : State) : Host.Outcome State Fault Refusal :=
  let n := msize size
  wordOp { longInfo g x [] [] (d.val :: base.sregs) true with ctl := true, rel := relOf ord } (fun c s => do
    let a ← s.oneAccess c [{ acc := .read, tgt := tgtOf sl (base.value s) (offOf off n), n := n }]
    let ps := a.done.flatMap (·.2)
    let v := ps.foldl (fun _ p => a.st.readAt p n) 0
    let w : Word := if sx then BitVec.ofInt 64 (signedOf (8 * n) v) else BitVec.ofNat 64 v
    endAccess x a (ps.foldl State.touchPlace a.st) (if d.val = 0 || a.park.isSome then [] else [.s d.val w])) s

def execSst (g : Guard) (x : Bool) (a : SSrc) (base : SBase) (off : BitVec 10) (size : MSize) (ord : MemOrd)
    (_sco : Scope) (sl : Bool) (s : State) : Host.Outcome State Fault Refusal :=
  let n := msize size
  wordOp { longInfo g x [] [] (a.sregs ++ base.sregs) false with ctl := true, rel := relOf ord } (fun c s => do
    let r ← s.oneAccess c [{ acc := .write, tgt := tgtOf sl (base.value s) (offOf off n), n := n }]
    let bs := toBytes n (a.value s).toNat
    endAccess x r (r.st.putAll ((r.done.flatMap (·.2)).map fun p => ⟨p, bs⟩)) []) s

/-! ## Copies between slate and memory (R323, R353) -/

/-- Move each lane's bytes from its first place to its second; every read comes before every write. -/
def moveLanes (x : Bool) (n : Nat) (src dst : State → Nat → Tgt) : Body := fun c s => do
  let g ← s.laneAccess c fun i =>
    [{ acc := .read, tgt := src s i, n := n }, { acc := .write, tgt := dst s i, n := n }]
  let moves := g.done.filterMap fun (i, ps) => match ps with
    | [p, q] => some (i, q, toBytes n (g.st.readAt p n))
    | _ => none
  let order := g.st.laneOrder n (moves.map fun (i, q, _) => (i, q))
  let puts := order.filterMap fun (i, q) => (moves.find? fun m => m.1 == i).map fun m => (⟨q, m.2.2⟩ : Put)
  endAccess x g ((g.done.flatMap fun p => p.2.take 1).foldl State.touchPlace (g.st.putAll puts)) []

def slmemInfo (m : SlMem) (mon : Bool) : Info :=
  { longInfo m.g m.x (m.r.val :: m.idx.vregs false) [] (m.base.sregs ++ m.idx.sregs) mon with rel := relOf m.ord }

def execLdsl (m : SlMem) (s : State) : Host.Outcome State Fault Refusal :=
  wordOp (slmemInfo m true) (moveLanes m.x (msize m.size)
    (fun s i => eaIdx s false m.base m.idx m.off (msize m.size) i)
    (fun s i => .slate (s.readV m.r.val i).toNat)) s
def execStsl (m : SlMem) (s : State) : Host.Outcome State Fault Refusal :=
  wordOp (slmemInfo m false) (moveLanes m.x (msize m.size)
    (fun s i => .slate (s.readV m.r.val i).toNat)
    (fun s i => eaIdx s false m.base m.idx m.off (msize m.size) i)) s

/-! ## Atomics (R275–R279) -/

def atBytes : AtTy → Nat
  | .i64 | .n64 => 8
  | _ => 4

/-- The value an atomic stores (R277). -/
def atResult (ty : AtTy) (op : AtOp) (old src : Nat) : Nat :=
  let w := 8 * atBytes ty
  let less : Bool := match ty with
    | .i32 | .i64 => decide (signedOf w src < signedOf w old)
    | .n32 | .n64 => decide (src < old)
    | .f32 => false
  match op with
  | .swap => src
  | .add => match ty with
    | .f32 => fp32.round ⟨.rn, false⟩ 0 ((fp32.decode old).add false (fp32.decode src))
    | _ => (old + src) % 2 ^ w
  | .and => Nat.land old src
  | .or => Nat.lor old src
  | .xor => Nat.xor old src
  | .min => if ty = .f32 then fp32.pick true old src else if less then src else old
  | .max => if ty = .f32 then fp32.pick false old src else if less then old else src

/-- A place reached at its home leaves the mapped slate of the team that covers it (R279). -/
def State.dropCovered (s : State) (p : Place) (n : Nat) : State :=
  match p with
  | .mem _ va _ => match s.mappedAt va n with
    | some x => (s.writeBack x.core x.id (x.ofs / 128)).dropSec x.core x.id (x.ofs / 128)
    | none => s
  | .slate _ => s

/-- One read-modify-write of a lane: the new value from the old one, or no write. -/
def State.rmw (s : State) (p : Place) (n : Nat) (f : Nat → Option Nat) : State × Nat :=
  let s := s.dropCovered p n
  let old := s.readAt p n
  match f old with
  | some x => (s.putHome [⟨p, toBytes n x⟩], old)
  | none => (s.touchPlace p, old)

/-- Sectors of slates that the lanes of one instruction have written in full between them are renewed (R111). -/
def State.renewPuts (s : State) (l : List Put) : State :=
  (slateIds l).foldl (fun t p => t.renewFull p.1 p.2 ((slateCells l p.1 p.2).map (·.1))) s

/-- The read-modify-writes of the finished lanes, one by one, and the old values. -/
def State.rmwAll (s : State) (n : Nat) (l : List (Nat × Place)) (f : Nat → Nat → Option Nat) : State × List (Nat × Nat) :=
  let r := (s.laneOrder n l).foldl (fun (acc : State × List (Nat × Nat) × List Put) (i, p) =>
    let (t, old) := acc.1.rmw p n (f i)
    (t, acc.2.1 ++ [(i, old)], if (f i old).isSome then ⟨p, toBytes n 0⟩ :: acc.2.2 else acc.2.2)) (s, [], [])
  (r.1.renewPuts r.2.2, r.2.1)

/-- Atomics leave the region as they issue (R48). -/
def atomicBody (x : Bool) (n : Nat) (tgt : State → Nat → Tgt) (f : State → Nat → Nat → Option Nat) (r : VReg) : Body :=
  fun c s => do
  let g ← s.laneAccess c fun i => [{ acc := .atomic, tgt := tgt s i, n := n, atHome := true }]
  let (s', old) := g.st.rmwAll n (g.done.flatMap fun (i, ps) => ps.map fun p => (i, p)) (f s)
  endAccess x g (s'.modGrp Group.leaveRegion) (old.flatMap fun (i, v) => wbLane r i n v false)

def execAtom (g : Guard) (x : Bool) (d : VReg) (base : SBase) (idx : VSrc) (off : BitVec 10) (ty : AtTy) (op : AtOp)
    (ord : MemOrd) (_sco : Scope) (sl : Bool) (s : State) : Host.Outcome State Fault Refusal :=
  let n := atBytes ty
  wordOp { longInfo g x (vdst d (n == 8) ++ idx.vregs false) [] (base.sregs ++ idx.sregs) false with rel := relOf ord }
    (atomicBody x n (fun s i => eaIdx s sl base idx off n i)
      (fun s i old => some (atResult ty op old (ofBytes (laneBytes s d n i)))) d) s

/-- The register that follows `k` registers on. -/
def vplus (d : VReg) (k : Nat) : VReg := Fin.ofNat 256 (d.val + k)

def execAcas (g : Guard) (x : Bool) (d : VReg) (base : SBase) (idx : VSrc) (off : BitVec 10) (wide : Bool)
    (ord : MemOrd) (_sco : Scope) (sl : Bool) (s : State) : Host.Outcome State Fault Refusal :=
  let n := if wide then 8 else 4
  let d2 := vplus d (if wide then 2 else 1)
  wordOp { longInfo g x (vrun d (if wide then 4 else 2) ++ idx.vregs false) [] (base.sregs ++ idx.sregs) false with rel := relOf ord }
    (atomicBody x n (fun s i => eaIdx s sl base idx off n i)
      (fun s i old => if old = ofBytes (laneBytes s d n i) then some (ofBytes (laneBytes s d2 n i)) else none) d2) s

/-! ## Reservations (R322, R352) -/

/-- The reservation granule of a place. -/
def granuleOf (p : Place) : Option Nat := match p with | .mem pa _ _ => some (pa / 64) | .slate _ => none

def resInfo (m : ResMem) (store : Bool) : Info :=
  let w := vdst m.r m.wide
  { longInfo m.g m.x (m.idx.vregs false ++ if store then w else []) w (m.base.sregs ++ m.idx.sregs) false with
    lanewise := !store, rel := relOf m.ord }

/-- LDR: the set becomes the granules of the lanes that read; a park leaves it cleared. -/
def execLdr (m : ResMem) (s : State) : Host.Outcome State Fault Refusal :=
  let n := if m.wide then 8 else 4
  wordOp (resInfo m false) (fun c s => do
    let g ← s.laneAccess c fun i =>
      [{ acc := .read, tgt := eaIdx s false m.base m.idx m.off n i, n := n, perm := .atomic, atHome := true }]
    let places := g.done.flatMap (·.2)
    let s' := places.foldl (fun t p => t.dropCovered p n) g.st
    let set := places.foldl (fun l p => match granuleOf p with | some k => insNat l k | none => l) []
    let wb := g.done.flatMap fun (i, ps) => ps.flatMap fun p => wbLane m.r i n (s'.readAt p n) false
    endAccess m.x g (s'.modArm fun a => { a with resv := set, defer := !set.isEmpty }) wb) s

/-- Whether a lane's STC succeeds: its granule is reserved, and no lower lane of sel names it. -/
def stcOk (resv : List Nat) (l : List (Nat × Place)) (i : Nat) (p : Place) : Bool :=
  match granuleOf p with
  | some k => resv.contains k && !l.any (fun q => decide (q.1 < i) && granuleOf q.2 == some k)
  | none => false

/-- An STC that enters its arm's handler leaves the set as it was, by the instruction's own rule (R352); any other instruction's
trap clears it (R175; log 104). -/
def State.keepSet (s t : State) : State :=
  if !s.grp.tr.tm && t.grp.tr.tm && s.grp.replayId.isNone then t.modArm fun a => { a with resv := s.arm.resv } else t

def execStc (m : ResMem) (s : State) : Host.Outcome State Fault Refusal :=
  let n := if m.wide then 8 else 4
  let out := wordOp (resInfo m true) (fun c s => do
    let g ← s.laneAccess c fun i =>
      [{ acc := .write, tgt := eaIdx s false m.base m.idx m.off n i, n := n, perm := .atomic, atHome := true }]
    let l := g.done.flatMap fun (i, ps) => ps.map fun p => (i, p)
    let resv := s.arm.resv
    let good := l.filter fun (i, p) => stcOk resv l i p
    let s' := good.foldl (fun t (i, p) => (t.dropCovered p n).putHome [⟨p, laneBytes s m.r n i⟩]) g.st
    let wb := l.flatMap fun (i, p) =>
      .v m.r.val i (if stcOk resv l i p then 0 else 1) :: (if m.wide then [.v (m.r.val + 1) i 0] else [])
    let s' := (s'.modGrp Group.leaveRegion).modArm fun a => { a with resv := [], defer := false }
    endAccess m.x g (s'.modGrp fun y => { y with tr := { y.tr with resv := false } }) wb) s
  match out with
  | .next t => .next (s.keepSet t)
  | o => o

/-! ## FENCE and CMAINT -/

/-- Every other access is performed as it issues (log 2), so a fence waits only for the writes of the arm's MSTZ before it: a
release holds later writes back until then, .ar and .sc every later access (R311; log 79). -/
def execFence (g : Guard) (x : Bool) (ord : MemOrd) (_sco : Scope) (s : State) : Host.Outcome State Fault Refusal :=
  wordOp { longInfo g x [] [] [] true with ctl := true } (fun _ s =>
    if !relOf ord || (s.grp.stzOps s.who).isEmpty then longDone x [] [] s
    else .ok (.next (s.addOp (s.flagOf x) (.fence (ord != .rel)) [] []))) s

/-- Write back, and for .inval drop, every mapped sector that aliases a line. -/
def State.maintLine (s : State) (line : Nat) (drop : Bool) : State :=
  s.cores.foldl (fun t (c, x) => x.descs.foldl (fun t (id, d) =>
    if d.kind = .mapped then d.secs.foldl (fun t (i, y) =>
      if y.present && y.line == line then
        let t := t.writeBack c id i
        if drop then t.dropSec c id i else t
      else t) t
    else t) t) s

/-- Drop a line from the constant caches of some cores: by its address, or by another that reaches the same line. -/
def State.dropConst (s : State) (cs : Nat → Bool) (p va pa : Nat) : State :=
  let hit (k : Nat × Nat) : Bool := k.1 == p && (k.2 / 128 == va / 128 || match (s.walk p k.2).1 with
    | .leaf q _ => q / 128 == pa / 128
    | _ => false)
  { s with cores := s.cores.mapV fun c x => if cs c then { x with ccache := x.ccache.filter fun e => !hit e.1 } else x }

/-- What each operation does to a line (R295). A line brought into the L1 comes through the L2. -/
def cmaintAt (s : State) (op : CmOp) (sco : Scope) (p : Place) : State :=
  match p with
  | .slate _ => s
  | .mem pa va _ => match op with
    | .pfl1 => s.cacheUse pa false false
    | .pfl2 => s.cacheUse pa true false
    | .clean => (s.maintLine (pa / 128) false).cleanLine (pa / 128)
    | .inval => (s.maintLine (pa / 128) true).dropCopies (pa / 128)
    | .cinv =>
      let par := s.par s.grp.part
      let inPart (c : Nat) : Bool := decide (par.clbase ≤ clusterOfCore c ∧ clusterOfCore c ≤ par.cllimit)
      s.dropConst (fun c => if sco = .clu then clusterOfCore c == clusterOfCore s.core else inPart c) s.grp.part va pa

/-- A prefetch of one lane: dropped where a read of the line would fault or park (R296). -/
def prefetchAt (s : State) (op : CmOp) (sco : Scope) (q : Ask) : State :=
  match s.chk [] q with
  | .ok p => cmaintAt (s.usePlaces [(p, q)]) op sco p
  | _ => s

/-- Each lane's line is tested as by a read that consumes no poison. -/
def execCmaint (g : Guard) (x : Bool) (op : CmOp) (rel : Bool) (sco : Scope) (base : SBase) (idx : VSrc)
    (off : BitVec 10) (s : State) : Host.Outcome State Fault Refusal :=
  wordOp { longInfo g x (idx.vregs false) [] (base.sregs ++ idx.sregs) false with rel := rel } (fun c s =>
    let ask (i : Nat) : Ask := { acc := .read, tgt := eaIdx s false base idx off 1 i, n := 1, atHome := true, consume := false }
    if op = .pfl1 || op = .pfl2 then longDone x [] [] ((laneList c.todo).foldl (fun t i => prefetchAt t op sco (ask i)) s)
    else do
      let a ← s.laneAccess c fun i => [ask i]
      endAccess x a ((a.done.flatMap (·.2)).foldl (fun t p => cmaintAt t op sco p) a.st) []) s

end Sys2Proof.Machine
end

