-- ==== Sys2Proof/Machine/Sync.lean ====
section
/-! DEFINITION. Barrier instructions (R121, R283–R288), TRAY and DEPDEC (R193–R194, R306–R307, R356–R357), ring instructions
(R195–R197, R335–R336), and the queue window (R44–R46, R200, R333–R334). -/

namespace Sys2Proof.Machine

/-- The executing group's team. -/
def State.myTeam (s : State) : Option Team := s.teams.look s.grp.team

/-! ## Barriers -/

/-- BARRIER_ERR of an object. -/
def barErr (c : Ctx) (a : Nat) : Except Exit Done := .error (.trap ⟨.barrierErr, c.sel, BitVec.ofNat 64 a⟩)

/-- A barrier object as an instruction finds it: where it stands, its fields, whether it is live. -/
structure BarAt where
  at' : SlAddr
  bar : Bar
  live : Bool
  key : BarObj
deriving DecidableEq, Repr

/-- The tests of R284. `writes` marks BARI and BARA, `mustLive` the instructions that need a live object. -/
def State.barAt (s : State) (c : Ctx) (a : Nat) (writes mustLive : Bool) : Except Exit BarAt :=
  let t (k : TrapKind) (w : Word) : Except Exit BarAt := .error (.trap ⟨k, c.sel, w⟩)
  let err := t .barrierErr (BitVec.ofNat 64 a)
  if a % 16 ≠ 0 then t .misalign (vaInfo a)
  else match s.resolve s.core s.grp.team a 16 with
    | none => t .slateRange (BitVec.ofNat 64 a)
    | some x => match s.desc? x.core x.id with
      | none => t .slateRange (BitVec.ofNat 64 a)
      | some d =>
        if d.kind ≠ .scratch then err
        else if writes ∧ 0 < s.pins x.core x.id then t .pinViolation (pinInfo s.core x)
        else if d.leafLost (x.ofs / 2048) then t .staleRead (slateInfo s.core x)
        else if (d.sec (x.ofs / 128)).st = .poisoned then .error (.unc ⟨.uncorrectable, c.sel, slateInfo s.core x⟩)
        else
          let b := Bar.ofNat (s.slNum x.core x.id x.ofs 16)
          let key : BarObj := ⟨x.core, a % 2 ^ 22⟩
          let (pair, bars) : Bool × List BarObj := match s.myTeam with | some tm => (tm.pair, tm.bars) | none => (false, [])
          let live := bars.contains key
          if s.stzHolds [(.slate x, { acc := if writes then .atomic else .read, tgt := .slate a, n := 16 })] then .error (.stall s)
          else if (pair && x.core % 2 == 1) || !b.ok || (mustLive && !live) || (!mustLive && !live && decide (16 ≤ bars.length)) then err
          else .ok ⟨x, b, live, key⟩

/-- Write a barrier object back. -/
def State.putBar (s : State) (x : SlAddr) (b : Bar) : State := s.slPut x.core x.id 0 (cellsAt x.ofs (toBytes 16 b.toNat))

/-- Ones in the low `n` bits. -/
def ones (m n : Nat) : Nat := ((List.range n).filter fun i => bitB m i).length

def execBari (g : Guard) (a : SSrc) (form : BariForm) (s : State) : Host.Outcome State Fault Refusal :=
  let ms := match form with | .set m => m.sregs | _ => []
  wordOp { ctl g (a.sregs ++ ms) false with rep := false } (fun c s => do
    let ad := slateOperand (a.value s)
    let free := decide (form = .free)
    let o ← s.barAt c ad (!free) free
    match s.myTeam with
    | none => barErr c ad
    | some t =>
      let n := groupsOf t.khdr
      let m := match form with | .set m => (m.value s).toNat % 2 ^ 32 | _ => 2 ^ n - 1
      if o.live && decide (0 < o.bar.arrived) then barErr c ad
      else if free then .ok (.next (s.modTeam s.grp.team fun t => { t with bars := t.bars.filter (· != o.key) }))
      else if 2 ^ n ≤ m then barErr c ad
      else
        let m := (List.range n).foldl (fun k i => if bitB m i && !t.retired.contains i then k + 2 ^ i else k) 0
        let b := { o.bar with members := m, expected := ones m 32, arrived := 0, arrset := 0 }
        .ok (.next ((s.putBar o.at' b).modTeam s.grp.team fun t =>
          { t with bars := if o.live then t.bars else o.key :: t.bars }))) s

def execBara (g : Guard) (x : Bool) (a : SSrc) (d : SReg) (s : State) : Host.Outcome State Fault Refusal :=
  wordOp { longInfo g x [] [] (d.val :: a.sregs) false with rep := false, ctl := true, rel := true } (fun c s => do
    let ad := slateOperand (a.value s)
    let o ← s.barAt c ad true true
    match o.bar.arrive s.grp.gid with
    | none => barErr c ad
    | some b => longDone x [] [.s d.val (BitVec.ofNat 64 o.bar.phase)] (s.putBar o.at' b)) s

/-- What a BARW that has waited meets where its object's sector was lost or poisoned meanwhile (R121). -/
def State.brokeBar (s : State) (c : Ctx) : Except Exit Unit :=
  match s.arm.barw with
  | some b =>
    let info := slateInfo s.core ⟨b.core, b.desc, b.sector * 128⟩
    match b.broke with
    | some .lost => .error (.trap ⟨.staleRead, c.sel, info⟩)
    | some .poisoned => .error (.unc ⟨.uncorrectable, c.sel, info⟩)
    | _ => .ok ()
  | none => .ok ()

/-- The phase operand is compared with PHASE, a 32-bit count. -/
def execBarw (g : Guard) (a p : SSrc) (test : Option SReg) (s : State) : Host.Outcome State Fault Refusal :=
  let ds := match test with | some d => [d.val] | none => []
  wordOp { ctl g (ds ++ a.sregs ++ p.sregs) false with rep := false, rel := s.grp.shape.mmrev == 2 } (fun c s => do
    s.brokeBar c
    let o ← s.barAt c (slateOperand (a.value s)) false true
    let done := decide (o.bar.phase ≠ (p.value s).toNat)
    match test with
    | some d => setS d (if done then 1 else 0) s
    | none =>
      let waits : BarWait := ⟨o.at'.core, o.at'.id, o.at'.ofs / 128, none⟩
      if done then .ok (.next s) else .error (.stall (s.modArm fun a => { a with barw := some waits }))) s

/-! ## TRAY (R356, R357) -/

/-- The record of a lane. -/
def trayRec (s : State) (hdr crd : VSrc) (pay : TrayPay) (queue i : Nat) : Rec :=
  { lo := crd.lane32 s i ++ hdr.lane32 s i
    hi := match pay with | .v k => s.readPair k.val i | .s x => x.value s
    queue := queue, qslot := 0xFF }

def execTray (g : Guard) (x : Bool) (hdr crd : VSrc) (pay : TrayPay) (s : State) : Host.Outcome State Fault Refusal :=
  let (pv, ps) := match pay with | .v k => (vdst k true, []) | .s y => ([], y.sregs)
  wordOp { longInfo g x (hdr.vregs false ++ crd.vregs false ++ pv) [] (hdr.sregs ++ crd.sregs ++ ps) false with
    rep := false, rel := true }
    (fun c s =>
      let queue := match s.myTeam with | some t => t.queue | none => 0
      let recs := (laneList c.todo).map (trayRec s hdr crd pay queue)
      if recs.any Rec.rsvd then .error (.trap ⟨.queueErr, c.todo, 2⟩)
      else
        let (s', left) := s.routeAll s.grp.part (dieOfCore s.core) recs
        if left.isEmpty then longDone x [] [] (s'.modGrp Group.leaveRegion) else .error (.trap ⟨.queueErr, c.todo, 1⟩)) s

/-! ## DEPDEC (R193, R307) -/

/-- One lane's step at its cell: COUNT before it, and the successor record where it observed 1. A record whose read meets
poison launches nothing and is reported (R307). -/
def State.depStep (s : State) (part : Nat) (p : Place) (queue : Nat) : State × Nat × Option Rec :=
  let (s, old) := s.rmw p 4 fun old => if old = 0 then none else some (old - 1)
  match p with
  | .mem pa _ _ =>
    let r := Rec.ofBytes (s.mem.bytes (pa + 16) 16) queue 0xFF
    if old ≠ 1 then (s, old, none)
    else if s.poisonAt (pa + 16) 16 then (s.errReport part 0x0F r.type 0xFF 1 r, old, none)
    else (s, old, some r)
  | .slate _ => (s, old, none)

/-- The steps of the finished lanes in their order: the lanes that underflowed, and the records to route. -/
def State.depSteps (s : State) (queue : Nat) (l : List (Nat × Place)) : State × LaneSet × List Rec :=
  l.foldl (fun (t, u, rs) (i, p) =>
    let (t, old, r) := State.depStep t s.grp.part p queue
    (t, if old = 0 then u ||| laneBit i else u, rs ++ r.toList)) (s, (0 : LaneSet), ([] : List Rec))

/-- A DEPDEC brings nothing into a register, so a poisoned cell is not consumed: its count steps, and its record launches nothing
(R239, R307; log 102). What a DEPDEC's finished lanes leave waits in the arm while it is parked, and goes with its operation as it completes:
the underflow is delivered once for all of them (R194, R307). -/
def execDepdec (g : Guard) (x : Bool) (base : SSrc) (idx : VSrc) (s : State) : Host.Outcome State Fault Refusal :=
  wordOp { longInfo g x (idx.vregs false) [] (base.sregs ++ idx.sregs) false with rep := false, rel := true } (fun c s => do
    let a ← s.laneAccess c fun i =>
      [{ acc := .atomic, tgt := .glob (((base.value s).toNat : Int) + (idx.lane32 s i).toInt), n := 32, atHome := true, consume := false }]
    let queue := match s.myTeam with | some t => t.queue | none => 0
    let (s', under, recs) := a.st.depSteps queue (a.st.laneOrder 32 (a.done.flatMap fun (i, ps) => ps.map fun p => (i, p)))
    let die := dieOfCore s.core
    let under := s'.arm.depLanes ||| under
    let (s', left) := (s'.modGrp Group.leaveRegion).routeAll s.grp.part die (s'.arm.depRecs ++ recs.filter fun r => !r.pad)
    match a.park with
    | none =>
      let s' := s'.modArm fun a => { a with depLanes := 0, depRecs := [] }
      .ok (.next (s'.addOp (s'.flagOf x) (.dep under die left) [] []))
    | some (l, cs) => .error (.park (s'.modArm fun a => { a with depLanes := under, depRecs := left }) l cs)) s

/-! ## Rings (R196, R197, R335, R336) -/

/-- The block of a ring instruction: a read and write of its 64 bytes at its home. RCOMMIT and RRETIRE have left the region as
they issued, also where they park here (R336). -/
def State.ringBlock (s : State) (c : Ctx) (ring : Word) (leave : Bool) : Except Exit (Nat × State) := do
  let g ← s.oneAccess c [{ acc := .atomic, tgt := .glob ring.toNat, n := 64, atHome := true }]
  match g.park, g.done with
  | some (_, cs), _ => .error (.park (if leave then g.st.modGrp Group.leaveRegion else g.st) c.sel cs)
  | none, [(_, [.mem pa va key])] => .ok (pa, g.st.dropCovered (.mem pa va key) 64)
  | none, _ => .error (.stall s)

/-- A count of 1–64, or 0 for any other value. -/
def ringCount (w : Word) : Nat := if 1 ≤ w.toInt ∧ w.toInt ≤ 64 then w.toNat else 0

/-- RING_ERR of an inconsistent block: ERR is set. -/
def ringBroken (c : Ctx) (s : State) (pa : Nat) : Except Exit Done :=
  let s' := s.setRingErr pa
  .ok (.here (s'.raise s.arm.pc s.arm.cl ⟨.ringErr, c.sel, 1⟩))

/-- RCLAIM and RAWAIT. A granted request completes; a queued one keeps waiting; a new one is checked, then granted,
refused or queued. -/
def ringTake (consumer nb : Bool) (d : SReg) (ring n : SSrc) : Body := fun c s =>
  match s.ringWait with
  | some w => match w.grant with
    | some p => setS d p { s with waits := s.waits.filter (· != w) }
    | none => .error (.stall s)
  | none => do
    let (pa, s') ← s.ringBlock c (ring.value s) false
    let k := ringCount (n.value s)
    let b := s'.ringAt pa
    if !b.ok k then ringBroken c s' pa
    else match (if s'.ringQueued pa consumer then none else if consumer then b.awaitN k else b.claimN k) with
      | some (p, b') => setS d (BitVec.ofNat 64 p) (s'.ringPut pa b')
      | none =>
        if nb then setS d (BitVec.allOnes 64) s'
        else .error (.stall { s' with waits := s'.waits ++ [⟨pa, consumer, s.grp.key, s.who, k, d.val, none⟩] })

def ringInfo (g : Guard) (ss : List Nat) : Info := { ctl g ss false with rep := false }

def execRclaim (g : Guard) (nb : Bool) (d : SReg) (ring n : SSrc) (s : State) : Host.Outcome State Fault Refusal :=
  wordOp (ringInfo g (d.val :: (ring.sregs ++ n.sregs))) (ringTake false nb d ring n) s
def execRawait (g : Guard) (nb : Bool) (d : SReg) (ring n : SSrc) (s : State) : Host.Outcome State Fault Refusal :=
  wordOp (ringInfo g (d.val :: (ring.sregs ++ n.sregs))) (ringTake true nb d ring n) s

/-- RCOMMIT and RRETIRE. -/
def ringGive (x consumer : Bool) (ring p n : SSrc) : Body := fun c s => do
  let (pa, s') ← s.ringBlock c (ring.value s) true
  let k := ringCount (n.value s)
  let b := s'.ringAt pa
  if !b.ok k then ringBroken c s' pa
  else match (if consumer then b.retire (p.value s).toNat k else b.commit (p.value s).toNat k) with
    | some b' => longDone x [] [] ((s'.ringPut pa b').modGrp Group.leaveRegion)
    | none => .error (.trap ⟨.ringErr, c.sel, 2⟩)

def execRcommit (g : Guard) (x : Bool) (ring p n : SSrc) (s : State) : Host.Outcome State Fault Refusal :=
  wordOp { longInfo g x [] [] (ring.sregs ++ p.sregs ++ n.sregs) false with rep := false, ctl := true, rel := true } (ringGive x false ring p n) s
def execRretire (g : Guard) (x : Bool) (ring q n : SSrc) (s : State) : Host.Outcome State Fault Refusal :=
  wordOp { longInfo g x [] [] (ring.sregs ++ q.sregs ++ n.sregs) false with rep := false, ctl := true, rel := true } (ringGive x true ring q n) s

/-! ## The queue window -/

def execQpush (g : Guard) (a : VSrc) (s : State) : Host.Outcome State Fault Refusal :=
  wordOp { g := g, vs := a.vregs false, ss := a.sregs, lanewise := true, mon := true } (fun c s =>
    let m := s.grp.mon
    if s.who ≠ .mon then .error (.trap (illegal c.sel))
    else if s.grp.shape.qwin < m.window.length then .error (.stall s)
    else
      let e := (laneList c.sel).foldl (fun t i => Tbl.put 0 t i (a.lane32 s i)) []
      .ok (.next (s.modGrp fun g => { g with mon := { g.mon with window := m.window ++ [.val e] } }))) s

def execQpop (g : Guard) (d : VReg) (s : State) : Host.Outcome State Fault Refusal :=
  wordOp { g := g, vd := [d.val], lanewise := true, rep := false } (fun c s =>
    let m := s.grp.mon
    let pop (s : State) : State := s.modGrp fun g => { g with mon := { g.mon with window := g.mon.window.drop 1 } }
    if m.st = .absent then .error (.trap (illegal c.sel))
    else match m.window with
      | .val e :: _ => .ok (.next ((pop s).writeLanes d.val c.sel fun i => Tbl.get 0 e i))
      | .poison k _ lanes info :: _ =>
        -- the wave stays at its instruction until the group's RFT
        let taken (t : State) : State := t.modGrp fun g => { g with mon := { g.mon with st := if g.mon.st = .stopped then .taken else g.mon.st } }
        .ok (.here ((taken (pop s)).raise s.arm.pc s.arm.cl ⟨k, lanes, info⟩))
      | [] => if m.st = .ended then .error (.trap ⟨.queueErr, c.sel, 4⟩) else .error (.stall s)) s

end Sys2Proof.Machine
end

