-- ==== Sys2Proof/Machine/Complete.lean ====
section
/-! DEFINITION. What ends an outstanding operation or a wait: completions (R31, R145, R149, R194, R304, R307), version
timeouts (R146), register-line and mapped-slate fills (R68, R113), deferral and YIELD (R39, R381), the retention clock, the
scrubber (R19, R112, R114, R118), and watches (R128). -/

namespace Sys2Proof.Machine

/-! ## OPERATION_COMPLETE -/

/-- An operation of a group ends, and the group retires if nothing is left of it. -/
def State.endGroupOp (s : State) (k : GKey) (op : Nat) : State := (s.modKey k fun g => g.endOp s.cnt.steps op).retireIfDone k

/-- The status word of an FSWAP whose step has ended on every selected die (R96). -/
def Swap.status (x : Swap) : Option Nat :=
  (List.range 4).foldl (fun acc d => match acc, x.dies.look d with
    | some n, some (.done k) => some (n + k % 16 * 16 ^ d)
    | some _, some _ => none
    | some n, none => some (n + 0xF * 16 ^ d)
    | none, _ => none) (some 0)

/-- Completion of a collective operation whose version is ready: its touch phase has ended, its passes run, and its hall pass goes to the next request
in order. -/
def State.endColl (s : State) (k : GKey) (id : Nat) (o : Op) (z ver : Nat) (op : CollOp) (pass : Bool) (snap : Option (Tbl Lane))
    (open' : Bool) : State :=
  let s := s.focus k o.who
  let s := s.runColl z ver (if open' then s.settleColl id op else op) snap
  let s := if pass then (s.modGrp fun g => { g with passes := g.passes - 1 }) else s
  (s.endGroupOp k id).grantPasses 768

/-- What a long-latency operation does as it completes; one that cannot complete yet is left as it is. -/
def State.complete (s : State) (g : Group) (id : Nat) (o : Op) : State :=
  let k := g.key
  let last (w : List WriteBack) : State → State := fun t => (t.modKey k fun h => h.applyWbs t.cnt.steps o.who w).endGroupOp k id
  match o.kind with
  | .plain | .load _ => s.endGroupOp k id
  | .quant lo hi nan n => last [] (s.modKey k fun h => { h with qstat := qstatAdd h.qstat lo hi nan n })
  | .coll z ver op pass snap open' =>
    if g.collReady z ver snap && !s.stzBehind g id o then s.endColl k id o z ver op pass snap open' else s
  | .engine _ => s
  | .fence _ => if g.stzDue o.who id then s else s.endGroupOp k id
  | .dep under die recs =>
    let (s', left) := s.routeAll g.part die recs
    if left.isEmpty then
      last [] (s'.modKey k fun h => if under = 0 then h else h.setArm o.who { h.arm o.who with under := (h.arm o.who).under ++ [under] })
    else s'.modKey k fun h => { h with ops := h.ops.upd id fun p => { p with kind := .dep under die left } }
  | .fswap n => match s.swaps.look n with
    | none => s.endGroupOp k id
    | some x => match x.status with
      | none => s
      | some w => ({ s with swaps := s.swaps.del n }.modKey k fun h =>
          { h with ops := h.ops.upd id fun p => { p with wb := [.s x.dst (BitVec.ofNat 64 w)] } }).endGroupOp k id
  | .free c d => if s.engUses CmdRec.names c d then s else last [] (s.freeSlate c d)
  | .touch c d dst renew warm cold waited =>
    let (s', w) := s.touchDone c d renew warm cold waited
    (s'.modKey k fun h => { h with ops := h.ops.upd id fun p => { p with wb := [.s dst w] } }).endGroupOp k id
  | .shoot p lo hi => last [] (s.shootDown p lo hi)

def execOperationComplete (k : GKey) (op : Nat) (s : State) : Host.Outcome State Fault Refusal :=
  match s.groupAt k with
  | none => .next s
  | some g => match g.ops.look op with
    | none => .next s
    | some o => .next (s.complete g op o)

/-- VERSION_TIMEOUT: a collective instruction still waiting for its version is taken back with its flag count and pass, and
raises the trap at its own word (R146; log 8). -/
def execVersionTimeout (k : GKey) (op : Nat) (s : State) : Host.Outcome State Fault Refusal :=
  match s.groupAt k with
  | none => .next s
  | some g => match g.ops.look op with
    | none => .next s
    | some o => match o.kind with
      | .coll z ver op' pass snap _ =>
        if g.collReady z ver snap then .next s
        else
          let found := g.regs.ver z
          let s := s.focus k o.who
          let s := s.modGrp fun h => { h.undraw op' with
            ops := h.ops.del op, passes := if pass then h.passes - 1 else h.passes }
          let s := s.modArm fun a => { a.decFlag o.flag with ended := false }
          let s := s.raise o.word o.cl ⟨.versionTimeout, lanesBelow g.shape.width, BitVec.ofNat 64 (ver + found * 2 ^ 16)⟩
          .next (s.grantPasses 768)
      | _ => .next s

/-! ## Fills -/

/-- Take causes that satisfy a test away from every parked arm. -/
def Arm.answer (a : Arm) (p : Cause → Bool) : Arm :=
  { a with park := a.park.map fun x => { x with causes := x.causes.filter fun c => !p c } }

/-- REGISTER_LINE_FILL: a line arrives from the context image, with a foreign value or its own, which R69 leaves open, and with an
error or without (R68, R69). -/
def execRegisterLineFill (k : GKey) (line : Nat) (foreign poisoned : Bool) (s : State) : Host.Outcome State Fault Refusal :=
  let absent : Bool := match (s.groupAt k).bind fun g => g.lines.look line with | some x => !x.cached | none => false
  let s := if absent then s.fillLine k line foreign else s
  .next (s.modKey k fun g =>
    { g.mapArms (·.answer fun c => c == .regLine line) with
      badLines := if absent && poisoned then insNat g.badLines line else g.badLines })

/-- The data of a sector arrives. -/
def State.fillSector (s : State) (core desc sector : Nat) : State :=
  match s.desc? core desc with
  | none => s
  | some d =>
    let p := match s.teams.look d.team with | some t => t.part | none => 0
    let va := d.mapva + 128 * sector
    if d.kind ≠ .mapped || (d.sec sector).present then s
    else match s.translate p core .read va, s.takeLeaf core desc (sector / 16) 0 with
      | .ok pa key, some s' =>
        (s'.useVa p core va pa key).putSector core desc sector p pa
      | _, _ => s.claimWalk p va

/-- MAPPED_FILL: the data of a sector that some control thread waits for arrives. Where the sector can no longer be filled
its touchers issue again (R113, R119). -/
def execMappedFill (core desc sector : Nat) (s : State) : Host.Outcome State Fault Refusal :=
  let hit (c : Cause) : Bool := c == .sector core desc sector
  if s.groups.any fun g => g.waitsFor hit then
    .next ((s.fillSector core desc sector).mapGroups fun g => g.mapArms fun a => a.answer hit)
  else .next s

/-! ## Ends of waits -/

def execReservationDeferralEnd (k : GKey) (who : Who) (s : State) : Host.Outcome State Fault Refusal :=
  .next (s.modKey k fun g => g.setArm who { g.arm who with defer := false })

/-- Whether a group that YIELD with n = 0 waits for is ready still, and has not been offered an opportunity (R381). -/
def State.owesOffer (s : State) (y : Yield) (opps : Nat) : Bool :=
  match y.left with
  | none => false
  | some l => !y.over opps && s.groups.any fun g => l.contains g.key && s.coreRuns g && (g.ready .arm0 || g.ready .arm1)

/-- YIELD_END: the not-ready period of an arm is over (R381). Cycles are not counted (log 3), but with n = 0 the other ready
groups are offered an opportunity first, up to 64 of them. -/
def execYieldEnd (k : GKey) (who : Who) (s : State) : Host.Outcome State Fault Refusal :=
  let opps := (s.coreAt k.core).opps
  .next (s.modKey k fun g => match (g.arm who).yield with
    | some y => if s.owesOffer y opps then g else g.endYield who opps
    | none => g)

/-- CRIB_WATCH_HIT: the home reports a foreign write to a watched line (R128). -/
def execCribWatchHit (line : Nat) (s : State) : Host.Outcome State Fault Refusal := .next (s.watchHit line)

/-! ## The retention clock and the scrubber -/

/-- Descriptors of every core of a die. -/
def State.dieDescs (s : State) (die : Nat) : List (Nat × Nat) :=
  s.cores.flatMap fun (c, x) => if dieOfCore c = die then x.descs.keys.map fun i => (c, i) else []

/-- RCLK_TICK: a die's clock advances, and sectors that reach their lifetime are lost (R19, R112). -/
def execRclkTick (die : Nat) (s : State) : Host.Outcome State Fault Refusal :=
  if s.pm.stopped || 4 ≤ die then .next s
  else
    let s := s.modDie die fun d => { d with rclk := (d.rclk + 1) % 2 ^ 32 }
    .next ((s.dieDescs die).foldl (fun t (c, i) => t.expireSlate c i) s)

/-- SECTOR_EXPIRY: the sectors of a slate that have reached its lifetime are lost. -/
def execSectorExpiry (core desc _sector : Nat) (s : State) : Host.Outcome State Fault Refusal := .next (s.expireSlate core desc)

/-- An uncorrectable error of one sector (R118). What the home recalls of a dirty sector is poisoned from then on (R113;
log 15). -/
def State.sectorError (s : State) (core id i : Nat) : State :=
  match s.desc? core id with
  | none => s
  | some d => match d.kind with
    | .derived => if d.crib.isSome || !d.dropped then s.dropSlate core id else s
    | .mapped =>
      if !(d.sec i).present then s
      else if (d.sec i).dirty then
        ({ s with mem := s.mem.setPoison (d.sec i).line }).setDesc core id (d.setSec i { d.sec i with st := .poisoned })
      else s.dropSec core id i
    | .scratch => (s.setDesc core id (d.setSec i { d.sec i with st := .poisoned })).breakBars core id

/-- What the scrubber does to one sector it visits (R114). -/
def State.scrubSector (s : State) (core id i : Nat) : State :=
  match s.desc? core id with
  | none => s
  | some d =>
    let t := s.rclk core
    let x := d.sec i
    let renewed := d.setSec i (x.renew t)
    match d.kind with
    | .scratch =>
      if (decide (0 < s.pins core id) || s.teamSaved d.team) && decide (40 ≤ x.age t) then s.setDesc core id renewed else s
    | .derived =>
      let quiet : Bool := match (s.coreAt core).evictTick with | some e => decide (1 < (t + 2 ^ 32 - e) % 2 ^ 32) | none => true
      if d.warm && !d.dropped && quiet then s.setDesc core id renewed else s
    | .mapped =>
      if x.present && decide (48 ≤ x.age t) then
        if x.touched then s.setDesc core id (d.setSec i { x.renew t with touched := false })
        else (s.writeBack core id i).dropSec core id i
      else s

/-- A mapped leaf none of whose sectors is present has no physical leaf any more (R119). -/
def State.freeEmptyLeaf (s : State) (core id leaf : Nat) : State :=
  if s.filling core id leaf then s
  else s.modDesc core id fun d =>
    if d.kind = .mapped && (List.range 16).all (fun k => !(d.sec (leaf * 16 + k)).present) then { d with leafs := d.leafs.del leaf }
    else d

/-- SCRUBBER_VISIT of a resident leaf: the errors it finds, by sector of the leaf, then the renewals. -/
def execScrubberVisit (core desc leaf : Nat) (bad : List Nat) (corrected : Nat) (s : State) : Host.Outcome State Fault Refusal :=
  match s.desc? core desc with
  | none => .next s
  | some d =>
    if (d.leafs.look leaf).isNone then .next s
    else
      let s := s.modCore core fun c => { c with corrected := c.corrected + corrected }
      let s := bad.foldl (fun t k => if k < 16 then t.sectorError core desc (leaf * 16 + k) else t) s
      let s := (List.range 16).foldl (fun t k => t.scrubSector core desc (leaf * 16 + k)) s
      .next (s.freeEmptyLeaf core desc leaf)

end Sys2Proof.Machine
end

