-- ==== Sys2Proof/Machine/Fabric.lean ====
section
/-! DEFINITION. Requests of other devices, their answers and the links (R235, R246–R248), and the fault service (R232). -/

namespace Sys2Proof.Machine

/-! ## Requests of other devices -/

/-- The types that OPC names: the SIZE field of ATOM and ACAS (R276; log 40). -/
def opcType (n : Nat) : Option AtTy :=
  if n = 2 then some .i32 else if n = 3 then some .i64 else if n = 4 then some .f32 else if n = 6 then some .n32
  else if n = 7 then some .n64 else none
def opcOp (n : Nat) : Option AtOp :=
  if n = 0 then some .swap else if n = 1 then some .add else if n = 2 then some .and else if n = 3 then some .or
  else if n = 4 then some .xor else if n = 5 then some .min else if n = 6 then some .max else none

/-- What a remote atomic leaves at its cell: OPC[2:0] is the operation, OPC[5:3] the SIZE code, OPC[6] marks ACAS, whose
payload is the compare value and then the new one (R277, R278; log 40). -/
def remoteAtomic (opc n : Nat) (payload : List Byte) (old : Nat) : Nat :=
  if bitB opc 6 then (if old = fieldAt payload 0 n then fieldAt payload n n else old)
  else match opcType (bits opc 3 3), opcOp (bits opc 0 3) with
    | some ty, some op => atResult ty op old (fieldAt payload 0 n)
    | _, _ => old

/-- Whether OPC names a DEPDEC: the code that the fabric gives it, where that codes no ATOM and no ACAS (log 66). -/
def isDepdec (opc : BitVec 7) : Bool :=
  opc == Config.depdecOpc && !bitB opc.toNat 6 && ((opcType (bits opc.toNat 3 3)).isNone || (opcOp (bits opc.toNat 0 3)).isNone)

/-- Whether OPC names a masked line write: the code that the fabric gives it, where that codes nothing else (log 66). -/
def isMasked (opc : BitVec 7) : Bool :=
  opc == Config.maskedOpc && opc != Config.depdecOpc && !bitB opc.toNat 6 &&
    ((opcType (bits opc.toNat 3 3)).isNone || (opcOp (bits opc.toNat 0 3)).isNone)

/-- Bytes that the flits of a request bring: what it writes, and the mask of a masked write. -/
def flitBrings (f : Flit) : Nat :=
  if f.kind = 1 then 2 ^ f.size.toNat else if f.kind = 2 ∧ isMasked f.opc then 2 * 2 ^ f.size.toNat else 0

/-- A masked write is one event at the home; a line written in part keeps its poison (R153, R239). -/
def State.serveMasked (s : State) (pa n : Nat) (payload : List Byte) : State :=
  let old := s.mem.bytes pa n
  let mask := slice payload n n
  let new := (List.range n).map fun k => mergeByte (old.getD k 0) (mask.getD k 0).toNat (payload.getD k 0).toNat
  let t := s.writeMem (cellsAt pa new)
  if s.mem.poison.contains (pa / 128) && !mask.all (· == 0xFF) then { t with mem := t.mem.setPoison (pa / 128) } else t

/-- DEPDEC on a cell of this device for another one (R193): the step at the home, and the successor record routed to the die
of the cell's home stack. It is acknowledged once the record has joined a tray or the spill queue (R307). DESIGN CHOICE
(log 103), unsafe: the record's queue is 0. -/
def State.serveDep (s : State) (p port pa : Nat) (f : Flit) : State :=
  let old := s.mem.num pa 4
  if old = 0 then s.answerFlit port f (.ok 0)
  else
    let s := s.writeMem (cellsAt pa (toBytes 4 (old - 1)))
    let r := Rec.ofBytes (s.mem.bytes (pa + 16) 16) 0 0xFF
    if old ≠ 1 then s.answerFlit port f (.ok old)
    else if s.poisonAt (pa + 16) 16 then (s.errReport p 0x0F r.type 0xFF 1 r).answerFlit port f (.ok old)
    else match s.route p (s.homeOf p pa / 2) r with
      | some s' => s'.answerFlit port f (.ok old)
      | none => { s with fab := { s.fab with held := s.fab.held ++ [⟨0, p, port, f, r.bytes ++ toBytes 8 pa⟩] } }

/-- Perform a request of another device: it is translated here for its tenant's partition. A page not present waits for
the partition's fault service. -/
def State.serveFar (s : State) (port : Nat) (f : Flit) (payload : List Byte) : State :=
  let dep := f.kind == 2 && isDepdec f.opc
  let n := if dep then 32 else 2 ^ f.size.toNat
  let va := f.va.toNat
  let masked := f.kind == 2 && isMasked f.opc
  let acc : Acc := if f.kind = 0 then .read else if f.kind = 1 || masked then .write else .atomic
  match s.tenantPart f.tenant with
  | none => s.answerFlit port f .permission
  | some p =>
    let fenced : Bool := match s.parts.look p with | some x => x.fenced | none => true
    if fenced then s.answerFlit port f .memFault
    else
      let s := s.claimWalk p va
      match s.walkTr p acc va with
      | .ok pa key =>
        let s := ({ s with mem := s.mem.claim pa key }).recall (pa / 128)
        let old := s.mem.num pa n
        if dep then s.serveDep p port pa f
        else if masked then (s.serveMasked pa n payload).answerFlit port f (.ok 0)
        else if s.poisonAt pa n && f.kind ≠ 1 then s.answerFlit port f .poisoned
        else if f.kind = 0 then s.answerFlit port f (.ok old)
        else if f.kind = 1 then (s.writeMem (cellsAt pa (slice payload 0 n))).answerFlit port f (.ok 0)
        else
          let new := remoteAtomic f.opc.toNat n payload old
          let s := if bitB f.opc.toNat 6 && old != fieldAt payload 0 n then s else s.writeMem (cellsAt pa (toBytes n new))
          s.answerFlit port f (.ok old)
      | .park level =>
        let (s, id) := s.ticketFor p va acc.code level Config.remoteCore.toNat
        { s with fab := { s.fab with held := s.fab.held ++ [⟨id, p, port, f, payload⟩] } }
      | .trap .permission => s.answerFlit port f .permission
      | .trap .keyConflict => s.answerFlit port f .permission
      | _ => s.answerFlit port f .memFault

/-- The link layer of a port: a flit with a right CRC and the sequence number due is taken; any other is left to link-level
retry, so that each is taken once (R248; log 93). -/
def State.takeFlit (s : State) (a : Arrival) : Option State :=
  let x := s.portAt a.port
  if 16 ≤ a.port || x.down || !a.sound || a.seq != x.seq then none
  else some (s.modPort a.port fun y => { y with seq := y.seq + 1 })

/-- Whether a request or an answer that has been taken is for this device, and it serves the fabric (R253). -/
def State.forUs (s : State) (f : Flit) : Bool :=
  decide (f.dest = s.fab.id) && !s.pm.stopped && !s.pm.failed

/-- What follows a flit that a port takes, where it is for this device. -/
def State.onFlit (s : State) (a : Arrival) (k : State → State) : State :=
  match s.takeFlit a with
  | none => s
  | some s' => if s'.forUs a.flit then k s' else s'

def execFabricRead (a : Arrival) (s : State) : Host.Outcome State Fault Refusal :=
  .next (s.onFlit a fun t => t.serveFar a.port { a.flit with kind := 0 } [])

/-- A first flit whose bytes go on in data flits waits for them. -/
def State.holdFlit (s : State) (port : Nat) (f : Flit) (l : List Byte) : State :=
  { s with fab := { s.fab with parts := (s.fab.parts.filter fun x => x.1 != port) ++ [(port, f, l)] } }

/-- A request whose payload is longer than its first flit waits for its data flits. -/
def State.takeRequest (s : State) (port : Nat) (f : Flit) (payload : List Byte) : State :=
  if flitBrings f ≤ 48 then s.serveFar port f payload else s.holdFlit port f (slice payload 0 48)

def execFabricWrite (a : Arrival) (payload : List Byte) (s : State) : Host.Outcome State Fault Refusal :=
  .next (s.onFlit a fun t => t.takeRequest a.port { a.flit with kind := 1 } payload)

def execFabricAtomic (a : Arrival) (payload : List Byte) (s : State) : Host.Outcome State Fault Refusal :=
  .next (s.onFlit a fun t => t.takeRequest a.port { a.flit with kind := 2 } payload)

/-! ## Answers to requests of this device -/

/-- Write an answer where its request was made. -/
def setAnswer (tag : Nat) (e : RemoteEnd) (l : List RemoteReq) : List RemoteReq :=
  l.map fun r => if r.tag = tag && r.answer.isNone then { r with answer := some e } else r

/-- An arm has an answer: a park for it waits no longer. -/
def Arm.answered (a : Arm) (tag : Nat) (e : RemoteEnd) : Arm :=
  let mine := (a.remote.filter fun r => r.tag == tag).map fun r => Cause.remote r.addr
  { a with
    remote := setAnswer tag e a.remote
    park := a.park.map fun p => { p with causes := p.causes.filter fun c => !mine.contains c } }

/-- A request ends: its tag is free, and its requester has the answer. -/
def State.endTag (s : State) (n : Nat) (e : RemoteEnd) : State :=
  match s.fab.tags.look n with
  | none => s
  | some t =>
    let s := { s with fab := { s.fab with tags := s.fab.tags.del n } }
    match t.record with
    | some k => s.modRec (t.key, k) fun r => { r with remote := setAnswer n e r.remote }
    | none => s.modKey t.key fun g => g.setArm t.who ((g.arm t.who).answered n e)

/-- The request that an answer on a port is for: one sent on that port, else on a port that has gone down since (R248). -/
def State.tagOf (s : State) (port tag : Nat) : Nat :=
  if (s.fab.tags.look (port * 1024 + tag)).isSome then port * 1024 + tag
  else match (List.range 16).find? fun p => (s.portAt p).down && (s.fab.tags.look (p * 1024 + tag)).isSome with
    | some p => p * 1024 + tag
    | none => port * 1024 + tag

/-- Bytes that a tag's answer brings. -/
def State.tagData (s : State) (tag : Nat) : Nat := match s.fab.tags.look tag with | some y => y.data | none => 0

/-- FABRIC_RESPONSE: an answer of more than 48 bytes waits for its data flits (R246; log 93). -/
def execFabricResponse (a : Arrival) (e : RemoteEnd) (s : State) : Host.Outcome State Fault Refusal :=
  .next (s.onFlit a fun t =>
    let tag := t.tagOf a.port a.flit.tag.toNat
    match e with
    | .ok n => if t.tagData tag ≤ 48 then t.endTag tag e else t.holdFlit a.port { a.flit with kind := 3 } (toBytes 48 n)
    | _ => t.endTag tag e)

/-- A write or an answer has come whole. -/
def State.endParts (s : State) (port : Nat) (f : Flit) (l : List Byte) : State :=
  if f.kind = 3 then s.endTag (s.tagOf port f.tag.toNat) (.ok (ofBytes l)) else s.serveFar port f l

/-- A data flit continues what the last first flit on its port began; it names nothing itself. After a failure of the device's
bring-up it is performed no more (R253). -/
def execFabricData (a : Arrival) (payload : List Byte) (s : State) : Host.Outcome State Fault Refusal :=
  .next (match s.takeFlit a with
    | none => s
    | some t => match t.fab.parts.find? fun x => x.1 == a.port with
      | none => t
      | some (port, g, l) =>
        let l := l ++ slice payload 0 64
        let rest := { t with fab := { t.fab with parts := t.fab.parts.filter fun x => x.1 != a.port } }
        if !t.forUs g then rest
        else if (if g.kind = 3 then t.tagData (t.tagOf port g.tag.toNat) else flitBrings g) ≤ l.length then rest.endParts port g l
        else t.holdFlit port g l)

/-- FABRIC_TIMEOUT: a request, by its port × 1,024 + tag, has had no response for 10 ms (R248). -/
def execFabricTimeout (tag : Nat) (s : State) : Host.Outcome State Fault Refusal :=
  match s.fab.tags.look tag with
  | some t => .next (if t.sent + 10000000 ≤ s.pm.time then s.endTag tag .memFault else s)
  | none => .next s

/-! ## Links -/

/-- LINK_CREDIT: a credit flit is taken once like any other (R248). -/
def execLinkCredit (a : Arrival) (n : Nat) (s : State) : Host.Outcome State Fault Refusal :=
  .next (match s.takeFlit a with
    | some t => t.modPort a.port fun x => { x with credit := x.credit + n }
    | none => s)

/-- LINK_RETRY: a flit was resent, or a resend of it failed; after eight failures the port goes down (R248). -/
def execLinkRetry (port : Nat) (resent : Bool) (s : State) : Host.Outcome State Fault Refusal :=
  let x := s.portAt port
  if 16 ≤ port || x.down then .next s
  else if resent then .next (s.modPort port fun y => { y with resends := 0 })
  else if x.resends + 1 < 8 then .next (s.modPort port fun y => { y with resends := y.resends + 1 })
  else .next ((s.modPort port fun y => { y with resends := 0, down := true }).event 0x4E [port])

/-- A flit with a reserved KIND is dropped and counted. -/
def execReservedKindFlit (a : Arrival) (s : State) : Host.Outcome State Fault Refusal :=
  .next (match s.takeFlit a with
    | some t => if a.flit.kind.toNat < 6 then t else { t with fab := { t.fab with dropped := t.fab.dropped + 1 } }
    | none => s)

/-! ## The fault service (R232) -/

def Cause.ofTicket (id : Nat) : Cause → Bool
  | .ticket n _ => n == id
  | _ => false

/-- What a response for a page's ticket does to a park that waits on it. A rejected fetch has a cause of no lanes. -/
def Park.answer (p : Park) (id page : Nat) (reject : Bool) : Park :=
  let mine := p.causes.filter (Cause.ofTicket id)
  let lanes := mine.foldl (fun l c => match c with | .ticket _ x => l ||| x | _ => l) (0 : LaneSet)
  let fetch := mine.any fun c => match c with | .ticket _ x => decide (x = 0) | _ => false
  { p with
    causes := p.causes.filter fun c => !c.ofTicket id
    rejected := if reject && lanes != 0 then (page, lanes) :: p.rejected else p.rejected
    fail := if reject && fetch then some (.trap .fetchFault 1) else p.fail }

def Group.ticketAnswer (g : Group) (id page : Nat) (reject : Bool) : Group :=
  g.mapArms fun a => { a with park := a.park.map (·.answer id page reject) }

/-- A response reaches everything that waits on its ticket when it arrives: arms of resident and saved groups, engine
requests, the Proctor, and requests of other devices. -/
def State.answerTicket (s : State) (p id : Nat) (reject : Bool) : State :=
  let page := match (s.parts.look p).bind fun x => x.tickets.find? fun t => t.id == id with | some t => t.page | none => 0
  let s := s.modPart p fun x => { x with tickets := x.tickets.filter fun t => t.id != id }
  let s := s.mapGroups fun g => if g.part = p then g.ticketAnswer id page reject else g
  let s := { s with teams := s.teams.mapV fun _ (t : Team) =>
    if t.part = p then { t with saved := t.saved.map fun (g : Group) => g.ticketAnswer id page reject } else t }
  let reqs : List ((GKey × Nat) × CmdRec) := s.groups.flatMap fun g => if g.part = p then
    g.eng.recs.filterMap fun (n, r) => if r.ticket = some id then some ((g.key, n), r) else none else []
  let s := reqs.foldl (fun t (q, r) =>
    if reject then t.failReq r.engineNo q r.op .memFault false else t.modRec q fun y => { y with ticket := none }) s
  let s := { s with swaps := s.swaps.mapV fun _ (x : Swap) =>
    if x.part = p && x.ticket == some id then { x with ticket := none, rejected := x.rejected || reject } else x }
  let mine := s.fab.held.filter fun h => h.ticket == id && h.part == p
  let s := { s with fab := { s.fab with held := s.fab.held.filter fun h => !(h.ticket == id && h.part == p) } }
  mine.foldl (fun t h =>
    if reject then t.answerFlit h.port h.flit .memFault else t.serveFar h.port h.flit h.payload) s

/-- Commit the records that wait in the fault unit while the fault ring has room. -/
def State.sendTickets (s : State) (p : Nat) : Nat → State
  | 0 => s
  | fuel + 1 =>
    match (s.parts.look p).bind fun x => x.tickets.find? fun t => !t.sent with
    | none => s
    | some t =>
      let (s', sent) := s.ringPush p (s.par p).faultRing (faultRecord t)
      if sent then
        (s'.modPart p fun x => { x with tickets := x.tickets.map fun y => if y.id = t.id then { y with sent := true } else y
          }).sendTickets p fuel
      else s'

/-- FAULT_RESPONSE: the fault unit receives one granule of eight responses, and sends the records that waited for room. -/
def execFaultResponse (part : Nat) (s : State) : Host.Outcome State Fault Refusal :=
  match s.parts.look part with
  | none => .next s
  | some x =>
    let s := match s.ringPop part (s.par part).respRing with
      | (s', none) => s'
      | (s', some l) => (List.range 8).foldl (fun t i =>
          let w := fieldAt l (8 * i) 8
          if w = 0 then t else t.answerTicket part (bits w 0 32) (bitB w 32)) s'
    .next (s.sendTickets part x.tickets.length)

/-- FAULT_STALL: a ticket has gone unanswered for 100 ms. -/
def execFaultStall (part ticket : Nat) (s : State) : Host.Outcome State Fault Refusal :=
  match (s.parts.look part).bind fun x => x.tickets.find? fun t => t.id == ticket with
  | none => .next s
  | some t =>
    if t.stalled || s.pm.time < t.time + 100000000 then .next s
    else .next ((s.modPart part fun x => { x with tickets := x.tickets.map fun y => if y.id = ticket then { y with stalled := true } else y
      }).event 0x49 [part, ticket])

end Sys2Proof.Machine
end

