-- ==== Sys2Proof/Machine/Place.lean ====
section
/-! DEFINITION. Placement of teams (R24–R25, R62, R103, R109, R187, R189–R190, R204, R207), and the queues of the command front
end (R198–R199, R205–R206). -/

namespace Sys2Proof.Machine

/-! ## Ready work -/

/-- Where ready work waits: a tray of a die, or a grid of the partition. -/
inductive WorkSrc where
  | tray (die n : Nat)
  | grid (i : Nat)
deriving DecidableEq, Repr

/-- Ready work: its type, queue, the TIME since which it is ready, its own die, its launch if it has one already. -/
structure Work where
  src : WorkSrc
  (type queue since die : Nat)
  launch : Option Nat
  recs : List Rec
deriving DecidableEq, Repr

def State.trayWork (s : State) (p : Nat) : List Work :=
  s.dies.flatMap fun (d, x) => x.trays.filterMap fun (n, t) =>
    if t.part = p && t.ready then
      some ⟨.tray d n, t.type, (t.recs.map (·.queue)).headD 0, t.since, d, none, t.recs⟩ else none

def State.gridWork (s : State) (p : Nat) : List Work :=
  match s.parts.look p with
  | none => []
  | some x => (x.grids.zipIdx).map fun (g, i) => ⟨.grid i, g.recd.type, g.recd.queue, g.since, g.die, some g.launch, [g.recd]⟩

/-- The deficit of a queue; 0 while it is not mapped. -/
def State.deficitOf (s : State) (p q : Nat) : Int :=
  match s.parts.look p with
  | some x => match x.mapped.vals.find? (·.q == q) with | some m => m.deficit | none => 0
  | none => 0

/-- The order of R207 and R189: the larger deficit, then PRIO, then the older. -/
def State.workBefore (s : State) (p : Nat) (a b : Work) : Bool :=
  let da := s.deficitOf p a.queue
  let db := s.deficitOf p b.queue
  let pa := TaskEntry.prio (s.rawEntry p a.type)
  let pb := TaskEntry.prio (s.rawEntry p b.type)
  decide (db < da) || (da == db && (decide (a.queue < b.queue) || (a.queue == b.queue &&
    (decide (pb < pa) || (pa == pb && decide (a.since < b.since))))))

/-! ## Launch checks (R187) -/

/-- Records a team takes (R189). DESIGN CHOICE (log 110), unsafe: records that wait in a tray launch as a node team, also where
their entry has become GRID since. -/
def State.workTakes (s : State) (p : Nat) (w : Work) : Nat :=
  match w.src with
  | .grid _ => 1
  | .tray _ _ =>
    let n := TaskEntry.cls (s.rawEntry p w.type)
    if n < 1 ∨ 64 < n then w.recs.length else min w.recs.length n

/-- What fails of the work as it stands: the CODE and the records concerned. A failing entry fails every record of the team,
a reserved bit its own record. DESIGN CHOICE (log 98), unsafe: a grid whose entry has changed under it is checked again for
each team, and where that fails its record is reported although some of its teams have launched. -/
def State.workFails (s : State) (p : Nat) (w : Work) : Option (Nat × List Rec) :=
  let l := w.recs.take (s.workTakes p w)
  match (match s.taskEntry p w.type with | none => some 0x01 | some e => s.launchFails p e) with
  | some c => some (c, l)
  | none => if l.any Rec.rsvd then some (0x0E, l.filter Rec.rsvd) else none

/-! ## Where a team fits -/

/-- Cores of a team placed at a core, and the groups of each. -/
def placeCores (k : Khdr) (core : Nat) : List Nat := if 16 < k.groups then [core, core + 1] else [core]
def groupsOn (k : Khdr) (core c : Nat) : List Nat :=
  (List.range k.groups).filter fun g => if 16 < k.groups then core + g % 2 == c else true

def State.freeSlots (s : State) (core : Nat) : List Nat := (List.range 32).filter (s.ctxIdle core)

/-- A cluster under exam takes no team, and a quarantined core never does (R207, R218). -/
def State.coreOpen (s : State) (p c : Nat) : Bool :=
  decide (4 ≤ s.pm.stage) &&
  let x := s.par p
  let cl := clusterOfCore c
  decide (x.clbase ≤ cl ∧ cl ≤ x.cllimit) && !(s.coreAt c).exam.quarantined &&
    !(List.range 4).any fun i => let e := (s.coreAt (4 * cl + i)).exam; e.running || e.wanted

/-- Leaves a core could give, by eviction too (R109). -/
def State.leavesHad (s : State) (c : Nat) : Nat := s.leavesFree c + s.obtainable c []

/-- Areas of the pool that a team takes at a core: its own, and a replay context on each core new to the partition (R204). -/
def State.poolNeed (s : State) (p : Nat) (k : Khdr) (pages core : Nat) : List (Nat × Nat) :=
  (4096, teamPool k pages) :: ((placeCores k core).filter fun c => !s.partOnCore p c).map fun _ => (4096, replayImage)

/-- The lowest place for a record block in the record area. -/
def State.recRoom (s : State) (p n : Nat) : Option Nat :=
  let x := s.par p
  let used := s.teams.vals.filterMap fun t => if t.part = p && !t.recs.isEmpty then some (t.recBlock, t.recBlock + 16 * t.recs.length) else none
  minBy id ((x.recBase :: used.map (·.2)).filter fun a => decide (x.recBase ≤ a ∧ a + 16 * n ≤ x.recBase + x.recSize) &&
    used.all fun u => decide (a + 16 * n ≤ u.1 ∨ u.2 ≤ a))

/-- The lowest team slot free on some cores (R107). -/
def State.teamSlot (s : State) (cs : List Nat) : Option Nat :=
  (List.range 32).find? fun n => !s.teams.vals.any fun t => t.slot == n && (teamCores t).any cs.contains

/-- Whether a die's slots suit a launch (R103). -/
def State.dieSuits (s : State) (p die : Nat) (k : Khdr) (launch : Option Nat) : Bool :=
  let l := match launch with | some n => (s.launches.look n).getD ⟨[], [], false⟩ | none => ⟨[], [], false⟩
  !l.barred.contains die && k.slots.all fun j => s.slotSuits p die j l.meas

/-- Whether a team fits at a core. -/
def State.fitsAt (s : State) (p : Nat) (k : Khdr) (pages n core : Nat) (launch : Option Nat) : Bool :=
  let cs := placeCores k core
  decide (core < 192) && (cs.length == 1 || core % 2 == 0) && cs.all (s.coreOpen p) && s.dieSuits p (dieOfCore core) k launch &&
    (cs.all fun c => decide ((groupsOn k core c).length ≤ (s.freeSlots c).length) &&
      decide (s.accUsed c + k.acc * (groupsOn k core c).length ≤ 8)) &&
    decide (k.leaves ≤ (cs.map s.leavesHad).sum) && (s.poolTake p (s.poolNeed p k pages core)).isSome &&
    (s.recRoom p n).isSome && (s.teamSlot cs).isSome

/-- Step 3 of R207: the cluster that takes a team. -/
def State.bestCluster (s : State) (p : Nat) (k : Khdr) (pages n : Nat) (w : Work) : Option Nat :=
  let ok := (List.range 48).filter fun cl => (List.range 4).any fun i => s.fitsAt p k pages n (4 * cl + i) w.launch
  let own := ok.filter fun cl => cl / 12 == w.die
  let l := if own.isEmpty then ok.filter fun cl => cl / 12 == (ok.headD 0) / 12 else own
  minBy (fun cl => 1000 - ((List.range 4).map fun i => (s.freeSlots (4 * cl + i)).length).sum) l

/-! ## Placement -/

/-- Take work off its tray or grid once some of its records, or one of its teams, have gone. -/
def State.takeWork (s : State) (p : Nat) (w : Work) (n : Nat) (whole : Bool) : State :=
  match w.src with
  | .grid i =>
    let step (g : Grid) (j : Nat) : Option Grid :=
      if j ≠ i then some g else if whole || g.next + 1 = g.total then none else some { g with next := g.next + 1 }
    s.modPart p fun x => { x with grids := x.grids.zipIdx.filterMap fun y => step y.1 y.2 }
  | .tray d k =>
    let cls := TaskEntry.cls (s.rawEntry p w.type)
    let left (t : Tray) (trays : Tbl Tray) : Tbl Tray :=
      let l := t.recs.drop n
      if l.isEmpty then trays.del k
      else
        let ready := decide (cls ≤ l.length) || l.any (·.flush)
        trays.ins k { t with recs := l, ready := ready, bell := s.pm.time, since := if ready then s.pm.time else t.since }
    match (s.dieAt d).trays.look k with
    | none => s
    | some t => s.modDie d fun y => { y with trays := left t y.trays }

/-- The groups of a team at their start (R25, R34, R62, R67, R190). -/
def State.newGroups (s : State) (p team tid count : Nat) (w : Work) (e : TaskEntry) (core block ctx : Nat) : List Group :=
  let k := Khdr.ofWord (TaskEntry.khdr e)
  let cw := ((s.windows p (TaskEntry.cwtab e)).getD []).ins 7 ⟨block, 16 * count⟩
  (placeCores k core).flatMap fun c => ((groupsOn k core c).zip (s.freeSlots c)).map fun (g, slot) =>
    let x := Group.start ⟨c, slot⟩ p team g tid k (TaskEntry.entry e) (TaskEntry.mon e) cw
    let sc : Tbl Word := Tbl.put 0 (Tbl.put 0 [] 1 (BitVec.ofNat 64 count)) 2 (BitVec.ofNat 64 w.type)
    { x with regs := { x.regs with s := sc }, img := ctx + g * TaskEntry.pages e * 4096, lastIssue := (s.coreAt c).opps }

/-- No core keeps constant words of a record block that is written anew. -/
def State.dropRecWords (s : State) (p block n : Nat) : State :=
  { s with cores := s.cores.mapV fun _ c =>
    { c with ccache := c.ccache.filter fun x => !(x.1.1 == p + 16 && decide (block ≤ x.1.2 ∧ x.1.2 < block + n)) } }

/-- A record block is written in the record area under the partition's key (R190, R204). -/
def State.writeRecs (s : State) (p block : Nat) (l : List Rec) : State :=
  let bs := l.flatMap Rec.bytes
  ((s.dropRecWords p block bs.length).claimRange block bs.length (s.par p).hdmKey).writeMem (cellsAt block bs)

/-- Place a team of ready work at a core. -/
def State.placeTeam (s : State) (p core : Nat) (w : Work) (e : TaskEntry) : State :=
  let k := Khdr.ofWord (TaskEntry.khdr e)
  let pages := TaskEntry.pages e
  let n := s.workTakes p w
  let recs := w.recs.take n
  let cs := placeCores k core
  match s.recRoom p n, s.teamSlot cs, s.poolTake p (s.poolNeed p k pages core) with
  | some block, some slot, some (ctx :: more) =>
    let id := s.cnt.team
    let launch := w.launch.getD s.cnt.launch
    let die := dieOfCore core
    let tid := match w.src, s.parts.look p with
      | .grid i, some x => match x.grids[i]? with | some g => g.next | none => 0
      | _, _ => 0
    let l := (s.launches.look launch).getD ⟨[], [], false⟩
    let meas := if l.meas.isEmpty then k.slots.foldl (fun t j => Tbl.ins t j (s.slotOf p die j).meas) ([] : Tbl (BitVec 256)) else l.meas
    let t : Team :=
      { part := p, type := w.type, tid := tid, khdr := TaskEntry.khdr e, core := core, pair := decide (16 < k.groups)
        queue := (recs.map (·.queue)).headD 0, recs := recs, recBlock := block, ctxAt := ctx
        descAt := ctx + teamImages k pages, imgBytes := teamImages k pages, descBytes := teamPool k pages - teamImages k pages
        noImg := false, extra := [], slot := slot
        launch := launch, retired := [], bars := [], start := s.pm.time, pre := .none, deadline := none, needAcc := 0
        needLeaves := 0, late := false, killed := false, saved := [], needSlots := [], fsreq := meas }
    let gs := s.newGroups p id tid n w e core block ctx
    let fresh := (cs.filter fun c => !s.partOnCore p c).zip more
    let s := { s with
      teams := s.teams.ins id t, launches := s.launches.ins launch { l with meas := meas }, others := s.others ++ gs
      cnt := { s.cnt with team := id + 1, launch := if w.launch.isSome then s.cnt.launch else s.cnt.launch + 1 } }
    let s := s.modPart p fun x => { x with replayCtx := fresh.foldl (fun t y => t.ins y.1 y.2) x.replayCtx }
    (s.writeRecs p block recs).takeWork p w n false
  | _, _, _ => s

/-- Take records off the head of a tray that is not launched. -/
def State.dropRecs (s : State) (w : Work) (n : Nat) (p : Rec → Bool) : State :=
  let left (trays : Tbl Tray) (k : Nat) (t : Tray) : Tbl Tray :=
    let l := ((t.recs.take n).filter fun r => !p r) ++ t.recs.drop n
    if l.isEmpty then trays.del k else trays.ins k { t with recs := l }
  match w.src with
  | .grid _ => s
  | .tray d k => match (s.dieAt d).trays.look k with
    | none => s
    | some t => s.modDie d fun y => { y with trays := left y.trays k t }

/-- Whether a grid's record has been reported already, and the note that it is (R192). -/
def State.isTold (s : State) (w : Work) : Bool :=
  match w.launch.bind s.launches.look with | some l => l.told | none => false
def State.tell (s : State) (w : Work) : State :=
  match w.launch with
  | some n => { s with launches := s.launches.ins n { (s.launches.look n).getD ⟨[], [], false⟩ with told := true } }
  | none => s

/-- Report work whose launch fails: one error record for the records of a team, or one for each record that fails by
itself. The record of a grid is reported once (R192). -/
def State.rejectWork (s : State) (p code : Nat) (w : Work) (bad : List Rec) : State :=
  let n := s.workTakes p w
  if s.isTold w then s.takeWork p w n true
  else if code = 0x0E ∧ bad.all Rec.rsvd then
    let t := bad.foldl (fun t r => t.errReport p code w.type r.qslot 1 r) s
    match w.src with
    | .grid _ => (t.tell w).takeWork p w n true
    | .tray _ _ => t.dropRecs w n Rec.rsvd
  else match bad with
    | r :: _ => ((s.errReport p code w.type r.qslot bad.length r).tell w).takeWork p w n true
    | [] => s.takeWork p w n true

/-- The work the CFE picks: of the queue with the largest deficit among those with ready work, the tray that goes next
(R189, R207); and how its records fail, if they do. -/
def State.pickWork (s : State) (p : Nat) : Option (Work × Option (Nat × List Rec)) :=
  ((s.trayWork p ++ s.gridWork p).foldl (fun best x => match best with
    | none => some x
    | some y => if s.workBefore p x y then some x else some y) none).map fun w => (w, s.workFails p w)

/-- TEAM_PLACEMENT: the CFE of a partition places the team it picks, on a core of the cluster that R207 names. -/
def execTeamPlacement (part core : Nat) (s : State) : Host.Outcome State Fault Refusal :=
  match s.parts.look part with
  | none => .next s
  | some x =>
    if x.fenced || s.pm.stopped then .next s
    else match s.pickWork part with
      | none => .next s
      | some (w, some (c, l)) => .next ((s.claimEntry part w.type).rejectWork part c w l)
      | some (w, none) =>
        let s := s.claimEntry part w.type
        let e := s.rawEntry part w.type
        let k := Khdr.ofWord (TaskEntry.khdr e)
        let n := s.workTakes part w
        if s.bestCluster part k (TaskEntry.pages e) n w = some (clusterOfCore core) && s.fitsAt part k (TaskEntry.pages e) n core w.launch then
          .next (s.placeTeam part core w e)
        else .next s

/-! ## Trays' bells and the spill queue -/

/-- BELL_EXPIRY: the bell of a tray that holds records has run out (R189). -/
def execBellExpiry (die tray : Nat) (s : State) : Host.Outcome State Fault Refusal :=
  match (s.dieAt die).trays.look tray with
  | none => .next s
  | some t =>
    let b := TaskEntry.bell (s.rawEntry t.part t.type)
    if b = 0 || t.ready || t.recs.isEmpty || s.pm.time < t.bell + 64 * b then .next s
    else .next (s.modDie die fun d => { d with trays := d.trays.ins tray { t with ready := true, since := s.pm.time } })

/-- The oldest spilled record whose tray has room, with what is left. -/
def State.unspill (s : State) (p : Nat) : List Spilled → List Spilled → Option (State × List Spilled)
  | _, [] => none
  | kept, y :: rest =>
    let blocked := kept.any fun z => z.die == y.die && z.recd.type == y.recd.type
    match (if blocked then none else s.toTray p y.die (s.spillRead p y)) with
    | some s' => some (s', kept ++ rest)
    | none => s.unspill p (kept ++ [y]) rest

/-! ## Queues (R199, R205, R206) -/

/-- The die from which a partition's seed rings route: that of its lowest cluster. -/
def State.seedDie (s : State) (p : Nat) : Nat := (s.par p).clbase / 12

/-- Draw a mapped queue's seed ring, granule by granule, while its records find room. -/
def State.drawSeed (s : State) (p slot : Nat) (m : MapQ) : Nat → State
  | 0 => s
  | fuel + 1 =>
    match s.ringPop p m.ring with
    | (s', none) => s'.modPart p fun x => { x with mapped := x.mapped.upd slot fun y => { y with cut := false } }
    | (s', some g) =>
      let recs := (List.range 4).map fun i => Rec.ofBytes (slice g (16 * i) 16) m.q slot
      let (s'', left) := s'.routeAll p (s.seedDie p) recs
      if left.isEmpty then s''.drawSeed p slot m fuel
      else s.modPart p fun x => { x with mapped := x.mapped.upd slot fun y => { y with cut := true } }

/-- Records that wait at the home join a tray or the spill queue, in order, while there is room (R307). -/
def State.drainHome (s : State) (p : Nat) : List (Nat × Rec) → State
  | [] => s.modPart p fun x => { x with home := [] }
  | (d, r) :: rest => match s.route p d r with
    | some s' => s'.drainHome p rest
    | none => s.modPart p fun x => { x with home := (d, r) :: rest }

/-- The same for successor records of other devices' DEPDECs, each acknowledged as it joins (R193, R307). -/
def State.drainFar (s : State) (p : Nat) : State :=
  let mine := s.fab.held.filter fun h => h.ticket == 0 && h.part == p
  mine.foldl (fun t h => match t.route p (s.homeOf p (fieldAt h.payload 16 8) / 2) (Rec.ofBytes h.payload 0 0xFF) with
    | some t' => ({ t' with fab := { t'.fab with held := t'.fab.held.filter (· != h) } }).answerFlit h.port h.flit (.ok 1)
    | none => t) s

/-- SPILL_MOVE: a spilled record moves into a tray, records that wait at the home follow, and seed rings that stopped are
drawn again (R188, R204, R307). DESIGN CHOICE (log 113), unsafe: such a draw takes what is committed when it goes on, also
after the last notify. -/
def execSpillMove (part : Nat) (s : State) : Host.Outcome State Fault Refusal :=
  match s.parts.look part with
  | none => .next s
  | some x =>
    let s := match s.unspill part [] x.spill with
      | none => s
      | some (s', l) => s'.modPart part fun y => { y with spill := l }
    .next (x.mapped.foldl (fun t (slot, m) => if m.cut then t.drawSeed part slot m (2 ^ 20) else t) ((s.drainHome part x.home).drainFar part))

/-- A queue's descriptor; none where it cannot be read or breaks the table (R205). -/
def State.queueDesc (s : State) (p q : Nat) : Option MapQ :=
  match s.devPa p .read ((s.par p).qdt + 32 * q) 32 with
  | none => none
  | some pa =>
    let b := s.mem.bytes pa 32
    let flags := fieldAt b 9 1
    let w := fieldAt b 0xA 1
    let dl := fieldAt b 0xC 4
    if !bitB flags 0 || 4 ≤ flags || w = 0 || someByte b 0xB 1 || dl < 1 || 100000 < dl || someByte b 0x10 16 ||
        fieldAt b 0 9 % 64 != 0 then none
    else some ⟨q, fieldAt b 0 9, bitB flags 1, w, dl, 0, s.pm.time, false, 0⟩

/-- Slots of SLOTS that hold no queue. -/
def State.freeQSlot (s : State) (p : Nat) : Option Nat :=
  match s.parts.look p with
  | none => none
  | some x => (List.range 64).find? fun n => x.par.slots.getLsbD n && (x.mapped.look n).isNone

/-- Map a queue in a slot, clear its roll bit and serve it. -/
def State.mapQueue (s : State) (p slot : Nat) (m : MapQ) : State :=
  (s.modPart p fun x => { x with
    mapped := x.mapped.ins slot m, roll := x.roll &&& ~~~(BitVec.ofNat 64 (2 ^ m.q)) }).drawSeed p slot m (2 ^ 20)

end Sys2Proof.Machine
end

