-- ==== Sys2Proof/Machine/Save.lean ====
section
/-! DEFINITION. Teams leaving their cores and coming back: saves, discards, deadlines and resumptions (R50, R63, R70–R71,
R116–R117, R138–R139, R147, R159, R191, R197, R213–R215, R230). -/

namespace Sys2Proof.Machine

def execPreemptionRequest (team deadline newAcc newLeaves : Nat) (s : State) : Host.Outcome State Fault Refusal :=
  .next (s.preempt team deadline newAcc newLeaves)

/-- The deadline of a pre-empted team has passed: counted once where the team is still there (R215). -/
def State.countLate (s : State) (tid : Nat) : State :=
  match s.teams.look tid with
  | none => s
  | some t =>
    let early : Bool := match t.deadline with | some d => decide (s.pm.time ≤ d) | none => true
    if t.late || early then s
    else (s.modTeam tid fun t => { t with late := true }).modPart t.part fun p => { p with late := sat32 (p.late + 1) }

/-- PREEMPT_DEADLINE: a drain that has not ended by its deadline becomes a save (R214). -/
def execPreemptDeadline (team : Nat) (s : State) : Host.Outcome State Fault Refusal :=
  match s.teams.look team with
  | none => .next s
  | some t =>
    let early : Bool := match t.deadline with | some d => decide (s.pm.time < d) | none => true
    if t.pre = .none ∨ t.pre = .saved ∨ early then .next s
    else
      let s := s.countLate team
      .next (if t.pre = .drain then (s.modTeam team fun t => { t with pre := .saving }).killReplays team else s)

/-! ## SAVE_COMPLETE -/

/-- Whether a collective operation of a saved group is withdrawn (R147): it waits in its touch phase or for its version, or an
MSTZ for an older one that is withdrawn (log 36). -/
def Group.withdraws (g : Group) (id : Nat) (o : Op) : Bool :=
  match o.kind with
  | .coll z ver _ _ snap _ => !g.collReady z ver snap || (o.isStz && snap.isNone && g.stzDue o.who id)
  | _ => false

/-- Whether an operation lets its group be saved: one that is withdrawn, a copy command (R63), or a FENCE that waits for an
MSTZ which is withdrawn (log 36). A discard waits for copy commands too (R50). -/
def Group.opSaves (g : Group) (discard : Bool) (id : Nat) (o : Op) : Bool :=
  match o.kind with
  | .engine _ => !discard
  | .fence _ => g.stzOwed o.who id || (g.stzOps o.who).any fun x => decide (x.1 < id) && g.withdraws x.1 x.2
  | _ => g.withdraws id o

/-- Whether a control thread waits for another device without being parked. -/
def Arm.asks (a : Arm) : Bool := a.park.isNone && a.remote.any fun r => r.answer.isNone

/-- Whether everything a group has outstanding has completed, parked, or may be withdrawn or paused. -/
def Group.saves (discard : Bool) (g : Group) : Bool :=
  g.ops.all (fun x => g.opSaves discard x.1 x.2) && [g.a0, g.a1, g.mon.arm].all (fun a => !a.asks) &&
    g.eng.recs.vals.all fun r => r.remote.isEmpty

/-- A park cause that is not tested afresh when the group resumes. -/
def Cause.kept : Cause → Bool
  | .ticket _ _ => true
  | _ => false

/-- A control thread as the image holds it: reservations, sleeps and counters of waits are gone (R63, R70, R147). -/
def Arm.saved (a : Arm) : Arm :=
  { a with resv := [], sleep := none, barw := none, yield := none, hint := false, defer := false, age := 0, remote := []
           park := a.park.map fun p => { p with causes := p.causes.filter Cause.kept } }

/-- A group as it is saved: what waited is withdrawn (R147). -/
def Group.saved (g : Group) : Group :=
  { (g.withdrawAll fun _ => true).mapArms Arm.saved with passWait := false, passReady := false }

/-- FENCEs that the region to be restarted had issued are taken back. -/
def Group.dropFences (g : Group) : Group :=
  (g.ops.filter fun x => decide (g.rg.firstOp ≤ x.1) && match x.2.kind with | .fence _ => true | _ => false).foldl
    (fun h x => { h.setArm x.2.who ((h.arm x.2.who).decFlag x.2.flag) with ops := h.ops.del x.1 }) g

/-- A group of a discarded team restarts at RGPC; of what was withdrawn, it issues again what it had issued before the region
(R50, R147). DESIGN CHOICE (log 81), unsafe: its monitor wave goes on where it stands, with its unread entries (R46). -/
def Group.restarted (g : Group) : Group :=
  let w := g.rg.arm
  let g := g.withdrawAll fun _ => true
  let g := { g with redo := g.redoKept }
  let g := (g.dropFences).mapArms Arm.unback
  let a := g.arm w
  g.setArm w { a with pc := g.rg.rgpc.toNat, jumped := true, cl := Clause.start, rets := a.rets.drop (a.rets.length - g.rg.depth)
                      park := none, remote := [], uses := [] }

/-- A group of a discarded team: nothing of it is written to an image, and its registers and accumulators keep their values
(R50, R70; log 16). -/
def Group.discarded (g : Group) : Group := { g.restarted.saved with lines := [], zout := List.range g.shape.nacc }

/-- Requests of a group at ring homes: granted ones complete with their positions, the others are withdrawn (R197). -/
def State.settleRings (s : State) (k : GKey) : State :=
  let mine := s.waits.filter fun w => decide (w.key = k)
  let back := s.grp.key
  let who := s.who
  let s := mine.foldl (fun t w => (t.focus k w.who).settleGrant) s
  (s.leaveRings k).focus back who

/-- What a save does to a slate of the team: a derived one is dropped, the dirty sectors of a mapped one are written back
(R116). -/
def State.saveSlate (s : State) (core id : Nat) : State :=
  match s.desc? core id with
  | none => s
  | some d => match d.kind with
    | .scratch => s
    | .derived => s.dropSlate core id
    | .mapped => d.secs.foldl (fun t (i, _) => t.writeBack core id i) s

/-- The descriptor area of a core: 64 bytes for each descriptor id, its descriptor and its crib entry (R116). -/
def State.descArea (s : State) (core team : Nat) : List Byte :=
  (List.range 256).flatMap fun i => match s.desc? core i with
    | some d => if d.team = team then
        toBytes 32 (s.descWord core i d) ++ toBytes 32 (match d.crib.bind (s.crib? core) with | some x => x.word | none => 0)
      else List.replicate 64 (0 : Byte)
    | none => List.replicate 64 (0 : Byte)

def State.writeDescs (s : State) (team : Nat) (t : Team) : State :=
  (teamCores t).zipIdx.foldl (fun u (c, i) => u.writeArea t.part (t.descAt + 16384 * i) (u.descArea c team)) s

/-- Leaves of a saved team are let go until `n` are free on a core, or the team has none left (R116). -/
def State.leavesOut (s : State) (core team n : Nat) : Nat → State
  | 0 => s
  | fuel + 1 =>
    if s.leavesUsed core + n ≤ 2016 then s
    else match s.evictOne core ((s.coreAt core).descs.keep fun _ d => d.team != team).keys with
      | none => s
      | some s' => s'.leavesOut core team n fuel

/-- What a save copies out at once for the newcomer: accumulators and scratch leaves (R70, R116, R214). -/
def State.eagerOut (s : State) (team : Nat) (t : Team) : State :=
  (teamCores t).foldl (fun u c => (u.claimAcc c t.needAcc 300).leavesOut c team t.needLeaves 2100) s

/-- SAVE_COMPLETE: nothing holds the save up any more, and the team's groups leave their cores. The images of a discarded team
are not written (R70). -/
def execSaveComplete (team : Nat) (s : State) : Host.Outcome State Fault Refusal :=
  match s.teams.look team with
  | none => .next s
  | some t =>
    let discard := decide (t.pre = .discard)
    if t.pre ≠ .saving ∧ !discard then .next s
    else if !(s.teamGroups team).all (Group.saves discard) then .next s
    else
      let s := s.killReplays team
      let keys := (s.teamGroups team).map (·.key)
      let s := keys.foldl State.settleRings s
      let s := keys.foldl State.pauseGroup s
      let gs := (s.teamGroups team).map fun g => if discard then g.discarded else g.saved.linesEvictable true
      let s := keys.foldl State.removeGroup s
      let s := keys.foldl (fun u k => (u.unholdToucher k .arm0).unholdToucher k .arm1) s
      let s := (teamCores t).foldl (fun u c => (u.teamDescs c team).foldl (fun v id => v.saveSlate c id) u) s
      let s := (s.countLate team).modTeam team fun t => { t with
        pre := .saved, deadline := none, saved := gs, start := s.pm.time - t.start, noImg := discard }
      let s := if discard then s else gs.foldl State.writeImage s
      let s := (s.writeDescs team t).eagerOut team t
      .next ((teamCores t).foldl (fun u c => u.restoreAcc c 8) (s.grantPasses 768))

/-! ## TEAM_RESUME -/

/-- How numbers move between two tables: each keeps its number where that is free, and the others take the lowest free
ones. -/
def renumberRest (used : List Nat) : List Nat → List (Nat × Nat)
  | [] => []
  | i :: rest =>
    let j := ((List.range 256).find? fun k => !used.contains k).getD 256
    (i, j) :: renumberRest (j :: used) rest
def renumber (used ids : List Nat) : List (Nat × Nat) :=
  let keep := ids.filter fun i => !used.contains i
  (keep.map fun i => (i, i)) ++ renumberRest (used ++ keep) (ids.filter used.contains)

def renamed (m : List (Nat × Nat)) (i : Nat) : Nat := (assoc m i).getD i

/-- Cribs of a team on a core. -/
def State.teamCribs (s : State) (core team : Nat) : List Nat := ((s.coreAt core).cribs.keep fun _ x => x.team == team).keys

/-- A slate of a resumed team: every scratch leaf present and renewed, on another core with stamps of its new RCLK; mapped
sectors stay only on the core that holds them (R116, R117). -/
def Desc.resumed (d : Desc) (moved : Bool) (t touch : Nat) : Desc :=
  let d := { d with holds := [] }
  match d.kind with
  | .scratch => { d.mapSecs (·.renew t) with leafs := (List.range d.leaves).map fun k => (k, (d.leafs.look k).getD touch) }
  | .mapped => if moved then { d with secs := [], dflt := Sector.fresh 0, leafs := [] } else d
  | .derived => d

/-- Move a team's descriptors and cribs between two cores under their new numbers. `far` renumbers the pair partner's
descriptors. -/
def State.moveSlates (s : State) (team src dst : Nat) (ds far : List (Nat × Nat)) (cs : List (Nat × Nat)) : State :=
  let x := s.coreAt src
  let descs := x.descs.keep fun _ d => d.team == team
  let cribs := x.cribs.keep fun _ c => c.team == team
  let s := s.setCore src { x with
    descs := x.descs.keep fun _ d => d.team != team, cribs := x.cribs.keep fun _ c => c.team != team }
  s.modCore dst fun y => { y with
    descs := descs.foldl (fun t (i, d) => Tbl.ins t (renamed ds i) { d with crib := d.crib.map (renamed cs) }) y.descs
    cribs := cribs.foldl (fun t (i, c) => Tbl.ins t (renamed cs i) { c with
      slate := renamed ds c.slate, srcs := c.srcs.map fun (j, f) => (renamed (if f then far else ds) j, f) }) y.cribs }

/-- A saved group at its new place. On another core its saved lines are absent and fill on touch (R71). -/
def Group.resumed (g : Group) (key : GKey) (elsewhere : Bool) : Group :=
  let line (x : VLine) : VLine :=
    { x with evict := false, cached := x.cached && !(elsewhere && x.evict), dirty := x.dirty && !(elsewhere && x.evict) }
  { g with key := key, lines := g.lines.mapV fun _ x => line x, zout := [] }

/-- Before a saved group issues on another core its dirty lines and its accumulators are written back (R71). -/
def State.flushGroup (s : State) (g : Group) : State :=
  if g.lines.vals.any (·.evict) || g.lines.isEmpty then
    ((List.range g.shape.nacc).filter fun z => !g.zout.contains z).foldl (fun t z => t.accOut g z) (s.flushLines g)
  else s

/-- Areas of the context pool that a resumed team takes: its images anew after a discard, and a replay context on each core new
to the partition (R70, R131). -/
def State.resumeNeed (s : State) (t : Team) (cs : List Nat) : List (Nat × Nat) :=
  (if t.noImg then [(4096, t.imgBytes)] else []) ++ (cs.filter fun c => !s.partOnCore t.part c).map fun _ => (4096, replayImage)

/-- Whether a saved group may go on at a core with the slots that its parked instructions use: with the bindings they hold, so
that no operation mixes two (R97). Where a binding has ended meanwhile, the group waits. -/
def State.usesKept (s : State) (g : Group) (core : Nat) : Bool :=
  [g.a0, g.a1, g.mon.arm].all fun a => a.uses.all fun j =>
    let old := s.slotOf g.part (dieOfCore g.key.core) j
    let new := s.slotOf g.part (dieOfCore core) j
    decide (j < 8) || (old.st != .unbound && new.st != .unbound && old.meas == new.meas)

/-- Whether a saved team fits at a core (R71, R103, R117, R139). -/
def State.resumesAt (s : State) (t : Team) (tid core : Nat) : Bool :=
  let k := Khdr.ofWord t.khdr
  let cs := placeCores k core
  let from' := teamCores t
  let meas := match s.launches.look t.launch with | some l => l.meas | none => []
  let room (i : Nat) (c : Nat) : Bool :=
    let o := from'.getD i c
    let n := (t.saved.filter fun g => g.key.core == o).length
    let own := decide (o = c)
    let held : Nat := if own then 0 else (s.teamDescs o tid).length
    let crs : Nat := if own then 0 else (s.teamCribs o tid).length
    let leaves := ((s.coreAt o).descs.vals.filter fun d => d.team == tid && d.kind == .scratch).map (·.leaves)
    decide (n ≤ (s.freeSlots c).length) && decide (s.accUsed c + k.acc * n ≤ 8) &&
      decide ((s.coreAt c).descs.length + held ≤ 256) && decide ((s.coreAt c).cribs.length + crs ≤ 256) &&
      decide (leaves.sum ≤ s.leavesHad c)
  decide (core < 192) && (cs.length == 1 || core % 2 == 0) && cs.all (s.coreOpen t.part) &&
    ((k.slots ++ t.needSlots).all fun j => s.slotSuits t.part (dieOfCore core) j meas) && (t.saved.all fun g => s.usesKept g core) &&
    cs.zipIdx.all (fun x => room x.2 x.1) && (decide (t.core = core) || (s.teamSlot cs).isSome) &&
    (s.poolTake t.part (s.resumeNeed t cs)).isSome

/-- The scratch leaves of a team are all present on a core again, and its slates are as they resume. -/
def State.restoreSlates (s : State) (tid : Nat) (moved : Bool) (c : Nat) : Option State :=
  let mine := s.teamDescs c tid
  let lack := (mine.map fun i => match s.desc? c i with
    | some d => if d.kind = .scratch then d.leaves - d.leafs.length else 0
    | none => 0).sum
  (s.room c lack 0 mine).map fun u => mine.foldl (fun v i => v.modDesc c i fun d => d.resumed moved (v.rclk c) v.cnt.touch) u

/-- A team's slates and cribs go to another core, with the leaves that its store held (R117). -/
def State.liftSlates (s : State) (tid : Nat) (old new : List Nat) : State :=
  let move (c : Nat) : Nat := assoc (old.zip new) c |>.getD c
  let ds (c : Nat) : List (Nat × Nat) := renumber ((s.coreAt (move c)).descs.keep fun _ d => d.team != tid).keys (s.teamDescs c tid)
  let cs (c : Nat) : List (Nat × Nat) := renumber ((s.coreAt (move c)).cribs.keep fun _ x => x.team != tid).keys (s.teamCribs c tid)
  let maps := old.map fun c => (c, ds c, cs c)
  let far (c : Nat) : List (Nat × Nat) := match assoc maps (partnerOf c) with | some m => m.1 | none => []
  let s := old.foldl (fun u c => (u.teamDescs c tid).foldl (fun v i => v.modDesc c i fun d => { d with leafs := [] }) u) s
  maps.foldl (fun u m => u.moveSlates tid m.1 (move m.1) m.2.1 (far m.1) m.2.2) s

/-- Bring a saved team back at a core; none where its leaves are not to be had. -/
def State.resumeTeam (s : State) (tid core : Nat) (t : Team) : Option State :=
  let k := Khdr.ofWord t.khdr
  let old := teamCores t
  let new := placeCores k core
  let moved := decide (t.core ≠ core)
  let move (c : Nat) : Nat := assoc (old.zip new) c |>.getD c
  let slot := if moved then (s.teamSlot new).getD t.slot else t.slot
  let areas := (s.poolTake t.part (s.resumeNeed t new)).getD []
  let images := if t.noImg then areas.headD t.ctxAt else t.ctxAt
  let fresh := (new.filter fun c => !s.partOnCore t.part c).zip (if t.noImg then areas.drop 1 else areas)
  let s := if moved then (t.saved.foldl State.flushGroup s).liftSlates tid old new else s
  (new.foldl (fun u c => u.bind fun v => v.restoreSlates tid moved c) (some s)).map fun s =>
    let saved := match s.teams.look tid with | some u => u.saved | none => []
    let place := new.flatMap fun c => s.freeSlots c |>.map fun n => (⟨c, n⟩ : GKey)
    let gs := saved.foldl (fun (acc : List Group × List GKey) g =>
      let c := move g.key.core
      match (if acc.2.contains ⟨c, g.key.slot⟩ then some ⟨c, g.key.slot⟩ else acc.2.find? fun q => q.core == c) with
      | some q =>
        let x := { g.resumed q moved with lastIssue := (s.coreAt c).opps, img := images + (g.img - t.ctxAt) }
        (acc.1 ++ [x], acc.2.filter (· != q))
      | none => acc) ([], place)
    let s := { s with others := s.others ++ gs.1 }
    let s := s.modPart t.part fun x => { x with replayCtx := fresh.foldl (fun u y => u.ins y.1 y.2) x.replayCtx }
    let s := s.modTeam tid fun t => { t with
      core := core, slot := slot, pre := .none, saved := [], start := s.pm.time - t.start, needSlots := [], ctxAt := images, noImg := false
      bars := t.bars.map fun b => { b with core := move b.core } }
    (gs.1.foldl (fun u g => u.requeue g.key) s).dropContexts t.part

/-- TEAM_RESUME of a saved team on a core where it fits. -/
def execTeamResume (team core : Nat) (s : State) : Host.Outcome State Fault Refusal :=
  match s.teams.look team with
  | none => .next s
  | some t =>
    let fenced : Bool := match s.parts.look t.part with | some p => p.fenced | none => true
    if t.pre = .saved && !fenced && !s.pm.stopped && s.resumesAt t team core then .next ((s.resumeTeam team core t).getD s)
    else .next s

end Sys2Proof.Machine
end

