-- ==== Sys2Proof/Machine/Sched.lean ====
section
/-! DEFINITION. Queues and their slots, deficits, shares, hall-pass quotas and caps, and exams (R198–R199, R205–R206, R209–R211,
R216–R222, R245). -/

namespace Sys2Proof.Machine

/-! ## The roll (R206) -/

/-- Teams of a queue that are resident. -/
def State.residentTeams (s : State) (p q : Nat) : List (Nat × Team) :=
  s.teams.filter fun x => x.2.part == p && x.2.queue == q && x.2.pre != .saved

def State.modRoll (s : State) (p : Nat) (f : Word → Word) : State := s.modPart p fun x => { x with roll := f x.roll }
def State.setRoll (s : State) (p q : Nat) : State := s.modRoll p fun w => w ||| BitVec.ofNat 64 (2 ^ q)
def State.clearRoll (s : State) (p q : Nat) : State := s.modRoll p fun w => w &&& ~~~(BitVec.ofNat 64 (2 ^ q))

/-- Take a queue out of its slot: its resident teams are pre-empted, and its bit is set again while its seed ring holds
committed granules. -/
def State.unmapQueue (s : State) (p slot : Nat) (m : MapQ) : State :=
  let s := s.modPart p fun x => { x with mapped := x.mapped.del slot }
  let s := (s.residentTeams p m.q).foldl (fun t x => t.preempt x.1 (t.pm.time + 1000 * m.deadline) 0 0) s
  if s.ringHas p m.ring then s.setRoll p m.q else s

/-- Map a queue in a slot once its descriptor has been read; one that breaks the table is not mapped (R205). `free` empties
the slot first. -/
def State.tryMap (s : State) (p q slot : Nat) (free : State → State) : State :=
  match s.queueDesc p q with
  | none => (s.clearRoll p q).event 0x44 [p, q]
  | some m => (free s).mapQueue p slot m

/-- The CFE acts on a set roll bit: steps 1 to 4 of R206. -/
def State.serveRoll (s : State) (p q : Nat) : State :=
  match s.parts.look p with
  | none => s
  | some x =>
    match x.mapped.find? fun y => y.2.q == q with
    | some (slot, m) => (s.clearRoll p q).drawSeed p slot m (2 ^ 20)
    | none => match s.freeQSlot p with
      | some slot => s.tryMap p q slot id
      | none => match minBy (fun y => y.2.since) (x.mapped.filter fun y => y.2.preempt && x.par.slots.getLsbD y.1) with
        | some (slot, old) => s.tryMap p q slot fun t => t.unmapQueue p slot old
        | none => (s.modPart p fun y => { y with starved := sat32 (y.starved + 1) }).event 0x42 [p, q]

/-- Whether the host reaches the device's functions: from stage 5 of bring-up on (R253). -/
def State.hostUp (s : State) : Bool := s.pm.stage == 5 && !s.pm.failed

/-- NOTIFY: a host write to the ring window of a partition (R198, R206, R245). -/
def execNotify (part : Nat) (q : BitVec 6) (s : State) : Host.Outcome State Fault Refusal :=
  match s.parts.look part with
  | none => .next s
  | some x => .next (if x.fenced || s.pm.stopped || !s.hostUp then s else (s.setRoll part q.toNat).serveRoll part q.toNat)

/-- Whether a mapped queue has nothing left: no granules, no tray records, and no team resident or saved (R206). -/
def State.queueIdle (s : State) (p : Nat) (m : MapQ) : Bool :=
  let inTrays := s.dies.vals.any fun d => d.trays.vals.any fun t => t.part == p && t.recs.any fun r => r.queue == m.q
  !s.ringHas p m.ring && !inTrays && !s.teams.vals.any fun t => t.part == p && t.queue == m.q

/-- QUEUE_SLOT_FREE: a queue with nothing left is freed from its slot, and the CFE tries the set roll bits again. -/
def execQueueSlotFree (part slot : Nat) (s : State) : Host.Outcome State Fault Refusal :=
  match s.parts.look part with
  | none => .next s
  | some x => match x.mapped.look slot with
    | none => .next s
    | some m =>
      if x.fenced || !s.queueIdle part m then .next s
      else
        let s := s.modPart part fun y => { y with mapped := y.mapped.del slot }
        .next ((laneList x.roll).foldl (fun t q => t.serveRoll part q) s)

/-! ## Deficits (R209, R210) -/

def State.hasWork (s : State) (p q : Nat) : Bool := (s.trayWork p ++ s.gridWork p).any fun w => w.queue == q

/-- DEFICIT_CREDIT_PERIOD: every 100 µs. -/
def execDeficitCreditPeriod (s : State) : Host.Outcome State Fault Refusal :=
  .next { s with parts := s.parts.mapV fun p x =>
    { x with mapped := x.mapped.mapV fun _ m =>
      if (s.residentTeams p m.q).isEmpty && !s.hasWork p m.q then m
      else { m with deficit := min (2 ^ 24) (m.deficit + ((m.weight * 2 ^ 16 : Nat) : Int)) } } }

/-- The state as it would be with a team off its cores, to test placement. -/
def State.without (s : State) (tid : Nat) : State :=
  let s := (s.teamGroups tid).foldl (fun t g => t.removeGroup g.key) s
  s.modTeam tid fun t => { t with pre := .saved }

/-- The cluster that could take a team of some work. -/
def State.takerOf (s : State) (p : Nat) (w : Work) : Option Nat :=
  let e := s.rawEntry p w.type
  s.bestCluster p (Khdr.ofWord (TaskEntry.khdr e)) (TaskEntry.pages e) (s.workTakes p w) w

/-- Leaves that a newcomer cannot do without on the cores of a team: what its LEAVES need beyond the free and the obtainable
ones (R214). -/
def State.leavesShort (s : State) (tid leaves : Nat) : Nat :=
  match s.teams.look tid with
  | some t => leaves - ((teamCores t).map s.leavesHad).sum
  | none => 0

/-- Pre-empt teams in order until the work could be placed without them. -/
def State.preemptFor (s : State) (p : Nat) (w : Work) (deadline newAcc leaves : Nat) : State → List Nat → State
  | _, [] => s
  | hyp, t :: rest =>
    if (hyp.takerOf p w).isSome then s
    else (s.preempt t deadline newAcc (s.leavesShort t leaves)).preemptFor p w deadline newAcc leaves (hyp.without t) rest

/-- DEFICIT_COMPARE: every 1 ms (R210). -/
def execDeficitCompare (part : Nat) (s : State) : Host.Outcome State Fault Refusal :=
  match s.parts.look part with
  | none => .next s
  | some x =>
    let stuck := (s.trayWork part ++ s.gridWork part).filter fun w => (s.workFails part w).isNone && (s.takerOf part w).isNone
    let work := stuck.foldl (fun best w => match best with
      | none => some w
      | some b => if s.workBefore part w b then some w else some b) none
    match work with
    | none => .next s
    | some w =>
      let d := s.deficitOf part w.queue
      let rs := x.mapped.vals.filter fun m => m.preempt && m.q != w.queue && decide (m.deficit + 2 ^ 20 ≤ d) &&
        (s.residentTeams part m.q).any fun t => t.2.pre == .none
      match rs.foldl (fun best m => match best with
          | none => some m
          | some b => if m.deficit < b.deficit then some m else some b) (none : Option MapQ) with
      | none => .next s
      | some r =>
        let k := Khdr.ofWord (TaskEntry.khdr (s.rawEntry part w.type))
        let ts := (((s.residentTeams part r.q).filter fun t => t.2.pre == .none).map (·.1)).reverse
        .next (s.preemptFor part w (s.pm.time + 1000 * r.deadline) (k.acc * k.groups) k.leaves s ts)

/-! ## Bandwidth (R211) -/

/-- BANDWIDTH_PERIOD: every 1 µs, with the mean shares of partitions in 1/256, and whether controllers are above 50 %
occupied. -/
def execBandwidthPeriod (busy : Bool) (shares : List (Nat × Nat)) (s : State) : Host.Outcome State Fault Refusal :=
  .next { s with parts := s.parts.mapV fun p x =>
    let above := busy && decide (x.par.bwshare < (assoc shares p).getD 0)
    let cls := (List.range 48).filter fun c => decide (x.par.clbase ≤ c ∧ c ≤ x.par.cllimit)
    { x with throttle := cls.foldl (fun t c =>
      let n := Tbl.get 0 t c
      Tbl.put 0 t c (if above then min 4 (n + 1) else n - 1)) x.throttle } }

/-! ## Hall passes and caps (R219, R220, R222) -/

def partClusters (p : PartParams) : Nat := p.cllimit + 1 - p.clbase

/-- The partition that a remainder goes to: the lowest RANK, then the lowest number. -/
def leastRank (l : List (Nat × Part)) : Option Nat := (minBy (fun x => x.2.par.rank * 16 + x.1) l).map (·.1)

/-- Quotas of R219 by partition. -/
def quotas (n : Nat) (l : List (Nat × Part)) : List (Nat × Nat) :=
  let sum := (l.map fun x => partClusters x.2.par).sum
  if l.length ≤ n then
    let first (x : Nat × Part) : Nat := if sum ≤ n then partClusters x.2.par else 1
    let rest := n - (l.map first).sum
    let q := l.map fun x => (x.1, first x + rest * partClusters x.2.par / max sum 1)
    let left := n - (q.map (·.2)).sum
    q.map fun x => if some x.1 = leastRank l then (x.1, x.2 + left) else x
  else
    let order := sortBy (fun x => (2 ^ 64 - x.2.dry) * 2 ^ 8 + x.2.par.rank * 16 + x.1) l
    let lucky := (order.take n).map (·.1)
    l.map fun x => (x.1, if lucky.contains x.1 then 1 else 0)

/-- Whether a cap of some code is in force on a partition. -/
def State.capHolds (s : State) (p : PartParams) : CapCode → Bool
  | .none => false
  | .module => s.pm.moduleCap.isSome
  | .partition => true
  | .thermal => [0, 1, 2, 3].any fun d => partHasDie p d && (s.dieAt d).band != .normal
  | .current => s.pm.current.isSome
  | .broadcast => match s.pm.broadcast with | some (c, _) => c != 2800 | none => false
  | .external => s.pm.external

/-- CAPW and RANK of a cap (R222). -/
def State.capWatts (s : State) (p : PartParams) : CapCode → Nat
  | .module => s.pm.moduleCap.getD 0
  | .partition => p.pcap
  | .current => s.pm.current.getD 0
  | .broadcast => match s.pm.broadcast with | some (c, _) => c | none => 0
  | _ => 0
def State.capRank (s : State) : CapCode → Nat
  | .broadcast => match s.pm.broadcast with | some (_, k) => k | none => 0
  | _ => 0

/-- CAPSRC after a period in which a cap limits the partition, or none does. CAPW has 12 bits; a limit above them reads as the
largest (log 94). -/
def State.capNext (s : State) (p : PartParams) (old : CapSrc) (c : CapCode) : CapSrc :=
  let new : CapSrc := if s.capHolds p c then
      { old with src := c, active := true, rank := s.capRank c, capw := BitVec.ofNat 12 (min 4095 (s.capWatts p c)) }
    else { old with active := false }
  if new.src = old.src && new.active = old.active then new
  else { new with stamp := BitVec.ofNat 32 (bits s.pm.time 10 32) }

/-- The lowest module-wide limit in W, with its code (R220). -/
def State.moduleLimit (s : State) : Option (CapCode × Nat) :=
  let on (c : CapCode) : List (CapCode × Nat) := if s.capHolds partDefault c then [(c, s.capWatts partDefault c)] else []
  minBy (·.2) (on .module ++ on .current ++ on .broadcast)

/-- What one rank sheds: partitions of equal rank are reduced by equal fractions of their power, none below its floor. A draw is
partition, rank, power, floor; the answer names the partitions reduced, and what is still due. -/
def shedRank (due : Nat) (l : List (Nat × Nat × Nat × Nat)) : List Nat × Nat :=
  if due = 0 then ([], 0)
  else ((l.filter fun x => decide (x.2.2.2 < x.2.2.1)).map (·.1), due - (l.map fun x => x.2.2.1 - x.2.2.2).sum)

/-- Partitions reduced to shed `due` W, rank by rank from the highest (R221). -/
def shedAll (due : Nat) (l : List (Nat × Nat × Nat × Nat)) : List Nat :=
  ([7, 6, 5, 4, 3, 2, 1, 0].foldl (fun (acc : List Nat × Nat) r =>
    let (ps, d) := shedRank acc.2 (l.filter fun x => x.2.1 == r)
    (acc.1 ++ ps, d)) ([], due)).1

/-- The power that each partition of one rank is held to where `due` W have to go: all lose the same fraction, and those whose
floor comes first stop at it, the others losing more (R221). -/
def heldRank : Nat → Nat → List (Nat × Nat × Nat × Nat) → List (Nat × Nat)
  | 0, _, l => l.map fun x => (x.1, min x.2.2.1 x.2.2.2)
  | fuel + 1, due, l =>
    let sum := (l.map (·.2.2.1)).sum
    let stops (x : Nat × Nat × Nat × Nat) : Bool := decide ((x.2.2.1 - x.2.2.2) * sum < due * x.2.2.1)
    let low := l.filter stops
    if low.isEmpty then l.map fun x => (x.1, x.2.2.1 - (due * x.2.2.1 + sum - 1) / sum)
    else low.map (fun x => (x.1, min x.2.2.1 x.2.2.2)) ++
      heldRank fuel (due - (low.map fun x => x.2.2.1 - x.2.2.2).sum) (l.filter fun x => !stops x)

/-- The power that each partition is held to, rank by rank from the highest (R221). -/
def heldAll (due : Nat) (l : List (Nat × Nat × Nat × Nat)) : List (Nat × Nat) :=
  ([7, 6, 5, 4, 3, 2, 1, 0].foldl (fun (acc : List (Nat × Nat) × Nat) r =>
    let here := l.filter fun x => x.2.1 == r
    (acc.1 ++ heldRank (here.length + 1) acc.2 here, (shedRank acc.2 here).2)) ([], due)).1

/-- The cap that limits each partition, and the power it is held to, from the power that the rest of the module draws and the
power and floor of each partition: first its own limit, then the lowest module-wide one. The power of a partition is what it would
draw if no cap held it, so that a cap goes on limiting it while it is held (R222; log 31). DESIGN CHOICE (log 94), unsafe: a
module cap and a current limit are met in the order of a broadcast's, and a thermal or external cap limits every partition that it
is in force on, to no stated power. -/
def State.limits (s : State) (base : Nat) (draws : List (Nat × Nat × Nat)) : List (Nat × CapCode × Option Nat) :=
  let power (p : Nat) (x : Part) : Nat × Nat := match draws.find? fun d => d.1 == p with | some d => (d.2.1, d.2.2) | none => (0, x.par.pcap)
  let l := s.parts.map fun (p, x) => (p, x.par.rank, min (power p x).1 x.par.pcap, (power p x).2)
  let (shed, held, c) : List Nat × List (Nat × Nat) × CapCode := match s.moduleLimit with
    | some (c, w) => let due := base + (l.map (·.2.2.1)).sum - w; (shedAll due l, heldAll due l, c)
    | none => ([], [], .none)
  s.parts.map fun (p, x) =>
    (p, if s.capHolds x.par .thermal then (.thermal, none) else if s.capHolds x.par .external then (.external, none)
        else if shed.contains p then (c, assoc held p)
        else if x.par.pcap < (power p x).1 then (.partition, some x.par.pcap) else (.none, none))

/-- Whether some array die is hot: the power manager then keeps the pool lowered (R23). -/
def State.hot (s : State) : Bool := [0, 1, 2, 3].any fun d => (s.dieAt d).band != .normal

/-- POOL_PERIOD: every 100 µs the power manager sets the pool, the quotas, and what limits each partition. A partition below the
broadcast's rank that the broadcast comes to limit is reported (log 31). -/
def execPoolPeriod (n : Nat) (power : PowerReading) (s : State) : Host.Outcome State Fault Refusal :=
  let n := min (min n 768) (if s.hot then s.pm.pool else 768)
  let q := quotas n s.parts
  let limits := s.limits power.base power.parts
  let code (p : Nat) : CapCode := match assoc limits p with | some (c, _) => c | none => .none
  let next (p : Nat) (x : Part) : Part :=
    let k := (assoc q p).getD 0
    { x with
      quota := k, dry := if k = 0 then x.dry + 1 else 0, capsrc := s.capNext x.par x.capsrc (code p)
      held := (assoc limits p).bind (·.2) }
  let below := (s.parts.filter fun (p, x) => code p == .broadcast && decide (x.par.rank < s.capRank .broadcast)).map (·.1)
  let s' := { s with pm := { s.pm with pool := n, below := below }, parts := s.parts.mapV next }
  let s' := (below.filter fun p => !s.pm.below.contains p).foldl (fun t p => t.event 0x41 [p, s.capRank .broadcast]) s'
  .next (s'.grantPasses 768)

/-! ## Exams (R216–R218) -/

def dieCores (core : Nat) : List Nat := (List.range 48).map fun i => 48 * (core / 48) + i

/-- Teams that stand on a core or its pair partner. -/
def State.pairTeams (s : State) (core : Nat) : List Nat :=
  (s.teams.filter fun x => x.2.pre != .saved && (teamCores x.2).any fun c => c == core || c == partnerOf core).map (·.1)

/-- The core that its die examines next. -/
def State.examNext (s : State) (core : Nat) : Bool :=
  let e (c : Nat) : Exam := (s.coreAt c).exam
  !(dieCores core).any (fun c => (e c).running || ((e c).wanted && c != core)) && !(e core).quarantined &&
    ((e core).wanted || (dieCores core).all fun c => (e c).quarantined || decide ((e core).lastPass ≤ (e c).lastPass))

/-- The store of a core under exam keeps no slate: what saved teams left there is in their save areas. -/
def State.emptyStore (s : State) (core : Nat) : State :=
  (s.coreAt core).descs.keys.foldl (fun t i =>
    match t.desc? core i with
    | none => t
    | some d => match d.kind with
      | .mapped => d.leafs.keys.foldl (fun u l => u.dropMappedLeaf core i l) t
      | .scratch => d.leafs.keys.foldl (fun u l => u.leafOut core i l) t
      | .derived => t.dropSlate core i) s

/-- EXAM_START: the exam controller empties the core whose turn it is, and starts the exam once no team stands on its
pair. -/
def execExamStart (core : Nat) (s : State) : Host.Outcome State Fault Refusal :=
  if 192 ≤ core || s.pm.stopped || !s.examNext core then .next s
  else
    let s := if (s.coreAt core).exam.wanted then s
      else (s.pairTeams core).foldl (fun t i => t.preempt i (t.pm.time + 1000000) 0 0)
        (s.modCore core fun c => { c with exam := { c.exam with wanted := true } })
    if (s.pairTeams core).isEmpty then
      .next ((s.emptyStore core).modCore core fun c => { c with
        exam := { c.exam with wanted := false, running := true, started := s.pm.time } })
    else .next s

/-- EXAM_END: 5 ms after its start an exam passes, or its core is quarantined and reported. -/
def execExamEnd (core : Nat) (pass : Bool) (s : State) : Host.Outcome State Fault Refusal :=
  let e := (s.coreAt core).exam
  if !e.running || s.pm.time < e.started + 5000000 then .next s
  else if pass then
    .next (s.modCore core fun c => { c with exam := { e with running := false, lastPass := e.started, seen := [] } })
  else
    .next ((s.modCore core fun c => { c with exam := { e with running := false, quarantined := true } }).event 0x4C
      (core :: e.lastPass :: s.pm.time :: e.seen))

end Sys2Proof.Machine
end

