-- ==== Sys2Proof/Machine/Partition.lean ====
section
/-! DEFINITION. Partitions: creation, parameters, fences, resets and ends (R22, R93, R104, R202–R204, R236, R240, R243, R254). -/

namespace Sys2Proof.Machine

/-! ## Answers of the management port (R254) -/

def State.mgmtOk (s : State) : State := s.reply .mgmtOk
/-- A request that is refused: its code is reported with the answer. -/
def State.mgmtError (s : State) (code : Nat) : State := (s.event 0x50 [code]).reply .mgmtError

/-- Requests for a fenced partition have no effect, but for those R254 excepts. -/
def State.mgmtPart (s : State) (p code : Nat) (always : Bool) (f : Part → State) : State :=
  match s.parts.look p with
  | none => s.mgmtError code
  | some x => if x.fenced && !always then s.mgmtError code else f x

/-- A cap as applied, and whether it was clamped (R22). -/
def clampCap (w : Nat) : Nat × Bool := let c := max 1000 (min 2800 w); (c, decide (c ≠ w))
def State.capAck (s : State) (code cap : Nat) (clamped : Bool) : State := s.event 0x40 [code, cap, if clamped then 1 else 0]

/-! ## Strip regions (R93) -/

/-- Regions of a partition on a die that hold bindings. -/
def State.regionsUsed (s : State) (p d : Nat) : List Nat :=
  (List.range 8).filterMap fun k => let x := s.slotOf p d (8 + k)
    if x.st == .unbound then none else some x.region

def State.regionsOf (s : State) (p d : Nat) : List Nat :=
  match s.parts.look p with | some x => x.regions.getD d [] | none => []

def State.setRegions (s : State) (p d : Nat) (l : List Nat) : State :=
  s.modPart p fun x => { x with regions := (List.range 4).map fun k => if k = d then l else x.regions.getD k [] }

/-- Share a die's regions again: explicit sets first, then equal shares of the rest, the remainder to the lowest-numbered
partition. Regions that hold bindings stay where they are. -/
def State.shareRegions (s : State) (d : Nat) : State :=
  let here := s.parts.filter fun x => partHasDie x.2.par d
  let gone := s.parts.filter fun x => !partHasDie x.2.par d
  let s := gone.foldl (fun t x => t.setRegions x.1 d []) s
  let s := (here.filter fun x => x.2.par.expert).foldl (fun t x => t.setRegions x.1 d (x.2.par.regions.getD d [])) s
  let taken := (here.filter fun x => x.2.par.expert).flatMap fun x => x.2.par.regions.getD d []
  let avail := (List.range 8).filter fun r => !taken.contains r
  let basic := (here.filter fun x => !x.2.par.expert).map (·.1)
  let share (p : Nat) : Nat := avail.length / basic.length + if basic.head? = some p then avail.length % basic.length else 0
  let keep (p : Nat) : List Nat :=
    let cur := (s.regionsOf p d).filter avail.contains
    let used := cur.filter (s.regionsUsed p d).contains
    used ++ ((cur.filter fun r => !used.contains r).take (share p - used.length))
  let kept := basic.map fun p => (p, keep p)
  let free := avail.filter fun r => !kept.any fun x => x.2.contains r
  (kept.foldl (fun (acc : State × List Nat) x =>
    let n := share x.1 - x.2.length
    (acc.1.setRegions x.1 d (sortBy id (x.2 ++ acc.2.take n)), acc.2.drop n)) (s, free)).1

/-! ## Colours (R202, R203) -/

/-- Clusters of a partition on a die. -/
def clustersOn (p : PartParams) (d : Nat) : Nat :=
  ((List.range 12).filter fun c => decide (p.clbase ≤ 12 * d + c ∧ 12 * d + c ≤ p.cllimit)).length

/-- A mask of `n` slices from slice `a`. -/
def sliceMask (a n : Nat) : BitVec 24 := BitVec.ofNat 24 ((2 ^ n - 1) * 2 ^ a)

/-- Shares of a die's 24 slices under basic control, in proportion to clusters; the remainder to the lowest-numbered. -/
def colourShares (l : List (Nat × Part)) (d : Nat) : List (Nat × BitVec 24) :=
  let here := l.filter fun x => partHasDie x.2.par d
  let sum := (here.map fun x => clustersOn x.2.par d).sum
  let n (x : Nat × Part) : Nat := 24 * clustersOn x.2.par d / max sum 1
  let left := 24 - (here.map n).sum
  let first := here.head?.map (·.1)
  (here.foldl (fun (acc : List (Nat × BitVec 24) × Nat) x =>
    let k := n x + if first = some x.1 then left else 0
    (acc.1 ++ [(x.1, sliceMask acc.2 k)], acc.2 + k)) ([], 0)).1

def State.shareColours (s : State) : State :=
  let shares := [0, 1, 2, 3].map (colourShares s.parts)
  { s with parts := s.parts.mapV fun p (x : Part) =>
    if x.par.expert then { x with colours := x.par.colours } else { x with colours := shares.map fun l => (assoc l p).getD 0 } }

/-- Everything that the set of live partitions decides. -/
def State.share (s : State) : State := ([0, 1, 2, 3].foldl State.shareRegions s).shareColours

/-! ## Parameters (R202, R204, R236, R247) -/

def isPow2 (n : Nat) : Bool := n == 2 ^ Nat.log2 n

/-- Whether explicit colours have at least two slices on each die with clusters of the partition. -/
def coloursOk (p : PartParams) (l : List (BitVec 24)) : Bool :=
  [0, 1, 2, 3].all fun d => !partHasDie p d || decide (2 ≤ ((List.range 24).filter fun k => (l.getD d 0).getLsbD k).length)

/-- Explicit region sets: rising numbers below 8, disjoint from other partitions' explicit sets and bindings, with every
region that holds a binding of the partition itself. -/
def State.regionsOk (s : State) (p : Nat) (x : PartParams) : Bool :=
  (List.range 4).all fun d => let set := x.regions.getD d []
    (!partHasDie x d || (s.regionsUsed p d).all set.contains) && set.all (fun r => decide (r < 8) && !s.parts.any fun x => x.1 != p && (s.regionsUsed x.1 d ++
      (if x.2.par.expert then x.2.par.regions.getD d [] else [])).contains r) && set == sortBy id set.eraseDups

/-- The ranges of the parameters. -/
def PartParams.inRange (x : PartParams) : Bool :=
  decide (x.clbase ≤ x.cllimit ∧ x.cllimit ≤ 47 ∧ x.qdt % 64 = 0 ∧ x.rank ≤ 7 ∧ 1 ≤ x.bwshare ∧ x.bwshare ≤ 256 ∧
    1 ≤ x.engw ∧ x.engw ≤ 255 ∧ x.eprio ≤ 3 ∧ 1 ≤ x.ttlen ∧ x.ttlen ≤ 4096) && x.prepol.all (fun n => decide (n ≤ 3)) &&
  decide (x.ctxBase % 4096 = 0 ∧ 256 ≤ x.ctxPages ∧ x.ctxPages ≤ 2 ^ 24 ∧ x.spillBase % 64 = 0 ∧ 2 ^ 10 ≤ x.spillCap ∧
    x.spillCap ≤ 2 ^ 24 ∧ x.recBase % 4096 = 0 ∧ 2 ^ 16 ≤ x.recSize ∧ x.recSize ≤ 2 ^ 30 ∧ x.recSize % 4096 = 0) &&
  isPow2 x.spillCap && x.keys.all (fun k => decide (0 < k ∧ k < 512)) && decide (x.fabRanges.length ≤ 16)

/-- Whether parameters suit a partition beside the others. -/
def State.paramsOk (s : State) (p : Nat) (x : PartParams) : Bool :=
  Sys2Proof.Machine.PartParams.inRange x && (!x.expert || (coloursOk x x.colours && s.regionsOk p x)) &&
    s.parts.all fun y => y.1 == p || (decide (x.cllimit < y.2.par.clbase ∨ y.2.par.cllimit < x.clbase) &&
      y.2.par.slots &&& x.slots == 0 && y.2.par.tenant != x.tenant)

/-- A partition as it is created. -/
def Part.fresh (x : PartParams) (quota : Nat) : Part :=
  { par := x, fenced := false, colours := [], regions := [], roll := 0, mapped := [], spill := [], home := [], grids := [], hostRings := []
    keys := [], log := [], logReserved := 0, chain := 0, verified := [], tickets := [], nextTicket := 1, starved := 0
    losterr := 0, late := 0, avgrun := [], replayCtx := [], capsrc := ⟨.none, false, 0, 0, 0⟩, held := none, throttle := [], quota := quota, dry := 0 }

/-- PARTITION_CREATE (R202). A security alarm latches, so none is made after one (R241). -/
def execPartitionCreate (p : Nat) (x : PartParams) (s : State) : Host.Outcome State Fault Refusal :=
  let (cap, clamped) := clampCap x.pcap
  let x := { x with pcap := cap }
  if 16 ≤ p || (s.parts.look p).isSome || !s.paramsOk p x || s.pm.stopped || s.pm.failed || s.pm.alarm != 0 then .next (s.mgmtError 0x01)
  else
    let s := { s with parts := s.parts.ins p (Part.fresh x 768) }
    .next ((s.share.capAck 2 cap clamped).mgmtOk)

/-- The parameters after a change. -/
def changeParams (x : PartParams) : PartChange → PartParams
  | .rank n => { x with rank := n }
  | .pcap w => { x with pcap := (clampCap w).1 }
  | .bwshare n => { x with bwshare := n }
  | .engine w n => { x with engw := w, eprio := n }
  | .prepol l => { x with prepol := l }
  | .expert on l => { x with expert := on, regions := l }
  | .colours l => { x with colours := l }
  | .fabric t l => { x with tenant := t, fabRanges := l }
  | .slots m => { x with slots := m }
  | .qdt va => { x with qdt := va }
  | .taskTable b n => { x with ttbase := b, ttlen := n }
  | .tvbase va => { x with tvbase := va }
  | .clusters b n => { x with clbase := b, cllimit := n }

/-- Unbind a slot at once: no drain and no log entry. -/
def Slot8.unbound (x : Slot8) : Slot8 :=
  if x.st = .unbound ∨ (x.st = .transition ∧ !x.wasBound) then { x with st := .unbound }
  else ⟨.unbound, false, x.gen + 1, x.region, 0, 0, []⟩

/-- Bindings on dies where a partition has no clusters any more end at once. DESIGN CHOICE (log 99), unsafe. -/
def State.dropBindings (s : State) (p : Nat) : State :=
  { s with dies := s.dies.mapV fun d (y : Die) =>
    if partHasDie (s.par p) d then y else { y with slots := y.slots.mapV fun k x => if k / 16 = p then x.unbound else x } }

/-- An FSWAP's steps on such dies end with OUTSIDE, and give back the log entries they had reserved (R96; log 99). -/
def State.dropSwaps (s : State) (p : Nat) : State :=
  let lost (d : Nat) (st : SwapSt) : Bool := !partHasDie (s.par p) d && match st with | .done _ => false | _ => true
  let held (x : Swap) : Nat := (x.dies.filter fun y => lost y.1 y.2 && y.2 != .verify && !x.unlogged.contains y.1).length
  let mine := s.swaps.filter fun y => y.2.part == p
  let ended (x : Swap) : Swap := { x with dies := x.dies.mapV fun d st => if lost d st then .done 0xE else st }
  let s := s.modPart p fun y => { y with logReserved := y.logReserved - (mine.map fun x => held x.2).sum }
  { s with swaps := (s.swaps.mapV fun _ x => if x.part = p then ended x else x).keep fun _ x =>
      x.key.isSome || x.dies.vals.any fun y => match y with | .done _ => false | _ => true }

/-- Change a parameter of a partition. DESIGN CHOICE (log 101), unsafe: teams that stand on clusters taken away stay there
without issuing, and their engine requests go on. -/
def execPartitionParameterChange (p : Nat) (c : PartChange) (s : State) : Host.Outcome State Fault Refusal :=
  .next (s.mgmtPart p 0x01 false fun y =>
    let x := changeParams y.par c
    if !s.paramsOk p x then s.mgmtError 0x01
    else
      let s := (((s.modPart p fun z => { z with par := x }).dropSwaps p).dropBindings p).share
      let s := match c with | .pcap w => s.capAck 2 (clampCap w).1 (clampCap w).2 | _ => s
      s.mgmtOk)

/-! ## Fences (R104, R240) -/

def State.unbindAll (s : State) (p : Nat) : State :=
  { s with
    dies := s.dies.mapV fun _ (d : Die) => { d with slots := d.slots.mapV fun k x => if k / 16 = p then x.unbound else x }
    swaps := s.swaps.keep fun _ x => x.part != p
    parts := s.parts.upd p fun x => { x with logReserved := 0 } }

/-- Records that a DEPDEC parked in a saved group has still to enqueue wait at the home (R54, R307). -/
def State.savedRecs (s : State) (tid : Nat) : State :=
  match s.teams.look tid with
  | none => s
  | some t => s.modPart t.part fun p => { p with
      home := p.home ++ t.saved.flatMap fun g => (g.a0.depRecs ++ g.a1.depRecs).map fun r => (dieOfCore g.key.core, r) }

/-- Every group of a team ends, resident or saved, and the team with them. -/
def State.killTeam (s : State) (tid : Nat) : State :=
  let s := s.modTeam tid fun t => { t with killed := true }
  let s := (s.teamGroups tid).foldl (fun t g => t.retireGroup g.key true) s
  (s.savedRecs tid).endTeam tid

/-- Requests of other devices that a partition holds end with MEM_FAULT. A successor record of a DEPDEC stays at the home. -/
def State.endHeld (s : State) (p : Nat) : State :=
  let mine := s.fab.held.filter fun h => h.part == p
  let recs := mine.filterMap fun h =>
    if h.ticket = 0 then some (s.homeOf p (fieldAt h.payload 16 8) / 2, Rec.ofBytes h.payload 0 0xFF) else none
  let s := { s with fab := { s.fab with held := s.fab.held.filter fun h => h.part != p } }
  let s := s.modPart p fun x => { x with home := x.home ++ recs }
  mine.foldl (fun t h => t.answerFlit h.port h.flit .memFault) s

/-- The modified L2 lines of a partition are written back (R240). -/
def State.cleanL2 (s : State) (p : Nat) : State :=
  { s with l2 := s.l2.mapV fun _ (y : L2Line) => if y.part == p then { y with dirty := false } else y }

/-- What a fence does: the partition's groups and replay groups are killed, its engine requests end, its slots are unbound,
its slates and cribs are freed, dirty sectors and lines are written back, and requests of other devices end. -/
def State.shutPart (s : State) (p : Nat) : State :=
  let s := s.modPart p fun y => { y with fenced := true }
  let ids := (s.teams.filter fun t => t.2.part == p).map (·.1)
  let s := ids.foldl State.killReplays s
  let s := ids.foldl State.killTeam s
  let s := (s.unbindAll p).modPart p fun y => { y with tickets := [] }
  ((s.cleanL2 p).endHeld p).grantPasses 768

/-- Fence a partition, and report it. -/
def State.fence (s : State) (p : Nat) : State :=
  match s.parts.look p with
  | none => s
  | some x => if x.fenced then s else ((s.shutPart p).event 0x47 [p]).reply (.ioError p)

/-- Report records of one type that end with their partition. DESIGN CHOICE (log 99), unsafe: R187 has no code of its own
for them, and the model takes the one of records whose team was killed. -/
def State.reportRecs (s : State) (p : Nat) : List Rec → State
  | [] => s
  | r :: rest => s.errReport p 0x0D r.type r.qslot (rest.length + 1) r

/-- The records that a partition's trays, spill queue and grids hold, and those that wait at the home, go, each reported
(R192). -/
def State.dropWork (s : State) (p : Nat) : State :=
  match s.parts.look p with
  | none => s
  | some x =>
    let trays := s.dies.flatMap fun d => d.2.trays.filterMap fun t => if t.2.part == p then some t.2.recs else none
    let rest := x.spill.map (fun y => [s.spillRead p y]) ++ x.home.map fun y => [y.2]
    let grids := (x.grids.filter fun g => match s.launches.look g.launch with | some l => !l.told | none => true).map fun g => [g.recd]
    let s := (trays ++ rest ++ grids).foldl (fun t l => t.reportRecs p l) s
    { (s.modPart p fun y => { y with spill := [], home := [], grids := [] }) with
      dies := s.dies.mapV fun _ (d : Die) => { d with trays := d.trays.keep fun _ t => t.part != p } }

/-- No core and no engine keeps a translation or a constant of a partition. -/
def State.forgetPart (s : State) (p : Nat) : State :=
  { s with
    engines := s.engines.mapV fun _ (e : Engine) => { e with tlb := e.tlb.filter fun x => x.1.1 != p }
    cores := s.cores.mapV fun _ (c : Core) => { c with
      tlb := c.tlb.filter fun x => x.1.1 != p, ccache := c.ccache.filter fun x => x.1.1 % 16 != p } }

def execPartitionFence (p : Nat) (s : State) : Host.Outcome State Fault Refusal :=
  .next (s.mgmtPart p 0x03 true fun _ => (s.fence p).mgmtOk)

/-- PARTITION_RESET ends a fence: the partition is as it was created, with its keys, its log and what was verified
(log 41). It does not undo the fence of a security alarm, which latches (R241). -/
def execPartitionReset (p : Nat) (s : State) : Host.Outcome State Fault Refusal :=
  .next (s.mgmtPart p 0x03 true fun _ =>
    if s.pm.alarm ≠ 0 then s.mgmtError 0x03
    else
      let s := ((s.fence p).dropWork p).forgetPart p
      let s := s.modPart p fun y => { Part.fresh y.par y.quota with
        colours := y.colours, regions := y.regions, keys := y.keys, log := y.log, chain := y.chain, verified := y.verified
        capsrc := y.capsrc, held := y.held, dry := y.dry }
      s.mgmtOk)

/-- PARTITION_DESTROY. The generations of its slots stay (R94). -/
def execPartitionDestroy (p : Nat) (s : State) : Host.Outcome State Fault Refusal :=
  .next (s.mgmtPart p 0x02 true fun x =>
    let s := ((if x.fenced then s else s.shutPart p).dropWork p).forgetPart p
    ({ s with parts := s.parts.del p }).share.mgmtOk)

/-- Fence every partition. -/
def State.fenceAll (s : State) : State := (s.parts.map (·.1)).foldl State.fence s

end Sys2Proof.Machine
end

