-- ==== Sys2Proof/Machine/Sha.lean ====
section
/-! DEFINITION. SHA-256, the measurement of bitstream records and of the attestation log (R96, R102). -/

namespace Sys2Proof.Machine

abbrev W32 := BitVec 32

/-- The first 64 primes, from whose roots the constants come. -/
def shaPrimes : List Nat :=
  [2, 3, 5, 7, 11, 13, 17, 19, 23, 29, 31, 37, 41, 43, 47, 53, 59, 61, 67, 71, 73, 79, 83, 89, 97, 101, 103, 107, 109, 113, 127,
    131] ++
  [137, 139, 149, 151, 157, 163, 167, 173, 179, 181, 191, 193, 197, 199, 211, 223, 227, 229, 233, 239, 241, 251, 257, 263, 269,
    271, 277, 281, 283, 293, 307, 311]

/-- The largest number below 2^k whose power does not exceed `x`, bit by bit. -/
def rootBelow (pow x : Nat) : Nat → Nat → Nat
  | 0, r => r
  | k + 1, r => rootBelow pow x k (if (r + 2 ^ k) ^ pow ≤ x then r + 2 ^ k else r)

/-- The first 32 bits of the fraction of a prime's square root, and of its cube root. -/
def shaInit (p : Nat) : W32 := BitVec.ofNat 32 (rootBelow 2 (p * 2 ^ 64) 40 0)
def shaKey (p : Nat) : W32 := BitVec.ofNat 32 (rootBelow 3 (p * 2 ^ 96) 40 0)

def shaStart : List W32 := (shaPrimes.take 8).map shaInit
def shaKeys : List W32 := shaPrimes.map shaKey

def rotr (x : W32) (n : Nat) : W32 := x.rotateRight n
def shaS0 (x : W32) : W32 := rotr x 7 ^^^ rotr x 18 ^^^ (x >>> 3)
def shaS1 (x : W32) : W32 := rotr x 17 ^^^ rotr x 19 ^^^ (x >>> 10)
def shaB0 (x : W32) : W32 := rotr x 2 ^^^ rotr x 13 ^^^ rotr x 22
def shaB1 (x : W32) : W32 := rotr x 6 ^^^ rotr x 11 ^^^ rotr x 25

/-- The message schedule: 16 words of a block and the 48 that follow from them. -/
def shaSchedule (w : List W32) : List W32 :=
  (List.range 48).foldl (fun l t =>
    let at' (k : Nat) : W32 := l.getD (t + 16 - k) 0
    l ++ [shaS1 (at' 2) + at' 7 + shaS0 (at' 15) + at' 16]) w

/-- One round over the eight working words. -/
def shaRound (h : List W32) (kw : W32 × W32) : List W32 :=
  match h with
  | [a, b, c, d, e, f, g, i] =>
    let t1 := i + shaB1 e + ((e &&& f) ^^^ (~~~e &&& g)) + kw.1 + kw.2
    let t2 := shaB0 a + ((a &&& b) ^^^ (a &&& c) ^^^ (b &&& c))
    [t1 + t2, a, b, c, d + t1, e, f, g]
  | _ => h

def shaBlock (h w : List W32) : List W32 := h.zipWith (· + ·) ((shaKeys.zip (shaSchedule w)).foldl shaRound h)

/-- A big-endian word of bytes. -/
def beWord (l : List Byte) : W32 := BitVec.ofNat 32 (l.foldl (fun n b => n * 256 + b.toNat) 0)
def beBytes (n : Nat) (x : Nat) : List Byte := (toBytes n x).reverse

/-- The message with its padding: a one bit, zeros, and the length in bits. -/
def shaPad (m : List Byte) : List Byte :=
  m ++ [0x80] ++ List.replicate ((119 - m.length % 64) % 64) 0 ++ beBytes 8 (8 * m.length)

/-- Words of the blocks of a padded message, by count. -/
def shaFold (h : List W32) (m : List Byte) : Nat → List W32
  | 0 => h
  | n + 1 => shaFold (shaBlock h ((List.range 16).map fun k => beWord (slice m (4 * k) 4))) (m.drop 64) n

/-- The digest of a message as bytes. -/
def sha256 (m : List Byte) : List Byte :=
  let p := shaPad m
  (shaFold shaStart p (p.length / 64)).flatMap fun w => beBytes 4 w.toNat

/-- The digest as the number whose little-endian bytes it is. -/
def shaNum (m : List Byte) : BitVec 256 := BitVec.ofNat 256 (ofBytes (sha256 m))

end Sys2Proof.Machine
end

