-- ==== Sys2Proof/Machine/Environs.lean ====
section
/-! DEFINITION. Memory errors, heat, power, the security alarm, package reset and bring-up (R19, R23, R94, R104, R216–R218, R220,
R238–R241, R253). -/

namespace Sys2Proof.Machine

/-! ## HBM errors (R238) -/

/-- A correction on one pin group of a stack; the sixteenth within 1 s is reported. -/
def State.corrected (s : State) (stack pin : Nat) : State :=
  let l := (s.pm.pinErrors.filter fun e => decide (s.pm.time < e.2.2 + 1000000000)) ++ [(stack, pin, s.pm.time)]
  let mine (e : Nat × Nat × Nat) : Bool := e.1 == stack && e.2.1 == pin
  let s := { s with pm := { s.pm with corrected := s.pm.corrected + 1, pinErrors := l } }
  if 16 ≤ (l.filter mine).length then
    ({ s with pm := { s.pm with pinErrors := l.filter fun e => !mine e } }).event 0x4A [stack, pin]
  else s

/-- HBM_PATROL of a line: what its code words show. Beyond two pin groups the outcome has no guarantee: the line is
poisoned, or passed with the bytes named. -/
def execHbmPatrol (line stack : Nat) (e : EccPattern) (s : State) : Host.Outcome State Fault Refusal :=
  match e with
  | .clean => .next s
  | .oneGroup pin => .next (s.corrected stack pin)
  | .twoGroups => .next { s with mem := s.mem.setPoison line }
  | .more [] => .next { s with mem := s.mem.setPoison line }
  | .more l => .next { s with mem := s.mem.store (cellsAt (line * 128) (l.take 128)) }

/-! ## Heat (R23) -/

def State.setBand (s : State) (die : Nat) (b : Band) : State := s.modDie die fun d => { d with band := b }

/-- CAPSRC of the partitions with clusters on a die comes to name a cap, or no longer an active one. -/
def State.reportCap (s : State) (die : Nat) (f : Part → Option CapCode) : State :=
  { s with parts := s.parts.mapV fun _ (x : Part) =>
    if partHasDie x.par die then
      match f x with
      | some c => { x with capsrc := s.capNext x.par x.capsrc c }
      | none => x
    else x }

/-- THERMAL_THROTTLE: Tj reaches 105 °C: the hall-pass pool is lowered, and CAPSRC reports a thermal cap (R23). The pool stays
lowered while a die is hot (`execPoolPeriod`). DESIGN CHOICE (log 94), safe: by how many passes is free. -/
def execThermalThrottle (die : Nat) (s : State) : Host.Outcome State Fault Refusal :=
  .next (if die < 4 && (s.dieAt die).band == .normal then
    let s := (s.setBand die .throttled).reportCap die fun _ => some .thermal
    { s with pm := { s.pm with pool := s.pm.pool - max 1 (Config.thermalCut s.cnt.steps) } }
    else s)

/-- THERMAL_RECOVER: Tj falls below 103 °C; a thermal cap that no die keeps up limits no partition any more. -/
def execThermalRecover (die : Nat) (s : State) : Host.Outcome State Fault Refusal :=
  .next (if die < 4 && (s.dieAt die).band == .throttled then
    (s.setBand die .normal).reportCap die fun x =>
      if x.capsrc.active && x.capsrc.src == .thermal then some .thermal else none else s)

/-- THERMAL_STOP: every partition is fenced and the array dies stop until the package is reset. -/
def execThermalStop (die : Nat) (s : State) : Host.Outcome State Fault Refusal :=
  if 4 ≤ die || s.pm.stopped then .next s
  else
    let s := (s.setBand die .stopped).fenceAll
    .next (({ s with pm := { s.pm with stopped := true } }).event 0x4B [die])

/-! ## Power inputs (R220) -/

def execCurrentLimit (w : Option Nat) (s : State) : Host.Outcome State Fault Refusal :=
  .next { s with pm := { s.pm with current := w } }
def execExternalThrottle (on : Bool) (s : State) : Host.Outcome State Fault Refusal :=
  .next { s with pm := { s.pm with external := on } }

/-! ## The security alarm (R241) -/

/-- SECURITY_ALARM: a breach of the mesh is level 2. Level 2 also zeroises the memory keys and the attestation keys. Both latch. -/
def execSecurityAlarm (mesh : Bool) (level : Nat) (s : State) : Host.Outcome State Fault Refusal :=
  let n := if mesh then 2 else level
  if n ≠ 1 ∧ n ≠ 2 then .next s
  else
    let s := s.fenceAll
    let pm := { s.pm with
      alarm := max n s.pm.alarm, zeroised := s.pm.zeroised || n == 2
      attKeys := s.pm.attKeys && n != 2, keysMade := s.pm.keysMade && n != 2 }
    .next (({ s with pm := pm }).event 0x4D [n])

/-! ## Reset and bring-up (R253) -/

/-- PACKAGE_RESET: the machine right after reset. Host memory, the steps counted and the agenda are not the device's.
DESIGN CHOICE (log 20), unsafe: attestation keys that were zeroised stay so. -/
def execPackageReset (s : State) : Host.Outcome State Fault Refusal :=
  .next { State.reset with
    mem := { cells := s.mem.cells.filter fun c => decide (2 ^ 51 ≤ c.1), poison := [], owners := [] }
    pm := { Package.reset with attKeys := s.pm.attKeys }
    cnt := { State.reset.cnt with steps := s.cnt.steps }
    agenda := s.agenda }

/-- A stage of bring-up ends: the next one, or management only. -/
def State.stageEnds (s : State) (stage : Nat) (ok : Bool) (f : State → State) : State :=
  if s.pm.failed || s.pm.stage != stage then s
  else if ok then (let t := f s; { t with pm := { t.pm with stage := stage + 1 } })
  else ({ s with pm := { s.pm with failed := true } }).event 0x4F [stage + 1]

/-- FIRMWARE_VERIFY of the image, then of the second one: the Proctor's measurement is extended with that of the image
(log 20). -/
def execFirmwareVerify (first second : Bool) (s : State) : Host.Outcome State Fault Refusal :=
  .next (s.stageEnds 0 (first || second) fun t =>
    let m := Config.firmwareMeasurement (if first then 0 else 1)
    { t with pm := { t.pm with meas := shaNum (toBytes 32 t.pm.meas.toNat ++ toBytes 32 m.toNat) } })

/-- HBM_TRAINING of the stacks; the memory controllers generate their keys. -/
def execHbmTraining (ok : Bool) (s : State) : Host.Outcome State Fault Refusal :=
  .next (s.stageEnds 1 ok fun t => { t with pm := { t.pm with keysMade := true } })

/-- ARRAY_DIE_RELEASE: every RCLK starts at 0, and every loadable slot is UNBOUND at generation 0. -/
def execArrayDieRelease (s : State) : Host.Outcome State Fault Refusal :=
  .next (s.stageEnds 2 true fun t => { t with dies := t.dies.mapV fun _ (d : Die) => { d with rclk := 0, slots := [] } })

/-- FIRST_EXAM of every core; the ones that fail are quarantined. -/
def execFirstExam (failed : List Nat) (s : State) : Host.Outcome State Fault Refusal :=
  let one (t : State) (c : Nat) : State :=
    if failed.contains c then
      (t.modCore c fun x => { x with exam := { x.exam with quarantined := true } }).event 0x4C [c, 0, t.pm.time]
    else t.modCore c fun x => { x with exam := { x.exam with lastPass := t.pm.time } }
  .next (s.stageEnds 3 true fun t => (List.range 192).foldl one t)

def execCxlConfigReady (s : State) : Host.Outcome State Fault Refusal := .next (s.stageEnds 4 true id)

end Sys2Proof.Machine
end

