-- ==== Sys2Proof/Machine/HostLink.lean ====
section
/-! DEFINITION. The host link: the ring window, host memory accesses, configuration and training (R198, R242–R245, R253). -/

namespace Sys2Proof.Machine

/-! ## The host ring window (R198) -/

/-- Whether a virtual function answers. -/
def State.vfUp (s : State) (p : Nat) : Bool := s.hostUp && (s.parts.look p).isSome

/-- A ring operation of the host on the block of one of its rings, which is read with the partition's translation: none is
a completer abort with no effect. -/
def State.hostRing (s : State) (p ring : Nat) (k : State → Nat → State) : State :=
  match (s.parts.look p).bind fun x => x.hostRings.look ring with
  | none => s.reply .abort
  | some va =>
    if va = 0 || va % 64 != 0 then s.reply .abort
    else
      let s := s.devUse p .atomic va
      match s.devPa p .atomic va 64 with
      | some pa => k s pa
      | none => s.reply .abort

/-- A non-blocking RCLAIM of the host; a broken check sets ERR and aborts. -/
def State.hostClaim (s : State) (p ring n : Nat) : State :=
  s.hostRing p ring fun s pa =>
    let b := s.ringAt pa
    if !b.ok n then (s.setRingErr pa).reply .abort
    else match (if s.ringQueued pa false then none else b.claimN n) with
      | none => s.reply (.word (BitVec.allOnes 64))
      | some (pos, b') => (s.ringPut pa b').reply (.word (BitVec.ofNat 64 pos))

/-- A host RCOMMIT: the upper bits of its position come from TAIL. -/
def State.hostCommit (s : State) (p ring : Nat) (val : Word) : State :=
  s.hostRing p ring fun s pa =>
    let n := bits val.toNat 58 6 + 1
    let b := s.ringAt pa
    let pos := b.tail + (bits val.toNat 0 58 + 2 ^ 58 - b.tail % 2 ^ 58) % 2 ^ 58
    if !b.ok n then (s.setRingErr pa).reply .abort
    else match b.commit pos n with
      | none => s.reply .abort
      | some b' => s.ringPut pa b'

def execHostRclaimRead (part ring n : Nat) (s : State) : Host.Outcome State Fault Refusal :=
  .next (if !s.vfUp part then s.reply .abort
    else if ring < 64 ∧ 1 ≤ n ∧ n ≤ 64 then s.hostClaim part ring n
    else s.reply (.word 0))

def execHostRcommitWrite (part ring : Nat) (val : Word) (s : State) : Host.Outcome State Fault Refusal :=
  .next (if !s.vfUp part then s.reply .abort
    else if ring < 64 then s.hostCommit part ring val
    else s)

/-- A read of 8 bytes of BAR0, 128 KiB (R198, R243): a ring's control-block VA, or a claim register. Reserved offsets read as
zero. DESIGN CHOICE (log 20), unsafe: so do NOTIFY and the commit registers, which are only written. -/
def State.readBar0 (s : State) (part off : Nat) : State :=
  if !s.vfUp part || 2 ^ 17 ≤ off then s.reply .abort
  else if 0x800 ≤ off ∧ off < 0xA00 ∧ off % 8 = 0 then
    s.reply (.word (BitVec.ofNat 64 (match s.parts.look part with
      | some x => Tbl.get 0 x.hostRings ((off - 0x800) / 8)
      | none => 0)))
  else if 0x1000 ≤ off ∧ off < 0x11000 ∧ off % 0x400 < 0x200 ∧ off % 8 = 0 then
    s.hostClaim part ((off - 0x1000) / 0x400) (off % 0x400 / 8 + 1)
  else s.reply (.word 0)

/-- The fields of a partition's status block (R243): FENCED, ALARM, STARVED, LOSTERR, LATEPREEMPT. -/
def State.statusFields (s : State) (x : Part) : List Nat :=
  [if x.fenced then 1 else 0, if s.pm.alarm = 0 then 0 else 1, x.starved, x.losterr, x.late]

/-- The bits of a partition's status block. -/
def State.statusBlock (s : State) (x : Part) : Nat :=
  (((s.statusFields x).zip [0, 1, 32, 64, 96]).map fun y => y.1 * 2 ^ y.2).sum

/-- A read of 8 bytes of BAR2, 4 KiB (R243). -/
def State.readBar2 (s : State) (part off : Nat) : State :=
  match s.parts.look part with
  | some x =>
    if !s.hostUp || 4096 ≤ off then s.reply .abort
    else s.reply (.word (BitVec.ofNat 64 (s.statusBlock x / 256 ^ off)))
  | none => s.reply .abort

/-- A write of 8 bytes to the ring window: NOTIFY, a ring's control-block VA, or a commit register. Reserved and read-only
offsets ignore it. -/
def execRegisterWrite (part off : Nat) (val : Word) (s : State) : Host.Outcome State Fault Refusal :=
  if !s.vfUp part then .next (s.reply .abort)
  else if off = 0 then execNotify part (val.setWidth 6) s
  else if 0x800 ≤ off ∧ off < 0xA00 ∧ off % 8 = 0 then
    .next (s.modPart part fun x => { x with hostRings := Tbl.put 0 x.hostRings ((off - 0x800) / 8) val.toNat })
  else if 0x1000 ≤ off ∧ off < 0x11000 ∧ off % 0x400 = 0x200 then
    execHostRcommitWrite part ((off - 0x1000) / 0x400) val s
  else .next s

/-! ## Host memory accesses (R182, R239, R244) -/

/-- The first frame of a range recorded under another key. -/
def State.foreignFrame (s : State) (pa n key : Nat) : Option Nat :=
  (framesOf pa n).find? fun f => !s.mem.frameOk (f * 8192) key

/-- The home writes back dirty copies of the lines that a host access reaches (R113). -/
def State.recallRange (s : State) (pa n : Nat) : State :=
  (List.range ((pa % 128 + n + 127) / 128)).foldl (fun t k => t.recall (pa / 128 + k)) s

/-- HOST_MEM_READ of device memory over CXL.mem, through a partition's HDM range. -/
def execHostMemRead (part pa len : Nat) (s : State) : Host.Outcome State Fault Refusal :=
  let key := (s.par part).hdmKey
  if !s.vfUp part || 2 ^ 39 < pa + len then .next (s.reply .abort)
  else match s.foreignFrame pa len key with
    | some f => .next ((s.event 0x46 [part, f]).reply (.bytes [] true))
    | none =>
      let s := (s.claimRange pa len key).recallRange pa len
      .next (s.reply (if s.poisonAt pa len then .bytes [] true else .bytes (s.mem.bytes pa len) false))

/-- HOST_MEM_WRITE: performed at the home, after back-invalidation of the lines it writes. -/
def execHostMemWrite (part pa : Nat) (bytes : List Byte) (s : State) : Host.Outcome State Fault Refusal :=
  let key := (s.par part).hdmKey
  if !s.vfUp part || 2 ^ 39 < pa + bytes.length then .next (s.reply .abort)
  else match s.foreignFrame pa bytes.length key with
    | some f => .next (s.event 0x46 [part, f])
    | none => .next (((s.claimRange pa bytes.length key).recallRange pa bytes.length).writeMem (cellsAt pa bytes))

/-! ## Configuration and training (R242, R253) -/

/-- HOST_CONFIG_ACCESS of a function's configuration space. Before stage 5 a request is to be retried; a device in
management only shows no function; a virtual function exists while its partition does. Contents are not described
(log 20). -/
def execHostConfigAccess (fn off : Nat) (wr : Option (BitVec 32)) (s : State) : Host.Outcome State Fault Refusal :=
  if s.pm.failed then .next (s.reply .abort)
  else if s.pm.stage ≠ 5 then .next (s.reply .retry)
  else if 17 ≤ fn || (fn != 0 && (s.parts.look (fn - 1)).isNone) then .next (s.reply (.word 0xFFFFFFFF))
  else match wr with
    | none => .next (s.reply (.word ((Config.configRegister fn off).setWidth 64)))
    | some _ => .next s

/-- LINK_TRAINING at ×16, ×8 or ×4, at a speed of CXL 4.0 (log 92): the width and the speed are reported. -/
def execLinkTraining (width speed : Nat) (s : State) : Host.Outcome State Fault Refusal :=
  .next (if (width = 4 ∨ width = 8 ∨ width = 16) && Config.cxlSpeed speed then
    ({ s with pm := { s.pm with linkWidth := width, linkSpeed := speed } }).reply (.link width speed) else s)

end Sys2Proof.Machine
end

