-- ==== Sys2Proof/Machine/Occur.lean ====
section
/-! DEFINITION. What happens to the machine beside the steps of the opcode table: directory entries freed (R15), errors that
accesses find (R118, R127, R239, R240), a quarantine acknowledged (R217), and host reads of registers (R198, R243). -/

namespace Sys2Proof.Machine

/-- The home frees a line's directory entry: every copy that it tracks goes, a modified one after it is written back. No crib
becomes STALE by it (R15), and the copy in the home die's own L2 stays (R14). -/
def State.dirEvict (s : State) (line : Nat) : State := ((s.recall line).invalidate line none).dropTracked line

/-- An uncorrectable error in a sector, found by an access or a write-back (R118). -/
def State.foundError (s : State) (core desc sector : Nat) : State :=
  (s.sectorError core desc sector).freeEmptyLeaf core desc (sector / 16)

/-- An uncorrectable error in a slate descriptor kills its team (R239). -/
def State.descError (s : State) (core desc : Nat) : State :=
  match s.desc? core desc with
  | some d => s.killTeam d.team
  | none => s

/-- An uncorrectable error in the entry of a crib that is LIVE or DROPPED (R127). -/
def State.cribError (s : State) (core id : Nat) : State :=
  match s.crib? core id with
  | some x => if x.st = .live ∨ x.st = .dropped then s.staleAll [(core, id)] else s
  | none => s

/-- A control thread that may issue reads an accumulator, a scalar or a mask whose SECDED fails (R239). A ring request that has been
granted completes before it (R197). DESIGN CHOICE
(log 77), unsafe: TLM names its active lanes. -/
def State.regError (s : State) (k : GKey) (who : Who) : State :=
  match s.groupAt k with
  | none => s
  | some g =>
    if !g.ready who || !s.coreRuns g then s
    else let t := (s.focus k who).settleGrant; t.consume ⟨.uncorrectable, t.active, 0⟩

/-- The manager of a partition acknowledges the quarantine of a core (R217). -/
def State.examAck (s : State) (part core : Nat) : State :=
  s.modCore core fun c =>
    if c.exam.quarantined then { c with exam := { c.exam with acked := insNat c.exam.acked part } } else c

def execOccur (o : Occur) (s : State) : Host.Outcome State Fault Refusal :=
  .next (match o with
    | .dirEvict line => s.dirEvict line
    | .sectorError core desc sector => s.foundError core desc sector
    | .corrected core n => s.modCore core fun c => { c with corrected := c.corrected + n }
    | .descError core desc => s.descError core desc
    | .cribError core id => s.cribError core id
    | .stateError part => s.fence part
    | .regError k who => s.regError k who
    | .examAck part core => s.examAck part core
    | .bar0Read part off => s.readBar0 part off
    | .bar2Read part off => s.readBar2 part off)

end Sys2Proof.Machine
end

