-- ==== Sys2Proof/Machine/CrossLane.lean ====
section
/-! DEFINITION. Cross-lane instructions (R373, R374). -/

namespace Sys2Proof.Machine

/-- A lane's value of a register, or of a pair. -/
def State.laneW (s : State) (wide : Bool) (k : VReg) (i : Nat) : Word :=
  if wide then s.readPair k.val i else (s.readV k.val i).setWidth 64
def State.writeW (s : State) (wide : Bool) (d : VReg) (sel : LaneSet) (f : Nat → Word) : State :=
  if wide then s.writePairs d.val sel f else s.writeLanes d.val sel fun i => (f i).setWidth 32

/-- The lane VSHFL reads; in LEGACY mode a lane outside the arm mask gives 0 (R252, R374). -/
def shuffled (s : State) (wide : Bool) (a : VReg) (idx : Nat) : Word :=
  if s.grp.shape.legacy then
    let j := idx % 32
    if s.arm.mask.getLsbD j then s.laneW wide a j else 0
  else s.laneW wide a (idx % s.grp.shape.width)

def execVshfl (g : Guard) (wide : Bool) (d a : VReg) (idx : VSrc) (s : State) : Host.Outcome State Fault Refusal :=
  wordOp (lanes g (vdst a wide ++ idx.vregs false) (vdst d wide) idx.sregs false) (fun c s =>
    .ok (.next (s.writeW wide d c.sel fun i => shuffled s wide a (idx.lane32 s i).toNat))) s

def execVbcast (g : Guard) (wide : Bool) (d a : VReg) (n : SSrc) (s : State) : Host.Outcome State Fault Refusal :=
  wordOp (lanes g (vdst a wide) (vdst d wide) n.sregs false) (fun c s =>
    let j := (n.value s).toNat % s.grp.shape.width
    .ok (.next (s.writeW wide d c.sel fun _ => s.laneW wide a j))) s

/-! ## Combinations (R374) -/

/-- The integer type of a reduction type; FP32 has none. -/
def redInt : RedTy → ITy
  | .i32 => .i32 | .n32 => .n32 | .i64 => .i64 | .n64 => .n64 | .f32 => .n32

/-- The sum of FP32 values: NaN, an infinity, −0 if all are, or the exact sum. -/
def sumF (rd : Bool) (l : List FVal) : FVal :=
  if l.any (· == .nan) then .nan
  else if l.contains (.inf false) then (if l.contains (.inf true) then .nan else .inf false)
  else if l.contains (.inf true) then .inf true
  else if !l.isEmpty && l.all (fun x => x.isZero && x.neg) then .num true 0 0
  else
    let t := l.foldl (FVal.add false) (.num false 0 0)
    if t.isZero then .num (rd && !l.isEmpty) 0 0 else t

/-- A combination of integers, or of FP32 codes. -/
def combineInt (op : RedOp) (t : ITy) (sat : Bool) (l : List Int) : Int :=
  match op with
  | .add => t.narrow sat (l.foldl (fun a b => a + b) 0)
  | .min => l.foldl (fun a b => if a ≤ b then a else b) t.hi
  | .max => l.foldl (fun a b => if a ≤ b then b else a) t.lo
  | .and => t.read (l.foldl (fun a b => a &&& BitVec.ofInt 64 b) (~~~0#64)).toNat
  | .or => t.read (l.foldl (fun a b => a ||| BitVec.ofInt 64 b) 0#64).toNat
  | .xor => t.read (l.foldl (fun a b => a ^^^ BitVec.ofInt 64 b) 0#64).toNat

def combineF (op : RedOp) (r : Rnd) (rnd : Nat) (l : List Nat) : Nat :=
  match op with
  | .min => match l with | [] => 0x7F800000 | x :: t => t.foldl (fp32.pick true) (if fp32.isNan x then fp32.nan else x)
  | .max => match l with | [] => 0xFF800000 | x :: t => t.foldl (fp32.pick false) (if fp32.isNan x then fp32.nan else x)
  | _ => fp32.round r rnd (sumF (r.mode == .rd) (l.map fp32.decode))

/-- Lane `i` of a reduction's source: a number under an integer type, a code under .f32. -/
def redLane (s : State) (t : RedTy) (a : VSrc) (i : Nat) : Nat :=
  match t with
  | .f32 => codeOf s .f32 a i
  | _ => laneOf s (redInt t) a i

/-- The combination of values under a type, as an integer to write. -/
def combine (op : RedOp) (t : RedTy) (r : Rnd) (rnd : Nat) (l : List Nat) : Int :=
  match t with
  | .f32 => (combineF op r rnd l : Int)
  | _ => combineInt op (redInt t) r.sat (l.map (redInt t).read)

/-- The generator moves over the lanes of the width only where FP32 sums are rounded stochastically. -/
def redMode (op : RedOp) (t : RedTy) (r : Rnd) : RMode :=
  match op, t with
  | .add, .f32 => r.mode
  | _, _ => .rn

def execVred (g : Guard) (op : RedOp) (ty : RedTy) (r : Rnd) (d : RedDst) (a : VSrc) (s : State) :
    Host.Outcome State Fault Refusal :=
  let w := ty.wide
  let i : Info := lanes g (a.vregs w) (match d with | .v k => vdst k w | .s _ => [])
    (a.sregs ++ match d with | .s k => [k.val] | .v _ => []) false
  wordOp i (fun c s =>
    let (draw, s') := s.drawLanes (redMode op ty r)
    let x := combine op ty r (draw 0) ((laneList c.sel).map (redLane s ty a))
    .ok (.next (match d with
      | .s k => s'.writeS k.val (wordOf x)
      | .v k => s'.writeW w k c.sel fun _ => wordOf x))) s

/-- The carry-in of VSCAN, read as the type. -/
def carryIn (s : State) (t : RedTy) (c : SSrc) : Nat :=
  match t, c with
  | .f32, .imm k => fp32.round ⟨.rn, false⟩ 0 (FVal.ofInt (smallInt k))
  | .f32, _ => (c.value s).toNat % 2 ^ 32
  | _, _ => (c.value s).toNat

def execVscan (g : Guard) (op : RedOp) (ty : RedTy) (r : Rnd) (d : VReg) (a : VSrc) (cin : SSrc) (s : State) :
    Host.Outcome State Fault Refusal :=
  let w := ty.wide
  wordOp (lanes g (a.vregs w) (vdst d w) (a.sregs ++ cin.sregs) false) (fun c s =>
    let (draw, s') := s.drawLanes (redMode op ty r)
    let l := laneList c.sel
    .ok (.next (s'.writeW w d c.sel fun i =>
      wordOf (combine op ty r (draw i) (carryIn s ty cin :: (l.filter (· ≤ i)).map (redLane s ty a)))))) s

/-- Selected lanes packed to the front; every other lane of D is unchanged. -/
def execVcmpr (g : Guard) (wide : Bool) (d a : VReg) (s : State) : Host.Outcome State Fault Refusal :=
  wordOp (lanes g (vdst a wide) (vdst d wide) [] false) (fun c s =>
    let l := laneList c.sel
    .ok (.next (s.writeW wide d (lanesBelow l.length) fun k => s.laneW wide a (l.getD k 0)))) s

end Sys2Proof.Machine
end

