-- ==== Sys2Proof/Machine/Proctor.lean ====
section
/-! DEFINITION. The Proctor and the format managers: bitstream records, the steps of an FSWAP, and the attestation log
(R93–R102). -/

namespace Sys2Proof.Machine

/-! ## Bitstream records (R95) -/

/-- The unbiased exponent of a finite value that is not zero. -/
def unbiased : FVal → Option Int
  | .num _ m e => if m = 0 then none else some ((Nat.log2 m : Int) + e)
  | _ => none

/-- Whether EXPBITS, BIAS, EMIN and EMAX agree with one another and with the codes. -/
def exponentsAgree (l : List Byte) : Bool :=
  let ebits := fieldAt l 9 1
  let bias := signedOf 16 (fieldAt l 0xA 2)
  let emin := signedOf 16 (fieldAt l 0xC 2)
  let emax := signedOf 16 (fieldAt l 0xE 2)
  match fieldAt l 8 1 with
  | 0 =>
    decide (emin = if bitB (fieldAt l 0x10 1) 4 then -bias else 1 - bias) &&
      decide (some emax = unbiased ((Fmt.ofRecord l 0).decode (fieldAt l 0x18 4)))
  | 1 => ebits == 0 && decide (bias = 0 ∧ emin = 0 ∧ emax = 0)
  | _ => ebits == 0 && decide (bias = 0) && Config.tableExponentsAgree l

/-- ASCII characters, then zeros. -/
def nameOk (l : List Byte) : Bool :=
  l.all (fun b => decide (b.toNat < 128)) && (l.dropWhile fun b => b.toNat != 0).all fun b => b.toNat == 0

/-- The header fields within their accepted values: the first 128 bytes. -/
def headerOk (l : List Byte) : Bool :=
  let n := fieldAt l 0x40 4
  let small (o : Nat) : Bool := let x := signedOf 16 (fieldAt l o 2); decide (-127 ≤ x ∧ x ≤ 127)
  fieldAt l 0 4 == 0x53424642 && fieldAt l 4 2 == 1 && decide (2 ≤ fieldAt l 6 1 ∧ fieldAt l 6 1 ≤ 32) &&
    decide (fieldAt l 7 1 ≤ 16 ∧ fieldAt l 8 1 ≤ 2 ∧ fieldAt l 9 1 ≤ 8) && small 0xC && small 0xE &&
    decide (fieldAt l 0x10 1 < 32 ∧ fieldAt l 0x11 1 < 64) && !someByte l 0x12 2 &&
    (bitB (fieldAt l 0x10 1) 1 || fieldAt l 0x14 4 == 0) && !someByte l 0x1C 4 &&
    nameOk (slice l 0x20 32) && n % 128 == 0 && decide (128 ≤ n ∧ n ≤ 2 ^ 22) &&
    decide (fieldAt l 0x44 2 ≤ 15) && !someByte l 0x46 58

/-! ## The standard set (R105) -/

/-- The header fields of a standard record: WIDTH, PLANES, KIND, EXPBITS, BIAS, EMIN, EMAX, POLICY, NANCODE, MAXCODE, and the
letters of its NAME. -/
structure StdHead where
  (width planes kind ebits : Nat) (bias emin emax : Int) (policy nan max : Nat) (name : List Nat)

/-- The records of indices 1–6 as R72, R95 and R105 give them. Whether E3M2 and E2M3 have −0 is not given (log 13). -/
def stdHead (k : Nat) : StdHead :=
  let neg0 : Nat := if Config.standardNeg0 k then 4 else 0
  match k with
  | 1 => ⟨6, 3, 0, 3, 3, -2, 4, 8 + neg0, 0, 0x1F, [0x45, 0x33, 0x4D, 0x32]⟩
  | 2 => ⟨6, 4, 0, 2, 1, 0, 2, 8 + neg0, 0, 0x1F, [0x45, 0x32, 0x4D, 0x33]⟩
  | 3 => ⟨7, 3, 0, 4, 7, -6, 8, 0b1010, 0x3F, 0x3E, [0x45, 0x34, 0x4D, 0x32]⟩
  | 4 => ⟨4, 4, 1, 0, 0, 0, 0, 8, 0, 7, [0x49, 0x4E, 0x54, 0x34]⟩
  | 5 => ⟨2, 2, 1, 0, 0, 0, 0, 8, 0, 1, [0x49, 0x4E, 0x54, 0x32]⟩
  | _ => ⟨8, 1, 0, 8, 127, -127, 127, 0x12, 0xFF, 0xFE, [0x45, 0x38, 0x4D, 0x30]⟩

/-- A body as a record holds it: whole 128-byte units, at least one, at most 4 MiB. -/
def padBody (l : List Byte) : List Byte :=
  let l := l.take (2 ^ 22)
  let n := max 1 ((l.length + 127) / 128) * 128
  l ++ List.replicate (n - l.length) (0 : Byte)

/-- A standard record, bytes 0x00 to 0x80 + BODYLEN − 1. USES is given for E4M2 alone (log 13). -/
def standardRecord (k : Nat) : List Byte :=
  let h := stdHead k
  let signed (x : Int) : List Byte := toBytes 2 (x % 65536).toNat
  let body := padBody (Config.standardBody k)
  toBytes 4 0x53424642 ++ toBytes 2 1 ++ toBytes 1 h.width ++ toBytes 1 h.planes ++ toBytes 1 h.kind ++ toBytes 1 h.ebits ++
    signed h.bias ++ signed h.emin ++ signed h.emax ++ toBytes 1 h.policy ++
    toBytes 1 (if k = 3 then 0x3F else (Config.standardUses k).toNat) ++ toBytes 2 0 ++ toBytes 4 h.nan ++ toBytes 4 h.max ++
    toBytes 4 0 ++ (h.name.map (BitVec.ofNat 8) ++ List.replicate (32 - h.name.length) (0 : Byte)) ++ toBytes 4 body.length ++
    toBytes 2 0 ++ List.replicate 58 (0 : Byte) ++ body

/-! ## The Proctor's reads -/

/-- How a read of the Proctor ends: with bytes, waiting for a page, or failed. -/
inductive Fetch where
  | ok (l : List Byte) (s : State)
  | wait (va level : Nat)
  | err

/-- Read `n` bytes from a VA under a partition's translation, page by page. -/
def State.proctorRead (s : State) (p va n : Nat) : Fetch :=
  (framesOf va n).foldl (fun acc f =>
    match acc with
    | .ok l s =>
      let a := max va (f * 8192)
      let k := min (va + n) ((f + 1) * 8192) - a
      if 2 ^ 71 ≤ a then .err
      else
        let s := s.claimWalk p a
        match s.walkTr p .read a with
        | .ok pa key => if s.poisonAt pa k then .err else .ok (l ++ s.mem.bytes pa k) { s with mem := s.mem.claim pa key }
        | .park level => .wait a level
        | _ => .err
    | x => x) (.ok [] s)

/-- How step 1 ends for a record: it waits, ends with a status, or yields the record that is to be bound. -/
inductive Verdict where
  | wait (s : State)
  | status (n : Nat) (s : State)
  | bind (l : List Byte) (s : State)

def State.signerKey (s : State) (p signer : Nat) : Option (List Byte) :=
  if signer = 0 then some Config.briquaKey else match s.parts.look p with | some x => x.keys.look signer | none => none

/-- Fetch and verify the record of an expert form (R95, R96, R99, R101). DESIGN CHOICE (log 85), unsafe: ACCESS of a fault
record of this read has bit [0] alone, since R95 and R232 do not say whether bit [4] is set too. -/
def State.verifyExpert (s : State) (n : Nat) (x : Swap) : Verdict :=
  let p := x.part
  let fault (va level : Nat) : Verdict :=
    let (s, id) := s.ticketFor p va Acc.read.code level 0xE000
    .wait { s with swaps := s.swaps.upd n fun y => { y with ticket := some id } }
  if !(s.par p).expert then .status 5 s
  else if x.arg % 128 ≠ 0 then .status 4 s
  else match s.proctorRead p x.arg 128 with
    | .wait va level => fault va level
    | .err => .status 9 s
    | .ok h s => 
      if !headerOk h then .status 4 s
      else
        let len := 0x80 + fieldAt h 0x40 4
        match s.proctorRead p x.arg (len + 7856) with
        | .wait va level => fault va level
        | .err => .status 9 s
        | .ok l s =>
          let body := l.take len
          let signer := fieldAt h 0x44 2
          let meas := shaNum body
          let known : Bool := match s.parts.look p with | some y => y.verified.contains (meas, signer) | none => false
          if !exponentsAgree body then .status 4 s
          else match s.signerKey p signer with
            | none => .status 5 s
            | some key =>
              if known then .bind body s
              else if Config.sigVerify key body (slice l len 7856) then
                .bind body (s.modPart p fun y => { y with verified := (meas, signer) :: y.verified })
              else .status 3 s

/-- The record of a swap that binds. -/
def State.verifyRecord (s : State) (n : Nat) (x : Swap) : Verdict :=
  match x.record with
  | some l => .bind l s
  | none =>
    if x.src = 1 then
      let l := standardRecord x.arg
      if headerOk l && exponentsAgree l then .bind l s else .status 4 s
    else s.verifyExpert n x

/-! ## The attestation log (R102) -/

def LogEntry.bytes (e : LogEntry) : List Byte :=
  toBytes 1 e.die ++ toBytes 1 e.slot ++ toBytes 1 e.gen.toNat ++ toBytes 1 (if e.unbind then 1 else 0) ++ toBytes 2 e.signer ++
    toBytes 2 0 ++ toBytes 8 e.time ++ toBytes 32 e.meas.toNat ++ toBytes 16 0

def chainNext (chain : BitVec 256) (e : LogEntry) : BitVec 256 := shaNum (toBytes 32 chain.toNat ++ e.bytes)

/-- Write an entry and extend the chain with it. -/
def State.logEntry (s : State) (p : Nat) (e : LogEntry) : State :=
  s.modPart p fun x => { x with log := x.log ++ [e], chain := chainNext x.chain e }

def State.logFree (s : State) (p : Nat) : Bool :=
  match s.parts.look p with | some x => decide (x.log.length + x.logReserved < 4096) | none => false

def State.reserveLog (s : State) (p : Nat) : State := s.modPart p fun x => { x with logReserved := x.logReserved + 1 }
def State.releaseLog (s : State) (p : Nat) : State := s.modPart p fun x => { x with logReserved := x.logReserved - 1 }

/-! ## The steps of one die (R96–R99) -/

/-- A die's step. The unbinding of a revoked key is over with its last step. -/
def State.setStep (s : State) (n d : Nat) (st : SwapSt) : State :=
  { s with swaps := (s.swaps.upd n fun x => { x with dies := x.dies.ins d st }).keep fun _ x =>
      x.key.isSome || x.dies.vals.any fun y => match y with | .done _ => false | _ => true }

/-- Whether a swap's step on a die has not ended. -/
def Swap.busy (x : Swap) (d : Nat) : Bool := match x.dies.look d with | some (.done _) => false | some _ => true | none => false

/-- An earlier FSWAP on the same slot and die that has not completed there (R99). -/
def State.swapWaits (s : State) (n : Nat) (x : Swap) (d : Nat) : Bool :=
  s.swaps.any fun y => decide (y.1 < n) && y.2.part == x.part && y.2.slot == x.slot && y.2.busy d

/-- Step 2: the slot is in TRANSITION, with an entry of the log reserved. A new binding takes the lowest free region. An
unbinding that a revocation starts waits for no entry of the log; DESIGN CHOICE (log 86), unsafe: with none free it stands
in no entry. -/
def State.startTransition (s : State) (n d : Nat) (x : Swap) (region : Option Nat) : State :=
  let b := s.slotOf x.part d x.slot
  let s := if s.logFree x.part then s.reserveLog x.part
    else { s with swaps := s.swaps.upd n fun y => { y with unlogged := d :: y.unlogged } }
  let s := s.setSlot x.part d x.slot { b with st := .transition, wasBound := b.st == .bound, region := region.getD b.region }
  s.setStep n d (.drain s.pm.time)

/-! ### Turns (R99) -/

/-- The lowest partition above the one served last, or else the lowest. -/
def nextPart (last : Nat) (l : List Nat) : Option Nat :=
  match minBy id (l.filter fun p => decide (last < p)) with
  | some p => some p
  | none => minBy id l

/-- The swap that is served next: of the partition whose turn it is, the first by the order in which they came. -/
def turnOf (last : Nat) (came : Nat × Swap → Nat) (l : List (Nat × Swap)) : Option Nat :=
  (nextPart last (l.map fun x => x.2.part)).bind fun p => (minBy came (l.filter fun x => x.2.part == p)).map (·.1)

/-- The order in which a swap came to wait for its region on a die (R99). -/
def Swap.came (d : Nat) (x : Nat × Swap) : Nat := match x.2.dies.look d with | some (.reconf n) => n | _ => 0

/-- Swaps whose record the Proctor has still to verify. -/
def State.toVerify (s : State) : List (Nat × Swap) :=
  s.swaps.filter fun (n, x) => x.src != 2 && x.record.isNone && x.ticket.isNone &&
    x.dies.any fun (d, st) => st == .verify && !s.swapWaits n x d

/-- Swaps whose region on a die waits to be loaded or blanked. -/
def State.toReconfigure (s : State) (d : Nat) : List (Nat × Swap) := 
  s.swaps.filter fun (_, x) => match x.dies.look d with | some (.reconf _) => true | _ => false

/-- Whether the Proctor serves a swap now: one record at a time, the partitions in turn, within one in the order in which the
FSWAPs issued. -/
def State.verifyTurn (s : State) (n : Nat) (x : Swap) : Bool :=
  x.src == 2 || x.record.isSome || turnOf s.pm.verifyTurn (·.1) s.toVerify == some n

/-! ### Step 1 -/

/-- Whether a slot still holds the binding that a revocation ends (R101). -/
def revokes (x : Swap) (b : Slot8) : Bool := decide (b.st = .bound ∧ b.signer = x.arg)

/-- Step 1 of an unbinding on a die. -/
def State.stepUnbind (s : State) (swap die : Nat) (x : Swap) : State :=
  let b := s.slotOf x.part die x.slot
  if b.st = .unbound || (x.key.isNone && !revokes x b) then s.setStep swap die (.done 2)
  else if x.key.isSome && !s.logFree x.part then s.setStep swap die (.done 8)
  else s.startTransition swap die x none

/-- Step 1 of a binding on a die, the verification of its record included. -/
def State.stepBind (s : State) (swap die : Nat) (x : Swap) : State :=
  let p := x.part
  let b := s.slotOf p die x.slot
  match s.verifyRecord swap x with
  | .wait s => s
  | .status k s => s.setStep swap die (.done k)
  | .bind l s =>
    let meas := shaNum l
    let s := { s with swaps := s.swaps.upd swap fun y => { y with record := some l, meas := meas } }
    let free := (s.regionsOf p die).find? fun r => !(s.regionsUsed p die).contains r
    if b.st = .bound ∧ b.meas = meas then s.setStep swap die (.done 1)
    else if b.st = .unbound ∧ free.isNone then s.setStep swap die (.done 6)
    else if !s.logFree p then s.setStep swap die (.done 8)
    else s.startTransition swap die x (if b.st = .unbound then free else none)

/-- Step 1 of a swap on a die. -/
def State.verifyStep (s : State) (swap die : Nat) (x : Swap) : State :=
  if x.rejected then
    { s with swaps := s.swaps.upd swap fun y => { y with rejected := false } }.setStep swap die (.done 9)
  else if x.src = 2 then s.stepUnbind swap die x
  else
    let s := if x.record.isNone then { s with pm := { s.pm with verifyTurn := x.part } } else s
    s.stepBind swap die x

/-- PROCTOR_VERIFY_DONE: step 1 ends on a die, and step 2 follows it. -/
def execProctorVerifyDone (swap die : Nat) (s : State) : Host.Outcome State Fault Refusal :=
  match s.swaps.look swap with
  | none => .next s
  | some x =>
    if x.dies.look die ≠ some .verify ∨ x.ticket.isSome ∨ s.pm.stopped ∨ s.pm.failed then .next s
    else if s.swapWaits swap x die || !s.verifyTurn swap x then .next s
    else .next (s.verifyStep swap die x)

/-- The slots that a running replay's lesson names: those of its header's FSREQ (R137; log 100). -/
def State.lessonSlots (s : State) (g : Group) : List Nat :=
  match g.replayId with
  | none => []
  | some r => match (s.crib? r.home r.crib).bind fun c => s.taskEntry g.part c.lesson with
    | some e => (Khdr.ofWord (TaskEntry.khdr e)).slots
    | none => []

/-- Whether an operation of a group uses a slot on a die: a CPY where it was accepted, any other where the group stands. -/
def Group.opUses (g : Group) (d slot : Nat) (o : Op) : Bool :=
  o.slots.contains slot && match o.kind with
    | .engine n => (match (g.eng.recs.look n).bind (·.bind) with | some (k, _) => k == d | none => false)
    | _ => dieOfCore g.key.core == d

/-- Whether an operation of the partition, a parked instruction with some lanes finished, or a running replay uses a slot on a
die under its old binding (R97, R137). -/
def State.slotUsed (s : State) (p d slot : Nat) : Bool :=
  let gs := s.groups ++ s.teams.vals.flatMap (·.saved)
  gs.any fun g => g.part == p && (g.ops.vals.any (g.opUses d slot) ||
    (dieOfCore g.key.core == d && (g.a0.uses.contains slot || g.a1.uses.contains slot || (s.lessonSlots g).contains slot)))

/-- FMG_DRAIN_DONE: nothing uses the old binding any more (step 3), not later than 1 ms after the transition began (R98). -/
def execFmgDrainDone (swap die : Nat) (s : State) : Host.Outcome State Fault Refusal :=
  match s.swaps.look swap with
  | none => .next s
  | some x => match x.dies.look die with
    | some (.drain t) => .next (if s.slotUsed x.part die x.slot || s.pm.stopped || decide (t + 1000000 < s.pm.time) then s
        else s.setStep swap die (.reconf s.cnt.steps))
    | _ => .next s

/-- A die's step of a swap gives its entry of the log back, if it has reserved one. -/
def State.unreserve (s : State) (die : Nat) (x : Swap) : State := if x.unlogged.contains die then s else s.releaseLog x.part

/-- DRAIN_TIMEOUT: the drain has not finished 1 ms after the transition began (R98). -/
def execDrainTimeout (swap die : Nat) (s : State) : Host.Outcome State Fault Refusal :=
  match s.swaps.look swap with
  | none => .next s
  | some x => match x.dies.look die with
    | some (.drain t) =>
      if s.pm.time < t + 1000000 || s.pm.stopped then .next s
      else
        let b := s.slotOf x.part die x.slot
        let b := { b with st := if b.wasBound then .bound else .unbound, wasBound := false }
        .next (((s.setSlot x.part die x.slot b).unreserve die x).setStep swap die (.done 7))
    | _ => .next s

/-- Steps 5 and 6: the reserved entry is written, and the binding published. DESIGN CHOICE (log 86), unsafe: a record whose
signer's key has been revoked since step 1 is published all the same, and the revocation's unbinding follows it. -/
def State.publish (s : State) (swap die : Nat) (x : Swap) : State :=
  let b := s.slotOf x.part die x.slot
  let gen := b.gen + 1
  let l := x.record.getD []
  let signer := if x.src = 2 then 0 else fieldAt l 0x44 2
  let meas := if x.src = 2 then 0 else x.meas
  let s := s.unreserve die x
  let s := if x.unlogged.contains die then s else s.logEntry x.part ⟨die, x.slot, gen, x.src == 2, signer, s.pm.time, meas⟩
  let new : Slot8 := if x.src = 2 then ⟨.unbound, false, gen, b.region, 0, 0, []⟩ else ⟨.bound, false, gen, b.region, meas, signer, l⟩
  (s.setSlot x.part die x.slot new).setStep swap die (.done (if x.src = 2 then 2 else 0))

/-- REGION_RECONFIGURED: the FMG has loaded or blanked the region whose turn it was (step 4, R99). -/
def execRegionReconfigured (swap die : Nat) (s : State) : Host.Outcome State Fault Refusal :=
  match s.swaps.look swap with
  | none => .next s
  | some x =>
    if turnOf (Tbl.get 0 s.pm.reconfTurn die) (Swap.came die) (s.toReconfigure die) ≠ some swap ∨ s.pm.stopped then .next s
    else .next (({ s with pm := { s.pm with reconfTurn := Tbl.put 0 s.pm.reconfTurn die x.part } }).publish swap die x)

/-- Revoking a key unbinds every slot of the partition whose record it signed, on every die, as the unbind form of FSWAP
does (R101): one unbinding for each slot, in turn after the swaps of that slot that are under way. -/
def State.revoke (s : State) (p signer : Nat) : State :=
  (List.range 8).foldl (fun t i =>
    let slot := 8 + i
    let dies := [0, 1, 2, 3].filter fun d =>
      let b := t.slotOf p d slot
      (b.st == .bound && b.signer == signer) || (t.swaps.any fun y => y.2.part == p && y.2.slot == slot && y.2.busy d)
    if dies.isEmpty then t
    else
      let id := t.cnt.swap
      let x : Swap :=
        { key := none, part := p, op := 0, dst := 0, slot := slot, src := 2, arg := signer
          dies := dies.map fun d => (d, SwapSt.verify), record := none, meas := 0, ticket := none, rejected := false
          unlogged := [] }
      let t := { t with swaps := t.swaps.ins id x, cnt := { t.cnt with swap := id + 1 } }
      dies.foldl (fun u d => match u.swaps.look id with
        | some y => if u.swapWaits id y d then u else u.verifyStep id d y
        | none => u) t) s

end Sys2Proof.Machine
end

