-- ==== Sys2Proof/Machine/Manage.lean ====
section
/-! DEFINITION. Management requests other than those that make and end partitions (R22, R101–R102, R213, R220–R221, R236, R243,
R246, R254). -/

namespace Sys2Proof.Machine

/-! ## Caps -/

def execModuleCap (w : Nat) (s : State) : Host.Outcome State Fault Refusal :=
  let (c, clamped) := clampCap w
  .next ((({ s with pm := { s.pm with moduleCap := some c } }).capAck 1 c clamped).mgmtOk)

/-- RACK_BROADCAST: it replaces an earlier one, and 2,800 W lifts it (R221). -/
def execRackBroadcast (c k : Nat) (s : State) : Host.Outcome State Fault Refusal :=
  .next (if 7 < k ∨ 2 ^ 12 ≤ c then s.mgmtError 0x05
    else ({ s with pm := { s.pm with broadcast := if c = 2800 then none else some (c, k), below := [] } }).mgmtOk)

/-! ## Frames (R236) -/

/-- Zero a frame and forget its key. -/
def State.releaseFrame (s : State) (frame : Nat) : State :=
  let a := frame * 8192
  let out (x : Nat) : Bool := decide (x < a ∨ a + 8192 ≤ x)
  let mem : Memory :=
    { cells := s.mem.cells.filter fun c => out c.1, poison := s.mem.poison.filter fun l => out (l * 128)
      owners := s.mem.owners.del frame }
  let s := { s with mem := mem }
  let s := s.clearGranules ((List.range 128).map fun k => a / 64 + k)
  (List.range 64).foldl (fun t k => (t.invalidate (a / 128 + k) none).watchHit (a / 128 + k)) s

def execFrameRelease (p frame : Nat) (s : State) : Host.Outcome State Fault Refusal :=
  .next (s.mgmtPart p 0x06 true fun _ => if 2 ^ 26 ≤ frame then s.mgmtError 0x06 else (s.releaseFrame frame).mgmtOk)

/-! ## Keys and the log (R101, R102) -/

/-- The bytes that the platform owner signs (log 13). -/
def keyMessage (p signer : Nat) (key : List Byte) : List Byte := toBytes 1 p ++ toBytes 1 signer ++ key

/-- KEY_ENROL (R101). DESIGN CHOICE (log 106), unsafe: a signer number enrolled again takes the new key, and slots bound and
slot headers verified under the old one stay as they are. -/
def execKeyEnrol (p signer : Nat) (key sig : List Byte) (s : State) : Host.Outcome State Fault Refusal :=
  .next (s.mgmtPart p 0x07 false fun _ =>
    if signer < 1 || 15 < signer || key.length != 32 || !Config.sigVerify Config.platformKey (keyMessage p signer key) sig then
      s.mgmtError 0x07
    else (s.modPart p fun x => { x with keys := x.keys.ins signer key }).mgmtOk)

def execKeyRevoke (p signer : Nat) (sig : List Byte) (s : State) : Host.Outcome State Fault Refusal :=
  .next (s.mgmtPart p 0x08 false fun x =>
    if (x.keys.look signer).isNone || !Config.sigVerify Config.platformKey (keyMessage p signer []) sig then s.mgmtError 0x08
    else
      ((s.modPart p fun y => { y with keys := y.keys.del signer }).revoke p signer).mgmtOk)

/-- ATTESTATION_LOG_ROLL: the entries go, the chain value carries over. -/
def execAttestationLogRoll (p : Nat) (s : State) : Host.Outcome State Fault Refusal :=
  .next (s.mgmtPart p 0x09 false fun _ => (s.modPart p fun x => { x with log := [] }).mgmtOk)

/-! ## Teams, counters, measurements, the device id -/

def execPreEmptTeam (team deadline : Nat) (s : State) : Host.Outcome State Fault Refusal :=
  match s.teams.look team with
  | none => .next (s.mgmtError 0x0A)
  | some t => .next (s.mgmtPart t.part 0x0A false fun _ => (s.preempt team deadline 0 0).mgmtOk)

/-- COUNTER_READ: the status block, and corrected errors of the stacks and of the partition's cores. -/
def execCounterRead (p : Nat) (s : State) : Host.Outcome State Fault Refusal :=
  .next (s.mgmtPart p 0x0B true fun x =>
    let cs := s.cores.filter fun c => decide (x.par.clbase ≤ clusterOfCore c.1 ∧ clusterOfCore c.1 ≤ x.par.cllimit)
    s.reply (.counters (s.statusFields x) (s.pm.corrected :: cs.map fun c => c.2.corrected)))

/-- SPDM_GET_MEASUREMENTS of a partition's virtual function: the measurement extended at
bring-up, the log and its chain. Without attestation keys there is no signed answer (R241; log 20). -/
def execSpdmGetMeasurements (p : Nat) (s : State) : Host.Outcome State Fault Refusal :=
  match s.parts.look p with
  | none => .next (s.mgmtError 0x05)
  | some x => .next (if s.pm.attKeys then s.reply (.measurement [s.pm.meas] x.log x.chain) else s.mgmtError 0x05)

/-- DEVICE_ID_SET, before array-die release. -/
def execDeviceIdSet (id : BitVec 17) (s : State) : Host.Outcome State Fault Refusal :=
  .next (if s.pm.stage < 3 then ({ s with fab := { s.fab with id := id } }).mgmtOk else s.mgmtError 0)

end Sys2Proof.Machine
end

