-- ==== Sys2Proof/Machine/Scalar.lean ====
section
/-! DEFINITION. Scalar arithmetic, bit instructions and moves (R339–R343), constant loads (R342) and special registers
(R66, R350). -/

namespace Sys2Proof.Machine

/-! ## Shapes -/

/-- D ← f a, narrowed under the type. -/
def scalar1 (x : SOp1) (f : Int → Int) (s : State) : Host.Outcome State Fault Refusal :=
  wordOp x.info (fun _ s => setS x.d (wordOf (x.ty.narrow false (f (x.ty.read (x.a.value s).toNat)))) s) s

/-- D ← f a b. -/
def scalar2 (sat : Bool) (x : SOp2) (f : Int → Int → Int) (s : State) : Host.Outcome State Fault Refusal :=
  wordOp x.info (fun c s => do
    let (b, s) ← x.b.read s c true
    setS x.d (wordOf (x.ty.narrow sat (f (x.ty.read (x.a.value s).toNat) (x.ty.read b.toNat)))) s) s

/-- D ← f a n, with n the whole of B read as unsigned. -/
def scalarShift (x : SOp2) (f : Nat → Int → Nat → Int) (s : State) : Host.Outcome State Fault Refusal :=
  wordOp x.info (fun c s => do
    let (b, s) ← x.b.read s c true
    setS x.d (wordOf (x.ty.narrow false (f x.ty.bits (x.ty.read (x.a.value s).toNat) b.toNat))) s) s

/-! ## Instructions -/

def execSadd (sat : Bool) (x : SOp2) (s : State) : Host.Outcome State Fault Refusal := scalar2 sat x (fun a b => a + b) s
def execSsub (sat : Bool) (x : SOp2) (s : State) : Host.Outcome State Fault Refusal := scalar2 sat x (fun a b => a - b) s
def execSmul (sat : Bool) (x : SOp2) (s : State) : Host.Outcome State Fault Refusal := scalar2 sat x (fun a b => a * b) s
def execSmulh (x : SOp2) (s : State) : Host.Outcome State Fault Refusal := scalar2 false x (opMulh x.ty.bits) s

def execSmad (sat : Bool) (x : SOp3) (s : State) : Host.Outcome State Fault Refusal :=
  wordOp x.info (fun c s => do
    let (b, s) ← x.b.read s c true
    let t := x.ty
    setS x.d (wordOf (t.narrow sat (t.read (x.a.value s).toNat * t.read b.toNat + t.read (x.c.value s).toNat))) s) s

/-- Division by zero traps; −2^(w−1) ÷ −1 wraps (R340). -/
def execSdiv (rem : Bool) (x : SOp2) (s : State) : Host.Outcome State Fault Refusal :=
  wordOp x.info (fun c s => do
    let (b, s) ← x.b.read s c true
    let d := x.ty.read b.toNat
    if d = 0 then trapNow c .divZero 0
    else setS x.d (wordOf (x.ty.narrow false (divTrunc rem (x.ty.read (x.a.value s).toNat) d))) s) s

def execSlog (op : LogOp) (x : SOp1) (b : Option SB) (s : State) : Host.Outcome State Fault Refusal :=
  wordOp { x.info with ss := x.info.ss ++ (match b with | some y => y.sregs | none => []) } (fun c s => do
    let (b, s) ← match b with | some y => y.read s c true | none => Except.ok (0, s)
    setS x.d (wordOf (x.ty.read (op.bits (x.a.value s) b).toNat)) s) s

def execSshl (x : SOp2) (s : State) : Host.Outcome State Fault Refusal := scalarShift x opShl s
def execSshr (x : SOp2) (s : State) : Host.Outcome State Fault Refusal := scalarShift x opShr s
def execSsra (x : SOp2) (s : State) : Host.Outcome State Fault Refusal := scalarShift x opSra s
def execSmin (x : SOp2) (s : State) : Host.Outcome State Fault Refusal := scalar2 false x (fun a b => if a ≤ b then a else b) s
def execSmax (x : SOp2) (s : State) : Host.Outcome State Fault Refusal := scalar2 false x (fun a b => if a ≤ b then b else a) s

/-- 1 or 0, whatever the type. -/
def execScmp (rel : Rel) (x : SOp2) (s : State) : Host.Outcome State Fault Refusal :=
  wordOp x.info (fun c s => do
    let (b, s) ← x.b.read s c true
    setS x.d (if rel.holds (x.ty.read (x.a.value s).toNat) (x.ty.read b.toNat) then 1 else 0) s) s

def execSsel (x : SOp3) (s : State) : Host.Outcome State Fault Refusal :=
  wordOp x.info (fun c s => do
    let (b, s) ← x.b.read s c true
    let r := if x.c.value s != 0 then x.a.value s else b
    setS x.d (wordOf (x.ty.read r.toNat)) s) s

def execSmov (x : SOp1) (s : State) : Host.Outcome State Fault Refusal := scalar1 x (fun a => a) s

def execSmovi (g : Guard) (form : SMoviForm) (d : SReg) (imm : BitVec 32) (s : State) :
    Host.Outcome State Fault Refusal :=
  wordOp (ctl g [d.val]) (fun _ s =>
    let r : Word := match form with
      | .sext => imm.signExtend 64
      | .zext => imm.setWidth 64
      | .hi => imm ++ (s.readS d.val).setWidth 32
    setS d r s) s

def execSpopc (x : SOp1) (s : State) : Host.Outcome State Fault Refusal :=
  wordOp x.info (fun _ s => setS x.d (wordOf (x.ty.narrow false (popcount (x.a.value s).toNat x.ty.bits))) s) s
def execSclz (x : SOp1) (s : State) : Host.Outcome State Fault Refusal :=
  wordOp x.info (fun _ s => setS x.d (wordOf (x.ty.narrow false (leadingZeros (x.a.value s).toNat x.ty.bits))) s) s

def execSbfx (x : SOp3) (s : State) : Host.Outcome State Fault Refusal :=
  wordOp x.info (fun c s => do
    let (b, s) ← x.b.read s c true
    setS x.d (wordOf (opBfx x.ty (x.ty.read (x.a.value s).toNat) b.toNat (x.c.value s).toNat)) s) s

def execSbfi (x : SOp3) (s : State) : Host.Outcome State Fault Refusal :=
  wordOp x.info (fun c s => do
    let (b, s) ← x.b.read s c true
    let t := x.ty
    setS x.d (wordOf (opBfi t (t.read (s.readS x.d.val).toNat) (t.read (x.a.value s).toNat) b.toNat (x.c.value s).toNat)) s) s

/-- The window word, sign-extended (R342). -/
def execSldc (g : Guard) (d : SReg) (win : Fin 8) (ofs : BitVec 17) (s : State) : Host.Outcome State Fault Refusal :=
  wordOp (ctl g [d.val]) (fun c s => do
    let (x, s) ← s.cwRead c win.val ofs.toNat
    setS d (x.signExtend 64) s) s

/-! ## Special registers -/

/-- PROV of a partition: the smallest start of a most recent passed exam over its cores, less the
quarantined ones that its manager has acknowledged (R217). -/
def State.prov (s : State) (p : Nat) : Nat :=
  let par := s.par p
  let counts (c : Nat × Core) : Bool := decide (par.clbase ≤ clusterOfCore c.1 ∧ clusterOfCore c.1 ≤ par.cllimit) &&
    !(c.2.exam.quarantined && c.2.exam.acked.contains p)
  ((s.cores.filter counts).foldl
    (fun m c => match m with
      | none => some c.2.exam.lastPass
      | some n => some (min n c.2.exam.lastPass)) none).getD 0

/-- CAPSRC (R222). -/
def capCode : CapCode → Nat
  | .none => 0 | .module => 1 | .partition => 2 | .thermal => 3 | .current => 4 | .broadcast => 5 | .external => 6
def CapSrc.word (c : CapSrc) : Word :=
  BitVec.ofNat 64 (capCode c.src + (if c.active then 8 else 0) + c.rank % 8 * 16 + c.capw.toNat * 2 ^ 16 + c.stamp.toNat * 2 ^ 32)

/-- A special register's 128 bits, as it stands now (R66). -/
def State.readSpr (s : State) (r : Spr) : Nat :=
  let g := s.grp
  match r with
  | .time => s.pm.time
  | .rclk => s.rclk s.core
  | .gid => g.gid
  | .tid => g.tid
  | .gwidth => g.shape.width
  | .arm => if s.who = .arm1 then 1 else 0
  | .tkind => g.tr.tkind.toNat
  | .tpcv => g.tr.tpcv.toNat
  | .tlm => g.tr.tlm.toNat
  | .tinfo => g.tr.tinfo.toNat
  | .tstat => (if g.tr.tm then 1 else 0) + (if g.tr.resv || !s.arm.resv.isEmpty then 2 else 0)
  | .rgpc => g.rg.rgpc.toNat
  | .qstat => g.qstat.toNat
  | .srseed => g.srseed.toNat
  | .capsrc => match s.part? with | some p => (CapSrc.word p.capsrc).toNat | none => 0
  | .prov => s.prov g.part
  | .mmrev => g.shape.mmrev

/-- Write the writable bits of a special register's low half (R66, R90). -/
def Group.writeSprLo (g : Group) (r : Spr) (x : Word) : Group :=
  match r with
  | .tkind => { g with tr := { g.tr with tkind := x.setWidth 8 } }
  | .tpcv => { g with tr := { g.tr with tpcv := (bits g.tr.tpcv.toNat 64 7 : BitVec 7) ++ x } }
  | .tlm => { g with tr := { g.tr with tlm := x } }
  | .tinfo => { g with tr := { g.tr with tinfo := x } }
  | .qstat => { g with qstat := x &&& 0x0000_FFFF_FFFF_0307#64 }
  | .srseed => { g with srseed := x, gen := srSeed x }
  | _ => g

/-- Write the writable bits of the high half: TPCV alone has any. -/
def Group.writeSprHi (g : Group) (r : Spr) (x : Word) : Group :=
  match r with
  | .tpcv => { g with tr := { g.tr with tpcv := x.setWidth 7 ++ g.tr.tpcv.setWidth 64 } }
  | _ => g

def execSrd (g : Guard) (hi : Bool) (d : SReg) (r : Spr) (s : State) : Host.Outcome State Fault Refusal :=
  wordOp (ctl g [d.val]) (fun _ s => setS d (BitVec.ofNat 64 (s.readSpr r / (if hi then 2 ^ 64 else 1))) s) s

def execSwr (g : Guard) (hi : Bool) (r : Spr) (a : SSrc) (s : State) : Host.Outcome State Fault Refusal :=
  wordOp (ctl g a.sregs false) (fun c s =>
    if !r.writable || (r.trapOnly && !s.grp.tr.tm) then trapNow c .illegalOp 0
    else
      let x := a.value s
      .ok (.next (s.modGrp fun g => if hi then g.writeSprHi r x else g.writeSprLo r x))) s

end Sys2Proof.Machine
end

