-- ==== Sys2Proof/Machine/Dispatch.lean ====
section
/-! DEFINITION. The meaning of each instruction: one direct call for each constructor of `Instr`. -/

namespace Sys2Proof.Machine

def exec (i : Instr) (s : State) : Host.Outcome State Fault Refusal :=
  match i with
  | .nop => Sys2Proof.Machine.execNop s
  | .bra x => Sys2Proof.Machine.execBra x s
  | .bmask g cond off => Sys2Proof.Machine.execBmask g cond off s
  | .btab g idx tab n => Sys2Proof.Machine.execBtab g idx tab n s
  | .call x => Sys2Proof.Machine.execCall x s
  | .ret g => Sys2Proof.Machine.execRet g s
  | .fork g shared m off => Sys2Proof.Machine.execFork g shared m off s
  | .join g => Sys2Proof.Machine.execJoin g s
  | .exit g => Sys2Proof.Machine.execExit g s
  | .yield g n => Sys2Proof.Machine.execYield g n s
  | .trap g a => Sys2Proof.Machine.execTrap g a s
  | .rft g => Sys2Proof.Machine.execRft g s
  | .waitt g t f => Sys2Proof.Machine.execWaitt g t f s
  | .sadd sat x => Sys2Proof.Machine.execSadd sat x s
  | .ssub sat x => Sys2Proof.Machine.execSsub sat x s
  | .smul sat x => Sys2Proof.Machine.execSmul sat x s
  | .smulh x => Sys2Proof.Machine.execSmulh x s
  | .smad sat x => Sys2Proof.Machine.execSmad sat x s
  | .sdiv rem x => Sys2Proof.Machine.execSdiv rem x s
  | .slog op x b => Sys2Proof.Machine.execSlog op x b s
  | .sshl x => Sys2Proof.Machine.execSshl x s
  | .sshr x => Sys2Proof.Machine.execSshr x s
  | .ssra x => Sys2Proof.Machine.execSsra x s
  | .smin x => Sys2Proof.Machine.execSmin x s
  | .smax x => Sys2Proof.Machine.execSmax x s
  | .scmp rel x => Sys2Proof.Machine.execScmp rel x s
  | .ssel x => Sys2Proof.Machine.execSsel x s
  | .smov x => Sys2Proof.Machine.execSmov x s
  | .smovi g form d imm => Sys2Proof.Machine.execSmovi g form d imm s
  | .spopc x => Sys2Proof.Machine.execSpopc x s
  | .sclz x => Sys2Proof.Machine.execSclz x s
  | .sbfx x => Sys2Proof.Machine.execSbfx x s
  | .sbfi x => Sys2Proof.Machine.execSbfi x s
  | .sldc g d win ofs => Sys2Proof.Machine.execSldc g d win ofs s
  | .srd g hi d r => Sys2Proof.Machine.execSrd g hi d r s
  | .swr g hi r a => Sys2Proof.Machine.execSwr g hi r a s
  | .mlog g op d a b => Sys2Proof.Machine.execMlog g op d a b s
  | .mpopc g d a => Sys2Proof.Machine.execMpopc g d a s
  | .mffs g last d a => Sys2Proof.Machine.execMffs g last d a s
  | .mset g d a => Sys2Proof.Machine.execMset g d a s
  | .mget g neg d a => Sys2Proof.Machine.execMget g neg d a s
  | .mbal g form => Sys2Proof.Machine.execMbal g form s
  | .vadd sat x => Sys2Proof.Machine.execVadd sat x s
  | .vsub sat x => Sys2Proof.Machine.execVsub sat x s
  | .vmul sat x => Sys2Proof.Machine.execVmul sat x s
  | .vmulh x => Sys2Proof.Machine.execVmulh x s
  | .vmad sat x => Sys2Proof.Machine.execVmad sat x s
  | .vlog op x b => Sys2Proof.Machine.execVlog op x b s
  | .vshl x => Sys2Proof.Machine.execVshl x s
  | .vshr x => Sys2Proof.Machine.execVshr x s
  | .vsra x => Sys2Proof.Machine.execVsra x s
  | .vmin x => Sys2Proof.Machine.execVmin x s
  | .vmax x => Sys2Proof.Machine.execVmax x s
  | .vabs sat x => Sys2Proof.Machine.execVabs sat x s
  | .vcmp g rel ty mt mf a b => Sys2Proof.Machine.execVcmp g rel ty mt mf a b s
  | .vsel x => Sys2Proof.Machine.execVsel x s
  | .vmov x => Sys2Proof.Machine.execVmov x s
  | .vmovi g form d imm => Sys2Proof.Machine.execVmovi g form d imm s
  | .vcvt g dst src rnd d a fsl => Sys2Proof.Machine.execVcvt g dst src rnd d a fsl s
  | .vpopc x => Sys2Proof.Machine.execVpopc x s
  | .vclz x => Sys2Proof.Machine.execVclz x s
  | .vbfx x => Sys2Proof.Machine.execVbfx x s
  | .vbfi x => Sys2Proof.Machine.execVbfi x s
  | .vfadd x r => Sys2Proof.Machine.execVfadd x r s
  | .vfsub x r => Sys2Proof.Machine.execVfsub x r s
  | .vfmul x r => Sys2Proof.Machine.execVfmul x r s
  | .vfma x r => Sys2Proof.Machine.execVfma x r s
  | .vfmin x => Sys2Proof.Machine.execVfmin x s
  | .vfmax x => Sys2Proof.Machine.execVfmax x s
  | .vfcmp g rel ty mt mf a b => Sys2Proof.Machine.execVfcmp g rel ty mt mf a b s
  | .vmed3 x => Sys2Proof.Machine.execVmed3 x s
  | .vfrcp x => Sys2Proof.Machine.execVfrcp x s
  | .vfrsq x => Sys2Proof.Machine.execVfrsq x s
  | .vfexp2 x => Sys2Proof.Machine.execVfexp2 x s
  | .vflog2 x => Sys2Proof.Machine.execVflog2 x s
  | .vfcls x => Sys2Proof.Machine.execVfcls x s
  | .vshfl g wide d a idx => Sys2Proof.Machine.execVshfl g wide d a idx s
  | .vbcast g wide d a n => Sys2Proof.Machine.execVbcast g wide d a n s
  | .vred g op ty r d a => Sys2Proof.Machine.execVred g op ty r d a s
  | .vscan g op ty r d a c => Sys2Proof.Machine.execVscan g op ty r d a c s
  | .vcmpr g wide d a => Sys2Proof.Machine.execVcmpr g wide d a s
  | .fswap g x d form dies slot => Sys2Proof.Machine.execFswap g x d form dies slot s
  | .ffence g => Sys2Proof.Machine.execFfence g s
  | .fqry g d word slot => Sys2Proof.Machine.execFqry g d word slot s
  | .qnt g x src dst sc t mode slot r => Sys2Proof.Machine.execQnt g x src dst sc t mode slot r s
  | .dqnt g x d src sc t mode slot r => Sys2Proof.Machine.execDqnt g x d src sc t mode slot r s
  | .vld m => Sys2Proof.Machine.execVld m s
  | .vst m => Sys2Proof.Machine.execVst m s
  | .vlds m => Sys2Proof.Machine.execVlds m s
  | .vsts m => Sys2Proof.Machine.execVsts m s
  | .sld g x d base off size ord sco sl sx => Sys2Proof.Machine.execSld g x d base off size ord sco sl sx s
  | .sst g x a base off size ord sco sl => Sys2Proof.Machine.execSst g x a base off size ord sco sl s
  | .ldsl m => Sys2Proof.Machine.execLdsl m s
  | .stsl m => Sys2Proof.Machine.execStsl m s
  | .atom g x d base idx off ty op ord sco sl => Sys2Proof.Machine.execAtom g x d base idx off ty op ord sco sl s
  | .acas g x d base idx off wide ord sco sl => Sys2Proof.Machine.execAcas g x d base idx off wide ord sco sl s
  | .ldr m => Sys2Proof.Machine.execLdr m s
  | .stc m => Sys2Proof.Machine.execStc m s
  | .fence g x ord sco => Sys2Proof.Machine.execFence g x ord sco s
  | .cmaint g x op rel sco base idx off => Sys2Proof.Machine.execCmaint g x op rel sco base idx off s
  | .slalloc g d n lx part kind => Sys2Proof.Machine.execSlalloc g d n lx part kind s
  | .slfree g x a => Sys2Proof.Machine.execSlfree g x a s
  | .slrenew g x a len => Sys2Proof.Machine.execSlrenew g x a len s
  | .slqry g d a k crib => Sys2Proof.Machine.execSlqry g d a k crib s
  | .crib g x t c arg src nsrc warm => Sys2Proof.Machine.execCrib g x t c arg src nsrc warm s
  | .crtouch g x a d renew warm cold => Sys2Proof.Machine.execCrtouch g x a d renew warm cold s
  | .crdrop g a => Sys2Proof.Machine.execCrdrop g a s
  | .mma g x z ver a b sc fa fb => Sys2Proof.Machine.execMma g x z ver a b sc fa fb s
  | .mzero g x z ver => Sys2Proof.Machine.execMzero g x z ver s
  | .mstz g x z ver a rng form slot r => Sys2Proof.Machine.execMstz g x z ver a rng form slot r s
  | .mldz g x z ver a => Sys2Proof.Machine.execMldz g x z ver a s
  | .mver g d z => Sys2Proof.Machine.execMver g d z s
  | .cpy g x d rec org sl => Sys2Proof.Machine.execCpy g x d rec org sl s
  | .gath g x d rec op idx => Sys2Proof.Machine.execGath g x d rec op idx s
  | .bseal g n => Sys2Proof.Machine.execBseal g n s
  | .bwait g n test => Sys2Proof.Machine.execBwait g n test s
  | .bari g a form => Sys2Proof.Machine.execBari g a form s
  | .bara g x a d => Sys2Proof.Machine.execBara g x a d s
  | .barw g a p test => Sys2Proof.Machine.execBarw g a p test s
  | .tray g x hdr crd pay => Sys2Proof.Machine.execTray g x hdr crd pay s
  | .depdec g x base idx => Sys2Proof.Machine.execDepdec g x base idx s
  | .rclaim g nb d ring n => Sys2Proof.Machine.execRclaim g nb d ring n s
  | .rcommit g x ring p n => Sys2Proof.Machine.execRcommit g x ring p n s
  | .rawait g nb d ring n => Sys2Proof.Machine.execRawait g nb d ring n s
  | .rretire g x ring q n => Sys2Proof.Machine.execRretire g x ring q n s
  | .qpush g a => Sys2Proof.Machine.execQpush g a s
  | .qpop g d => Sys2Proof.Machine.execQpop g d s
  | .tlbinv g x va len part => Sys2Proof.Machine.execTlbinv g x va len part s
  | .clauseHeader h => Sys2Proof.Machine.execClauseHeader h s
  | .operationComplete k op => Sys2Proof.Machine.execOperationComplete k op s
  | .versionTimeout k op => Sys2Proof.Machine.execVersionTimeout k op s
  | .registerLineFill k line foreign bad => Sys2Proof.Machine.execRegisterLineFill k line foreign bad s
  | .mappedFill core desc sector => Sys2Proof.Machine.execMappedFill core desc sector s
  | .faultResponse part => Sys2Proof.Machine.execFaultResponse part s
  | .faultStall part ticket => Sys2Proof.Machine.execFaultStall part ticket s
  | .replayStart core chain slot => Sys2Proof.Machine.execReplayStart core chain slot s
  | .cribWatchHit line => Sys2Proof.Machine.execCribWatchHit line s
  | .engineChunkDone engine => Sys2Proof.Machine.execEngineChunkDone engine s
  | .engineResume engine req => Sys2Proof.Machine.execEngineResume engine req s
  | .engineBudgetPeriod => Sys2Proof.Machine.execEngineBudgetPeriod s
  | .waittWake k who => Sys2Proof.Machine.execWaittWake k who s
  | .reservationDeferralEnd k who => Sys2Proof.Machine.execReservationDeferralEnd k who s
  | .yieldEnd k who => Sys2Proof.Machine.execYieldEnd k who s
  | .rclkTick die => Sys2Proof.Machine.execRclkTick die s
  | .sectorExpiry core desc sector => Sys2Proof.Machine.execSectorExpiry core desc sector s
  | .scrubberVisit core desc leaf bad corrected => Sys2Proof.Machine.execScrubberVisit core desc leaf bad corrected s
  | .spillMove part => Sys2Proof.Machine.execSpillMove part s
  | .bellExpiry die tray => Sys2Proof.Machine.execBellExpiry die tray s
  | .teamPlacement part core => Sys2Proof.Machine.execTeamPlacement part core s
  | .preemptionRequest team deadline newAcc newLeaves => Sys2Proof.Machine.execPreemptionRequest team deadline newAcc newLeaves s
  | .saveComplete team => Sys2Proof.Machine.execSaveComplete team s
  | .preemptDeadline team => Sys2Proof.Machine.execPreemptDeadline team s
  | .teamResume team core => Sys2Proof.Machine.execTeamResume team core s
  | .deficitCreditPeriod => Sys2Proof.Machine.execDeficitCreditPeriod s
  | .deficitCompare part => Sys2Proof.Machine.execDeficitCompare part s
  | .bandwidthPeriod busy shares => Sys2Proof.Machine.execBandwidthPeriod busy shares s
  | .poolPeriod n power => Sys2Proof.Machine.execPoolPeriod n power s
  | .examStart core => Sys2Proof.Machine.execExamStart core s
  | .examEnd core pass => Sys2Proof.Machine.execExamEnd core pass s
  | .queueSlotFree part slot => Sys2Proof.Machine.execQueueSlotFree part slot s
  | .notify part q => Sys2Proof.Machine.execNotify part q s
  | .hostRclaimRead part ring n => Sys2Proof.Machine.execHostRclaimRead part ring n s
  | .hostRcommitWrite part ring val => Sys2Proof.Machine.execHostRcommitWrite part ring val s
  | .registerWrite part off val => Sys2Proof.Machine.execRegisterWrite part off val s
  | .hostMemRead part pa len => Sys2Proof.Machine.execHostMemRead part pa len s
  | .hostMemWrite part pa bytes => Sys2Proof.Machine.execHostMemWrite part pa bytes s
  | .hostConfigAccess fn off wr => Sys2Proof.Machine.execHostConfigAccess fn off wr s
  | .linkTraining width speed => Sys2Proof.Machine.execLinkTraining width speed s
  | .fabricRead a => Sys2Proof.Machine.execFabricRead a s
  | .fabricWrite a payload => Sys2Proof.Machine.execFabricWrite a payload s
  | .fabricAtomic a payload => Sys2Proof.Machine.execFabricAtomic a payload s
  | .fabricResponse a e => Sys2Proof.Machine.execFabricResponse a e s
  | .fabricData a payload => Sys2Proof.Machine.execFabricData a payload s
  | .linkCredit a n => Sys2Proof.Machine.execLinkCredit a n s
  | .linkRetry port resent => Sys2Proof.Machine.execLinkRetry port resent s
  | .fabricTimeout tag => Sys2Proof.Machine.execFabricTimeout tag s
  | .partitionCreate p x => Sys2Proof.Machine.execPartitionCreate p x s
  | .partitionDestroy p => Sys2Proof.Machine.execPartitionDestroy p s
  | .partitionFence p => Sys2Proof.Machine.execPartitionFence p s
  | .partitionReset p => Sys2Proof.Machine.execPartitionReset p s
  | .moduleCap w => Sys2Proof.Machine.execModuleCap w s
  | .rackBroadcast c k => Sys2Proof.Machine.execRackBroadcast c k s
  | .frameRelease p frame => Sys2Proof.Machine.execFrameRelease p frame s
  | .keyEnrol p signer key sig => Sys2Proof.Machine.execKeyEnrol p signer key sig s
  | .keyRevoke p signer sig => Sys2Proof.Machine.execKeyRevoke p signer sig s
  | .attestationLogRoll p => Sys2Proof.Machine.execAttestationLogRoll p s
  | .preEmptTeam team deadline => Sys2Proof.Machine.execPreEmptTeam team deadline s
  | .counterRead p => Sys2Proof.Machine.execCounterRead p s
  | .spdmGetMeasurements p => Sys2Proof.Machine.execSpdmGetMeasurements p s
  | .proctorVerifyDone swap die => Sys2Proof.Machine.execProctorVerifyDone swap die s
  | .fmgDrainDone swap die => Sys2Proof.Machine.execFmgDrainDone swap die s
  | .regionReconfigured swap die => Sys2Proof.Machine.execRegionReconfigured swap die s
  | .drainTimeout swap die => Sys2Proof.Machine.execDrainTimeout swap die s
  | .hbmPatrol line stack e => Sys2Proof.Machine.execHbmPatrol line stack e s
  | .thermalThrottle die => Sys2Proof.Machine.execThermalThrottle die s
  | .thermalRecover die => Sys2Proof.Machine.execThermalRecover die s
  | .thermalStop die => Sys2Proof.Machine.execThermalStop die s
  | .currentLimit w => Sys2Proof.Machine.execCurrentLimit w s
  | .externalThrottle on => Sys2Proof.Machine.execExternalThrottle on s
  | .securityAlarm mesh level => Sys2Proof.Machine.execSecurityAlarm mesh level s
  | .packageReset => Sys2Proof.Machine.execPackageReset s
  | .firmwareVerify first second => Sys2Proof.Machine.execFirmwareVerify first second s
  | .hbmTraining ok => Sys2Proof.Machine.execHbmTraining ok s
  | .arrayDieRelease => Sys2Proof.Machine.execArrayDieRelease s
  | .firstExam failed => Sys2Proof.Machine.execFirstExam failed s
  | .cxlConfigReady => Sys2Proof.Machine.execCxlConfigReady s
  | .partitionParameterChange p c => Sys2Proof.Machine.execPartitionParameterChange p c s
  | .reservedKindFlit a => Sys2Proof.Machine.execReservedKindFlit a s
  | .deviceIdSet id => Sys2Proof.Machine.execDeviceIdSet id s

end Sys2Proof.Machine
end

