-- ==== Sys2Proof/Machine/Turn.lean ====
section
/-! DEFINITION. An issue opportunity of a core: which of its groups issues (R32, R38, R39, R208, R211), how instructions share
a cycle's slots (R30), and what the cycle is charged for (R209). DESIGN CHOICE (log 90), unsafe: an opportunity issues one
instruction; the cycle goes on while a further one fits it, and a group issues at most once in it. -/

namespace Sys2Proof.Machine

/-! ## Execution classes (R30) -/

/-- The execution class of an instruction: 1 vector integer, 2 vector float, 3 cross-lane, 4 vector memory, 5 matrix, 6 engine
request; 0 where it issues only in the scalar slot. -/
def issueClass : Instr → Nat
  | .vadd .. | .vsub .. | .vmul .. | .vmulh .. | .vmad .. | .vlog .. | .vshl .. | .vshr .. | .vsra .. | .vmin .. | .vmax ..
  | .vabs .. | .vcmp .. | .vsel .. | .vmov .. | .vmovi .. | .vcvt .. | .vpopc .. | .vclz .. | .vbfx .. | .vbfi .. | .mlog ..
  | .mpopc .. | .mffs .. | .mset .. | .mget .. | .qpop .. => 1
  | .vfadd .. | .vfsub .. | .vfmul .. | .vfma .. | .vfmin .. | .vfmax .. | .vfcmp .. | .vmed3 .. | .vfrcp .. | .vfrsq ..
  | .vfexp2 .. | .vflog2 .. | .vfcls .. | .qnt .. | .dqnt .. => 2
  | .vshfl .. | .vbcast .. | .vred .. | .vscan .. | .vcmpr .. | .mbal .. => 3
  | .vld .. | .vst .. | .vlds .. | .vsts .. | .ldsl .. | .stsl .. | .atom .. | .acas .. | .ldr .. | .stc .. | .cmaint ..
  | .tray .. | .depdec .. => 4
  | .mma .. | .mzero .. | .mstz .. | .mldz .. => 5
  | .cpy .. | .gath .. => 6
  | _ => 0

/-! ## The slots of a cycle (R30) -/

/-- Quads that a group's instruction occupies where they are free: any one, a half, or all; a LEGACY group's quads 0 and 1
(R252). -/
def placeQuads (shape : Shape) (taken : Nat) : Option Nat :=
  let fits : List Nat :=
    if shape.legacy then [3] else if shape.width ≤ 16 then [1, 2, 4, 8] else if shape.width ≤ 32 then [3, 12] else [15]
  fits.find? fun m => Nat.land taken m == 0

/-- The cycle with an instruction in it, and the quads it takes: none where it does not fit. Matrix instructions and engine
requests share the vector slot with nothing. -/
def Cycle.add (c : Cycle) (k : GKey) (cls : Nat) (shape : Shape) (queue : Nat × Nat) : Option (Cycle × Nat) :=
  if c.issued.contains k then none
  else if cls = 0 then
    if c.scalar.isSome then none else some ({ c with issued := k :: c.issued, scalar := some queue }, 0)
  else if c.quads ≠ 0 ∧ (c.cls ≠ cls ∨ 5 ≤ cls) then none
  else (placeQuads shape c.quads).map fun m => ({ c with cls := cls, quads := c.quads + m, issued := k :: c.issued }, m)

/-- Quads of a mask. -/
def quadCount (m : Nat) : Nat := (List.range 4).foldl (fun n i => if bitB m i then n + 1 else n) 0

/-- The partition and the queue that a group is charged to: its team's. -/
def State.queueOf (s : State) (g : Group) : Nat × Nat :=
  (g.part, match s.teams.look g.team with | some t => t.queue | none => 64)

/-- Charge quarters of a core-cycle to a queue (R209). -/
def State.charge (s : State) (q : Nat × Nat) (n : Int) : State :=
  s.modPart q.1 fun p => { p with mapped := p.mapped.mapV fun _ m =>
    if m.q = q.2 then
      let sum : Int := (m.quarters : Int) + n
      { m with deficit := m.deficit - sum / 4, quarters := (sum % 4).toNat }
    else m }

/-- What an instruction of a class with some quads is charged (R209): a quarter for each quad; a scalar instruction a whole cycle
while nothing is in the vector slot, given back when something enters it. -/
def State.chargeIssue (s : State) (c : Cycle) (cls quads : Nat) (queue : Nat × Nat) : State :=
  if cls = 0 then (if c.quads = 0 then s.charge queue 4 else s)
  else
    let s := match c.scalar with
      | some q => if c.quads = 0 then s.charge q (-4) else s
      | none => s
    s.charge queue (quadCount quads : Nat)

/-! ## Throttling (R211) -/

/-- Whether a group is held back from an instruction of a class: vector memory and engine requests issue at one opportunity
in 2^t of a throttled cluster. -/
def State.throttled (s : State) (g : Group) (cls : Nat) : Bool :=
  let t := match s.parts.look g.part with | some p => Tbl.get 0 p.throttle (clusterOfCore g.key.core) | none => 0
  (cls == 4 || cls == 6) && (s.coreAt g.key.core).opps % 2 ^ t != 0

/-! ## The order of a core's groups (R32, R208) -/

/-- Rank of a group at its core's opportunity: replay groups, then groups that have not issued for 1,024 of the core's
opportunities, then the others, the oldest first in each. -/
def State.issueRank (s : State) (g : Group) : Nat :=
  let late := decide (g.lastIssue + 1024 ≤ (s.coreAt g.key.core).opps)
  (if g.replayId.isSome then 0 else if late then 1 else 2) * 2 ^ 80 + g.ageKey

/-- The arms of a group in the order they are offered its opportunity (R38, R39). -/
def Group.armOrder (g : Group) (hint : Who) : List Who :=
  let w := g.turnOf (if hint = .arm1 then .arm1 else .arm0)
  (if (g.arm w).defers then [w] else [w, otherArm w]).filter g.ready

/-- Whether YIELDH of a clause that is over puts the group behind the core's other ready groups at this opportunity (R255,
R381; log 49). -/
def Group.yields (g : Group) : Bool :=
  [Who.arm0, .arm1].all fun w => !g.ready w || ((g.arm w).hint && (g.arm w).cl.left == 0)

/-- The control threads of a core in the order they are offered its opportunity; `hint` is the arm that an agenda means. -/
def State.offered (s : State) (core : Nat) (hint : Who) : List (GKey × Who) :=
  let gs := sortBy s.issueRank (s.groups.filter fun g => g.key.core == core && s.coreRuns g)
  (gs.filter (fun g => !g.yields) ++ gs.filter Group.yields).flatMap fun g => (g.armOrder hint).map fun w => (g.key, w)

/-! ## One control thread -/

/-- Whether a control thread stands as it did: its word was not ready. What it waits for may have been noted. -/
def Group.stands (a b : Group) (w : Who) : Bool :=
  let x := a.arm w
  let y := b.arm w
  x.pc == y.pc && x.jumped == y.jumped && x.cl == y.cl && x.park == y.park && x.back == y.back && x.ended == y.ended &&
    a.tr.tm == b.tr.tm

/-- A partition's group has issued on a core (R218). -/
def State.seenOn (s : State) (core part : Nat) : State :=
  s.modCore core fun x => { x with
    exam := if x.exam.seen.contains part then x.exam else { x.exam with seen := part :: x.exam.seen } }

/-- What a control thread's next word comes to: it is not ready, with what it waits for noted; or it acts, in an execution
class where it is an instruction. -/
inductive Attempt where
  | waits (s : State)
  | acts (cls : Option Nat) (o : Host.Outcome State Fault Refusal)

/-- The outcome of a word, where the thread has not merely waited. -/
def Attempt.of (g : Group) (w : Who) (cls : Option Nat) : Host.Outcome State Fault Refusal → Attempt
  | .next s => match s.groupAt g.key with
    | some h => if g.stands h w then .waits s else .acts cls (.next s)
    | none => .acts cls (.next s)
  | o => .acts cls o

/-- A control thread fetches, and what it fetched runs; it is not ready for what a throttle holds back (R211). -/
def State.attempt (s : State) (k : GKey) (w : Who) : Attempt :=
  match s.groupAt k with
  | none => .waits s
  | some g =>
    if !g.ready w || !s.coreRuns g then .waits s
    else match (s.focus k w).fetchNext with
      | .done t => Attempt.of g w none (.next t)
      | .run i t => if w != .mon && s.throttled g (issueClass i) then .waits s else Attempt.of g w (some (issueClass i)) (exec i t)

/-- Whether a control thread has a ready instruction. -/
def State.hasReady (s : State) (k : GKey) (w : Who) : Bool :=
  match s.attempt k w with | .acts _ _ => true | .waits _ => false

/-- A group has issued: its other arm ages where it has a ready instruction (R38), and a hint that another clause left is over. -/
def State.issued (s : State) (g : Group) (w : Who) (c : Cycle) (other : Bool) : State :=
  let s := s.modKey g.key fun h => { (if h.two then g.ageOnto h w other else h) with lastIssue := (s.coreAt g.key.core).opps }
  let s := s.mapGroups fun h => if h.key.core = g.key.core ∧ h.key ≠ g.key then
      h.mapArms fun a => if a.cl.left = 0 then { a with hint := false } else a
    else h
  (s.seenOn g.key.core g.part).modCore g.key.core fun x => { x with cycle := c }

/-- What offering a control thread the opportunity comes to: it is not ready, its word does not fit the cycle, or the
opportunity is used. -/
inductive Offer where
  | idle (s : State)
  | full
  | used (o : Host.Outcome State Fault Refusal)

/-- Something done to the next state of an outcome. -/
def onNext (f : State → State) : Host.Outcome State Fault Refusal → Host.Outcome State Fault Refusal
  | .next s => .next (f s)
  | o => o

/-- Offer an arm of a group the opportunity. -/
def State.tryArm (s : State) (k : GKey) (w : Who) : Offer :=
  match s.groupAt k, s.attempt k w with
  | none, _ => .idle s
  | some _, .waits t => .idle t
  | some g, .acts cls o =>
    let c := (s.coreAt k.core).cycle
    let other := g.two && s.hasReady k (otherArm w)
    match cls with
    | none => .used (onNext (fun u => u.issued g w c other) o)
    | some cls => match c.add k cls g.shape (s.queueOf g) with
      | none => .full
      | some (c', quads) => .used (onNext (fun u => (u.issued g w c' other).chargeIssue c cls quads (s.queueOf g)) o)

/-- Whether a group's opportunities are kept for an arm: its ageing counter stands at 63 (R38). -/
def State.due (s : State) (k : GKey) (w : Who) : Bool :=
  match s.groupAt k with | some g => g.two && decide (63 ≤ (g.arm w).age) | none => false

/-- A group of a core has been offered an opportunity: what YIELD waits for (R381). -/
def State.wasOffered (s : State) (k : GKey) : State :=
  s.mapGroups fun g => if g.key.core = k.core then g.heard k (s.coreAt k.core).opps else g

/-- Offer the opportunity to control threads in turn until one uses it. A group whose arm is due but does not fit the cycle
leaves it to the other groups, not to its other arm. -/
def State.tryArms (s : State) (skip : List GKey) : List (GKey × Who) → Offer
  | [] => .idle s
  | (k, w) :: rest =>
    if skip.contains k then s.tryArms skip rest
    else match s.tryArm k w with
      | .idle t => (t.wasOffered k).tryArms skip rest
      | .full => (s.wasOffered k).tryArms (if s.due k w then k :: skip else skip) rest
      | .used o => .used (onNext (State.wasOffered · k) o)

/-- A core's next cycle begins. -/
def State.nextCycle (s : State) (core : Nat) : State := s.modCore core fun c => { c with opps := c.opps + 1, cycle := Cycle.fresh }

/-- An issue opportunity of a core: its cycle goes on, or where nothing more fits it the next one begins. -/
def State.coreTurn (s : State) (core : Nat) (hint : Who) : Host.Outcome State Fault Refusal :=
  match s.tryArms [] (s.offered core hint) with
  | .used o => o
  | .full => .next s
  | .idle t =>
    let u := t.nextCycle core
    if (t.coreAt core).cycle.issued.isEmpty then .next u
    else match u.tryArms [] (u.offered core hint) with
      | .used o => o
      | .full => .next u
      | .idle v => .next v

/-- A monitor wave issues beside the slots (R43). -/
def State.monTurn (s : State) (k : GKey) : Host.Outcome State Fault Refusal :=
  match s.groupAt k, s.attempt k .mon with
  | some g, .acts _ o => onNext (State.seenOn · k.core g.part) o
  | _, .acts _ o => o
  | _, .waits t => .next t

/-- An opportunity of a core, meant for a control thread; the core's caches keep to their size (R68, R70). -/
def State.opportunity (s : State) (k : GKey) (w : Who) : Host.Outcome State Fault Refusal :=
  let s := s.trimCore k.core
  if w = .mon then s.monTurn k else s.coreTurn k.core w

/-- The opportunity that comes where the agenda says nothing (log 1): that of a monitor wave of the focused group's core after
an arm has issued; else that of the next core, by number, with a group that may issue. -/
def State.defaultTurn (s : State) : Option (GKey × Who) :=
  let able := s.groups.filter s.coreRuns
  let mon := able.find? fun g => g.ready .mon && (s.who != .mon)
  let arms := able.filter fun g => g.ready .arm0 || g.ready .arm1
  let dist (g : Group) : Nat := (g.key.core + 191 - s.grp.key.core) % 192
  match mon, minBy dist arms with
  | some g, _ => some (g.key, .mon)
  | none, some g => some (g.key, if s.who = .arm0 then .arm1 else .arm0)
  | none, none => (able.find? fun g => g.ready .mon).map fun g => (g.key, .mon)

end Sys2Proof.Machine
end

