-- ==== Sys2Proof/Machine/Step.lean ====
section
/-! DEFINITION. One step of the machine: the agenda says what acts next (log 1). -/

namespace Sys2Proof.Machine

/-- One step: TIME advances, then the agenda's next turn is taken; with no agenda left, an opportunity comes where some
control thread may issue. -/
def step (s : State) : Host.Outcome State Fault Refusal :=
  let s := s.tick
  match s.agenda with
  | .event i :: rest => exec i { s with agenda := rest }
  | .occur o :: rest => execOccur o { s with agenda := rest }
  | .issue k w :: rest => ({ s with agenda := rest }).opportunity k w
  | [] => match s.defaultTurn with
    | none => .next s
    | some (k, w) => s.opportunity k w

/-- A state whose next step fetches and runs the given word (log 6). -/
def State.withFetchWord (s : State) (_nbits w : Nat) : State := s.load w

end Sys2Proof.Machine
end

