-- ==== Sys2Proof/Safety.lean ====
section
/-! DEFINITION. What counts as a safe run, when an instruction word runs undisturbed, and what it then leaves unchanged:
the terms the obligations use. -/

namespace Sys2Proof

open Machine

/-- A run of `n` steps that never stops. -/
def runs : Nat → State → Option State
  | 0, s => some s
  | n + 1, s => match step s with
    | .next s' => runs n s'
    | _ => none

/-- A state is safe if no number of steps from it stops the machine. -/
def Safe (s : State) : Prop := ∀ n, (runs n s).isSome

/-- The canonical form of the state: memory lists no byte that an unlisted address would read as, in rising order; TIME
is a 64-bit count; the event FIFO holds at most 256 events (R17, R254). -/
structure Inv (s : State) : Prop where
  mem : s.mem.wf = true
  time : s.pm.time < 2 ^ 64
  events : s.pm.events.length ≤ 256

/-! ## A word that runs undisturbed -/

/-- Every lane the guard selects, none finished before: what a word acts for when its arm is not parked. -/
def allLanes (g : Guard) (s : State) : Ctx := ⟨s.selOf g, s.selOf g, []⟩

/-- Nothing keeps a word from running: its group lives, its registers may be named (R43, R60, R133, R257), its arm is not
parked (R231), no scalar it names is still to be written, no flag it counts on is full and no MSTZ stands before a release
(R31, R157, R170), every vector line it reads is present and sound (R68, R239), and it selects a lane where that matters
(R28). -/
structure Runs (i : Info) (s : State) : Prop where
  live : s.grp.live = true
  allowed : s.infoOk i = true
  unparked : s.arm.park = none
  /-- It is no withdrawn word that issues again (R147). -/
  fresh : s.arm.back = none
  free : s.mustWait i = false
  present : s.linesAbsent i = []
  sound : s.grp.badLines = []
  selects : i.lanewise = false → (i.long.isSome → s.selOf i.g ≠ 0 ∨ i.ctl = true ∧ s.executes i.g (s.selOf i.g) = true) ∧
    (i.long = none → s.executes i.g (s.selOf i.g) = true)

/-! ## Frames -/

/-- What an instruction may change: scalars, lanes of vector registers, masks, flags of the executing arm, bytes of
memory, and whole groups of state. -/
structure Changes where
  scalars : List Nat := []
  lanes : Nat → Nat → Bool := fun _ _ => false
  masks : List Nat := []
  flags : List Nat := []
  bytes : Nat → Bool := fun _ => false
  /-- Bytes of scratch and derived slates, by core, descriptor and offset. -/
  own : Nat → Nat → Nat → Bool := fun _ _ _ => false
  /-- Return and fork stacks; the reservation; trap registers, QSTAT and SRSEED; accumulators with their versions; slate
  descriptors and cribs; other groups; units outside the cores and the groups. -/
  control : Bool := false
  reservation : Bool := false
  special : Bool := false
  accumulators : Bool := false
  slates : Bool := false
  others : Bool := false
  units : Bool := false

/-- The lanes of a register, or of a pair, in a set. -/
def lanesOfTy (wide : Bool) (reg : Nat) (sel : LaneSet) : Nat → Nat → Bool :=
  fun r l => decide (r = reg ∨ wide = true ∧ r = reg + 1) && sel.getLsbD l

/-- A byte of a scratch or derived slate; a mapped slate's bytes stand in memory (R113). -/
def slateByte (s : State) (core id ofs : Nat) : Byte :=
  match s.desc? core id with
  | some d => if d.kind = .mapped then 0 else Tbl.get 0 d.bytes ofs
  | none => 0

/-- A descriptor as it was, but for modified copies that a line's home has recalled: such a sector is written back, and is
no longer dirty (R113). -/
def Kept : Option Desc → Option Desc → Prop
  | none, none => True
  | some d, some e => { e with secs := [] } = { d with secs := [] } ∧
      ∀ i, e.sec i = d.sec i ∨ e.sec i = { d.sec i with dirty := false }
  | _, _ => False

/-- THE FRAME: everything not named in `c` is as before. The program counter and the clause context of the executing arm
may change, and with them the region it stands in. -/
structure Frame (c : Changes) (s t : State) : Prop where
  scalars : ∀ k, k ∉ c.scalars → t.readS k = s.readS k
  lanes : ∀ r l, l < 64 → c.lanes r l = false → t.readV r l = s.readV r l
  masks : ∀ k, k ∉ c.masks → t.readM k = s.readM k
  flags : ∀ f, f ∉ c.flags → t.arm.flag f = s.arm.flag f
  control : c.control = false → t.arm.rets = s.arm.rets ∧ t.arm.forks = s.arm.forks
  reservation : c.reservation = false → t.arm.resv = s.arm.resv
  accumulators : c.accumulators = false → t.grp.regs.z = s.grp.regs.z ∧ t.grp.regs.zver = s.grp.regs.zver
  special : c.special = false → t.grp.tr = s.grp.tr ∧ t.grp.qstat = s.grp.qstat ∧ t.grp.srseed = s.grp.srseed
  bytes : ∀ a, c.bytes a = false → t.mem.byte a = s.mem.byte a
  slates : c.slates = false → ∀ n, (∀ id, Kept (s.desc? n id) (t.desc? n id)) ∧ (t.coreAt n).cribs = (s.coreAt n).cribs
  own : ∀ core id ofs, c.own core id ofs = false → slateByte t core id ofs = slateByte s core id ofs
  who : t.who = s.who
  others : c.others = false → t.others = s.others
  units : c.units = false → t.teams = s.teams ∧ t.parts = s.parts ∧ t.dies = s.dies ∧ t.engines = s.engines ∧ t.waits = s.waits ∧
    t.swaps = s.swaps ∧ t.launches = s.launches ∧ t.fab = s.fab ∧ t.pm = s.pm

/-- Control goes to the next word of the clause: the address moves past the word, and one word fewer is left (R255). -/
def NextWord (s t : State) : Prop := t.arm.pc = s.arm.pc + 8 ∧ t.arm.cl = s.arm.cl.step

/-! ## Shapes of a completed word -/

/-- The word completes, writes a scalar and changes nothing else; s0 goes on reading 0 (R59). -/
def WritesScalar (i : Instr) (s : State) (d : SReg) (r : Word) : Prop :=
  ∃ t, exec i s = .next t ∧ t.readS d.val = (if d.val = 0 then 0 else r) ∧ NextWord s t ∧ Frame { scalars := [d.val] } s t

/-- The word completes, writes the lanes of a set in one vector register, or in a pair under a 64-bit type, and changes
nothing else (R59, R358). -/
def WritesLanes (i : Instr) (s : State) (wide : Bool) (d : VReg) (sel : LaneSet) (f : Nat → Word) : Prop :=
  ∃ t, exec i s = .next t ∧
    (∀ l, l < 64 → sel.getLsbD l = true → if wide then t.readPair d.val l = f l else t.readV d.val l = (f l).setWidth 32) ∧
    NextWord s t ∧ Frame { lanes := lanesOfTy wide d.val sel } s t

/-- The word completes and writes a mask register: bits at or above the width are cleared, m0 goes on reading the active
lanes (R29, R59), and nothing else changes. -/
def WritesMask (i : Instr) (s : State) (d : MReg) (x : LaneSet) : Prop :=
  ∃ t, exec i s = .next t ∧ t.readM d.val = (if d.val = 0 then s.active else x &&& lanesBelow s.grp.shape.width) ∧
    NextWord s t ∧ Frame { masks := [d.val] } s t

/-- Control goes to an address, which must hold a clause header (R256), and nothing else changes. -/
def GoesTo (i : Instr) (s : State) (pc : Nat) : Prop :=
  ∃ t, exec i s = .next t ∧ t.arm.pc = pc ∧ t.arm.cl = Clause.start ∧ t.arm.jumped = true ∧ Frame {} s t

/-- The word completes without any effect but control's going on. -/
def GoesOn (i : Instr) (s : State) : Prop := ∃ t, exec i s = .next t ∧ NextWord s t ∧ Frame {} s t

/-- An instruction, or a step that is no word, comes to a next state, of which `p` holds. -/
def Does (i : Instr) (s : State) (p : State → Prop) : Prop := ∃ t, exec i s = .next t ∧ p t

/-- A class L word issues: it is counted on the flag its clause names and listed with the registers it will write, the
changes in `c` are made, and what `p` says holds of the state after it (R31, R257). -/
def Issues (i : Instr) (s : State) (x : Bool) (kind : OpKind) (slots : List Nat) (wb : List WriteBack) (c : Changes)
    (p : State → Prop := fun _ => True) : Prop :=
  ∃ t, exec i s = .next t ∧ NextWord s t ∧
    t.arm.flag (s.flagOf x) = s.arm.flag (s.flagOf x) + 1 ∧
    t.grp.ops.look s.cnt.op = some ⟨s.who, s.flagOf x, s.arm.pc, s.arm.cl, kind, slots, wb⟩ ∧ t.cnt.op = s.cnt.op + 1 ∧
    Frame { c with flags := [s.flagOf x] } s t ∧ p t

/-! ## Where accesses fall -/

/-- The physical address of a place's bytes, for memory and for a mapped slate (R113). -/
def placePa (s : State) : Machine.Place → Option Nat
  | .mem pa _ _ => some pa
  | .slate x => match s.desc? x.core x.id with
    | some d => if d.kind = .mapped then some ((d.sec (x.ofs / 128)).line * 128 + x.ofs % 128) else none
    | none => none

/-- Whether a byte of memory is one of the `n` bytes of some places. -/
def inPlaces (s : State) (n : Nat) (l : List Machine.Place) (a : Nat) : Bool :=
  l.any fun p => match placePa s p with | some pa => decide (pa ≤ a ∧ a < pa + n) | none => false

/-- Whether a byte of a slate is one of the `n` bytes of some places. -/
def inSlates (n : Nat) (l : List Machine.Place) (core id ofs : Nat) : Bool :=
  l.any fun p => match p with
    | .slate x => x.core == core && x.id == id && decide (x.ofs ≤ ofs ∧ ofs < x.ofs + n)
    | .mem _ _ _ => false

def isSlate : Machine.Place → Bool
  | .slate _ => true
  | .mem _ _ _ => false

/-- Whether a write to a place takes nothing from another slate: a derived slate is not dropped and holds the leaf
already (R108, R126). -/
def settled (s : State) : Machine.Place → Bool
  | .mem _ _ _ => true
  | .slate x => match s.desc? x.core x.id with
    | some d => d.kind != .derived || (!d.dropped && (d.leafs.look (x.ofs / 2048)).isSome)
    | none => false

/-- A byte that stood in memory or in a slate at a place in `s`, as it is in `t`. -/
def byteAt (s t : State) (p : Machine.Place) (j : Nat) : Byte :=
  match placePa s p, p with
  | some pa, _ => t.mem.byte (pa + j)
  | none, .slate x => slateByte t x.core x.id (x.ofs + j)
  | none, .mem _ _ _ => 0

/-- Two places of `n` bytes have no byte in common. -/
def apart (s : State) (n : Nat) (p q : Machine.Place) : Prop :=
  (∀ a, inPlaces s n [p] a = false ∨ inPlaces s n [q] a = false) ∧
  ∀ core id ofs, inSlates n [p] core id ofs = false ∨ inSlates n [q] core id ofs = false

/-- No crib watches a line that the places reach (R128). -/
def unwatched (s : State) (n : Nat) (l : List Machine.Place) : Prop :=
  ∀ a, inPlaces s n l a = true → s.watchers (a / 128) = []

/-- The accesses of some lanes all pass their tests (R274), once dirty copies of their lines are written back (R113), and fall at
these places; no MSTZ of the arm holds them up (R170). -/
def ReachAll (s : State) (lanes : List Nat) (asks : Nat → List Ask) (p : Nat → List Machine.Place) : Prop :=
  (∀ l ∈ lanes, (asks l).map ((s.recallAsks (lanes.flatMap asks)).chk []) = (p l).map Chk.ok) ∧
  s.stzHolds (lanes.flatMap fun l => (p l).zip (asks l)) = false

/-- The same of one access for each selected lane. -/
def Reach (s : State) (sel : LaneSet) (ask : Nat → Ask) (p : Nat → Machine.Place) : Prop :=
  ReachAll s (laneList sel) (fun l => [ask l]) fun l => [p l]

/-- The same of two accesses for each selected lane. -/
def Reach2 (s : State) (sel : LaneSet) (a b : Nat → Ask) (p q : Nat → Machine.Place) : Prop :=
  ReachAll s (laneList sel) (fun l => [a l, b l]) fun l => [p l, q l]

/-- The same of a control thread's one access. -/
def ReachOne (s : State) (ask : Ask) (p : Machine.Place) : Prop := ReachAll s [0] (fun _ => [ask]) fun _ => [p]

/-- The places of a set of lanes. -/
def placesOf (sel : LaneSet) (p : Nat → Machine.Place) : List Machine.Place := (laneList sel).map p

/-- The bytes of a partition's spill queue (R204). -/
def inSpill (s : State) (p a : Nat) : Bool :=
  decide ((s.par p).spillBase ≤ a ∧ a < (s.par p).spillBase + 16 * (s.par p).spillCap)

/-- The table entry of a record's type: a grid's record names fewer than 2^32 teams (R190); the entry meets no place of the spill
queue, so that no record spilled on the way changes it. -/
def HasEntry (s : State) (p : Nat) (r : Rec) : Prop :=
  (∀ a, s.entryAt p r.type ≤ a → a < s.entryAt p r.type + 64 → inSpill s p a = false) ∧
  ∃ e, s.taskEntry p r.type = some e ∧ (TaskEntry.grid e = true → r.grid < 2 ^ 32)

/-- The bytes of one place of the spill queue's area; none for no place. -/
def spillBytes (s : State) (p : Nat) : Option Nat → Nat → Bool
  | none, _ => false
  | some slot, a => decide (s.spillAt p slot ≤ a ∧ a < s.spillAt p slot + 16)

/-- WHAT BECOMES OF A RECORD routed from a die (R187, R188, R190), as what a word does with it (`does`, with the
place of the spill queue that is written), or does when the spill queue is full (`full`): a PAD vanishes; a grid record waits to launch its teams; another joins the open tray of its type on the die, or a
free one, and makes it ready at CLASS records or with FLUSH; where a record of its type is spilled already, or no tray takes it,
it is appended to the spill queue. -/
def Routes (s : State) (p die : Nat) (y : Part) (r : Rec) (does : Option Nat → (State → Prop) → Prop) (full : Prop) : Prop :=
  (r.lo.getLsbD 13 = true → does none fun t => t.parts = s.parts ∧ t.dies = s.dies) ∧
  ∀ e, r.lo.getLsbD 13 = false → s.taskEntry p r.type = some e →
    let cls := TaskEntry.cls e
    let spilled := s.spilled p die r.type = true
    let open' := s.openTray p die r.type
    let spills := spilled ∨ (∃ k u, open' = some (k, u) ∧ 64 ≤ u.recs.length) ∨ (open' = none ∧ (s.dieAt die).trays.fresh 256 = none)
    (TaskEntry.grid e = true → 0 < r.grid → r.grid < 2 ^ 32 → does none fun t => ∃ z, t.parts.look p = some z ∧
      z.grids = y.grids ++ [⟨p, r, r.grid, 0, s.cnt.launch, die, s.pm.time⟩] ∧ z.spill = y.spill) ∧
    (TaskEntry.grid e = false →
      (¬spilled → ∀ k u, open' = some (k, u) → u.recs.length < 64 → does none fun t => ∃ v,
        (t.dieAt die).trays.look k = some v ∧ v.recs = u.recs ++ [r] ∧ v.part = u.part ∧ v.type = u.type ∧
        v.ready = (u.ready || decide (cls ≤ u.recs.length + 1) || r.lo.getLsbD 12)) ∧
      (¬spilled → open' = none → ∀ k, (s.dieAt die).trays.fresh 256 = some k →
        does none fun t => ∃ v, (t.dieAt die).trays.look k = some v ∧ v.part = p ∧ v.type = r.type ∧ v.recs = [r] ∧
          v.bell = s.pm.time ∧ v.ready = (decide (cls ≤ 1) || r.lo.getLsbD 12)) ∧
      (spills → y.spill.length < y.par.spillCap → does (some y.spillSlot) fun t =>
        (∃ z, t.parts.look p = some z ∧ z.spill = y.spill ++ [⟨die, y.spillSlot, r⟩]) ∧
        ∀ j, j < 16 → s.mem.owners.look ((s.spillAt p y.spillSlot + j) / 8192) = some (s.par p).hdmKey →
          t.mem.byte (s.spillAt p y.spillSlot + j) = r.bytes.getD j 0) ∧
      (spills → y.par.spillCap ≤ y.spill.length → full))

end Sys2Proof
end

