-- ==== Sys2Proof/Certificates/Slice0/Obligations.lean ====
section
/-! DEFINITION. The statements for the provers. -/

open Sys2Proof Sys2Proof.Machine

/-! ## Encoding (R255–R268) -/

/-- R255–R268: Every well-formed instruction word, with every operand at every value its encoding holds, decodes to itself. -/
def Obligations.EncodedWordsDecodeBack : Prop :=
  ∀ i : Instr, i.isWord = true → i.wf = true → ∃ w, encode i = some w ∧ decode w = .ok i

/-- R255–R268: A word has one meaning and no bit of it is dropped: what decodes to an instruction is that instruction's word. The end mark alone
has words that differ, in the fields its END bit makes idle. -/
def Obligations.WordsHaveOneMeaning : Prop :=
  ∀ (w : Word) (i : Instr), decode w = .ok i → i ≠ .clauseHeader .endMark → encode i = some w

/-- R255–R268: Words written out from the encoding tables: NOP, EXIT, WAITT, SADD, VRED, FMA, VLD, ACAS, QNT, the words of the MMA example,
BARW, TLBINV, clause headers; a word of an opcode that is not assigned is refused. -/
def Obligations.WordsOfTheEncodingTables : Prop :=
  decode 0x0000_0000_0000_0000 = .ok .nop ∧
  decode 0x0800_0000_0000_0000 = .ok (.exit ⟨0, false⟩) ∧
  decode 0x0C02_1800_0000_0030 = .ok (.waitt ⟨0, false⟩ (.s 12) 3) ∧
  decode 0x1052_0784_ED80_0A00 = .ok (.sadd true ⟨⟨5, false⟩, .i32, 3, .m 4, .src (.imm 27)⟩) ∧
  decode 0x7212_1203_0000_0400 = .ok (.vred ⟨1, false⟩ .add .f32 ⟨.rn, false⟩ (.s 9) (.v 3)) ∧
  decode 0x6354_3C29_05B0_004C = .ok (.vfma ⟨⟨5, false⟩, .f32, 30, .v 41, .cw 3 9#17, .v 11⟩ ⟨.rna, false⟩) ∧
  decode 0x8054_1304_0392_CFFE = .ok (.vld ⟨⟨5, false⟩, true, 9, .s 4, .v 7, 0x3FE#10, .b2, .acq, .dev, false, true, true⟩) ∧
  decode 0x8900_1106_0120_6010 = .ok (.acas ⟨0, false⟩ false 8 (.s 6) (.v 2) 16#10 false .rlx .team true) ∧
  decode 0x7B12_2915_8B78_4230 = .ok (.qnt ⟨1, false⟩ false (.s 20) (.s 21) (.s 22) (.imm 33) .e8m0 3 ⟨.rn, false⟩) ∧
  decode 0xB103_C000_0000_0800 = .ok (.mzero ⟨0, false⟩ false 1 (.imm 32)) ∧
  decode 0xB003_C30A_85E4_8899 = .ok (.mma ⟨0, false⟩ false 1 (.imm 33) (.s 10) (.s 11) .zero 9 9) ∧
  decode 0xB207_C50C_8680_0B90 = .ok (.mstz ⟨0, false⟩ true 1 (.imm 34) (.s 12) (.s 13) .tileA 9 ⟨.rn, false⟩) ∧
  decode 0xD252_0704_8280_0100 = .ok (.barw ⟨5, false⟩ (.s 3) (.s 4) (some 5)) ∧
  decode 0xE056_0704_F200_0000 = .ok (.tlbinv ⟨5, false⟩ true (.s 3) (.s 4) (.imm 36)) ∧
  decode 0xF800_0128_0000_0000 = .ok (.clauseHeader (.clause 0 (some 1) (some 2) 4 false false false)) ∧
  decode 0xF880_8FBF_4000_0000 = .ok (.clauseHeader (.clause 0x808 none (some 11) 7 true true false)) ∧
  decode 0x9999_0000_0000_0000 = .error .unassignedOpcode

/-! ## Reset, start and steps (R17, R33–R40, R47, R55–R66, R223–R226, R253–R256) -/

/-- R17, R19, R94, R253, R34, R59, R62, R63, R66: Right after reset TIME and every retention clock are 0, bring-up stands before its first
stage, no group, team or partition exists, every loadable slot is UNBOUND at generation 0, and memory lists nothing. That memory lists
nothing, so that every byte reads 0, is the model's choice (log 5). At group start arm 0 is at the entry with all its lanes, flags and
stacks are empty, there is no reservation, every register reads 0, every accumulator has version 0, and the special registers have their
reset values. That scalars start at 0 is the model's choice (log 7). -/
def Obligations.ResetAndGroupStart : Prop :=
  (let s := State.reset
   s.pm.time = 0 ∧ s.pm.stage = 0 ∧ s.pm.failed = false ∧ (∀ d, d < 4 → (s.dieAt d).rclk = 0) ∧ s.groups = [] ∧ s.teams = [] ∧
   s.parts = [] ∧ s.agenda = [] ∧ s.mem.cells = [] ∧
   ∀ p d k, d < 4 → (s.slotOf p d k).st = .unbound ∧ (s.slotOf p d k).gen = 0) ∧
  (∀ (key : GKey) (part team gid tid entry mon : Nat) (k : Khdr) (cw : Tbl CWin),
     let g := Group.start key part team gid tid k entry mon cw
     g.live = true ∧ g.key = key ∧ g.gid = gid ∧ g.tid = tid ∧ g.two = false ∧ g.a0.pc = entry ∧
     g.a0.mask = lanesBelow g.shape.width ∧ (∀ f, g.a0.flag f = 0) ∧ g.a0.rets = [] ∧ g.a0.forks = [] ∧ g.a0.resv = [] ∧
     (∀ n, Tbl.get 0 g.regs.s n = 0) ∧ (∀ n, Tbl.get 0 g.regs.v n = 0) ∧ (∀ n, Tbl.get 0 g.regs.z n = 0) ∧
     (∀ z, g.regs.ver z = 0) ∧ g.tr.tkind = 0 ∧ g.tr.tpcv = 0 ∧ g.tr.tlm = 0 ∧ g.tr.tinfo = 0 ∧ g.tr.tm = false ∧
     g.rg.rgpc = 0 ∧ g.rg.inside = false ∧ g.qstat = 0 ∧ g.srseed = 0 ∧ g.ops = [])

/-- The state after reset has its canonical form. -/
def Obligations.ResetIsCanonical : Prop :=
  Inv State.reset

/-- R17, R236, R239, R254: Memory keeps its canonical form, with no byte listed that reads 0 anyhow, every owner and poisoned line listed once;
TIME stays a 64-bit count; the event FIFO never holds more than 256 events. That an unlisted byte reads 0 is the model's choice (log 5). -/
def Obligations.EveryStepKeepsTheInvariant : Prop :=
  ∀ s s' : State, Inv s → step s = .next s' → Inv s'

/-- R17, R33, R38, R39, R208, R255: A step in which the agenda gives a core its opportunity is `exec` of the instruction that the word of the
first control thread in the core's order decodes to, where the thread may issue and the instruction fits the cycle; the agenda moves on,
TIME has advanced, the group is counted as issued, its queue is charged, and arms that have yielded have seen it. That word is read from the
bytes at the program counter where a clause begins, and inside a clause it is the one that was read from the bytes behind the header with
the header. A monitor wave's turn is `exec` alone, with its partition seen on the core; a turn of a step that is no word is `exec` alone.
The agenda and the free advance of TIME are the model's (log 1, log 3), and so is the end of an issue cycle (log 90). That the words of a
clause are read with its header, so that a word written while its clause runs is not seen, is deduced (log 48). -/
def Obligations.StepRunsTheDecodedInstruction : Prop :=
  (∀ (s : State) (i : Instr) (rest : List Turn), s.agenda = .event i :: rest →
    step s = exec i { s.tick with agenda := rest }) ∧
  (∀ (s : State) (o : Occur) (rest : List Turn), s.agenda = .occur o :: rest →
    step s = execOccur o { s.tick with agenda := rest }) ∧
  (∀ s : State, s.agenda = [] →
    (s.tick.defaultTurn = none → step s = .next s.tick) ∧
    ∀ k w, s.tick.defaultTurn = some (k, w) → step s = step { s with agenda := [.issue k w] }) ∧
  (∀ s : State, s.tick.pm.time = (s.pm.time + Config.elapsed s.cnt.steps) % 2 ^ 64 ∧ s.tick.grp = s.grp ∧
    s.tick.others = s.others ∧ s.tick.mem = s.mem ∧ s.tick.cores = s.cores ∧ s.tick.parts = s.parts) ∧
  (∀ (s u v t : State) (k k' : GKey) (w w' : Who) (g : Group) (rest : List Turn) (word : Word) (i : Instr) (c' : Cycle)
    (quads : Nat), s.agenda = .issue k w :: rest → u = State.trimCore { s.tick with agenda := rest } k.core →
    (if w = .mon then (k', w') = (k, w) else (u.offered k.core w).head? = some (k', w')) →
    u.groupAt k' = some g → g.ready w' = true → u.coreRuns g = true →
    ((u.focus k' w').nextRedo.isSome = true ∨ (u.focus k' w').arm.back.isSome = true ∨ (u.focus k' w').ringWait = none) →
    (u.focus k' w').depUnderflow = none → (u.focus k' w').takeRedo.fetchWord = .ok (word, v) → decode word = .ok i →
    ((v.endTouches v.who).arm.cl.left = 0 ↔ word.toNat / 2 ^ 56 = 0xF8) → exec i (v.endTouches v.who) = .next t →
    (w = .mon → (∃ h, t.groupAt k' = some h ∧ g.stands h w' = true) → step s = .next t) ∧
    ((∀ h, t.groupAt k' = some h → g.stands h w' = false) →
      (w = .mon → step s = .next (t.seenOn k'.core g.part)) ∧
      (w ≠ .mon → u.throttled g (issueClass i) = false →
        (u.coreAt k'.core).cycle.add k' (issueClass i) g.shape (u.queueOf g) = some (c', quads) →
        step s = .next (((t.issued g w' c' (g.two && u.hasReady k' (otherArm w'))).chargeIssue (u.coreAt k'.core).cycle (issueClass i)
          quads (u.queueOf g)).wasOffered k')))) ∧
  (∀ (s : State) (k : GKey) (g : Group) (w : Who), s.groupAt k = some g → g.ready w = true → s.coreRuns g = true →
    (w ≠ .mon → g.turnOf w = w → (k, w) ∈ s.offered k.core w) ∧
    (s.focus k w).who = w ∧ (s.focus k w).grp = g ∧ (s.focus k w).arm = g.arm w ∧ (s.focus k w).mem = s.mem) ∧
  (∀ s : State, s.nextRedo = none → s.takeRedo = s) ∧
  (∀ (s : State) (word : Word) (rest : List Word), s.arm.cl.words = word :: rest → s.fetchWord = .ok (word, s)) ∧
  (∀ (s : State) (seta setb : Option Flag) (count : Fin 8) (region hint nr : Bool) (pa key : Nat),
    s.localTr s.grp.part s.core .fetch s.arm.pc = .ok pa key →
    (s.enterClause seta setb count region hint nr).arm.cl.words = (List.range count.val).map fun k =>
      wordOfBytes ((List.range 8).map fun j => s.mem.byte (pa + 8 * (k + 1) + j))) ∧
  ∀ (s : State) (pa key : Nat), s.arm.cl.words = [] → (∀ p, s.arm.park = some p → p.fail = none) → s.arm.pc < 2 ^ 71 → s.arm.pc % 8 = 0 →
    s.localTr s.grp.part s.core .fetch s.arm.pc = .ok pa key →
    ((s.useVa s.grp.part s.core s.arm.pc pa key).recall (pa / 128)).poisonAt pa 8 = false →
    ∃ v, s.fetchWord = .ok (wordOfBytes ((List.range 8).map fun k => s.mem.byte (pa + k)), v) ∧ v.grp = s.grp ∧ v.who = s.who ∧
      ∀ a, v.mem.byte a = s.mem.byte a

/-- R223, R256, R267: A word that is no instruction raises ILLEGAL_OP, and so does a header inside a clause; where a clause must begin, a word
that is no header raises BAD_TARGET with 1 in TINFO after a control transfer. -/
def Obligations.WordsThatCannotRun : Prop :=
  ∀ (s u v : State) (word : Word), s.nextRedo.isSome = true ∨ s.arm.back.isSome = true ∨ s.ringWait = none →
    s.depUnderflow = none → s.takeRedo.fetchWord = .ok (word, u) → v = u.endTouches u.who →
    let header := word.toNat / 2 ^ 56 = 0xF8
    let raises := fun (t : TrapRec) => s.fetchNext = .done (v.raise v.arm.pc v.arm.cl t)
    (v.arm.cl.left = 0 → ¬header → raises ⟨.badTarget, v.active, if v.arm.jumped then 1 else 0⟩) ∧
    (v.arm.cl.left = 0 → header → ∀ e, decode word = .error e → raises ⟨.illegalOp, v.active, 0⟩) ∧
    (v.arm.cl.left ≠ 0 → header → ∀ i, decode word = .ok i →
      raises ⟨.illegalOp, v.selOf ⟨Fin.ofNat 16 (bits word.toNat 52 4), bitB word.toNat 51⟩, 0⟩) ∧
    (v.arm.cl.left ≠ 0 → ∀ e, decode word = .error e →
      raises ⟨.illegalOp, v.selOf ⟨Fin.ofNat 16 (bits word.toNat 52 4), bitB word.toNat 51⟩, 0⟩)

/-- R47, R57: A header with REGION set starts a new region at that header: RGPC gets the header's address, and the depth of the return stack is
recorded; with two arms live the group is then outside any region. NR leaves the region at the end of the clause. A header with both raises
ILLEGAL_OP, and a group starts outside any region. A header that has END set is the end mark whatever its other fields hold, and executing
it raises CODE_END. -/
def Obligations.RegionsAndEndMarks : Prop :=
  ((∀ (s : State) (wait : BitVec 12) (seta setb : Option Flag) (count : Fin 8) (yieldh : Bool), s.grp.live = true → s.who ≠ .mon →
     (∀ x ∈ s.grp.eng.recs, x.2.st ≠ 3) → s.arm.pc % 64 + 8 * (count.val + 1) ≤ 64 →
     (∀ f, f < 12 → wait.getLsbD f = true → s.arm.flag f = 0) →
     ∃ t, exec (.clauseHeader (.clause wait seta setb count true yieldh false)) s = .next t ∧
       (s.grp.two = false → t.grp.rg.inside = true ∧ t.grp.rg.rgpc = BitVec.ofNat 71 s.arm.pc ∧
         t.grp.rg.depth = s.arm.rets.length) ∧
       (s.grp.two = true → t.grp.rg.inside = false)) ∧
   (∀ s : State, s.arm.cl.nr = true → s.who ≠ .mon → s.arm.back = none →
     (s.arm.cl.left = 1 → s.advance.grp.rg.inside = false) ∧ (s.arm.cl.left ≠ 1 → s.advance.grp.rg = s.grp.rg) ∧
     ∀ pc, (s.jump pc).grp.rg.inside = false) ∧
   (∀ w : Word, w.toNat / 2 ^ 56 = 0xF8 → w.getLsbD 31 = false → w.getLsbD 32 = true → w.getLsbD 29 = true →
     (∃ e, decode w = .error e) ∧ ∀ s u v : State, s.nextRedo.isSome = true ∨ s.arm.back.isSome = true ∨ s.ringWait = none →
       s.depUnderflow = none → s.takeRedo.fetchWord = .ok (w, u) → v = u.endTouches u.who → v.arm.cl.left = 0 →
       s.fetchNext = .done (v.raise v.arm.pc v.arm.cl ⟨.illegalOp, v.active, 0⟩)) ∧
   ∀ (key : GKey) (part team gid tid entry mon : Nat) (k : Khdr) (cw : Tbl CWin),
     (Group.start key part team gid tid k entry mon cw).rg.inside = false) ∧
  ((∀ w : Word, w.toNat / 2 ^ 56 = 0xF8 → w.getLsbD 31 = true → decode w = .ok (.clauseHeader .endMark)) ∧
   ∀ s : State, s.grp.live = true → exec (.clauseHeader .endMark) s = .next (s.raise s.arm.pc s.arm.cl ⟨.codeEnd, s.active, 0⟩))

/-- R28, R31, R60, R43, R133, R257: A scalar or control word whose guard names a mask and selects no lane only goes on; a class L word that
selects none issues an operation that completes without effect. That a control word of class L counts on its flag then is deduced (log 45),
and that it has no other effect is the model's choice (log 82). A word that names a register beyond the group's, an accumulator it does not
have, no flag in its clause, or an operation its place forbids raises ILLEGAL_OP, whatever its body. -/
def Obligations.WordsThatSelectOrNameNothing : Prop :=
  (∀ (i : Info) (body : Body) (s : State), s.grp.live = true → s.infoOk i = true → s.arm.park = none → s.arm.back = none →
     s.mustWait i = false → i.lanewise = false → s.selOf i.g = 0 → i.g.m.val ≠ 0 ∨ i.g.neg = true →
     (i.long = none → ∃ t, wordOp i body s = .next t ∧ NextWord s t ∧ Frame {} s t) ∧
     (∀ x, i.long = some x → ∃ t, wordOp i body s = .next t ∧ NextWord s t ∧
       t.grp.ops.look s.cnt.op = some ⟨s.who, s.flagOf x, s.arm.pc, s.arm.cl, .plain, [], []⟩ ∧
       t.arm.flag (s.flagOf x) = s.arm.flag (s.flagOf x) + 1 ∧ Frame { flags := [s.flagOf x] } s t)) ∧
  (∀ (i : Info) (body : Body) (s : State), s.grp.live = true →
     (∃ r ∈ i.vs ++ i.vd, s.who ≠ .mon ∧ s.grp.shape.vregs ≤ r) ∨ (∃ z, i.z = some z ∧ s.grp.shape.nacc ≤ z) ∨
       (∃ x, i.long = some x ∧ (if x then s.arm.cl.setb else s.arm.cl.seta) = none) ∨
       (s.who = .mon ∧ (i.mon = false ∨ ∃ r ∈ i.ss, 32 ≤ r)) ∨ (s.grp.replayId ≠ none ∧ s.who ≠ .mon ∧ i.rep = false) ∨
       (i.mgr = true ∧ (s.par s.grp.part).manager = false) →
     wordOp i body s = .next (s.raise s.arm.pc s.arm.cl ⟨.illegalOp, s.selOf i.g, 0⟩))

/-! ## Scalar words (R339–R343, R350) -/

/-- R340, R339: SADD, SSUB, SMUL, SMULH, SMIN and SMAX compute the exact result on sources read under the type and write it narrowed, wrapping
or, with .sat, saturating. The shifts, SLOG and SCMP. Shift counts are unsigned 64-bit values, SLOG is bitwise over the type's width, a
relation holding gives 1. -/
def Obligations.ScalarResults : Prop :=
  (∀ (s s' : State) (x : SOp2) (y : Word) (sat : Bool), Runs x.info s → x.b.read s (allLanes x.g s) true = .ok (y, s') →
     let a := x.ty.read (x.a.value s).toNat
     let b := x.ty.read y.toNat
     WritesScalar (.sadd sat x) s x.d (wordOf (x.ty.narrow sat (a + b))) ∧
     WritesScalar (.ssub sat x) s x.d (wordOf (x.ty.narrow sat (a - b))) ∧
     WritesScalar (.smul sat x) s x.d (wordOf (x.ty.narrow sat (a * b))) ∧
     WritesScalar (.smulh x) s x.d (wordOf (x.ty.narrow false (a * b / (2 ^ x.ty.bits : Nat)))) ∧
     WritesScalar (.smin x) s x.d (wordOf (x.ty.narrow false (min a b))) ∧
     WritesScalar (.smax x) s x.d (wordOf (x.ty.narrow false (max a b)))) ∧
  (∀ (s s' : State) (x : SOp2) (y : Word) (rel : Rel), Runs x.info s → x.b.read s (allLanes x.g s) true = .ok (y, s') →
     let w := x.ty.bits
     let a := x.ty.read (x.a.value s).toNat
     let b := x.ty.read y.toNat
     let n := y.toNat
     let put := fun r => wordOf (x.ty.narrow false r)
     WritesScalar (.sshl x) s x.d (put (if w ≤ n then 0 else a * (2 ^ n : Nat))) ∧
     WritesScalar (.sshr x) s x.d (put (if w ≤ n then 0 else ((wrapInt w a / 2 ^ n : Nat) : Int))) ∧
     WritesScalar (.ssra x) s x.d (put (signedOf w (wrapInt w a) / (2 ^ min n (w - 1) : Nat))) ∧
     WritesScalar (.scmp rel x) s x.d (if rel.holds a b then 1 else 0) ∧
     (∀ op, WritesScalar (.slog op ⟨x.g, x.ty, x.d, x.a⟩ (some x.b)) s x.d (wordOf (x.ty.read (op.bits (x.a.value s) y).toNat))))

/-- R339–R343: The scalar words of one or three sources, SLOG.not, SMOVI in its three forms and SLDC. -/
def Obligations.ScalarMovesAndFields : Prop :=
  (∀ (s s' : State) (x : SOp3) (y : Word) (sat : Bool), Runs x.info s → x.b.read s (allLanes x.g s) true = .ok (y, s') →
    let a := x.ty.read (x.a.value s).toNat
    let b := x.ty.read y.toNat
    let c := x.ty.read (x.c.value s).toNat
    WritesScalar (.smad sat x) s x.d (wordOf (x.ty.narrow sat (a * b + c))) ∧
    WritesScalar (.ssel x) s x.d (wordOf (x.ty.read (if x.c.value s ≠ 0 then x.a.value s else y).toNat)) ∧
    WritesScalar (.sbfx x) s x.d (wordOf (opBfx x.ty a y.toNat (x.c.value s).toNat)) ∧
    WritesScalar (.sbfi x) s x.d (wordOf (opBfi x.ty (x.ty.read (s.readS x.d.val).toNat) a y.toNat (x.c.value s).toNat))) ∧
  (∀ (s : State) (x : SOp1), Runs x.info s →
    let a := x.ty.read (x.a.value s).toNat
    WritesScalar (.smov x) s x.d (wordOf (x.ty.narrow false a)) ∧
    WritesScalar (.spopc x) s x.d (wordOf (x.ty.narrow false (popcount (x.a.value s).toNat x.ty.bits))) ∧
    WritesScalar (.sclz x) s x.d (wordOf (x.ty.narrow false (leadingZeros (x.a.value s).toNat x.ty.bits))) ∧
    WritesScalar (.slog .not x none) s x.d (wordOf (x.ty.read (~~~(x.a.value s)).toNat))) ∧
  (∀ (s : State) (g : Guard) (d : SReg) (imm : BitVec 32), Runs (ctl g [d.val]) s →
    WritesScalar (.smovi g .sext d imm) s d (imm.signExtend 64) ∧
    WritesScalar (.smovi g .zext d imm) s d (imm.setWidth 64) ∧
    WritesScalar (.smovi g .hi d imm) s d (imm ++ (s.readS d.val).setWidth 32)) ∧
  (∀ (s s' : State) (g : Guard) (d : SReg) (win : Fin 8) (ofs : BitVec 17) (y : BitVec 32), Runs (ctl g [d.val]) s →
    s.cwRead (allLanes g s) win.val ofs.toNat = .ok (y, s') → WritesScalar (.sldc g d win ofs) s d (y.signExtend 64))

/-- R339, R340: SDIV gives the quotient truncated toward zero or its remainder; a divisor of 0 raises DIV_ZERO with no other effect. -/
def Obligations.ScalarDivision : Prop :=
  ∀ (s s' : State) (x : SOp2) (y : Word) (rem : Bool), Runs x.info s → x.b.read s (allLanes x.g s) true = .ok (y, s') →
    let a := x.ty.read (x.a.value s).toNat
    let b := x.ty.read y.toNat
    (b ≠ 0 → WritesScalar (.sdiv rem x) s x.d (wordOf (x.ty.narrow false (if rem then a - b * Int.tdiv a b else Int.tdiv a b)))) ∧
    (b = 0 → exec (.sdiv rem x) s = .next (s.raise s.arm.pc s.arm.cl ⟨.divZero, s.selOf x.g, 0⟩))

/-- R339, R340, R374, R277: Narrowing keeps a value in the type's range, wraps it modulo 2^w without .sat, and clamps it to the nearer end of
the range with .sat. An integer combination is the exact sum narrowed to the type, the least or greatest value, or the bitwise combination;
without operands it is 0, the type's greatest and least value, all ones, 0 and 0. What an atomic stores: the source, the sum modulo the
width, the bitwise results, and the lesser or greater of the two in the order of the type; on FP32 the sum rounded to nearest. -/
def Obligations.IntegerFunctionsAreExact : Prop :=
  (∀ (t : ITy) (r : Int),
     (t.lo ≤ t.narrow false r ∧ t.narrow false r ≤ t.hi) ∧
     (t.narrow false r - r) % (2 ^ t.bits : Nat) = 0 ∧
     (t.lo ≤ t.narrow true r ∧ t.narrow true r ≤ t.hi) ∧
     (t.lo ≤ r ∧ r ≤ t.hi → t.narrow true r = r ∧ t.narrow false r = r) ∧
     (r < t.lo → t.narrow true r = t.lo) ∧ (t.hi < r → t.narrow true r = t.hi)) ∧
  (∀ (t : ITy) (sat : Bool) (l : List Int), (∀ x ∈ l, t.lo ≤ x ∧ x ≤ t.hi) →
     combineInt .add t sat l = t.narrow sat l.sum ∧
     (l ≠ [] → combineInt .min t sat l ∈ l ∧ combineInt .max t sat l ∈ l) ∧
     (∀ x ∈ l, combineInt .min t sat l ≤ x ∧ x ≤ combineInt .max t sat l) ∧
     (combineInt .min t sat [] = t.hi ∧ combineInt .max t sat [] = t.lo ∧ combineInt .and t sat [] = t.read (2 ^ 64 - 1)) ∧
     ∀ j, j < t.bits →
       let bit := fun (x : Int) => (BitVec.ofInt 64 x).getLsbD j
       bit (combineInt .and t sat l) = l.all bit ∧ bit (combineInt .or t sat l) = l.any bit ∧
       bit (combineInt .xor t sat l) = decide ((l.filter bit).length % 2 = 1)) ∧
  (∀ (ty : AtTy) (old src : Nat), old < 2 ^ (8 * atBytes ty) → src < 2 ^ (8 * atBytes ty) →
     let w := 8 * atBytes ty
     atResult ty .swap old src = src ∧
     (ty ≠ .f32 → atResult ty .add old src = (old + src) % 2 ^ w) ∧
     (atResult .f32 .add old src = fp32.round ⟨.rn, false⟩ 0 ((fp32.decode old).add false (fp32.decode src))) ∧
     (∀ j, (atResult ty .and old src).testBit j = (old.testBit j && src.testBit j) ∧
       (atResult ty .or old src).testBit j = (old.testBit j || src.testBit j) ∧
       (atResult ty .xor old src).testBit j = (old.testBit j != src.testBit j)) ∧
     (ty = .n32 ∨ ty = .n64 → atResult ty .min old src = min old src ∧ atResult ty .max old src = max old src) ∧
     (ty = .i32 ∨ ty = .i64 → signedOf w (atResult ty .min old src) = min (signedOf w old) (signedOf w src) ∧
       signedOf w (atResult ty .max old src) = max (signedOf w old) (signedOf w src)))

/-- R66, R350: SRD gives a half of a special register as it stands; SWR writes the writable bits of one. A register that software may not write,
or an RW-T register outside a trap handler, raises ILLEGAL_OP. -/
def Obligations.SpecialRegisterAccess : Prop :=
  (∀ (s : State) (g : Guard) (hi : Bool) (d : SReg) (r : Spr), Runs (ctl g [d.val]) s →
    WritesScalar (.srd g hi d r) s d (BitVec.ofNat 64 (s.readSpr r / (if hi then 2 ^ 64 else 1)))) ∧
  (∀ (s : State) (g : Guard) (r : Spr) (a : SSrc), Runs (ctl g a.sregs false) s →
    let x := a.value s
    (r.writable = true → (r.trapOnly = true → s.grp.tr.tm = true) → ∀ hi,
      ∃ t, exec (.swr g hi r a) s = .next t ∧ NextWord s t ∧ Frame { special := true } s t ∧
        t.grp.tr.tkind = (if r = .tkind ∧ hi = false then x.setWidth 8 else s.grp.tr.tkind) ∧
        t.grp.tr.tpcv = (if r = .tpcv then (if hi then x.setWidth 7 ++ s.grp.tr.tpcv.setWidth 64
          else (s.grp.tr.tpcv >>> 64).setWidth 7 ++ x) else s.grp.tr.tpcv) ∧
        t.grp.tr.tlm = (if r = .tlm ∧ hi = false then x else s.grp.tr.tlm) ∧
        t.grp.tr.tinfo = (if r = .tinfo ∧ hi = false then x else s.grp.tr.tinfo) ∧
        t.grp.qstat = (if r = .qstat ∧ hi = false then x &&& 0x0000_FFFF_FFFF_0307#64 else s.grp.qstat) ∧
        t.grp.srseed = (if r = .srseed ∧ hi = false then x else s.grp.srseed) ∧
        t.grp.gen = (if r = .srseed ∧ hi = false then srSeed x else s.grp.gen) ∧ t.grp.tr.tm = s.grp.tr.tm) ∧
    (∀ hi, r.writable = false ∨ (r.trapOnly = true ∧ s.grp.tr.tm = false) →
      exec (.swr g hi r a) s = .next (s.raise s.arm.pc s.arm.cl ⟨.illegalOp, s.selOf g, 0⟩)))

/-! ## Masks and vector words (R324–R325, R358–R374) -/

/-- R324, R325: MLOG and MSET replace the bits of the selected lanes and keep the others; MGET gives each selected lane its bit; MBAL collects
the lanes whose value is not 0, or ranks each lane among the selected set lanes. MPOPC counts the selected lanes of a mask; MFFS gives the
lowest of them, or with .last the highest, and −1 if there is none. -/
def Obligations.MaskWords : Prop :=
  (∀ (s : State) (g : Guard),
     let sel := s.selOf g
     let merge := fun (d : MReg) (x : LaneSet) => (s.readM d.val &&& ~~~sel) ||| (x &&& sel)
     (∀ op (d : MReg) (a : MSrc) (b : Option MSrc), Runs (lanes g [] [] []) s →
       WritesMask (.mlog g op d a b) s d (merge d (op.bits (a.value s) (b.elim 0 (·.value s))))) ∧
     (∀ (d : MReg) (a : SSrc), Runs (lanes g [] [] a.sregs) s → WritesMask (.mset g d a) s d (merge d (a.value s))) ∧
     (∀ neg (d : VReg) (a : MReg), Runs (lanes g [] [d.val] []) s →
       WritesLanes (.mget g neg d a) s false d sel fun l =>
         if (s.readM a.val).getLsbD l then (if neg then 0xFFFF_FFFF else 1) else 0) ∧
     (∀ (d : MReg) (a : VSrc), Runs (lanes g (a.vregs false) [] a.sregs false) s →
       WritesMask (.mbal g (.mask d a)) s d (lanesWhere 64 fun l => sel.getLsbD l && a.lane32 s l != 0)) ∧
     (∀ (d : VReg) (a : MReg), Runs (lanes g [] [d.val] [] false) s →
       WritesLanes (.mbal g (.rank d a)) s false d sel fun l =>
         BitVec.ofNat 64 (((List.range l).filter fun j => (s.readM a.val &&& sel).getLsbD j).length))) ∧
  (∀ (s : State) (g : Guard) (d : SReg) (a : MReg), Runs (ctl g [d.val]) s →
     let m := s.readM a.val &&& s.selOf g
     WritesScalar (.mpopc g d a) s d (BitVec.ofNat 64 (laneList m).length) ∧
     ∀ last, ∃ r : Word, WritesScalar (.mffs g last d a) s d r ∧ (m = 0 → r = ~~~0#64) ∧
       (m ≠ 0 → m.getLsbD r.toNat = true ∧
         ∀ j, j < 64 → m.getLsbD j = true → if last then j ≤ r.toNat else r.toNat ≤ j))

/-- R360, R361, R362, R364: VADD, VSUB, VMUL, VMULH, VMIN and VMAX compute every selected lane's exact result and narrow it, wrapping or, with
.sat, saturating; no other lane changes. The shifts, whose count is B's low w bits, VLOG, and VSEL, whose C is one 32-bit lane under every
type. -/
def Obligations.VectorIntegerResults : Prop :=
  (∀ (s s' : State) (x : VOp2) (y : Nat → Nat) (sat : Bool), Runs x.info s →
     readB s (allLanes x.g s) x.ty x.b = .ok (y, s') →
     let a := fun l => x.ty.read (laneOf s x.ty x.a l)
     let b := fun l => x.ty.read (y l)
     let w := fun (i : Instr) (sat : Bool) (f : Nat → Int) =>
       WritesLanes i s x.ty.wide x.d (s.selOf x.g) fun l => wordOf (x.ty.narrow sat (f l))
     w (.vadd sat x) sat (fun l => a l + b l) ∧ w (.vsub sat x) sat (fun l => a l - b l) ∧
     w (.vmul sat x) sat (fun l => a l * b l) ∧
     w (.vmulh x) false (fun l => a l * b l / (2 ^ x.ty.bits : Nat)) ∧
     w (.vmin x) false (fun l => min (a l) (b l)) ∧ w (.vmax x) false (fun l => max (a l) (b l))) ∧
  ((∀ (s s' : State) (x : VOp2) (y : Nat → Nat), Runs x.info s → readB s (allLanes x.g s) x.ty x.b = .ok (y, s') →
     let w := x.ty.bits
     let a := fun l => x.ty.read (laneOf s x.ty x.a l)
     let n := fun l => y l % 2 ^ w
     let wr := fun (i : Instr) (f : Nat → Int) =>
       WritesLanes i s x.ty.wide x.d (s.selOf x.g) fun l => wordOf (x.ty.narrow false (f l))
     wr (.vshl x) (fun l => if w ≤ n l then 0 else a l * (2 ^ n l : Nat)) ∧
     wr (.vshr x) (fun l => if w ≤ n l then 0 else ((wrapInt w (a l) / 2 ^ n l : Nat) : Int)) ∧
     wr (.vsra x) (fun l => signedOf w (wrapInt w (a l)) / (2 ^ min (n l) (w - 1) : Nat))) ∧
   (∀ (s s' : State) (x : VOp2) (y : Nat → Nat) (op : LogOp), Runs x.info s →
     readB s (allLanes x.g s) x.ty x.b = .ok (y, s') →
     WritesLanes (.vlog op ⟨x.g, x.ty, x.d, x.a⟩ (some x.b)) s x.ty.wide x.d (s.selOf x.g) fun l => wordOf
       (x.ty.read (op.bits (BitVec.ofNat 64 (laneOf s x.ty x.a l)) (BitVec.ofNat 64 (y l))).toNat)) ∧
   (∀ (s s' : State) (x : VOp3) (y : Nat → Nat), Runs (x.info false) s →
     readB s (allLanes x.g s) x.ty x.b = .ok (y, s') →
     WritesLanes (.vsel x) s x.ty.wide x.d (s.selOf x.g) fun l =>
       wordOf (x.ty.read (if x.c.lane32 s l ≠ 0 then laneOf s x.ty x.a l else y l))))

/-- R360, R362, R366: The vector words of one source or three, VLOG.not, and VMOVI in its three forms. -/
def Obligations.VectorMovesAndFields : Prop :=
  (∀ (s : State) (x : VOp1) (sat : Bool), Runs x.info s →
    let a := fun l => x.ty.read (laneOf s x.ty x.a l)
    let w := fun (i : Instr) (f : Nat → Int) => WritesLanes i s x.ty.wide x.d (s.selOf x.g) fun l => wordOf (f l)
    w (.vmov x) (fun l => x.ty.narrow false (a l)) ∧
    w (.vabs sat x) (fun l => x.ty.narrow sat (a l).natAbs) ∧
    w (.vpopc x) (fun l => x.ty.narrow false (popcount (laneOf s x.ty x.a l) x.ty.bits)) ∧
    w (.vclz x) (fun l => x.ty.narrow false (leadingZeros (laneOf s x.ty x.a l) x.ty.bits)) ∧
    w (.vlog .not x none) (fun l => x.ty.read (~~~(BitVec.ofNat 64 (laneOf s x.ty x.a l))).toNat)) ∧
  (∀ (s : State) (g : Guard) (d : VReg) (imm : BitVec 32) (f : VMoviForm), Runs (lanes g [] (vdst d (f != .w32)) []) s →
    WritesLanes (.vmovi g f d imm) s (f != .w32) d (s.selOf g) fun _ =>
      match f with | .w32 | .n64 => imm.setWidth 64 | .i64 => imm.signExtend 64) ∧
  (∀ (s s' : State) (x : VOp3) (y : Nat → Nat) (sat : Bool), Runs (x.info true) s →
    readB s (allLanes x.g s) x.ty x.b = .ok (y, s') →
    let a := fun l => x.ty.read (laneOf s x.ty x.a l)
    let c := laneOf s x.ty x.c
    WritesLanes (.vmad sat x) s x.ty.wide x.d (s.selOf x.g)
      (fun l => wordOf (x.ty.narrow sat (a l * x.ty.read (y l) + x.ty.read (c l)))))

/-- R366: VBFX and VBFI with position b and length c. A length of 0 or a position at or past the width gives 0 and leaves the lane's bits; else
the length is cut at the width, VBFX's bit j is bit b + j of a within the field and the field's top bit, under a signed type, or 0 above it,
and VBFI takes the field's bits from the low bits of a and the others from D's lane. -/
def Obligations.FieldsExtractAndInsert : Prop :=
  (∀ (t : ITy) (a d : Int) (pos len : Nat),
    let w := t.bits
    let n := min len (w - pos)
    let bit := fun (x : Int) (j : Nat) => (BitVec.ofInt 64 x).getLsbD j
    (len = 0 ∨ w ≤ pos → opBfx t a pos len = 0 ∧ opBfi t d a pos len = d) ∧
    (len ≠ 0 → pos < w → ∀ j, j < w →
      bit (opBfx t a pos len) j = (if j < n then bit a (pos + j) else t.signed && bit a (pos + n - 1)) ∧
      bit (opBfi t d a pos len) j = (if pos ≤ j ∧ j < pos + n then bit a (j - pos) else bit d j))) ∧
  ∀ (s s' : State) (x : VOp3) (y : Nat → Nat), Runs (x.info true) s → readB s (allLanes x.g s) x.ty x.b = .ok (y, s') →
    let a := fun l => x.ty.read (laneOf s x.ty x.a l)
    let c := laneOf s x.ty x.c
    let w := x.ty.bits
    WritesLanes (.vbfx x) s x.ty.wide x.d (s.selOf x.g) (fun l => wordOf (opBfx x.ty (a l) (y l % 2 ^ w) (c l % 2 ^ w))) ∧
    (Runs { x.info true with vs := vdst x.d x.ty.wide ++ (x.info true).vs } s →
      WritesLanes (.vbfi x) s x.ty.wide x.d (s.selOf x.g) fun l =>
        wordOf (opBfi x.ty (x.ty.read (laneOf s x.ty (.v x.d) l)) (a l) (y l % 2 ^ w) (c l % 2 ^ w)))

/-- R363, R370: VCMP and VFCMP write the true-mask, then the false-mask, with 0 in every bit outside the selected lanes. With a NaN only .ne and
.un hold. -/
def Obligations.VectorComparisons : Prop :=
  ∀ (s : State) (g : Guard) (mt mf : MReg) (a : VSrc) (b : VB),
    let sel := s.selOf g
    let w := lanesBelow s.grp.shape.width
    let both := fun (i : Instr) (p : Nat → Bool) =>
      ∃ t, exec i s = .next t ∧ NextWord s t ∧ Frame { masks := [mt.val, mf.val] } s t ∧
        (mf.val ≠ 0 → t.readM mf.val = lanesWhere 64 (fun l => sel.getLsbD l && !p l) &&& w) ∧
        (mt.val ≠ 0 → mt ≠ mf → t.readM mt.val = lanesWhere 64 (fun l => sel.getLsbD l && p l) &&& w)
    (∀ (rel : Rel) (ty : ITy) (y : Nat → Nat) (s' : State),
      Runs (lanes g (a.vregs ty.wide ++ b.vregs ty.wide) [] (a.sregs ++ b.sregs)) s →
      readB s (allLanes g s) ty b = .ok (y, s') →
      both (.vcmp g rel ty mt mf a b) fun l => rel.holds (ty.read (laneOf s ty a l)) (ty.read (y l))) ∧
    (∀ (rel : FRel) (ty : FTy) (y : Nat → Nat) (s' : State),
      Runs (lanes g (a.vregs false ++ b.vregs false) [] (a.sregs ++ b.sregs) false) s →
      readFB s (allLanes g s) ty b = .ok (y, s') →
      both (.vfcmp g rel ty mt mf a b) fun l =>
        match ((ftyFmt ty).decode (codeOf s ty a l)).cmp ((ftyFmt ty).decode (y l)), rel with
        | none, r => r == .un || r == .rel .ne
        | some _, .un => false
        | some _, .ord => true
        | some o, .rel r => r.holds (match o with | .lt => -1 | .eq => 0 | .gt => 1) 0)

/-- R365: VCVT. Between integer kinds the value is kept modulo the width or, with .sat, clamped; from and to a float kind the exact value is
rounded into the destination. -/
def Obligations.VectorConversions : Prop :=
  ∀ (s : State) (g : Guard) (dst src : CvtKind) (rnd : Rnd) (d : VReg) (a : VSrc) (fsl : Slot) (f : Fmt),
    Runs (lanes g (a.vregs src.wide) (vdst d dst.wide) a.sregs) s →
    (if fsl.val = 0 then f = fp32 else s.slotUse (allLanes g s) fsl.val 2 = .ok f) →
    let lo := (cvtRange dst).1
    let hi := (cvtRange dst).2
    let draw := (s.drawLanes rnd.mode).1
    WritesLanes (.vcvt g dst src rnd d a fsl) s dst.wide d (s.selOf g) fun l =>
      if dst.isInt && src.isInt then
        wordOf (if rnd.sat then max lo (min hi (cvtInt s src a l)) else cvtInt s src a l)
      else match dst with
        | .f32 => BitVec.ofNat 64 (fp32.round rnd (draw l) (cvtValue s src f a l))
        | .fs => BitVec.ofNat 64 (f.round rnd (draw l) (cvtValue s src f a l))
        | _ => wordOf (roundInt rnd.mode (draw l) lo hi (cvtValue s src f a l))

/-- R83, R368, R369–R372: VFADD, VFSUB, VFMUL and VFMA round one exact result; a zero sum of opposite signs is −0 under .rd and +0 otherwise.
The code goes to the low bits of each selected lane. VFMIN, VFMAX, VMED3, VFCLS and the four approximations give every selected lane a code
of the type. Which neighbour an approximation under .f32 gives is a free value (log 11). -/
def Obligations.VectorFloatResults : Prop :=
  ((∀ (s s' : State) (x : FOp2) (r : Rnd) (y : Nat → Nat), Runs x.info s →
     readFB s (allLanes x.g s) x.ty x.b = .ok (y, s') →
     let m := ftyFmt x.ty
     let a := fun l => m.decode (codeOf s x.ty x.a l)
     let b := fun l => m.decode (y l)
     let rd := r.mode == .rd
     let w := fun (i : Instr) (f : Nat → FVal) => WritesLanes i s false x.d (s.selOf x.g) fun l =>
       BitVec.ofNat 64 (m.round r ((s.drawLanes r.mode).1 l) (f l))
     w (.vfadd x r) (fun l => (a l).add rd (b l)) ∧ w (.vfsub x r) (fun l => (a l).add rd (b l).negate) ∧
     w (.vfmul x r) (fun l => (a l).mul (b l))) ∧
   (∀ (s s' : State) (x : FOp3) (r : Rnd) (y : Nat → Nat), Runs x.info s →
     readFB s (allLanes x.g s) x.ty x.b = .ok (y, s') →
     let m := ftyFmt x.ty
     WritesLanes (.vfma x r) s false x.d (s.selOf x.g) fun l =>
       BitVec.ofNat 64 (m.round r ((s.drawLanes r.mode).1 l)
         (((m.decode (codeOf s x.ty x.a l)).mul (m.decode (y l))).add (r.mode == .rd) (m.decode (codeOf s x.ty x.c l)))))) ∧
  ((∀ (s s' : State) (x : FOp2) (y : Nat → Nat), Runs x.info s → readFB s (allLanes x.g s) x.ty x.b = .ok (y, s') →
     let m := ftyFmt x.ty
     let a := codeOf s x.ty x.a
     WritesLanes (.vfmin x) s false x.d (s.selOf x.g) (fun l => BitVec.ofNat 64 (m.pick true (a l) (y l))) ∧
     WritesLanes (.vfmax x) s false x.d (s.selOf x.g) (fun l => BitVec.ofNat 64 (m.pick false (a l) (y l)))) ∧
   (∀ (s s' : State) (x : FOp3) (y : Nat → Nat), Runs x.info s → readFB s (allLanes x.g s) x.ty x.b = .ok (y, s') →
     WritesLanes (.vmed3 x) s false x.d (s.selOf x.g) fun l =>
       BitVec.ofNat 64 ((ftyFmt x.ty).med3 (codeOf s x.ty x.a l) (y l) (codeOf s x.ty x.c l))) ∧
   (∀ (s : State) (x : FOp1), Runs x.info s →
     let m := ftyFmt x.ty
     let w := fun (i : Instr) (f : Nat → Nat) => WritesLanes i s false x.d (s.selOf x.g) fun l =>
       BitVec.ofNat 64 (f (codeOf s x.ty x.a l))
     w (.vfrcp x) (ApproxOp.rcp.result m) ∧ w (.vfrsq x) (ApproxOp.rsq.result m) ∧ w (.vfexp2 x) (ApproxOp.exp2.result m) ∧
     w (.vflog2 x) (ApproxOp.log2.result m) ∧ w (.vfcls x) fun c => 2 ^ m.classOf c))

/-- R369, R72–R78, R86, R89, R309, R88, R78: Minimum and maximum of two codes of FP32, FP16 or BF16. If exactly one source is a NaN the other
one is returned, and if both are, the canonical NaN; else the result is one of the sources and no source is below, or above, it. Rounding
the value of a finite code gives the code back, whatever the rounding direction: every code of the 8-bit and 4-bit hard-wired formats. The
sum of products that are whole numbers below 2^44 in magnitude is exact: no bit of theirs lies below the window. DQNT's element: a NaN in
element, scale or tensor scale gives the canonical NaN; a zero scale under E5M3 gives +0 for every finite element; else the exact product of
the three is rounded once to FP32. A block with a NaN, or a per-tensor scale that is not positive and finite, gives codes 0, scale code FF
and the NaN mark; a block of zeros gives scale code 0 and no mark. Elements written one after another into a stream of packed codes read
back, whatever stood there. -/
def Obligations.FormatFunctionsAreExact : Prop :=
  (∀ (t : FTy) (least : Bool) (a b : Nat),
     let m := ftyFmt t
     let r := m.pick least a b
     (m.decode a = .nan → m.decode b = .nan → r = m.nan) ∧
     (m.decode a = .nan → m.decode b ≠ .nan → r = b) ∧ (m.decode a ≠ .nan → m.decode b = .nan → r = a) ∧
     (m.decode a ≠ .nan → m.decode b ≠ .nan → (r = a ∨ r = b) ∧
       ∀ c ∈ [a, b], (m.decode c).cmp (m.decode r) ≠ some (if least then .lt else .gt))) ∧
  (∀ n ∈ [3, 4, 5, 6, 7], ∀ c ∈ List.range (2 ^ (hardSlot n).width), ∀ m ∈ [RMode.rn, .rz, .ru, .rd],
     match (hardSlot n).decode c with
     | .num _ _ _ => (hardSlot n).round ⟨m, false⟩ 0 ((hardSlot n).decode c) = c
     | _ => True) ∧
  (∀ (l : List (Bool × Nat)), (∀ p ∈ l, p.2 < 2 ^ 44) →
     ∃ neg m u, windowSum (l.map fun p => .num p.1 p.2 0) = .num neg m u ∧ u ≤ 0 ∧
       (if neg then -(m : Int) else m) = (l.map fun p => if p.1 then -(p.2 : Int) else p.2).sum * (2 ^ (-u).toNat : Nat)) ∧
  (∀ (mode : SMode) (r : Rnd) (draw : Nat),
     (∀ q sc t : FVal, q = .nan ∨ sc = .nan ∨ t = .nan → dquant mode r draw q sc t = 0x7FC0_0000) ∧
     ∀ (a b c : Bool) (m n k : Nat) (e f h : Int),
       dquant mode r draw (.num a m e) (.num b n f) (.num c k h) =
         if mode = .e5m3 ∧ n = 0 then 0 else fp32.round r draw (.num ((a != b) != c) (m * n * k) (e + f + h))) ∧
  (∀ (f : Fmt) (mode : SMode) (r : Rnd) (t : FVal) (rnd : Nat → Nat) (xs : List FVal),
     ((.nan ∈ xs ∨ ∀ m e, t ≠ .num false (m + 1) e) →
       quantBlock f mode r t rnd xs = (xs.map fun _ => 0, 0xFF, .nan)) ∧
     (∀ m e, t = .num false (m + 1) e → (∀ x ∈ xs, ∃ n k, x = .num n 0 k) →
       (quantBlock f mode r t rnd xs).2 = (0, .none)) ∧
     ((quantBlock f mode r t rnd xs).1.length = xs.length)) ∧
  (∀ (w first : Nat) (codes : List Nat) (t : Tbl Byte), 1 ≤ w → w ≤ 32 → (∀ c ∈ codes, c < 2 ^ w) →
     Tbl.rising t = true → (∀ a, a ≤ elemBit w (first + codes.length) / 8 + 6 → (t.look a).isSome = true) →
     let t' := codes.zipIdx.foldl (fun t (c, k) => orBits t (elemBit w (first + k)) w c) t
     ∀ k, k < codes.length →
       let b := elemBit w (first + k)
       ofBytes ((List.range (w / 8 + 2)).map fun j => (t'.look (b / 8 + j)).getD 0) / 2 ^ (b % 8) % 2 ^ w = codes.getD k 0)

/-- R374: VSHFL reads lane index mod width of its source (mod 32 in LEGACY mode, where a lane outside the arm mask gives 0), VBCAST one lane for
all, and VCMPR packs the selected lanes to the front. VRED combines the selected lanes into a scalar or into every selected lane; VSCAN
gives each lane the combination of the carry-in and of the selected lanes up to it. -/
def Obligations.LanesMoveAndCombine : Prop :=
  (∀ (s : State) (g : Guard) (wide : Bool) (d a : VReg),
     let sel := s.selOf g
     (∀ (idx : VSrc), Runs (lanes g (vdst a wide ++ idx.vregs false) (vdst d wide) idx.sregs false) s →
       WritesLanes (.vshfl g wide d a idx) s wide d sel fun l =>
         let j := (idx.lane32 s l).toNat
         if s.grp.shape.legacy then (if s.arm.mask.getLsbD (j % 32) then s.laneW wide a (j % 32) else 0)
         else s.laneW wide a (j % s.grp.shape.width)) ∧
     (∀ (n : SSrc), Runs (lanes g (vdst a wide) (vdst d wide) n.sregs false) s →
       WritesLanes (.vbcast g wide d a n) s wide d sel fun _ => s.laneW wide a ((n.value s).toNat % s.grp.shape.width)) ∧
     (Runs (lanes g (vdst a wide) (vdst d wide) [] false) s →
       WritesLanes (.vcmpr g wide d a) s wide d (lanesBelow (laneList sel).length) fun k =>
         s.laneW wide a ((laneList sel).getD k 0))) ∧
  (∀ (s : State) (g : Guard) (op : RedOp) (ty : RedTy) (r : Rnd) (a : VSrc),
     let sel := s.selOf g
     let draw := (s.drawLanes (redMode op ty r)).1
     let all := wordOf (combine op ty r (draw 0) ((laneList sel).map (redLane s ty a)))
     (∀ (k : SReg), Runs (lanes g (a.vregs ty.wide) [] (a.sregs ++ [k.val]) false) s →
       WritesScalar (.vred g op ty r (.s k) a) s k all) ∧
     (∀ (k : VReg), Runs (lanes g (a.vregs ty.wide) (vdst k ty.wide) (a.sregs ++ []) false) s →
       WritesLanes (.vred g op ty r (.v k) a) s ty.wide k sel fun _ => all) ∧
     (∀ (d : VReg) (cin : SSrc), Runs (lanes g (a.vregs ty.wide) (vdst d ty.wide) (a.sregs ++ cin.sregs) false) s →
       WritesLanes (.vscan g op ty r d a cin) s ty.wide d sel fun l =>
         wordOf (combine op ty r (draw l) (carryIn s ty cin :: ((laneList sel).filter (· ≤ l)).map (redLane s ty a)))))

/-! ## Control and traps (R33–R41, R48–R52, R223–R229, R281–R293, R310–R315, R330, R337–R338, R355, R380–R381) -/

/-- R281, R282, R330: NOP goes on; BRA and B go to the clause header at their offset in words from the header of their own clause if their
condition holds, else on. A target outside VA[70:0] raises FETCH_FAULT. -/
def Obligations.BranchesGoWhereTheySay : Prop :=
  (∀ s : State, Runs (ctl ⟨0, false⟩ []) s → GoesOn .nop s) ∧
  ∀ (s : State) (off : BitVec 32),
    let t : Int := (s.arm.cl.hdr : Int) + 8 * off.toInt
    let way := fun (i : Instr) (g : Guard) (taken : Prop) =>
      (taken → 0 ≤ t → t < 2 ^ 71 → GoesTo i s t.toNat) ∧
      (taken → t < 0 ∨ 2 ^ 71 ≤ t → exec i s = .next (s.raise s.arm.pc s.arm.cl ⟨.fetchFault, s.selOf g, 0⟩)) ∧
      (¬taken → GoesOn i s)
    (∀ x : BraOp, x.off = off → Runs (ctl x.g (braSregs x)) s →
      way (.bra x) x.g (match x.cond with
        | none => True
        | some (.eqz, y) => (y.value s).toInt = 0 | some (.nez, y) => (y.value s).toInt ≠ 0
        | some (.ltz, y) => (y.value s).toInt < 0 | some (.gez, y) => 0 ≤ (y.value s).toInt
        | some (.gtz, y) => 0 < (y.value s).toInt | some (.lez, y) => (y.value s).toInt ≤ 0)) ∧
    (∀ (g : Guard) (cond : Option (MCond × MReg)), Runs (ctl g []) s →
      let has := fun (m : MReg) (l : Nat) => (s.selOf g).getLsbD l = true ∧ (s.readM m.val).getLsbD l = true
      let lacks := fun (m : MReg) (l : Nat) => (s.selOf g).getLsbD l = true ∧ (s.readM m.val).getLsbD l = false
      way (.bmask g cond off) g (match cond with
        | none => True
        | some (.any, m) => ∃ l, has m l | some (.none, m) => ¬∃ l, has m l
        | some (.all, m) => ¬∃ l, lacks m l | some (.nall, m) => ∃ l, lacks m l))

/-- R41, R48, R281, R282, R293, R337, R292: CALL pushes the address after its clause and goes to its target, RET pops it; a full stack raises
CALL_OVERFLOW, an empty one CALL_UNDERFLOW, a target outside VA[70:0] FETCH_FAULT. A RET below the depth recorded at REGION leaves the
region. BTAB serves the selected lanes group by group. It calls, for the least key among the pending lanes, the target in the table, with
the arm mask those lanes; each RET from it serves the next key, and the last restores the mask and goes on after the clause. A target
outside raises FETCH_FAULT there too, and a RET from it leaves the region as any other does. -/
def Obligations.CallsPushAndReturnsPop : Prop :=
  ((∀ (s : State) (x : BraOp), Runs (ctl x.g (braSregs x)) s →
     let t : Int := (s.arm.cl.hdr : Int) + 8 * x.off.toInt
     (braTaken x s = false → GoesOn (.call x) s) ∧
     (braTaken x s = true → s.arm.rets.length = 256 →
       exec (.call x) s = .next (s.raise s.arm.pc s.arm.cl ⟨.callOverflow, s.selOf x.g, 256⟩)) ∧
     (braTaken x s = true → s.arm.rets.length ≠ 256 → t < 0 ∨ 2 ^ 71 ≤ t →
       exec (.call x) s = .next (s.raise s.arm.pc s.arm.cl ⟨.fetchFault, s.selOf x.g, 0⟩)) ∧
     (braTaken x s = true → s.arm.rets.length ≠ 256 → 0 ≤ t → t < 2 ^ 71 →
       ∃ u, exec (.call x) s = .next u ∧ u.arm.pc = t.toNat ∧ u.arm.cl = Clause.start ∧
         u.arm.rets = .plain (s.arm.pc + 8 * s.arm.cl.left) :: s.arm.rets ∧ u.arm.forks = s.arm.forks ∧
         Frame { control := true } s u)) ∧
   (∀ (s : State) (g : Guard), Runs (ctl g []) s →
     (s.arm.rets = [] → exec (.ret g) s = .next (s.raise s.arm.pc s.arm.cl ⟨.callUnderflow, s.selOf g, 0⟩)) ∧
     (∀ pc rest, s.arm.rets = .plain pc :: rest →
       ∃ u, exec (.ret g) s = .next u ∧ u.arm.pc = pc ∧ u.arm.cl = Clause.start ∧ u.arm.rets = rest ∧
         u.arm.forks = s.arm.forks ∧ Frame { control := true } s u ∧
         (s.who ≠ .mon → rest.length < s.grp.rg.depth → u.grp.rg.inside = false)))) ∧
  (∀ (s : State) (idx : VSrc) (tab n : SSrc),
     let count := (n.value s).toNat % 2 ^ 32
     let key := fun l => min (idx.lane32 s l).toNat count
     let served := fun (i : Instr) (w : Nat) (c : Ctx) (cl : Clause) (pending : LaneSet) (saved : LaneSet)
         (forks : List ForkEntry) (rets : List RetEntry) (sel : LaneSet) (region : State → Prop) =>
       ∀ (k : Nat) (q : Nat × State),
         (∃ l, l < 64 ∧ pending.getLsbD l = true ∧ key l = k) →
         (∀ l, l < 64 → pending.getLsbD l = true → k ≤ key l) →
         ((tab.value s).toNat + 8 * k) % 8 = 0 →
         s.globalAt c .read ((tab.value s).toNat + 8 * k) 8 = .ok q →
         let target : Int := (cl.hdr : Int) + signedOf 64 (q.2.mem.num q.1 8)
         let now := lanesWhere 64 fun l => pending.getLsbD l && decide (key l = k)
         (target < 0 ∨ 2 ^ 71 ≤ target → exec i s = .next (s.raise s.arm.pc s.arm.cl ⟨.fetchFault, sel, 0⟩)) ∧
         (0 ≤ target → target < 2 ^ 71 →
           ∃ u, exec i s = .next u ∧ u.arm.pc = target.toNat ∧ u.arm.cl = Clause.start ∧ u.arm.mask = now ∧
             u.arm.forks = .table w cl saved (pending &&& ~~~now) idx tab n :: forks ∧ u.arm.rets = .table :: rets ∧
             region u ∧ Frame { masks := [0], control := true } s u)
     let info : Info := { g := ⟨0, false⟩, vs := idx.vregs false, ss := idx.sregs ++ tab.sregs ++ n.sregs }
     (∀ g : Guard, Runs { info with g := g, mon := true } s → s.selOf g ≠ 0 → s.arm.forks.length ≠ 8 →
       s.arm.rets.length ≠ 256 →
       served (.btab g idx tab n) s.arm.pc (allLanes g s) s.arm.cl (s.selOf g) s.arm.mask s.arm.forks s.arm.rets (s.selOf g)
         fun u => u.grp.rg = s.grp.rg) ∧
     (∀ (g : Guard) (w : Nat) (cl : Clause) (saved pending : LaneSet) (forks : List ForkEntry) (rets : List RetEntry),
       Runs (ctl g []) s → s.arm.rets = .table :: rets → s.arm.forks = .table w cl saved pending idx tab n :: forks →
       let leaves := fun (u : State) => s.who ≠ .mon → rets.length < s.grp.rg.depth → u.grp.rg.inside = false
       (pending = 0 → ∃ u, exec (.ret g) s = .next u ∧ u.arm.pc = w + 8 * cl.left ∧ u.arm.mask = saved ∧
         u.arm.forks = forks ∧ u.arm.rets = rets ∧ leaves u ∧ Frame { masks := [0], control := true } s u) ∧
       (pending ≠ 0 → s.mustWait info = false → s.linesAbsent info = [] → rets.length ≠ 256 →
         served (.ret g) w (allLanes g s) cl pending saved forks rets (s.selOf g) leaves)))

/-- R33, R35, R37, R35–R37, R52: FORK with one arm makes arm 1 at the target with the lanes of the mask, and arm 0 goes on with the others (with
its own mask under .shared); with two arms, or in a monitor wave, it runs the child first. That a monitor wave's FORK runs serially is
deduced (log 47). JOIN ends the child of a serial fork and runs its parent, whose JOIN unites the masks; with two arms the child's JOIN ends
it, and the parent's then unites masks and adds flags, once what the other arm's MSTZ write has been written. Without a fork it does
nothing. That a monitor wave's JOIN runs serially is deduced (log 47). -/
def Obligations.ForksSplitAndJoinsUnite : Prop :=
  (∀ (s : State) (g : Guard) (shared : Bool) (m : MReg) (off : BitVec 32), Runs { ctl g [] with rel := true } s →
     let t : Int := (s.arm.cl.hdr : Int) + 8 * off.toInt
     let child := s.active &&& s.readM m.val
     let parent := if shared then s.arm.mask else s.active &&& ~~~child
     0 ≤ t → t < 2 ^ 71 →
     (s.grp.two = false → s.who = .arm0 →
       ∃ u, exec (.fork g shared m off) s = .next u ∧ NextWord s u ∧ u.grp.two = true ∧ u.arm.mask = parent ∧
         u.grp.a1 = Arm.start t.toNat child ∧ u.grp.rg.inside = false ∧ Frame { masks := [0] } s u) ∧
     (s.grp.two = true ∨ s.who = .mon → s.arm.forks.length ≠ 8 →
       ∃ u, exec (.fork g shared m off) s = .next u ∧ u.arm.pc = t.toNat ∧ u.arm.cl = Clause.start ∧ u.arm.mask = child ∧
         u.arm.forks = .fork (s.arm.pc + 8) s.arm.cl.step s.arm.mask parent 0 shared false :: s.arm.forks ∧
         u.arm.rets = s.arm.rets ∧ Frame { masks := [0], control := true } s u) ∧
     (s.grp.two = true ∨ s.who = .mon → s.arm.forks.length = 8 →
       exec (.fork g shared m off) s = .next (s.raise s.arm.pc s.arm.cl ⟨.forkDepth, s.selOf g, 0⟩))) ∧
  (∀ (s : State) (g : Guard), Runs { ctl g [] with rel := true } s →
     (∀ cont cl saved parent recorded shared rest,
       s.arm.forks = .fork cont cl saved parent recorded shared false :: rest →
       ∃ u, exec (.join g) s = .next u ∧ u.arm.pc = cont ∧ u.arm.cl = cl ∧ u.arm.mask = parent ∧
         u.arm.forks = .fork cont cl saved parent s.arm.mask shared true :: rest ∧ Frame { masks := [0], control := true } s u) ∧
     (∀ cont cl saved parent recorded shared rest,
       s.arm.forks = .fork cont cl saved parent recorded shared true :: rest →
       ∃ u, exec (.join g) s = .next u ∧ NextWord s u ∧ u.arm.forks = rest ∧
         u.arm.mask = (if shared then saved else recorded ||| s.arm.mask) ∧ Frame { masks := [0], control := true } s u) ∧
     (s.arm.forks = [] → s.grp.two = false ∨ s.who = .mon → GoesOn (.join g) s) ∧
     (s.arm.forks = [] → s.grp.two = true → s.who = .arm1 → s.grp.a0.ended = false → (∀ x ∈ s.grp.eng.recs, x.2.st ≠ 3) →
       ∃ u, exec (.join g) s = .next u ∧ u.grp.a1.ended = true ∧ u.grp.a1.mask = s.grp.a1.mask ∧ u.grp.a0 = s.grp.a0 ∧
         Frame { reservation := true } s u) ∧
     (s.arm.forks = [] → s.grp.two = true → s.who ≠ .mon → (s.grp.arm (otherArm s.who)).ended = true →
       let o := s.grp.arm (otherArm s.who)
       s.grp.stzOps (otherArm s.who) = [] → s.grp.owes (otherArm s.who) = false →
       (∀ f, f < 12 → s.arm.flag f + o.flag f ≤ 63) →
       ∃ u, exec (.join g) s = .next u ∧ u.grp.two = false ∧ u.who = .arm0 ∧ u.arm.pc = s.arm.pc + 8 ∧
         u.arm.mask = s.arm.mask ||| o.mask ∧ (∀ f, f < 12 → u.arm.flag f = s.arm.flag f + o.flag f) ∧
         u.grp.regs = s.grp.regs ∧ u.mem = s.mem ∧ u.cores = s.cores))

/-- R66, R225, R227, R228: Taking a trap outside a handler, in a group that is no replay group, writes the five trap registers, sets TM, clears
the reservation and the park, and goes to the handler whose address the vector holds. A position that a ring's home has granted the arm is
written first, and a request of the arm that still waits there is withdrawn (R197); no other register changes. TPCV of an address at or
above 2^71 is the model's choice (log 83). The vector of a trap kind stands at TVBASE + 16 × TKIND: where it can be read its low nine bytes
are the handler's address. A trap while TM is 1, or one whose vector is zero or cannot be read, kills the group: the management event names
its partition, team and GID. -/
def Obligations.TrapsEnterTheHandlerOrKill : Prop :=
  (∀ (s : State) (tpc : Nat) (cl : Clause) (t : TrapRec) (h : Nat),
     s.grp.live = true → s.who ≠ .mon → s.grp.replayId = none → s.grp.tr.tm = false →
     let v := s.settleGrant.withdraw s.grp.key s.who
     v.handlerOf t.kind = some h → h ≠ 0 →
     let u := s.raise tpc cl t
     u.grp.tr.tkind = BitVec.ofNat 8 t.kind.code ∧ u.grp.tr.tpcv = BitVec.ofNat 71 tpc ∧ u.grp.tr.tlm = t.lanes ∧
     u.grp.tr.tinfo = t.info ∧ u.grp.tr.tm = true ∧ u.grp.tr.arm = s.who ∧ u.grp.tr.cl = cl ∧
     u.grp.tr.resv = !v.arm.resv.isEmpty ∧ u.arm.pc = h ∧ u.arm.cl = Clause.start ∧ u.arm.resv = [] ∧ u.arm.park = none ∧
     u.grp.regs = v.grp.regs ∧ u.arm.flags = s.arm.flags ∧
     (s.arm.back = none → u.arm.mask = s.arm.mask) ∧ (∀ a, u.mem.byte a = v.mem.byte a) ∧ u.grp.live = true ∧
     ((∀ w ∈ s.waits, w.key = s.grp.key → w.who ≠ s.who) → v = s)) ∧
  (∀ (s : State) (k : TrapKind) (pa key : Nat),
     s.walkTr s.grp.part .read ((s.par s.grp.part).tvbase + 16 * k.code) = .ok pa key → s.poisonAt pa 16 = false →
     s.handlerOf k = some (s.mem.num pa 9)) ∧
  (∀ (s : State) (tpc : Nat) (cl : Clause) (t : TrapRec),
     s.grp.live = true → s.who ≠ .mon → s.grp.replayId = none →
     let v := s.settleGrant.withdraw s.grp.key s.who
     s.grp.tr.tm = true ∨ v.handlerOf t.kind = none ∨ v.handlerOf t.kind = some 0 →
     ∃ e ∈ (s.raise tpc cl t).pm.events, e.code = 0x45 ∧ e.args.take 3 = [s.grp.part, s.grp.team, s.grp.gid])

/-- R355, R338, R229: TRAP enters the handler of SW_TRAP with the address of the next word in TPCV and its operand in TINFO. RFT clears TM and
resumes at TPCV; outside a handler it raises ILLEGAL_OP. -/
def Obligations.SoftwareTrapAndReturn : Prop :=
  (∀ (s : State) (g : Guard) (a : SSrc) (h : Nat), Runs (ctl g a.sregs) s → s.who ≠ .mon → s.grp.replayId = none →
    s.grp.tr.tm = false → s.handlerOf .swTrap = some h → h ≠ 0 →
    (∀ w ∈ s.waits, w.key = s.grp.key → w.who ≠ s.who) →
    ∃ t, exec (.trap g a) s = .next t ∧ t.grp.tr.tkind = 0x19 ∧ t.grp.tr.tpcv = BitVec.ofNat 71 (s.arm.pc + 8) ∧
      t.grp.tr.tlm = s.selOf g ∧ t.grp.tr.tinfo = a.value s ∧ t.grp.tr.tm = true ∧ t.arm.pc = h ∧
      t.grp.regs = s.grp.regs ∧ ∀ a, t.mem.byte a = s.mem.byte a) ∧
  (∀ (s : State) (g : Guard), Runs { ctl g [] false with rep := false } s →
    (s.grp.tr.tm = false → exec (.rft g) s = .next (s.raise s.arm.pc s.arm.cl ⟨.illegalOp, s.selOf g, 0⟩)) ∧
    (s.grp.tr.tm = true → ∃ t, exec (.rft g) s = .next (t.rechoose s.grp.team) ∧
      t.arm.pc = s.grp.tr.tpcv.toNat ∧ t.grp.tr = { s.grp.tr with tm := false } ∧
      (s.grp.tr.tpcv = s.grp.tr.savedPc → t.arm.cl = s.grp.tr.cl) ∧ (s.grp.tr.back = none → Frame { special := true } s t)) ∧
    ∀ t : State, (∀ x, t.teams.look s.grp.team = some x → x.pre = .saving → ∀ d, x.deadline = some d → d ≤ t.pm.time) →
      t.rechoose s.grp.team = t)

/-- R255, R31, R47, R49: A clause header whose flags read zero, that stays within a 64-byte block, opens its clause, with the words that stand
behind it; while a flag is not zero it waits; END raises CODE_END. A REGION header of a group with one arm starts a region. -/
def Obligations.ClauseHeadersOpenClauses : Prop :=
  ∀ s : State, s.grp.live = true →
    exec (.clauseHeader .endMark) s = .next (s.raise s.arm.pc s.arm.cl ⟨.codeEnd, s.active, 0⟩) ∧
    ∀ (wait : BitVec 12) (seta setb : Option Flag) (count : Fin 8) (region yieldh nr : Bool), s.who ≠ .mon →
      (∀ x ∈ s.grp.eng.recs, x.2.st ≠ 3) →
      let i := Instr.clauseHeader (.clause wait seta setb count region yieldh nr)
      (64 < s.arm.pc % 64 + 8 * (count.val + 1) → exec i s = .next (s.raise s.arm.pc s.arm.cl ⟨.illegalOp, s.active, 0⟩)) ∧
      (s.arm.pc % 64 + 8 * (count.val + 1) ≤ 64 →
        ((∃ f, f < 12 ∧ wait.getLsbD f = true ∧ s.arm.flag f ≠ 0) → exec i s = .next s) ∧
        ((∀ f, f < 12 → wait.getLsbD f = true → s.arm.flag f = 0) →
          ∃ t, exec i s = .next t ∧ t.arm.pc = s.arm.pc + 8 ∧ t.arm.park = none ∧
            t.arm.cl = ⟨s.arm.pc, s.clauseWords count.val, seta.map (·.val), setb.map (·.val), nr⟩ ∧ t.arm.cl.left = count.val ∧
            t.arm.hint = yieldh ∧ Frame {} s t ∧
            (region = true → s.grp.two = false → t.grp.rg.inside = true ∧ t.grp.rg.rgpc = BitVec.ofNat 71 s.arm.pc ∧
              t.grp.rg.depth = s.arm.rets.length) ∧
            (region = false → t.grp.rg = s.grp.rg)))

/-- R52, R53, R55, R121, R132, R134, R310, R380, R381: YIELD makes the arm not ready for a while, with n = 0 until the core's other ready groups
have been offered an opportunity. WAITT goes on once TIME has reached its value and its flag reads zero, raises PROMISE_MISS if it does not,
and sleeps before. EXIT ends its arm, and a group of which nothing is left retires: it leaves its team's barrier objects, and the last group
of a team ends the team, whose slates are freed. The EXIT of a replay group makes its crib LIVE, and that of the last member ends the chain.
A monitor wave's EXIT ends the wave. In a handler it kills the group. -/
def Obligations.YieldWaitAndExit : Prop :=
  (∀ (s : State) (g : Guard) (n : SSrc), Runs (ctl g n.sregs) s →
    let now := (s.coreAt s.grp.key.core).opps
    let l := (s.others.filter fun h => h.key.core == s.grp.key.core && s.coreRuns h && (h.ready .arm0 || h.ready .arm1)).map (·.key)
    ∃ t, exec (.yield g n) s = .next t ∧ NextWord s t ∧ Frame {} s t ∧
      ((n.value s).toNat ≠ 0 → t.arm.yield = some ⟨none, now⟩) ∧
      ((n.value s).toNat = 0 → t.arm.yield = if l = [] then none else some ⟨some l, now⟩)) ∧
  (∀ (s : State) (g : Guard) (v : SSrc) (f : Flag), Runs { ctl g v.sregs with flags := [f.val] } s →
    (∀ x ∈ s.grp.eng.recs, x.2.st ≠ 3) →
    ((v.value s).toNat ≤ s.pm.time → s.arm.flag f.val = 0 → GoesOn (.waitt g v f) s) ∧
    ((v.value s).toNat ≤ s.pm.time → s.arm.flag f.val ≠ 0 → exec (.waitt g v f) s = .next
      (s.raise s.arm.pc s.arm.cl ⟨.promiseMiss, s.selOf g, BitVec.ofNat 64 (s.flagEstimate f.val)⟩)) ∧
    (s.pm.time < (v.value s).toNat → ∃ t, exec (.waitt g v f) s = .next t ∧
      t.arm.sleep = some ((v.value s).toNat, f.val, s.selOf g) ∧ t.arm.pc = s.arm.pc ∧ Frame {} s t)) ∧
  (∀ (s : State) (g : Guard), Runs (ctl g []) s →
    (s.who = .mon → ∃ t, exec (.exit g) s = .next t ∧ t.grp.mon.st = .ended ∧ t.grp.regs = s.grp.regs ∧ t.mem = s.mem) ∧
    (s.who ≠ .mon → s.grp.tr.tm = true → (∀ x ∈ s.grp.eng.recs, x.2.st ≠ 3) → s.grp.hasDep s.who = false → s.arm.under = [] → s.arm.depLanes = 0 →
      exec (.exit g) s = .next (s.killGroup s.grp.key)) ∧
    (s.who ≠ .mon → s.grp.tr.tm = false → (∀ x ∈ s.grp.eng.recs, x.2.st ≠ 3) → s.grp.hasDep s.who = false →
      s.arm.under = [] → s.arm.depLanes = 0 →
      (s.grp.ops ≠ [] ∨ s.grp.redo ≠ [] ∨ (s.grp.two = true ∧ (s.grp.arm (otherArm s.who)).ended = false) →
        ∃ t, exec (.exit g) s = .next t ∧ t.arm.ended = true ∧ t.arm.mask = 0 ∧ t.arm.resv = [] ∧ t.grp.regs = s.grp.regs ∧
          t.mem = s.mem) ∧
      (s.grp.ops = [] → s.grp.redo = [] → s.grp.two = false → s.who = .arm0 → (∀ w ∈ s.waits, w.key ≠ s.grp.key) →
        s.grp.replayId = none →
        ∃ t, exec (.exit g) s = .next t ∧ ∀ x, s.teams.look s.grp.team = some x →
          let gone := insNat x.retired s.grp.gid
          (gone.length ≠ groupsOf x.khdr → t.groupAt s.grp.key = none ∧
            t.teams.look s.grp.team = some { x with retired := gone } ∧ (x.bars = [] → t.mem = s.mem) ∧
            ∀ o id d, x.bars = [o] → s.anySlate o.core s.grp.team (bits o.addr 11 11) = some (id, d) → d.kind = .scratch →
              let ofs := o.addr % 2 ^ 22 - d.base * 2048
              let b := Bar.ofNat (s.slNum o.core id ofs 16)
              (d.sec (ofs / 128)).st = .good → bitB b.members s.grp.gid = true →
              (List.range 16).map (fun j => slateByte t o.core id (ofs + j)) =
                toBytes 16 (b.leave s.grp.gid (Config.barCount s.cnt.steps).toNat).toNat) ∧
          (gone.length = groupsOf x.khdr → t.teams.look s.grp.team = none ∧
            ∀ c ∈ teamCores x, ∀ id d, t.desc? c id = some d → d.team ≠ s.grp.team)) ∧
      (s.grp.ops = [] → s.grp.redo = [] → s.grp.two = false → s.who = .arm0 → ∀ r ch y, s.grp.replayId = some r →
        (s.coreAt r.core).chains.look r.chain = some ch → ch.ended + 1 = ch.all.length → ch.sources = [] →
        s.crib? r.home r.crib = some y →
        ∃ t, exec (.exit g) s = .next t ∧ (t.coreAt r.core).chains.look r.chain = none ∧
          (∃ z, t.crib? r.home r.crib = some z ∧ z.st = .live ∧ z.replays = min (y.replays + 1) 0xFFFF) ∧
          (∀ d, s.desc? r.home y.slate = some d → ∃ e, t.desc? r.home y.slate = some e ∧ e.dropped = false) ∧
          ∀ h ∈ t.groups, ∀ w p, (h.arm w).park = some p → ∀ c ∈ p.causes, c.isCrib r.home r.crib = false)))

/-! ## Memory (R169–R175, R233–R239, R263, R274–R279, R294–R296, R311, R321–R323, R349–R354, R375–R378) -/

/-- R263, R274, R233–R236, R233: A global access by one lane of a team without a mapped slate at the address. An address outside 72 bits raises
MEM_FAULT and one not a multiple of its size MISALIGN, in this order; then the walk decides: its place is the physical address of the leaf,
where the page's key is the partition's, the page allows the access and the frame's recorded key agrees. The walk goes through six levels of
nodes of 64-bit entries from TROOT, indexed by VA[70:63], [62:53], [52:43], [42:33], [32:23] and [22:13]; a leaf entry at level 3, 4 or 5
keeps the VA's lower bits. Each level here is one whose entry is owned under TKEY or not owned and holds no error. -/
def Obligations.AccessTestsAndTranslation : Prop :=
  (∀ (s : State) (q : Ask) (ea : Int), q.tgt = .glob ea →
     let info := BitVec.ofNat 64 (wrapInt 72 ea / 1024)
     (ea < 0 ∨ 2 ^ 72 ≤ ea → s.chk [] q = .trap .memFault info) ∧
     (0 ≤ ea → ea < 2 ^ 72 → ea.toNat % q.n ≠ 0 → s.chk [] q = .trap .misalign info) ∧
     (0 ≤ ea → ea < 2 ^ 71 → ea.toNat % q.n = 0 → s.grp.replayId = none → s.mappedAt ea.toNat q.n = none →
       assoc (s.coreAt s.core).tlb (s.grp.part, ea.toNat / 8192) = none →
       ∀ pa e, (s.walk s.grp.part ea.toNat).1 = .leaf pa e →
         let key := bits e.toNat 52 9
         let device := pa < 2 ^ 51
         (device → key = 0 ∨ key ∉ (s.par s.grp.part).keys → s.chk [] q = .trap .permission info) ∧
         (¬device ∨ (key ≠ 0 ∧ key ∈ (s.par s.grp.part).keys) →
           (q.perm.allowed e.toNat = false → s.chk [] q = .trap .permission info) ∧
           (q.perm.allowed e.toNat = true →
             (s.mem.frameOk pa key = false → s.chk [] q = .trap .keyConflict info) ∧
             (s.mem.frameOk pa key = true →
               (q.acc ≠ .write → q.consume = true → s.poisonAt pa q.n = true → s.chk [] q = .trap .uncorrectable info) ∧
               (q.acc = .write ∨ s.poisonAt pa q.n = false → s.chk [] q = .ok (.mem pa ea.toNat key))))))) ∧
  ((∀ (s : State) (p va : Nat), s.walk p va = s.walkFrom (s.par p).tkey va
     [(0, 63, 8), (1, 53, 10), (2, 43, 10), (3, 33, 10), (4, 23, 10), (5, 13, 10)] (s.par p).troot []) ∧
   ∀ (s : State) (tkey va node lo n level : Nat) (rest : List (Nat × Nat × Nat)) (seen : List Nat),
     let a := node + 8 * (va / 2 ^ lo % 2 ^ n)
     let e := s.mem.num a 8
     let pa := e / 2 ^ 13 % 2 ^ 39 * 8192
     s.poisonAt a 8 = false → s.mem.frameOk a tkey = true →
     (bitB e 0 = false → (s.walkFrom tkey va ((level, lo, n) :: rest) node seen).1 = .absent level (bitB e 6)) ∧
     (bitB e 0 = true → bits e 7 6 = 0 → bits e 61 3 = 0 → pa < 2 ^ 39 ∨ 2 ^ 51 ≤ pa →
       (bitB e 1 = true → 3 ≤ level → pa % 2 ^ lo = 0 →
         (s.walkFrom tkey va ((level, lo, n) :: rest) node seen).1 = .leaf (pa + va % 2 ^ lo) (BitVec.ofNat 64 e)) ∧
       (bitB e 1 = false → level ≠ 5 →
         s.walkFrom tkey va ((level, lo, n) :: rest) node seen = s.walkFrom tkey va rest pa (seen ++ [a]))))

/-- R239: A write clears the poison of the lines it covers whole and of no other line; a byte written reads back, and no other byte changes. -/
def Obligations.MemoryReadAfterWrite : Prop :=
  ∀ (m : Memory) (pa : Nat) (bs : List Byte),
    let m' := m.store (cellsAt pa bs)
    (∀ a, m'.byte a = if pa ≤ a ∧ a < pa + bs.length then bs.getD (a - pa) 0 else m.byte a) ∧
    (∀ line, line ∈ m'.poison ↔ line ∈ m.poison ∧ ¬(pa ≤ line * 128 ∧ line * 128 + 128 ≤ pa + bs.length)) ∧
    (m.wf = true → m'.wf = true)

/-- R170, R274, R276, R375, R376, R387: VLD and VLDS read, for every selected lane, SIZE bytes at its address, and deliver them zero- or
sign-extended to the lane when the operation completes. Lane addresses are base plus index plus offset in units of SIZE, or base plus lane
times stride plus offset. By the time its arm's next word acts a lane delivers what it read or what stands there then, and where nothing has
changed what it read. That the lanes of a load may read anew until the arm's next word acts is the model's choice (log 2). VST and VSTS
store the low SIZE bytes of every selected lane at its address, in little-endian order, and change no other byte of memory or of a slate.
Where a lane's bytes meet no other selected lane's, they are what is stored. -/
def Obligations.VectorLoadsAndStores : Prop :=
  ((∀ (s : State) (m : VMem) (p : Nat → Machine.Place), Runs (vmemInfo m true) s →
     let n := msize m.size
     let at' := fun l => tgtOf m.sl (m.base.value s) ((m.idx.lane32 s l).toInt + m.off.toInt * n)
     let sel := s.selOf m.g
     Reach s sel (fun l => { acc := .read, tgt := at' l, n := n, nt := m.nt }) p →
     Issues (.vld m) s m.x (.load ((laneList sel).map fun l => ⟨p l, n, m.r, l, m.sx, s.readAt (p l) n⟩)) [] ((laneList sel).flatMap fun l => wbLane m.r l n (s.readAt (p l) n) m.sx)
       { slates := (placesOf sel p).any isSlate }) ∧
   (∀ (s : State) (m : VMemS) (p : Nat → Machine.Place), Runs (vmemSInfo m true) s →
     let n := msize m.size
     let at' := fun l : Nat => tgtOf m.sl (m.base.value s) ((l : Int) * (m.stride.value s).toInt + m.off.toInt * n)
     let sel := s.selOf m.g
     Reach s sel (fun l => { acc := .read, tgt := at' l, n := n, nt := m.nt }) p →
     Issues (.vlds m) s m.x (.load ((laneList sel).map fun l => ⟨p l, n, m.r, l, m.sx, s.readAt (p l) n⟩)) []
       ((laneList sel).flatMap fun l => wbLane m.r l n (s.readAt (p l) n) m.sx) { slates := (placesOf sel p).any isSlate }) ∧
   ∀ (s : State) (n : Nat) (l : List LaneRead),
     ((∀ y ∈ l, s.readAt y.place y.bytes = y.got) → s.settleLoad n l = []) ∧
     ∀ w ∈ s.settleLoad n l, ∃ y ∈ l, w ∈ wbLane y.dst y.lane y.bytes (s.readAt y.place y.bytes) y.signed) ∧
  (∀ (s : State) (i : Instr) (g : Guard) (x : Bool) (r : VReg) (size : MSize) (nt : Bool) (at' : Nat → Tgt)
     (p : Nat → Machine.Place),
     (∃ m : VMem, i = .vst m ∧ g = m.g ∧ x = m.x ∧ r = m.r ∧ size = m.size ∧ nt = m.nt ∧ Runs (vmemInfo m false) s ∧
       at' = fun l => tgtOf m.sl (m.base.value s) ((m.idx.lane32 s l).toInt + m.off.toInt * msize size)) ∨
     (∃ m : VMemS, i = .vsts m ∧ g = m.g ∧ x = m.x ∧ r = m.r ∧ size = m.size ∧ nt = m.nt ∧ Runs (vmemSInfo m false) s ∧
       at' = fun (l : Nat) => tgtOf m.sl (m.base.value s) (((l : Nat) : Int) * (m.stride.value s).toInt + m.off.toInt * msize size)) →
     let n := msize size
     let sel := s.selOf g
     let ps := placesOf sel p
     Reach s sel (fun l => { acc := .write, tgt := at' l, n := n, nt := nt }) p → (∀ l ∈ laneList sel, settled s (p l) = true) →
     unwatched s n ps →
     Issues i s x .plain [] []
       { bytes := inPlaces s n ps, own := inSlates n ps, slates := true, reservation := true, others := true } fun t =>
       ∀ l ∈ laneList sel, (∀ k ∈ laneList sel, k ≠ l → apart s n (p l) (p k)) →
         ∀ j, j < n → byteAt s t (p l) j = (laneBytes s r n l).getD j 0)

/-- R349, R274, R323, R353: SLD reads SIZE bytes at base plus offset and delivers them, zero- or sign-extended, to its scalar; SST stores the
low SIZE bytes of its source there and changes no other byte. LDSL moves every selected lane's SIZE bytes from its global address to the
slate address in its register, STSL the other way; every read comes before every write. -/
def Obligations.ScalarLoadsAndSlateCopies : Prop :=
  (∀ (s : State) (g : Guard) (x : Bool) (base : SBase) (off : BitVec 10) (size : MSize) (ord : MemOrd) (sco : Scope)
     (sl : Bool) (p : Machine.Place),
     let n := msize size
     let at' := tgtOf sl (base.value s) (off.toInt * n)
     (∀ (d : SReg) (sx : Bool), Runs { longInfo g x [] [] (d.val :: base.sregs) true with ctl := true, rel := relOf ord } s →
       ReachOne s { acc := .read, tgt := at', n := n } p →
       let v := s.readAt p n
       Issues (.sld g x d base off size ord sco sl sx) s x .plain []
         (if d.val = 0 then [] else [.s d.val (if sx then BitVec.ofInt 64 (signedOf (8 * n) v) else BitVec.ofNat 64 v)])
         { slates := isSlate p }) ∧
     (∀ a : SSrc, Runs { longInfo g x [] [] (a.sregs ++ base.sregs) false with ctl := true, rel := relOf ord } s →
       ReachOne s { acc := .write, tgt := at', n := n } p → settled s p = true → unwatched s n [p] →
       Issues (.sst g x a base off size ord sco sl) s x .plain [] []
         { bytes := inPlaces s n [p], own := inSlates n [p], slates := true, reservation := true, others := true } fun t =>
         ∀ j, j < n → byteAt s t p j = BitVec.ofNat 8 ((a.value s).toNat / 256 ^ j))) ∧
  (∀ (s : State) (m : SlMem) (out : Bool) (p q : Nat → Machine.Place), Runs (slmemInfo m (!out)) s →
     let n := msize m.size
     let sel := s.selOf m.g
     let glob := fun l => tgtOf false (m.base.value s) ((m.idx.lane32 s l).toInt + m.off.toInt * n)
     let slate := fun l => Tgt.slate (s.readV m.r.val l).toNat
     Reach2 s sel (fun l => { acc := .read, tgt := if out then slate l else glob l, n := n })
       (fun l => { acc := .write, tgt := if out then glob l else slate l, n := n }) p q →
     (∀ l ∈ laneList sel, settled s (q l) = true) → unwatched s n (placesOf sel q) →
     Issues (if out then .stsl m else .ldsl m) s m.x .plain [] []
       { bytes := inPlaces s n (placesOf sel q), own := inSlates n (placesOf sel q), slates := true, reservation := true
         others := true } fun t =>
       ∀ l ∈ laneList sel, (∀ k ∈ laneList sel, k ≠ l → apart s n (q l) (q k)) →
         ∀ j, j < n → byteAt s t (q l) j = BitVec.ofNat 8 (s.readAt (p l) n / 256 ^ j))

/-- R275–R279: ATOM and ACAS make one read-modify-write for every selected lane and return the old values to their result register at
completion. Here lanes whose bytes do not meet, in memory that no mapped slate of the team covers and no crib watches. -/
def Obligations.AtomicsReturnOldValues : Prop :=
  ∀ (s : State) (g : Guard) (x : Bool) (d : VReg) (base : SBase) (idx : VSrc) (off : BitVec 10) (ord : MemOrd) (sco : Scope)
    (sl : Bool) (pa va key : Nat → Nat),
    let sel := s.selOf g
    let ok := fun (n : Nat) =>
      Reach s sel (fun l =>
        { acc := .atomic, tgt := tgtOf sl (base.value s) ((idx.lane32 s l).toInt + off.toInt * n), n := n, atHome := true }) (fun l => .mem (pa l) (va l) (key l)) ∧
      (∀ l ∈ laneList sel, s.mappedAt (va l) n = none) ∧
      unwatched s n (placesOf sel fun l => .mem (pa l) (va l) (key l)) ∧
      (∀ l ∈ laneList sel, ∀ k ∈ laneList sel, l ≠ k → pa l + n ≤ pa k ∨ pa k + n ≤ pa l)
    let done := fun (i : Instr) (r : VReg) (n : Nat) (f : Nat → Nat → Option Nat) =>
      Issues i s x .plain [] ((laneList sel).flatMap fun l => wbLane r l n (s.mem.num (pa l) n) false)
        { bytes := inPlaces s n (placesOf sel fun l => .mem (pa l) (va l) (key l)), slates := true
          reservation := true, others := true } fun t =>
        ∀ l ∈ laneList sel, t.mem.num (pa l) n = ((f l (s.mem.num (pa l) n)).getD (s.mem.num (pa l) n)) % 256 ^ n
    (∀ ty op, Runs { longInfo g x (vdst d (atBytes ty == 8) ++ idx.vregs false) [] (base.sregs ++ idx.sregs) false with rel := relOf ord } s →
      ok (atBytes ty) → done (.atom g x d base idx off ty op ord sco sl) d (atBytes ty) fun l old =>
        some (atResult ty op old (if atBytes ty = 8 then (s.readPair d.val l).toNat else (s.readV d.val l).toNat))) ∧
    (∀ wide : Bool, d.val + (if wide then 4 else 2) ≤ 256 →
      Runs { longInfo g x (vrun d (if wide then 4 else 2) ++ idx.vregs false) [] (base.sregs ++ idx.sregs) false with
        rel := relOf ord } s →
      let n : Nat := if wide then 8 else 4
      let k := d.val + (if wide then 2 else 1)
      ok n → done (.acas g x d base idx off wide ord sco sl) (vplus d (if wide then 2 else 1)) n fun l old =>
        let cmp := if wide then (s.readPair d.val l).toNat else (s.readV d.val l).toNat
        let new := if wide then (s.readPair k l).toNat else (s.readV k l).toNat
        if old = cmp then some new else none)

/-- R322, R352, R175: LDR reads and makes the granules it read the arm's reservation. STC stores the selected lanes whose 64-byte granule is
reserved and which no lower selected lane names, gives those lanes 0 and the others 1, and clears the reservation. Here in memory that no
mapped slate of the team covers, and where nothing stored is watched by a crib. -/
def Obligations.ReservationsLoadAndStore : Prop :=
  ∀ (s : State) (m : ResMem) (pa va key : Nat → Nat),
    let n : Nat := if m.wide then 8 else 4
    let sel := s.selOf m.g
    let at' := fun l => tgtOf false (m.base.value s) ((m.idx.lane32 s l).toInt + m.off.toInt * n)
    let p := fun l : Nat => Machine.Place.mem (pa l) (va l) (key l)
    (∀ l ∈ laneList sel, s.mappedAt (va l) n = none) →
    (Runs (resInfo m false) s →
      Reach s sel (fun l => { acc := .read, tgt := at' l, n := n, perm := .atomic, atHome := true }) p →
      Issues (.ldr m) s m.x .plain [] ((laneList sel).flatMap fun l => wbLane m.r l n (s.mem.num (pa l) n) false)
        { reservation := true } fun t =>
        ∀ k, k ∈ t.arm.resv ↔ ∃ l ∈ laneList sel, k = pa l / 64) ∧
    (Runs (resInfo m true) s →
      Reach s sel (fun l => { acc := .write, tgt := at' l, n := n, perm := .atomic, atHome := true }) p →
      let good := fun l : Nat => decide (pa l / 64 ∈ s.arm.resv) && !(laneList sel).any fun k => decide (k < l ∧ pa k / 64 = pa l / 64)
      unwatched s n (((laneList sel).filter good).map p) →
      Issues (.stc m) s m.x .plain [] ((laneList sel).flatMap fun l =>
          .v m.r.val l (if good l then 0 else 1) :: (if m.wide then [.v (m.r.val + 1) l 0] else []))
        { bytes := inPlaces s n (((laneList sel).filter good).map p), reservation := true, special := true, slates := true
          others := true } fun t =>
        t.arm.resv = [] ∧ t.grp.tr.resv = false ∧
        ∀ l ∈ laneList sel, good l = true → ∀ j, j < n → t.mem.byte (pa l + j) = (laneBytes s m.r n l).getD j 0)

/-- R311, R294, R354: FENCE has no effect but its count, in a machine that performs every access but an MSTZ's as it issues (logs 2, 79); behind
an MSTZ of its arm a release stays outstanding, and holds back what follows it. The prefetches of CMAINT bring lines to caches, which hold
no bytes of their own (log 91), and change nothing else; its other forms change no byte and no register. TLBINV by the partition manager, on
whole pages of an existing partition, issues a shoot-down of the range, of every address where the length is 0; by another partition it
raises ILLEGAL_OP. -/
def Obligations.FencesMaintenanceAndShootDown : Prop :=
  ((∀ (s : State) (g : Guard) (x : Bool) (ord : MemOrd) (sco : Scope),
     Runs { longInfo g x [] [] [] true with ctl := true } s →
     (relOf ord = false ∨ s.grp.stzOps s.who = [] → Issues (.fence g x ord sco) s x .plain [] [] {}) ∧
     (relOf ord = true → s.grp.stzOps s.who ≠ [] → Issues (.fence g x ord sco) s x (.fence (ord != .rel)) [] [] {} fun t =>
       (∃ y ∈ s.grp.stzOps s.who, y.1 < s.cnt.op) → (ord ≠ .rel → ∀ p q, q.late = false → t.stzHolds [(p, q)] = true) ∧
         ∀ p q, q.late = false → q.acc ≠ .read → t.stzHolds [(p, q)] = true)) ∧
   (∀ (s : State) (g : Guard) (x : Bool) (op : CmOp) (rel : Bool) (sco : Scope) (base : SBase) (idx : VSrc) (off : BitVec 10)
     (p : Nat → Machine.Place),
     Runs { longInfo g x (idx.vregs false) [] (base.sregs ++ idx.sregs) false with rel := rel } s →
     (op = .pfl1 ∨ op = .pfl2 → Issues (.cmaint g x op rel sco base idx off) s x .plain [] [] {}) ∧
     (Reach s (s.selOf g) (fun l =>
         { acc := .read, tgt := tgtOf false (base.value s) ((idx.lane32 s l).toInt + off.toInt), n := 1, atHome := true
           consume := false }) p →
       Issues (.cmaint g x op rel sco base idx off) s x .plain [] [] { slates := true }))) ∧
  (∀ (s : State) (g : Guard) (x : Bool) (va len part : SSrc),
     Runs { longInfo g x [] [] (va.sregs ++ len.sregs ++ part.sregs) false with ctl := true, rep := false } s →
     let a := (va.value s).toNat
     let n := (len.value s).toNat
     let p := (part.value s).toNat
     ((s.par s.grp.part).manager = false →
       exec (.tlbinv g x va len part) s = .next (s.raise s.arm.pc s.arm.cl ⟨.illegalOp, s.selOf g, 0⟩)) ∧
     ((s.par s.grp.part).manager = true → p < 16 → (s.parts.look p).isSome = true → a + n ≤ 2 ^ 71 →
       (a % 8192 ≠ 0 ∨ n % 8192 ≠ 0 → exec (.tlbinv g x va len part) s = .next (s.raise s.arm.pc s.arm.cl
         ⟨.misalign, s.selOf g, BitVec.ofNat 64 (a % 2 ^ 72 / 1024)⟩)) ∧
       (a % 8192 = 0 → n % 8192 = 0 → Issues (.tlbinv g x va len part) s x
         (if n = 0 then .shoot p 0 (2 ^ 71) else .shoot p a (a + n)) [] [] {})))

/-! ## Slates and cribs (R106–R114, R122–R129, R300–R305, R344–R348) -/

/-- R108, R344, R345, R346, R347, R348, R107: SLALLOC makes a slate in the lowest run of free leaves of the team's space, with every sector GOOD
and stamped now, and gives its address. A byte of memory changes only where a scratch leaf of a saved team is evicted to its save area for
it. With no descriptor, run, leaf or save area left it raises SLATE_FULL and allocates nothing. SLFREE closes the slate at once, so that no
access resolves to it, and frees it at completion; SLRENEW stamps the GOOD sectors of resident leaves in its range and no other sector;
SLQRY gives a word of the descriptor or of the crib's entry. That only resident leaves are stamped is deduced (log 54). That SLFREE, SLRENEW
and SLQRY take their slate operand modulo 2^32 is deduced (log 51). Fields of a descriptor as SLQRY gives them: KIND, WARM, DROPPED, SLOT,
BASE, LEAVES, CRIB, LIFE, MAPVA. EXPIRY of a slate without a leaf that expires is the model's choice (log 87). -/
def Obligations.SlateWords : Prop :=
  (∀ (s : State) (g : Guard) (d : SReg) (ns lx : SSrc) (part : Bool) (kind : SlKind),
     Runs { g := g, ss := d.val :: (ns.sregs ++ lx.sregs), rep := false } s →
     let n := (ns.value s).toNat
     let x := (lx.value s).toNat
     let core := if part then partnerOf s.core else s.core
     let i := Instr.slalloc g d ns lx part kind
     1 ≤ n → n ≤ 2048 → (kind ≠ .mapped → 1 ≤ x ∧ x ≤ 64) →
     (part = true → ∃ t, s.teams.look s.grp.team = some t ∧ t.pair = true) →
     (kind = .mapped → x % 128 = 0 ∧ x + 2048 * n ≤ 2 ^ 71 ∧ s.overlapped s.grp.team x n = none) →
     (∀ s' base id, s.slateFull core n kind = (0, some s') → s.freeRun core s.grp.team n = some base →
       (s.coreAt core).descs.fresh 256 = some id →
       ∃ t, exec i s = .next t ∧ NextWord s t ∧
         t.readS d.val = (if d.val = 0 then 0 else BitVec.ofNat 64 (base * 2048 + if core = s.core then 0 else 2 ^ 23)) ∧
         (∃ y, t.desc? core id = some y ∧ y.kind = kind ∧ y.team = s.grp.team ∧ y.base = base ∧ y.leaves = n ∧ y.crib = none ∧
           y.life = (if kind = .mapped then 0 else x) ∧ y.mapva = (if kind = .mapped then x else 0) ∧
           ∀ k, (y.sec k).st = .good ∧ (y.sec k).stamp = (if kind = .mapped then 0 else s.rclk core)) ∧
         Frame { scalars := [d.val], slates := true, units := kind == .scratch
                 bytes := fun a => s'.mem.byte a != s.mem.byte a
                 own := fun c k _ => match s.desc? c k with | some y => y.kind == .derived | none => false } s t) ∧
     (∀ why u, s.slateFull core n kind = (why, u) → why ≠ 0 →
       exec i s = .next (s.raise s.arm.pc s.arm.cl ⟨.slateFull, s.selOf g, BitVec.ofNat 64 why⟩))) ∧
  (∀ (s : State) (g : Guard) (a : SSrc) (y : SlAddr) (d : Desc),
     let ad := (a.value s).toNat % 2 ^ 32
     s.slateAt ad = some (y, d) → Tbl.rising (s.coreAt y.core).descs = true →
     (∀ x : Bool, Runs { longInfo g x [] [] a.sregs false with ctl := true, rel := true, rep := false } s → y.ofs = 0 → s.pins y.core y.id = 0 →
       s.replaying y.core d = false →
       Issues (.slfree g x a) s x (.free y.core y.id) [] [] { slates := true } fun t =>
         t.desc? y.core y.id = some { d with closed := true } ∧ ∀ n, t.resolve s.core s.grp.team ad n = none) ∧
     (∀ (x : Bool) (len : SSrc), Runs { longInfo g x [] [] (a.sregs ++ len.sregs) false with ctl := true } s →
       let n := if (len.value s).toNat = 0 then d.leaves * 2048 - y.ofs else (len.value s).toNat
       ad % 128 = 0 → (len.value s).toNat % 128 = 0 → y.ofs + n ≤ d.leaves * 2048 → d.kind ≠ .mapped → d.dropped = false →
       Issues (.slrenew g x a len) s x .plain [] [] { slates := true } fun t =>
         ∃ e, t.desc? y.core y.id = some e ∧ ∀ i, e.sec i =
           if y.ofs / 128 ≤ i ∧ i < y.ofs / 128 + n / 128 ∧ (d.leafs.look (i / 16)).isSome = true ∧ (d.sec i).st = .good
           then { d.sec i with stamp := s.rclk y.core } else d.sec i) ∧
     (∀ (r : SReg) (k : Fin 4) (crib : Bool), Runs { g := g, ss := r.val :: a.sregs } s →
       WritesScalar (.slqry g r a k crib) s r (BitVec.ofNat 64 (bits
         (if crib then (match d.crib.bind (s.crib? y.core) with | some q => q.word | none => 0) else s.descWord y.core y.id d)
         (64 * k.val) 64)))) ∧
  (∀ (s : State) (core id : Nat) (d : Desc),
     d.base < 2 ^ 16 → d.leaves < 2 ^ 16 → d.life < 2 ^ 32 → d.mapva < 2 ^ 72 → (∀ k, d.crib = some k → k < 256) →
     let w := s.descWord core id d
     bits w 0 2 = (match d.kind with | .scratch => 1 | .mapped => 2 | .derived => 3) ∧
     bitB w 2 = d.warm ∧ bitB w 3 = d.dropped ∧ bits w 16 16 = d.base ∧ bits w 32 16 = d.leaves ∧
     (match d.crib with | some k => bits w 48 8 = k ∧ bitB w 56 = true | none => bitB w 56 = false) ∧
     bits w 96 32 = d.life ∧ bits w 128 72 = d.mapva)

/-- R122–R125, R300–R302, R129, R303–R305: CRIB records the lesson, coordinate, argument, sources and the lines of mapped sources; its slate's
descriptor names it. Here no MSTZ has still to write its slate or a source. The order of the checks is deduced (log 55), and when the
watches are registered is the model's choice (log 88). That CRIB takes its slate operands modulo 2^32 is deduced (log 51). CRTOUCH of a tile
that is present is counted as a touch; of a missing one it parks on its crib, and every crib of the chain of the miss is REPLAYING. CRDROP
retires the crib of a slate that no crib pins. Other slates and operands that name none raise SLATE_RANGE. That CRTOUCH and CRDROP take
their slate operand modulo 2^32 is deduced (log 51). -/
def Obligations.CribWords : Prop :=
  (∀ (s : State) (g : Guard) (x : Bool) (t cr arg : SSrc) (src : Option SReg) (nsrc : Fin 5) (warm : Bool)
     (ta : SlAddr) (td : Desc) (l : List (SlAddr × Desc)) (id : Nat),
     let k := match src with | some r => r.val | none => 0
     let regs := (List.range ((nsrc.val + 1) / 2)).map (k + ·)
     let w := (t.value s).toNat
     let chks := s.watchChks [] l
     let reached := fun line => ∃ pa va key, Chk.ok (.mem pa va key) ∈ chks ∧ line = pa / 128
     Runs { longInfo g x [] [] (t.sregs ++ cr.sregs ++ arg.sregs ++ regs) false with ctl := true, rel := true, rep := false } s →
     w < 2 ^ 44 → (∀ r ∈ regs, r ≤ 127) → s.slateAt (w % 2 ^ 32) = some (ta, td) → td.kind = .derived → td.crib = none →
     td.dropped = false → s.sources ta (s.sourceAddrs k nsrc.val) = .ok l → s.lessonOk s.grp.part (bits w 32 12) = true →
     (∀ q ∈ chks, ∃ p, q = .ok p) → (s.coreAt ta.core).cribs.fresh 256 = some id →
     s.stzInto ((ta.core, ta.id) :: l.map fun z => (z.1.core, z.1.id)) = false →
     (∀ lines : List Nat, (∀ ln ∈ lines, reached ln) → s.watchRoom lines = true) →
     Issues (.crib g x t cr arg src nsrc warm) s x .plain [] [] { slates := true } fun u =>
       (∃ y, u.crib? ta.core id = some y ∧ y.lesson = bits w 32 12 ∧ y.st = .live ∧ y.slate = ta.id ∧ y.team = s.grp.team ∧
         y.coord.toNat = (cr.value s).toNat % 2 ^ 48 ∧ y.arg = arg.value s ∧ y.replays = 0 ∧
         y.srcs = (l.map fun z => (z.1.id, z.1.core != ta.core)) ∧ ∀ line, line ∈ y.watch.map (·.1) ↔ reached line) ∧
       u.desc? ta.core ta.id = some { td with crib := some id, warm := warm }) ∧
  (∀ (s : State) (g : Guard) (a : SSrc),
     let ad := (a.value s).toNat % 2 ^ 32
     let range := s.raise s.arm.pc s.arm.cl ⟨.slateRange, s.selOf g, BitVec.ofNat 64 ad⟩
     (∀ (x : Bool) (d : SReg) (renew warm cold : Bool), Runs { longInfo g x [] [] (d.val :: a.sregs) false with ctl := true } s →
       (s.slateAt ad = none → exec (.crtouch g x a d renew warm cold) s = .next range) ∧
       ∀ y e, s.slateAt ad = some (y, e) →
         (e.kind ≠ .derived → exec (.crtouch g x a d renew warm cold) s = .next range) ∧
         (e.kind = .derived → e.crib.isSome = true ∨ e.dropped = false → s.misses y e = false →
           Issues (.crtouch g x a d renew warm cold) s x (.touch y.core y.id d.val renew warm cold false) [] [.s d.val 0]
             { slates := true }) ∧
         ∀ k all, e.kind = .derived → e.crib = some k → s.desc? y.core y.id = some e → s.misses y e = true →
           s.missWalk [(y.core, y.id)] s.missDepth = ([], all) → ∃ t, exec (.crtouch g x a d renew warm cold) s = .next t ∧
             t.arm.pc = s.arm.pc ∧ (∃ p, t.arm.park = some p ∧ p.causes = [.crib y.core k]) ∧
             ∀ m ∈ all, ∀ z, t.crib? m.1 m.2.1 = some z → z.st = .replaying) ∧
     (Runs { g := g, ss := a.sregs, rep := false } s →
       (s.slateAt ad = none → exec (.crdrop g a) s = .next range) ∧
       ∀ y e, s.slateAt ad = some (y, e) →
         (e.kind ≠ .derived → exec (.crdrop g a) s = .next range) ∧
         (e.kind = .derived → e.crib = none → GoesOn (.crdrop g a) s) ∧
         ∀ k q, e.kind = .derived → e.crib = some k → s.crib? y.core k = some q → q.slate = y.id → q.st ≠ .replaying →
           (0 < s.pins y.core y.id → exec (.crdrop g a) s = .next (s.raise s.arm.pc s.arm.cl
             ⟨.pinViolation, s.selOf g, BitVec.ofNat 64 (y.id + if y.core = s.core then 0 else 2 ^ 23)⟩)) ∧
           (s.pins y.core y.id = 0 → ∃ t, exec (.crdrop g a) s = .next t ∧ t.crib? y.core k = none ∧ NextWord s t ∧
             (∃ f, t.desc? y.core y.id = some f ∧ f.crib = none) ∧ Frame { slates := true } s t)))

/-! ## The matrix engine, formats and block conversions (R84–R102, R140–R149, R308–R312, R316–R318, R326–R332) -/

/-- R140, R142, R143, R148, R149, R326, R328, R329: A collective word that selects every lane of the width, with fewer than four collective
operations on its core, enters the wait for its version with its operands as they stand at issue: MZERO, MLDZ and MSTZ at once, MMA with a
hall pass. MVER reads the version. MLDZ and MMA here with no MSTZ of their arm outstanding. That MLDZ, MSTZ and MMA take slate operands
modulo 2^32 is deduced (log 51). A collective word that selects some lanes of the width, but not all, raises ILL_CONVERGENCE with the lanes
it does not select. -/
def Obligations.CollectivesEnterTheirWait : Prop :=
  (∀ (s : State) (g : Guard) (x : Bool) (z : Sys2Proof.Acc) (ver : SSrc),
     let v := (ver.value s).toNat % 2 ^ 16
     let fit := fun (l : List Chk) => ∀ k ∈ l, ∃ p, k = .ok p
     let ready := s.selOf g = lanesBelow s.grp.shape.width ∧ s.collOps s.core < 4
     (∀ d : SReg, Runs { g := g, ss := [d.val], z := some z.val } s →
       WritesScalar (.mver g d z) s d (BitVec.ofNat 64 (s.grp.regs.ver z.val))) ∧
     (Runs (collInfo g x z ver.sregs) s → ready →
       Issues (.mzero g x z ver) s x (.coll z.val v .mzero false none false) [] [] {}) ∧
     (∀ a : SSrc, Runs (collInfo g x z (ver.sregs ++ a.sregs)) s → ready →
       let ta := (a.value s).toNat % 2 ^ 32
       ta % 128 = 0 → fit (s.rangeChks .read [] ta 16384) → s.grp.stzOps s.who = [] →
       Issues (.mldz g x z ver a) s x (.coll z.val v (.mldz (s.operandAt ta 16384)) false none true) [] [] { slates := true }) ∧
     (∀ (a rng : SSrc) (form : StzForm) (slot : Slot) (r : Rnd) (f : Fmt) (y : SlAddr),
       Runs (collInfo g x z (ver.sregs ++ a.sregs ++ rng.sregs)) s → ready →
       let w := (rng.value s).toNat
       let ta := (a.value s).toNat % 2 ^ 32
       let n := (stzSize form (w / 64 % 128) f).1
       w < 2 ^ 13 → stzRange form (w % 64) (w / 64 % 128) = true → s.slotUse (allLanes g s) slot.val 4 = .ok f →
       (form = .packed ∨ f.planes ≠ 0) → ta % (stzSize form (w / 64 % 128) f).2 = 0 → fit (s.rangeChks .write [] ta n) →
       s.resolve s.core s.grp.team ta n = some y →
       Issues (.mstz g x z ver a rng form slot r) s x
         (.coll z.val v (.mstz y.core y.id y.ofs n (w % 64) (w / 64 % 128) form slot.val r s.grp.gen) false none false)
         [slot.val] [] { slates := true } fun t =>
         t.grp.gen = if r.mode = .sr then (srDraws s.grp.gen (stzCount form (w / 64 % 128))).2 else s.grp.gen) ∧
     (∀ (a b sc : SSrc) (fa fb : Slot) (f h : Fmt), Runs (collInfo g x z (ver.sregs ++ a.sregs ++ b.sregs ++ sc.sregs)) s →
       ready →
       let d := (sc.value s).toNat
       let keep := if d / 2 ^ 32 % 16 = 0 then f.planes else d / 2 ^ 32 % 16
       let mode : SMode := match d / 2 ^ 36 % 4 with | 1 => .e5m3 | 2 => .e8m0 | _ => .none
       let ta := (a.value s).toNat % 2 ^ 32
       let tb := (b.value s).toNat % 2 ^ 32
       let ts := d % 2 ^ 32
       d < 2 ^ 38 → d / 2 ^ 36 % 4 ≠ 3 → s.grp.stzOps s.who = [] → s.slotFmt (allLanes g s) fa.val = .ok f → s.slotFmt (allLanes g s) fb.val = .ok h →
       bitB f.uses 0 = true → bitB h.uses 1 = true → 0 < h.planes → d / 2 ^ 32 % 16 < f.planes →
       s.askPass.grp.passReady = true → ta % 256 = 0 → tb % 256 = 0 → (mode ≠ .none → ts % 128 = 0) →
       fit (s.rangeChks .read [] ta (tileBytes f.planes)) → fit (s.rangeChks .read [] tb (tileBytes h.planes)) →
       (mode ≠ .none → fit (s.rangeChks .read [] ts 128)) →
       Issues (.mma g x z ver a b sc fa fb) s x (.coll z.val v (.mma (s.operandAt ta (tileBytes f.planes))
           (s.operandAt tb (tileBytes h.planes)) (if mode = .none then ⟨0, 0, 0, []⟩ else s.operandAt ts 128) f.planes keep
           h.planes mode) true none true) [fa.val, fb.val] []
         { slates := true, others := true, units := true } fun t => t.grp.passes = s.grp.passes + 1) ∧
     (∀ (addr n : Nat) (y : SlAddr), s.resolve s.core s.grp.team (addr % 2 ^ 32) n = some y →
       (s.operandAt addr n).bytes = s.slBytes y.core y.id y.ofs n)) ∧
  (∀ (s : State) (i : Instr) (g : Guard) (x : Bool) (z : Sys2Proof.Acc) (ver : SSrc),
     (Runs (collInfo g x z ver.sregs) s ∧ i = .mzero g x z ver) ∨
     (∃ a, Runs (collInfo g x z (ver.sregs ++ a.sregs)) s ∧ i = .mldz g x z ver a) ∨
     (∃ a rng form slot r, Runs (collInfo g x z (ver.sregs ++ a.sregs ++ rng.sregs)) s ∧ i = .mstz g x z ver a rng form slot r) ∨
     (∃ a b sc fa fb, Runs (collInfo g x z (ver.sregs ++ a.sregs ++ b.sregs ++ sc.sregs)) s ∧
       i = .mma g x z ver a b sc fa fb) →
     s.selOf g ≠ lanesBelow s.grp.shape.width →
     exec i s = .next (s.raise s.arm.pc s.arm.cl
       ⟨.illConvergence, lanesBelow s.grp.shape.width &&& ~~~(s.selOf g), 0⟩))

/-- R145, R329, R87: What a collective operation leaves once its version is ready: MZERO zeros, MLDZ the words read, MMA in each element the
FP32 sum of what it held and of the products of row and column; the version goes up by one modulo 2^16. MSTZ, here into a slate that is not
mapped, leaves accumulators and versions alone. -/
def Obligations.CollectiveResults : Prop :=
  ∀ (s : State) (z ver : Nat) (i : Nat), z < 8 → i < 4096 → ver < 2 ^ 16 →
    let old := s.readZ z i
    (∀ op r snap, collResult s.grp.regs z op = some r →
      let t := s.runColl z ver op snap
      t.grp.regs.ver z = (ver + 1) % 2 ^ 16 ∧
      (op = .mzero → t.readZ z i = 0) ∧
      (∀ l, op = .mldz l → t.readZ z i = BitVec.ofNat 32 (fieldAt l.bytes (4 * i) 4)) ∧
      (∀ a b sc pa keep pb mode, op = .mma a b sc pa keep pb mode → t.readZ z i = mmaElem
        ((List.range 2048).map (tileElem a.bytes pa keep)) ((List.range 2048).map (tileElem b.bytes pb pb))
        (mmaScale sc mode 0) (mmaScale sc mode 64) old (i / 64) (i % 64)) ∧
      (∀ y, y ≠ z → ∀ j, j < 4096 → t.readZ y j = s.readZ y j) ∧ t.grp.regs.v = s.grp.regs.v ∧ t.mem = s.mem) ∧
    (∀ core id ofs n first count form slot r gen snap, (∀ d, s.desc? core id = some d → d.kind ≠ .mapped) →
      let t := s.runColl z ver (.mstz core id ofs n first count form slot r gen) snap
      t.grp.regs.z = s.grp.regs.z ∧ t.grp.regs.zver = s.grp.regs.zver)

/-- R88, R90, R331, R332, R89, R308, R309: QNT whose slot may quantize and whose slate bytes can all be reached completes: it is counted with
the marks of its blocks, and changes no register and no byte but those of its code runs and its scale codes. Where no two of those bytes are
one, each lane's scale code and element codes are its block's. Here no mark of its blocks traps, the slates need no leaf, no crib watches
them, and no MSTZ of the group is outstanding. DQNT whose slot may quantize and whose slate bytes can all be reached completes: it delivers,
for each selected lane, the product of element, block scale and tensor scale, rounded to FP32, and changes no byte. Here no MSTZ of the arm
is outstanding. -/
def Obligations.BlockConversionsComplete : Prop :=
  (∀ (s : State) (g : Guard) (x : Bool) (src dst sc t : SSrc) (mode : SMode) (slot : Slot) (r : Rnd) (f : Fmt),
     Runs (longInfo g x [] [] (src.sregs ++ dst.sregs ++ sc.sregs ++ t.sregs) false) s →
     let p0 := (src.value s).toNat
     let p1 := (dst.value s).toNat
     let p2 := (sc.value s).toNat
     let a1 := p1 % 2 ^ 32
     let e0 := p1 / 2 ^ 32
     let len := match mode with | .none => 1 | .e5m3 => 128 | .e8m0 => 32
     let sel := laneList (s.selOf g)
     let run := fun l => runBytes f.width (e0 + len * l) len
     let chks := sel.flatMap fun l => s.rangeChks .read [] (p0 + 4 * len * l) (4 * len) ++
       s.rangeChks .write [] (a1 + (run l).1) ((run l).2 - (run l).1) ++ s.rangeChks .write [] (p2 + l) 1
     let codeAddrs := sel.flatMap fun l => (List.range ((run l).2 - (run l).1)).map fun k => a1 + (run l).1 + k
     let scaleAddrs := sel.map fun l => p2 + l
     let ps := (codeAddrs ++ scaleAddrs).filterMap s.slatePlace
     let draws := if r.mode = .sr then (srDraws s.grp.gen (len * s.grp.shape.width)).1 else []
     let block := fun l => quantBlock f mode r (t.scaleT s) (fun k => draws.getD (len * l + k) 0)
       ((List.range len).map fun k => fp32.decode (fieldAt (s.slateBytes (p0 + 4 * len * l) (4 * len)) (4 * k) 4))
     let marked := fun m => sel.filter fun l => (block l).2.2 == m
     p0 < 2 ^ 32 → p1 < 2 ^ 48 → p2 < 2 ^ 32 → s.slotUse (allLanes g s) slot.val 3 = .ok f → p0 % 128 = 0 → a1 % 128 = 0 →
     s.grp.stzAll = [] → (∀ k ∈ chks, ∃ y, k = .ok (.slate y)) → (∀ p ∈ ps, settled s p = true) → unwatched s 1 ps →
     (s.grp.qstat.getLsbD 8 = true → marked .lo = []) → (s.grp.qstat.getLsbD 9 = true → marked .hi = []) →
     Issues (.qnt g x src dst sc t mode slot r) s x
       (.quant (!(marked .lo).isEmpty) (!(marked .hi).isEmpty) (!(marked .nan).isEmpty) ((marked .lo).length + (marked .hi).length))
       [slot.val] []
       { bytes := inPlaces s 1 ps, own := inSlates 1 ps, slates := true, reservation := true, others := true } fun u =>
       ps.Pairwise (apart s 1) → 1 ≤ f.width →
         (∀ l ∈ sel, ∀ p, s.slatePlace (p2 + l) = some p → byteAt s u p 0 = BitVec.ofNat 8 (block l).2.1) ∧
         ∀ l ∈ sel, ∀ k, k < len → u.elemCode a1 f.width (e0 + len * l + k) = (block l).1.getD k 0 % 2 ^ f.width) ∧
  (∀ (s : State) (g : Guard) (x : Bool) (d : VReg) (src sc t : SSrc) (mode : SMode) (slot : Slot) (r : Rnd) (f : Fmt),
     Runs (longInfo g x [] [d.val] (src.sregs ++ sc.sregs ++ t.sregs) false) s →
     let p1 := (src.value s).toNat
     let p2 := if mode = .none then 0 else (sc.value s).toNat
     let a1 := p1 % 2 ^ 32
     let e0 := p1 / 2 ^ 32
     let len := match mode with | .none => 1 | .e5m3 => 128 | .e8m0 => 32
     let sel := laneList (s.selOf g)
     let chks := sel.flatMap fun l =>
       s.rangeChks .read [] (a1 + elemBit f.width (e0 + l) / 8) ((elemBit f.width (e0 + l) % 8 + f.width + 7) / 8) ++
         if mode = .none then [] else s.rangeChks .read [] (p2 + (e0 + l) / len) 1
     p1 < 2 ^ 48 → p2 < 2 ^ 32 → s.slotUse (allLanes g s) slot.val 3 = .ok f → a1 % 128 = 0 → s.grp.stzOps s.who = [] →
     (∀ k ∈ chks, ∃ y, k = .ok (.slate y)) →
     Issues (.dqnt g x d src sc t mode slot r) s x .plain [slot.val] (sel.map fun l =>
       let scale := if mode = .none then .num false 1 0
         else scaleDecode mode (ofBytes (s.slateBytes (p2 + (e0 + l) / len) 1))
       .v d.val l (BitVec.ofNat 32 (dquant mode r ((s.drawLanes r.mode).1 l) (f.decode (s.elemCode a1 f.width (e0 + l))) scale
         (t.scaleT s)))) { slates := true })

/-- R96, R100, R312, R316–R318: FSWAP starts a step on each selected die of the partition, and with no lane selected writes FFFF; FFENCE goes on
once no slot of the partition on the die is in TRANSITION and waits before; FQRY reads a slot's status word or a word of its measurement. -/
def Obligations.FormatSlotWords : Prop :=
  (∀ (s : State) (g : Guard) (x : Bool) (d : SReg) (form : SwapForm) (dies : SSrc) (slot : Slot),
    let ops := match form with | .expert r => r.sregs | .basic k => k.sregs | .unbind => []
    let arg := match form with | .expert r => (r.value s).toNat | .basic k => (k.value s).toNat | .unbind => 0
    Runs { longInfo g x [] [] (d.val :: (ops ++ dies.sregs)) false with lanewise := true, rep := false } s →
    let named := fun k => if (dies.value s).toNat = 0 then decide (k = s.core / 48) else (dies.value s).toNat.testBit k
    (s.executes g (s.selOf g) = false → Issues (.fswap g x d form dies slot) s x .plain [] [.s d.val 0xFFFF] {}) ∧
    (s.executes g (s.selOf g) = true → (dies.value s).toNat < 16 → (∀ k, form = .basic k → 1 ≤ arg ∧ arg ≤ 6) → Issues (.fswap g x d form dies slot) s x (.fswap s.cnt.swap) [] [.s d.val 0] { units := true } fun t =>
      ∃ y, t.swaps.look s.cnt.swap = some y ∧ y.slot = slot.val ∧ y.part = s.grp.part ∧ y.arg = arg ∧ y.key = s.grp.key ∧
        ∀ k, k < 4 → y.dies.look k =
          if named k then some (if partHasDie (s.par s.grp.part) k then .verify else .done 0xE) else none)) ∧
  (∀ (s : State) (g : Guard), Runs { g := g } s →
    let busy := ∃ k, 8 ≤ k ∧ k < 16 ∧ (s.slotOf s.grp.part (s.core / 48) k).st = .transition
    (busy → exec (.ffence g) s = .next s) ∧ (¬busy → GoesOn (.ffence g) s)) ∧
  (∀ (s : State) (g : Guard) (d : SReg) (word : Fin 5) (slot : Slot), Runs { g := g, ss := [d.val] } s →
    WritesScalar (.fqry g d word slot) s d
      (BitVec.ofNat 64 (if word.val = 0 then s.slotWord slot.val else s.slotMeas slot.val (word.val - 1))))

/-! ## Engines, barriers, graphs, rings and queues (R44–R46, R53, R121, R153–R162, R186–R197, R283–R290, R297–R299, R306–R307, R319–R320, R333–R336, R356–R357) -/

/-- R298, R320, R161, R289, R290: CPY and GATH with a sound record, an aligned slate address that resolves, and a free command record are
accepted; with no lane selected they write TIME and complete empty. Which IOD engine accepts is the model's choice (log 80). That CPY takes
its slate operand modulo 2^32 is deduced (log 51). BSEAL adds the open set to its batch and empties the open set; BWAIT gives 1 or goes on
when its batch is empty, and gives 0 or waits before. A batch of 16 or more raises ILLEGAL_OP. -/
def Obligations.EngineRequestsAndBatches : Prop :=
  ((∀ (s : State) (g : Guard) (x : Bool) (d : SReg) (rec org sl : SSrc),
     let i := Instr.cpy g x d rec org sl
     Runs { longInfo g x [] [] (d.val :: (rec.sregs ++ org.sregs ++ sl.sregs)) false with lanewise := true } s →
     (s.selOf g = 0 → Issues i s x .plain [] [] { scalars := [d.val] } fun t =>
       t.readS d.val = if d.val = 0 then 0 else BitVec.ofNat 64 s.pm.time) ∧
     (s.selOf g ≠ 0 → ∀ bs s' f n p,
       let a := (sl.value s).toNat % 2 ^ 32
       let sh := ShapeRec.of bs
       let c := allLanes g s
       let r := CmdRec.fresh bs (org.value s) a false
       let span := r.job.slateSpan f.planes
       s.readShape c (rec.value s).toNat = .ok (bs, s') → shapeChecks c bs (org.value s) false = .ok () →
       s.shapeSlot c sh = .ok f → a % (if sh.mode = 0 then 128 else 256) = 0 → s.grp.eng.recs.fresh 32 = some n →
       (sh.outward = true → s.grp.replayId = none) →
       s'.sideChk a span.1 (span.2 - span.1) (!sh.outward) = .ok p →
       Issues i s x (.engine n) (if sh.mode = 0 then [] else [sh.slot]) []
         { scalars := [d.val], slates := true, units := true } fun t =>
         ∃ y, t.grp.eng.recs.look n = some y ∧ y.shape = bs ∧ y.origin = org.value s ∧ y.gather = false ∧ y.st = 1 ∧
           (sh.outward = true → t.grp.rg.inside = false) ∧
           t.readS d.val = (if d.val = 0 then 0 else BitVec.ofNat 64 y.promise))) ∧
   (∀ (s : State) (g : Guard) (x : Bool) (d : SReg) (rec : SSrc) (op : SReg) (idx : GathIdx),
     let i := Instr.gath g x d rec op idx
     let vs := match idx with | .vec v => [v.val] | .slate _ => []
     let is := match idx with | .vec _ => [] | .slate p => p.sregs
     let sw := vs.isEmpty
     Runs { longInfo g x vs [] ([d.val, op.val, op.val + 1] ++ rec.sregs ++ is) false with
       lanewise := true } s →
     let runs := s.selOf g ≠ 0 ∨ (sw = true ∧ s.executes g 0 = true)
     (¬runs → Issues i s x .plain [] [] { scalars := [d.val] } fun t =>
       t.readS d.val = if d.val = 0 then 0 else BitVec.ofNat 64 s.pm.time) ∧
     (runs → ∀ bs s' n p,
       let p2 := (s.readS (op.val + 1)).toNat
       let ix := match idx with | .vec _ => 0 | .slate q => (q.value s).toNat
       let org := s.readS op.val
       let c := allLanes g s
       let span := (s.gathIndices c idx (CmdRec.fresh bs org p2 true)).job.slateSpan 0
       p2 < 2 ^ 32 → ix < 2 ^ 44 → s.readShape c (rec.value s).toNat = .ok (bs, s') → shapeChecks c bs org true = .ok () →
       p2 % 128 = 0 → ix % 4 = 0 → s.grp.eng.recs.fresh 32 = some n →
       s'.sideChk p2 span.1 (span.2 - span.1) true = .ok p →
       (sw = true → ∃ q, s'.sideChk (ix % 2 ^ 32) 0 (4 * (ix / 2 ^ 32 + 1)) false = .ok q) →
       Issues i s x (.engine n) [] [] { scalars := [d.val], slates := true, units := true } fun t =>
         ∃ y, t.grp.eng.recs.look n = some y ∧ y.shape = bs ∧ y.origin = org ∧ y.gather = true ∧ y.st = 1 ∧
           t.readS d.val = (if d.val = 0 then 0 else BitVec.ofNat 64 y.promise)))) ∧
  ((∀ (s : State) (g : Guard) (n : SSrc), Runs (ctl g n.sregs false) s →
     let k := (n.value s).toNat
     (16 ≤ k → exec (.bseal g n) s = .next (s.raise s.arm.pc s.arm.cl ⟨.illegalOp, s.selOf g, 0⟩)) ∧
     (k < 16 → ∃ t, exec (.bseal g n) s = .next t ∧ t.grp.eng.openSet = 0 ∧
       Tbl.get 0 t.grp.eng.batches k = Tbl.get 0 s.grp.eng.batches k ||| s.grp.eng.openSet ∧
       (∀ j, j ≠ k → Tbl.get 0 t.grp.eng.batches j = Tbl.get 0 s.grp.eng.batches j) ∧
       t.grp.eng.recs = s.grp.eng.recs ∧ NextWord s t ∧ Frame {} s t)) ∧
   (∀ (s : State) (g : Guard) (n : SSrc) (test : Option SReg),
     Runs (ctl g ((match test with | some d => [d.val] | none => []) ++ n.sregs) false) s →
     let k := (n.value s).toNat
     let empty := Tbl.get 0 s.grp.eng.batches k = 0
     k < 16 → (∀ x ∈ s.grp.eng.recs, x.2.st ≠ 3) →
     (∀ d, test = some d → WritesScalar (.bwait g n test) s d (if empty then 1 else 0)) ∧
     (test = none → (empty → GoesOn (.bwait g n test) s) ∧ (¬empty → exec (.bwait g n test) s = .next s))))

/-- R121, R286, R283–R288: An arrival counts a member once and gives the phase it arrives in; the last one starts the next phase. BARI makes a
live object of the members that have not retired, or with .free a live object no longer live; BARA arrives and delivers the phase; BARW
waits, or tests, for a phase other than its operand, and one that waits while the object's sector is lost or poisoned raises STALE_READ or
consumes the error. That BARI, BARA and BARW take the object's address modulo 2^32 is deduced (log 51). -/
def Obligations.BarrierWords : Prop :=
  (∀ (b : Bar) (g : Nat), b.ok = true →
     (b.arrive g = none ↔ ¬(b.members.testBit g = true ∧ b.arrset.testBit g = false)) ∧
     ∀ b', b.arrive g = some b' → b'.members = b.members ∧ b'.expected = b.expected ∧
       (b.arrived + 1 < b.expected → b'.arrived = b.arrived + 1 ∧ b'.phase = b.phase ∧ b'.arrset = b.arrset + 2 ^ g) ∧
       (b.arrived + 1 = b.expected → b'.arrived = 0 ∧ b'.phase = (b.phase + 1) % 2 ^ 32 ∧ b'.arrset = 0)) ∧
  (∀ (s : State) (g : Guard) (a : SSrc) (tm : Team), s.myTeam = some tm →
     let ad := (a.value s).toNat % 2 ^ 32
     let c := allLanes g s
     let n := tm.khdr.toNat / 2 ^ 32 % 2 ^ 8
     (∀ form o, form ≠ .free →
       Runs { ctl g (a.sregs ++ (match form with | .set m => m.sregs | _ => [])) false with rep := false } s →
       s.barAt c ad true false = .ok o → (o.live = true → o.bar.arrived = 0) →
       let m := match form with | .set m => (m.value s).toNat % 2 ^ 32 | _ => 2 ^ n - 1
       m < 2 ^ n → ∃ t b, exec (.bari g a form) s = .next t ∧ NextWord s t ∧ (∃ tm', t.myTeam = some tm' ∧ o.key ∈ tm'.bars) ∧
         (∀ i, i < n → b.members.testBit i = (m.testBit i && !tm.retired.contains i)) ∧ b.arrived = 0 ∧ b.arrset = 0 ∧
         b.phase = o.bar.phase ∧
         (∀ j, j < 16 → slateByte t o.at'.core o.at'.id (o.at'.ofs + j) = BitVec.ofNat 8 (Bar.toNat b / 256 ^ j)) ∧
         Frame { own := fun core id ofs => core == o.at'.core && id == o.at'.id && decide (o.at'.ofs ≤ ofs ∧ ofs < o.at'.ofs + 16)
                 slates := true, units := true } s t) ∧
     (∀ o, Runs { ctl g (a.sregs ++ []) false with rep := false } s → s.barAt c ad false true = .ok o → o.bar.arrived = 0 →
       ∃ t, exec (.bari g a .free) s = .next t ∧ NextWord s t ∧ (∃ tm', t.myTeam = some tm' ∧ o.key ∉ tm'.bars) ∧
         Frame { units := true } s t) ∧
     (∀ (x : Bool) (d : SReg) o b, Runs { longInfo g x [] [] (d.val :: a.sregs) false with rep := false, ctl := true, rel := true } s →
       s.barAt c ad true true = .ok o → o.bar.arrive s.grp.gid = some b →
       Issues (.bara g x a d) s x .plain [] [.s d.val (BitVec.ofNat 64 o.bar.phase)]
         { own := fun core id ofs => core == o.at'.core && id == o.at'.id && decide (o.at'.ofs ≤ ofs ∧ ofs < o.at'.ofs + 16)
           slates := true } fun t =>
         ∀ j, j < 16 → slateByte t o.at'.core o.at'.id (o.at'.ofs + j) = BitVec.ofNat 8 (b.toNat / 256 ^ j)) ∧
     (∀ (p : SSrc) (test : Option SReg),
       Runs { ctl g ((match test with | some d => [d.val] | none => []) ++ a.sregs ++ p.sregs) false with
         rep := false, rel := s.grp.shape.mmrev == 2 } s →
       let i := Instr.barw g a p test
       (∀ w, s.arm.barw = some w →
         let info := slateInfo s.core ⟨w.core, w.desc, w.sector * 128⟩
         (w.broke = some .lost → exec i s = .next (s.raise s.arm.pc s.arm.cl ⟨.staleRead, s.selOf g, info⟩)) ∧
         (w.broke = some .poisoned → exec i s = .next (s.consume ⟨.uncorrectable, s.selOf g, info⟩))) ∧
       ∀ o, (∀ w, s.arm.barw = some w → w.broke = none) → s.barAt c ad false true = .ok o →
         let done := o.bar.phase ≠ (p.value s).toNat
         (∀ d, test = some d → WritesScalar i s d (if done then 1 else 0)) ∧
         (test = none → (done → GoesOn i s) ∧ (¬done → ∃ t, exec i s = .next t ∧ t.arm.pc = s.arm.pc ∧ t.arm.cl = s.arm.cl ∧
           t.arm.barw = some ⟨o.at'.core, o.at'.id, o.at'.ofs / 128, none⟩ ∧ Frame {} s t))))

/-- R186, R187, R188, R356, R357, R193, R194, R306, R307: TRAY makes a record of each selected lane. Where none has a reserved bit, every type
that is not PAD has an entry (a grid's of fewer than 2^32 teams) and the spill queue has room for all, it completes and leaves the region; a
record with a reserved bit makes it raise QUEUE_ERR with 2. One lane's record is routed by the rule of R188; with the spill queue full it
raises QUEUE_ERR with 1. No crib watches a line of the spill queue's area. DEPDEC takes one from the counter of every selected lane whose
counter is not 0, and notes the lanes that found 0, to be delivered as DEP_UNDERFLOW once it has completed; it leaves the region. The
records beside the counters that become 0 are routed: where each that is not PAD has an entry and the spill queue has room for all, nothing
waits; several of one type join its open tray in lane order, where that has room; of one lane the record goes where R188 says, and with the
spill queue full it waits with the operation. The cells stand in memory that no mapped slate of the team covers, do not meet one another,
the task table's entries or the spill queue, and are not poisoned; no crib watches them or the spill queue; the table's frames are owned
under the partition's key already; no MSTZ of the arm holds the accesses up. That a poisoned cell's count steps is deduced (log 102). -/
def Obligations.TrayAndDepdec : Prop :=
  (∀ (s : State) (g : Guard) (x : Bool) (hdr crd : VSrc) (pay : TrayPay) (y : Part),
     let pv := match pay with | .v k => vdst k true | .s _ => []
     let ps := match pay with | .v _ => [] | .s y => y.sregs
     let i := Instr.tray g x hdr crd pay
     let p := s.grp.part
     let queue := match s.teams.look s.grp.team with | some t => t.queue | none => 0
     let rec' := fun l : Nat => (⟨crd.lane32 s l ++ hdr.lane32 s l,
       (match pay with | .v k => s.readPair k.val l | .s z => z.value s), queue, 0xFF⟩ : Rec)
     let recs := (laneList (s.selOf g)).map rec'
     let does := fun (c : Changes) (q : State → Prop) => Issues i s x .plain [] [] { c with units := true } fun t =>
       t.grp.rg.inside = false ∧ t.teams = s.teams ∧ t.pm = s.pm ∧ q t
     let c := fun (f : Nat → Bool) => ({ bytes := f, slates := true, reservation := true, others := true } : Changes)
     Runs { longInfo g x (hdr.vregs false ++ crd.vregs false ++ pv) [] (hdr.sregs ++ crd.sregs ++ ps) false with
       rep := false, rel := true } s → s.parts.look p = some y → (∀ a, inSpill s p a = true → s.watchers (a / 128) = []) →
     ((∃ r ∈ recs, r.lo.toNat / 2 ^ 14 % 4 ≠ 0) → exec i s = .next (s.raise s.arm.pc s.arm.cl ⟨.queueErr, s.selOf g, 2⟩)) ∧
     ((∀ r ∈ recs, r.lo.toNat / 2 ^ 14 % 4 = 0) →
       ((∀ r ∈ recs, r.lo.getLsbD 13 = true ∨ HasEntry s p r) → y.spill.length + recs.length ≤ y.par.spillCap → does (c (inSpill s p)) fun _ => True) ∧
       ∀ l, laneList (s.selOf g) = [l] → Routes s p (s.core / 48) y (rec' l)
         (fun k => does (if k = none then {} else c (spillBytes s p k)))
         (exec i s = .next (s.raise s.arm.pc s.arm.cl ⟨.queueErr, s.selOf g, 1⟩)))) ∧
  (∀ (s : State) (g : Guard) (x : Bool) (base : SSrc) (idx : VSrc) (y : Part) (pa va key : Nat → Nat),
     Runs { longInfo g x (idx.vregs false) [] (base.sregs ++ idx.sregs) false with rep := false, rel := true } s →
     let i := Instr.depdec g x base idx
     let part := s.grp.part
     let die := s.core / 48
     let sel := s.selOf g
     let p := fun l => Machine.Place.mem (pa l) (va l) (key l)
     let count := fun l => s.mem.num (pa l) 4
     let queue := match s.teams.look s.grp.team with | some t => t.queue | none => 0
     let rec' := fun l : Nat => (⟨BitVec.ofNat 64 (s.mem.num (pa l + 16) 8), BitVec.ofNat 64 (s.mem.num (pa l + 24) 8), queue, 0xFF⟩ : Rec)
     let made := (laneList sel).filter fun l => count l == 1
     let cells := inPlaces s 4 ((laneList sel).filter (fun l => count l ≠ 0) |>.map p)
     let c : Changes := { bytes := cells, slates := true, reservation := true, others := true }
     let c' := fun (f : Nat → Bool) => ({ c with bytes := fun a => cells a || f a, units := true } : Changes)
     let under := lanesWhere 64 fun l => sel.getLsbD l && count l == 0
     let steps := fun (c : Changes) (left : List Rec) (q : State → Prop) => Issues i s x (.dep under die left) [] [] c fun t =>
       t.grp.rg.inside = false ∧ (∀ l ∈ laneList sel, t.mem.num (pa l) 4 = count l - 1) ∧ q t
     Reach s sel (fun l => { acc := .atomic, tgt := .glob (((base.value s).toNat : Int) + (idx.lane32 s l).toInt), n := 32
                             atHome := true, consume := false }) p →
     s.arm.depLanes = 0 → s.arm.depRecs = [] → s.parts.look part = some y →
     (∀ l ∈ laneList sel, s.mappedAt (va l) 4 = none) → unwatched s 4 (placesOf sel p) →
     (∀ l ∈ laneList sel, ∀ k ∈ laneList sel, l ≠ k → pa l + 32 ≤ pa k ∨ pa k + 32 ≤ pa l) →
     (∀ l ∈ made, s.poisonAt (pa l + 16) 16 = false) →
     ((∀ l ∈ made, (rec' l).lo.getLsbD 13 = true) → steps c [] fun _ => True) ∧
     ((∀ a, inSpill s part a = true → s.watchers (a / 128) = [] ∧ inPlaces s 32 (placesOf sel p) a = false) →
       (∀ l ∈ made, (rec' l).lo.getLsbD 13 = false → HasEntry s part (rec' l) ∧
         s.mem.owners.look (s.entryAt part (rec' l).type / 8192) = some (s.par part).hdmKey ∧
         ∀ j, j < 64 → cells (s.entryAt part (rec' l).type + j) = false) →
       (y.spill.length + made.length ≤ y.par.spillCap → steps (c' (inSpill s part)) [] fun _ => True) ∧
       (∀ type e k u, (∀ l ∈ made, (rec' l).type = type ∧ (rec' l).lo.getLsbD 13 = false) → s.taskEntry part type = some e →
         TaskEntry.grid e = false → s.spilled part die type = false → s.openTray part die type = some (k, u) →
         u.recs.length + made.length ≤ 64 →
         steps (c' fun _ => false) [] fun t => ∃ v, (t.dieAt die).trays.look k = some v ∧ v.recs = u.recs ++ made.map rec') ∧
       ∀ l, laneList sel = [l] → count l = 1 → Routes s part die y (rec' l)
         (fun k => steps (c' (spillBytes s part k)) []) (steps (c' fun _ => false) [rec' l] fun _ => True)))

/-- R196, R197, R335, R336: Claims, commits, awaits and retirements on a sound control block. A claim and an await move their own position by
the count and give the one before; commits and retirements advance over the contiguous ones; a sound block stays sound. The requests that
wait on one side of a ring are granted in their order of arrival: the first that waits is granted if it fits, and while it does not fit none
is. The four ring words on a control block that the arm's access reaches in memory. RCLAIM and RAWAIT move their own position on and deliver
the one before; where it does not fit, or others wait, they deliver all ones with .nb and wait without; RCOMMIT and RRETIRE change the block
and are counted. What changes then is the block alone, and the requests that its change grants. An unsound block gets ERR and raises
RING_ERR with 1, a wrong range raises it with 2. The block here stands in no mapped slate of the team, no crib watches it, and its positions
are below 2^63. A waiter of a ring that has been granted its claim completes with the position granted and waits no more. -/
def Obligations.RingWords : Prop :=
  (∀ (b : RingBlk) (n : Nat), b.ok n = true →
     (∀ p b', b.claimN n = some (p, b') → p = b.claim ∧ b'.claim = b.claim + n ∧ b'.tail = b.tail ∧ b'.head = b.head ∧
       b'.ok n = true) ∧
     (∀ p b', b.awaitN n = some (p, b') → p = b.aclaim ∧ b'.aclaim = b.aclaim + n ∧ b'.head = b.head ∧ b'.ok n = true) ∧
     (∀ p b', b.commit p n = some b' → b.tail ≤ b'.tail ∧ b'.tail ≤ b'.claim ∧ b'.claim = b.claim ∧ b'.ok n = true) ∧
     (∀ p b', b.retire p n = some b' → b.head ≤ b'.head ∧ b'.head ≤ b'.aclaim ∧ b'.aclaim = b.aclaim ∧ b'.ok n = true)) ∧
  (∀ (pa : Nat) (consumer : Bool) (before after : List RingWait) (w : RingWait) (b : RingBlk),
     let waiting := fun v : RingWait => v.block = pa ∧ v.consumer = consumer ∧ v.grant = none
     let fit := fun b : RingBlk => if b.ok w.n then (if consumer then b.awaitN w.n else b.claimN w.n) else none
     (∀ v ∈ before, ¬waiting v) → waiting w →
     (fit b = none → grantSide pa consumer (before ++ w :: after) b = (before ++ w :: after, b)) ∧
     ∀ p b', fit b = some (p, b') → grantSide pa consumer (before ++ w :: after) b =
       (before ++ { w with grant := some (BitVec.ofNat 64 p) } :: (grantSide pa consumer after b').1, (grantSide pa consumer after b').2)) ∧
  (∀ (s : State) (g : Guard) (ring n : SSrc) (pa va key : Nat),
     let k := if 1 ≤ (n.value s).toInt ∧ (n.value s).toInt ≤ 64 then (n.value s).toNat else 0
     let b := s.ringAt pa
     let queued := fun consumer => ∃ w ∈ s.waits, w.block = pa ∧ w.consumer = consumer ∧ w.grant = none
     let woken := fun b' : RingBlk => let x := grantSide pa true s.waits b'; grantSide pa false x.1 x.2
     let block := Machine.Place.mem pa va key
     let c : Changes := { bytes := inPlaces s 64 [block], slates := true, reservation := true, others := true, units := true }
     let quiet := fun t : State => t.teams = s.teams ∧ t.parts = s.parts ∧ t.dies = s.dies ∧ t.engines = s.engines ∧
       t.swaps = s.swaps ∧ t.launches = s.launches ∧ t.fab = s.fab ∧ t.pm = s.pm
     ReachOne s { acc := .atomic, tgt := .glob (ring.value s).toNat, n := 64, atHome := true } block →
     s.mappedAt va 64 = none → unwatched s 64 [block] →
     (∀ (nb consumer : Bool) (d : SReg), Runs (ringInfo g (d.val :: (ring.sregs ++ n.sregs))) s →
       let i : Instr := if consumer then .rawait g nb d ring n else .rclaim g nb d ring n
       let fit := if consumer then b.awaitN k else b.claimN k
       s.ringWait = none → b.ok k = true → b.claim < 2 ^ 63 →
       (∀ p b', fit = some (p, b') → ¬queued consumer → ∃ t, exec i s = .next t ∧ NextWord s t ∧
         t.readS d.val = (if d.val = 0 then 0 else BitVec.ofNat 64 p) ∧ t.ringAt pa = (woken b').2 ∧ t.waits = (woken b').1 ∧
         quiet t ∧ Frame { c with scalars := [d.val] } s t) ∧
       (fit = none ∨ queued consumer → nb = true → WritesScalar i s d (BitVec.allOnes 64)) ∧
       (fit = none ∨ queued consumer → nb = false → ∃ t, exec i s = .next t ∧ t.arm = s.arm ∧
         t.waits = s.waits ++ [⟨pa, consumer, s.grp.key, s.who, k, d.val, none⟩] ∧ quiet t ∧ Frame { units := true } s t)) ∧
     (∀ (x consumer : Bool) (p : SSrc),
       Runs { longInfo g x [] [] (ring.sregs ++ p.sregs ++ n.sregs) false with rep := false, ctl := true, rel := true } s →
       let i : Instr := if consumer then .rretire g x ring p n else .rcommit g x ring p n
       let fit := if consumer then b.retire (p.value s).toNat k else b.commit (p.value s).toNat k
       (b.ok k = true → b.claim < 2 ^ 63 → ∀ b', fit = some b' → Issues i s x .plain [] [] c fun t =>
         t.ringAt pa = (woken b').2 ∧ t.waits = (woken b').1 ∧ quiet t ∧ t.grp.rg.inside = false) ∧
       (b.ok k = true → fit = none → exec i s = .next (s.raise s.arm.pc s.arm.cl ⟨.ringErr, s.selOf g, 2⟩))) ∧
     ∀ i : Instr,
       (∃ nb d, Runs (ringInfo g (d.val :: (ring.sregs ++ n.sregs))) s ∧ s.ringWait = none ∧
         (i = .rclaim g nb d ring n ∨ i = .rawait g nb d ring n)) ∨
       (∃ x p, Runs { longInfo g x [] [] (ring.sregs ++ p.sregs ++ n.sregs) false with rep := false, ctl := true, rel := true } s ∧
         (i = .rcommit g x ring p n ∨ i = .rretire g x ring p n)) →
       b.ok k = false → ∃ t, exec i s = .next (t.raise s.arm.pc s.arm.cl ⟨.ringErr, s.selOf g, 1⟩) ∧
         (∀ a, t.mem.byte a = if a = pa + 11 then s.mem.byte a ||| 1 else s.mem.byte a) ∧ Frame c s t) ∧
  (∀ (s : State) (g : Guard) (nb consumer : Bool) (d : SReg) (ring n : SSrc) (w : RingWait) (p : Word),
     Runs (ringInfo g (d.val :: (ring.sregs ++ n.sregs))) s → s.ringWait = some w → w.grant = some p →
     let i : Instr := if consumer then .rawait g nb d ring n else .rclaim g nb d ring n
     ∃ t, exec i s = .next t ∧ t.readS d.val = (if d.val = 0 then 0 else p) ∧ NextWord s t ∧ w ∉ t.waits ∧
       Frame { scalars := [d.val], units := true } s t)

/-- R45, R46, R333, R334: QPUSH of a monitor wave puts the selected lanes' values at the end of the window while it has room; QPOP takes the
first entry into its register. A poisoned entry raises the trap it holds; an empty window makes QPOP wait, or raises QUEUE_ERR with 4 once
the wave has ended. -/
def Obligations.QueueWindow : Prop :=
  (∀ (s : State) (g : Guard) (a : VSrc),
    Runs { g := g, vs := a.vregs false, ss := a.sregs, lanewise := true, mon := true } s → s.who = .mon →
    (s.grp.shape.qwin < s.grp.mon.window.length → exec (.qpush g a) s = .next s) ∧
    (s.grp.mon.window.length ≤ s.grp.shape.qwin → ∃ t e, exec (.qpush g a) s = .next t ∧
      t.grp.mon.window = s.grp.mon.window ++ [.val e] ∧ NextWord s t ∧ Frame {} s t ∧
      ∀ l, l < 64 → Tbl.get 0 e l = if (s.selOf g).getLsbD l then a.lane32 s l else 0)) ∧
  (∀ (s : State) (g : Guard) (d : VReg), Runs { g := g, vd := [d.val], lanewise := true, rep := false } s →
    s.grp.mon.st ≠ .absent →
    (∀ e rest, s.grp.mon.window = .val e :: rest →
      ∃ t, exec (.qpop g d) s = .next t ∧ t.grp.mon.window = rest ∧ NextWord s t ∧
        (∀ l, l < 64 → (s.selOf g).getLsbD l = true → t.readV d.val l = Tbl.get 0 e l) ∧
        Frame { lanes := lanesOfTy false d.val (s.selOf g) } s t) ∧
    (∀ k pc lanes info rest, s.grp.mon.window = .poison k pc lanes info :: rest →
      exec (.qpop g d) s = .next ((s.modGrp fun y => { y with mon := { y.mon with
        window := rest, st := if y.mon.st = .stopped then .taken else y.mon.st } }).raise s.arm.pc s.arm.cl ⟨k, lanes, info⟩)) ∧
    (s.grp.mon.window = [] → s.grp.mon.st = .ended →
      exec (.qpop g d) s = .next (s.raise s.arm.pc s.arm.cl ⟨.queueErr, s.selOf g, 4⟩)) ∧
    (s.grp.mon.window = [] → s.grp.mon.st ≠ .ended → exec (.qpop g d) s = .next s))

/-! ## Steps that are no words (R17–R23, R31, R63, R68–R71, R90–R104, R111–R138, R146, R155–R159, R187–R222, R232–R254) -/

/-- R31, R90, R96, R145, R194, R346, R354, R82, R146, R39, R68, R69, R208, R380, R381: OPERATION_COMPLETE of an operation of a group of which
something else is left: it is listed no more and its flag counts one less. A plain operation, and a vector load, writes its registers; a
FENCE waits for the MSTZs before it; a QNT adds its marks to QSTAT; a DEPDEC hands its underflows to its arm; an FSWAP gives its status word
once every die has ended; an SLFREE frees its descriptor once no engine request names it; a CRTOUCH gives its result; a collective
operation, in a group that is no replay group, waits for its version and, as an MSTZ, for the MSTZs it stands behind, and then leaves its
accumulator with the next version, its slate and memory as its passes (`State.runColl`, whose results CollectiveResults states) make them; a
TLBINV takes the range's entries out of every translation cache, the cores' and the engines'. A collective operation whose version has not
come raises VERSION_TIMEOUT at its own word, with the version it waits for and the one it found in TINFO, and its flag and pass are given
back, and a stochastically rounding MSTZ's draws where nothing has used the generator since; one whose version is there is left alone. Here
with no request of its arm at a ring. A vector line that arrives is in the register cache, clean, and no arm waits for it any more; it holds
the value last written, or what its place in the context image holds, and an uncorrectable error where the image or the fill has one, or
where the image's frame is owned under another key; no other register changes. A deferral ends; a not-ready period ends, but with n = 0 not
before the other ready groups have been offered an opportunity, up to 64, and it does not count among the opportunities of R208; a WAITT
whose time has come goes on if its flag reads zero. Deduced: the trap's address (log 8), when draws are given back (log 76), when lines
leave the cache (log 14), when a not-ready period ends (log 49). The model's choice: the error of a frame under another key (log 16). -/
def Obligations.OperationsComplete : Prop :=
  (∀ (s : State) (k : GKey) (id : Nat) (g : Group) (o : Op), s.groupAt k = some g → g.ops.look id = some o →
     (g.endOp s.cnt.steps id).done = false →
     let i := Instr.operationComplete k id
     let ended := fun (h : Group) => h.ops = g.ops.del id ∧ (h.arm o.who).pc = (g.arm o.who).pc ∧
       (h.arm o.who).flag o.flag = (g.arm o.who).flag o.flag - 1 ∧
       ∀ f, f ≠ o.flag → (h.arm o.who).flag f = (g.arm o.who).flag f
     (o.kind = .plain ∨ (∃ l, o.kind = .load l) → Does i s fun t => t.mem = s.mem ∧ t.cores = s.cores ∧ ∃ h, t.groupAt k = some h ∧ ended h ∧
       h.qstat = g.qstat ∧ (o.who ≠ .mon → h.regs = o.wb.foldl Regs.applyWb g.regs)) ∧
     (∀ all, o.kind = .fence all →
       ((∃ x ∈ g.stzOps o.who, x.1 < id) ∨ g.stzOwed o.who id = true → exec i s = .next s) ∧
       ((∀ x ∈ g.stzOps o.who, id ≤ x.1) → g.stzOwed o.who id = false → Does i s fun t => t.mem = s.mem ∧ ∃ h, t.groupAt k = some h ∧ ended h)) ∧
     (∀ lo hi nan n, o.kind = .quant lo hi nan n → Does i s fun t => ∃ h, t.groupAt k = some h ∧ ended h ∧
       h.qstat.getLsbD 0 = (g.qstat.getLsbD 0 || lo) ∧ h.qstat.getLsbD 1 = (g.qstat.getLsbD 1 || hi) ∧
       h.qstat.getLsbD 2 = (g.qstat.getLsbD 2 || nan) ∧ h.qstat.getLsbD 8 = g.qstat.getLsbD 8 ∧
       h.qstat.getLsbD 9 = g.qstat.getLsbD 9 ∧ bits h.qstat.toNat 16 32 = min (bits g.qstat.toNat 16 32 + n) (2 ^ 32 - 1)) ∧
     (∀ u die, o.kind = .dep u die [] → Does i s fun t => ∃ h, t.groupAt k = some h ∧ ended h ∧
       (h.arm o.who).under = (g.arm o.who).under ++ (if u = 0 then [] else [u])) ∧
     (∀ n x, o.kind = .fswap n → s.swaps.look n = some x → o.who ≠ .mon → x.dst ≠ 0 →
       ((∃ d, d < 4 ∧ ∃ st, x.dies.look d = some st ∧ ∀ c, st ≠ .done c) → exec i s = .next s) ∧
       ∀ c : Nat → Nat, (∀ d, d < 4 → c d < 16 ∧ (x.dies.look d = some (.done (c d)) ∨ (x.dies.look d = none ∧ c d = 15))) →
         Does i s fun t => t.swaps.look n = none ∧ ∃ h, t.groupAt k = some h ∧ ended h ∧
           Tbl.get 0 h.regs.s x.dst = BitVec.ofNat 64 (c 0 + 16 * c 1 + 256 * c 2 + 4096 * c 3)) ∧
     (∀ core d, o.kind = .free core d →
       (s.engUses CmdRec.names core d = true → exec i s = .next s) ∧
       (s.engUses CmdRec.names core d = false → Does i s fun t => t.desc? core d = none)) ∧
     (∀ core d dst renew warm cold waited y z, o.kind = .touch core d dst renew warm cold waited → s.desc? core d = some y →
       y.crib = some z → o.who ≠ .mon → dst ≠ 0 → Does i s fun t => t.mem = s.mem ∧
         (∃ e, t.desc? core d = some e ∧ e.warm = (warm || (!cold && y.warm))) ∧ ∃ h, t.groupAt k = some h ∧ ended h ∧
           Tbl.get 0 h.regs.s dst = BitVec.ofNat 64 ((if waited then 1 else 0) + z * 2 ^ 8 +
             (match s.crib? core z with | some c => c.replays | none => 0) * 2 ^ 16)) ∧
     (∀ z ver op pass snap, o.kind = .coll z ver op pass snap false →
       (g.collReady z ver snap = false ∨ s.stzBehind g id o = true → exec i s = .next s) ∧
       (g.collReady z ver snap = true → s.stzBehind g id o = false → o.wb = [] → g.replayId = none →
         let u := (s.focus k o.who).runColl z ver op snap
         Does i s fun t => t.mem = u.mem ∧ (∀ c d, t.desc? c d = u.desc? c d) ∧ ∃ h, t.groupAt k = some h ∧
           h.ops.look id = none ∧ (h.arm o.who).flag o.flag = (g.arm o.who).flag o.flag - 1 ∧ h.regs = u.grp.regs ∧
           (∀ r, o.isStz = false → collResult g.regs z op = some r → h.regs = r.setVer z ((ver + 1) % 2 ^ 16) ∧ t.mem = s.mem) ∧
           (o.isStz = true → h.regs = g.regs))) ∧
     (∀ p lo hi, o.kind = .shoot p lo hi → Does i s fun t =>
       (∀ c x, t.cores.look c = some x → ∀ e ∈ x.tlb, ¬(e.1.1 = p ∧ lo ≤ e.1.2 * 8192 ∧ e.1.2 * 8192 < hi)) ∧
       ∀ c x, t.engines.look c = some x → ∀ e ∈ x.tlb, ¬(e.1.1 = p ∧ lo ≤ e.1.2 * 8192 ∧ e.1.2 * 8192 < hi))) ∧
  (∀ (s : State) (k : GKey) (id : Nat) (g : Group) (o : Op) (z ver : Nat) (op : CollOp) (pass open' : Bool)
     (snap : Option (Tbl Lane)),
     s.groupAt k = some g → g.ops.look id = some o → o.kind = .coll z ver op pass snap open' →
     (g.collReady z ver snap = true → exec (.versionTimeout k id) s = .next s) ∧
     ∀ h, g.collReady z ver snap = false → o.who ≠ .mon → g.replayId = none → g.tr.tm = false →
       (s.focus k o.who).handlerOf .versionTimeout = some h → h ≠ 0 → (∀ w ∈ s.waits, w.key = k → w.who ≠ o.who) →
       Does (.versionTimeout k id) s fun t => t.grp.key = k ∧ t.who = o.who ∧ t.grp.tr.tkind = 0x12 ∧
         t.grp.tr.tpcv = BitVec.ofNat 71 o.word ∧ t.grp.tr.tlm = lanesBelow g.shape.width ∧
         t.grp.tr.tinfo = BitVec.ofNat 64 (ver + g.regs.ver z * 2 ^ 16) ∧ t.grp.tr.tm = true ∧ t.arm.pc = h ∧
         t.arm.flag o.flag = (g.arm o.who).flag o.flag - 1 ∧ t.grp.ops.look id = none ∧ t.grp.regs = g.regs ∧
         t.grp.passes = g.passes - (if pass then 1 else 0) ∧ (∀ a, t.mem.byte a = s.mem.byte a) ∧
         ∀ core d ofs b first count form slot r gen, op = .mstz core d ofs b first count form slot r gen → r.mode = .sr →
           g.gen = (srDraws gen (stzCount form count)).2 → t.grp.gen = gen) ∧
  (∀ (s : State) (k : GKey) (g : Group), s.groupAt k = some g →
     (∀ line x foreign bad, g.lines.look line = some x → x.cached = false →
       let shut := (framesOf (g.img + g.lineAt line) g.lineSize).any fun f => !s.mem.frameOk (f * 8192) (s.par g.part).hdmKey
       Does (.registerLineFill k line foreign bad) s fun t => ∃ h, t.groupAt k = some h ∧ h.lines.look line = some ⟨true, false, false, s.cnt.steps⟩ ∧
         h.lineBytes line = (if foreign = true ∧ shut = false then s.mem.bytes (g.img + g.lineAt line) g.lineSize else g.lineBytes line) ∧
         (∀ n, (∀ l, l < g.shape.width → n ≠ line % 256 * 64 + l) → Tbl.get 0 h.regs.v n = Tbl.get 0 g.regs.v n) ∧
         h.regs.s = g.regs.s ∧ h.regs.m = g.regs.m ∧ h.regs.z = g.regs.z ∧ (∀ a, t.mem.byte a = s.mem.byte a) ∧
         (line ∈ h.badLines ↔ bad = true ∨ shut = true ∨ s.poisonAt (g.img + g.lineAt line) g.lineSize = true ∨ line ∈ g.badLines) ∧
         ∀ w p, (h.arm w).park = some p → Cause.regLine line ∉ p.causes) ∧
     (∀ line foreign bad, (∀ x, g.lines.look line = some x → x.cached = true) → Does (.registerLineFill k line foreign bad) s fun t =>
       t.mem = s.mem ∧ ∃ h, t.groupAt k = some h ∧ h.lines = g.lines ∧ h.badLines = g.badLines ∧ h.regs = g.regs) ∧
     (∀ who, Does (.reservationDeferralEnd k who) s fun t => ∃ h, t.groupAt k = some h ∧ h.regs = g.regs ∧
       (h.arm who).defer = false ∧ (h.arm who).resv = (g.arm who).resv ∧ (h.arm who).pc = (g.arm who).pc) ∧
     (∀ who y, (g.arm who).yield = some y →
       let opps := (s.coreAt k.core).opps
       let waits := ∃ l, y.left = some l ∧ l ≠ [] ∧ opps < y.start + 64 ∧
         ∃ o ∈ s.groups, o.key ∈ l ∧ s.coreRuns o = true ∧ (o.ready .arm0 = true ∨ o.ready .arm1 = true)
       Does (.yieldEnd k who) s fun t => ∃ h, t.groupAt k = some h ∧ h.regs = g.regs ∧
         (waits → h = g) ∧ (¬waits → (h.arm who).yield = none ∧ h.lastIssue = min opps (g.lastIssue + (opps - y.start))) ∧
         (h.arm who).resv = (g.arm who).resv ∧ (h.arm who).pc = (g.arm who).pc) ∧
     (∀ who v f sel, (g.arm who).sleep = some (v, f, sel) →
       (s.pm.time < v → exec (.waittWake k who) s = .next s) ∧
       (v ≤ s.pm.time → (g.setArm who { g.arm who with sleep := none }).ready who = true → s.coreRuns g = true →
         (∀ x ∈ g.eng.recs, x.2.st ≠ 3) → (g.arm who).back = none → (g.arm who).flag f = 0 →
         Does (.waittWake k who) s fun t => t.grp.key = k ∧ t.who = who ∧ t.arm.sleep = none ∧ t.arm.pc = (g.arm who).pc + 8 ∧
           t.grp.regs = g.regs ∧ t.mem = s.mem)))

/-- R131, R19, R111, R112, R121, R114, R118, R113, R128: REPLAY_START of a chain of one member, whose lesson needs no slot, in an idle context,
makes the replay group: its scalars hold the argument, the coordinate, the slate's address, the crib's number and its depth, its context
image is the context's, and it starts at the lesson's entry with all its lanes. RCLK_TICK moves the clock of its die on by one modulo 2^32,
and no other clock. SECTOR_EXPIRY: of a scratch or derived slate that nothing keeps from expiry, the GOOD sectors of age LIFE or more become
LOST, which fails a BARW that waits on an object there, or a derived slate is dropped whole; nothing else changes in the slate.
SCRUBBER_VISIT of a resident leaf of a scratch slate: a sector found bad is POISONED; a GOOD one of age 40 or more is renewed where the
slate is pinned or its team saved; every other sector stays, and the corrected errors are counted. A sector of a mapped slate that arrives
is present with the clock's stamp, clean, GOOD or, from a poisoned line, POISONED, and no arm waits for it any more; one that no arm waits
for is not filled. A foreign write to a watched line makes the cribs that watch it STALE; a write through the watched slate itself does not. -/
def Obligations.SlatesAgeAndReplay : Prop :=
  (∀ (s s2 : State) (core chain : Nat) (a : Nat) (ch : Chain) (m : Nat × Nat × Nat) (y : Crib) (e : TaskEntry),
     (s.coreAt core).chains.look chain = some ch → ch.running = none → ch.ctx = none → ch.all = [m] → ch.ended = 0 →
     s.ctxFor core 32 ch = some a → s.crib? m.1 m.2.1 = some y → y.srcs = [] → s.lessonOk ch.part y.lesson = true →
     s.taskEntry ch.part y.lesson = some e → (Khdr.ofWord (TaskEntry.khdr e)).slots = [] →
     s.accUsed core + (Khdr.ofWord (TaskEntry.khdr e)).acc ≤ 8 →
     (s.modCore core fun c => { c with chains := c.chains.upd chain fun x => { x with img := a } }).claimLeaves core chain
       { ch with img := a } m = .got s2 →
     Does (.replayStart core chain none) s fun t => ∃ g ∈ t.others, g.key = ⟨core, 32⟩ ∧ g.live = true ∧ g.part = ch.part ∧
       g.team = ch.team ∧ g.img = a ∧ g.replayId = some ⟨core, chain, m.1, m.2.1, m.2.2⟩ ∧ g.a0.pc = TaskEntry.entry e ∧
       g.a0.mask = lanesBelow g.shape.width ∧ Tbl.get 0 g.regs.s 1 = y.arg ∧
       (Tbl.get 0 g.regs.s 2).toNat = y.coord.toNat % 2 ^ 48 ∧
       (∀ d, s2.desc? m.1 y.slate = some d → Tbl.get 0 g.regs.s 3 =
         BitVec.ofNat 64 (d.base * 2048 + if m.1 = core then 0 else 2 ^ 23)) ∧
       Tbl.get 0 g.regs.s 8 = BitVec.ofNat 64 (m.2.1 + m.2.2 * 256) ∧ g.two = false) ∧
  ((∀ (s : State) (die : Nat), die < 4 → s.pm.stopped = false → Does (.rclkTick die) s fun t =>
     (t.dieAt die).rclk = ((s.dieAt die).rclk + 1) % 2 ^ 32 ∧ (∀ d, d ≠ die → (t.dieAt d).rclk = (s.dieAt d).rclk) ∧
     t.mem = s.mem ∧ ((∀ g ∈ s.groups, ∀ w, (g.arm w).barw = none) → t.groups = s.groups) ∧ t.pm = s.pm) ∧
   ∀ (s : State) (core id k : Nat) (d : Desc), s.desc? core id = some d → s.expiryOff core id d = false → d.dropped = false →
     Tbl.rising d.secs = true →
     let now := s.rclk core
     let old := fun i => (d.sec i).st = .good ∧ d.life ≤ (now + 2 ^ 32 - (d.sec i).stamp) % 2 ^ 32
     Does (.sectorExpiry core id k) s fun t => t.mem = s.mem ∧
       ((∀ g ∈ s.groups, ∀ w, (g.arm w).barw = none) → t.groups = s.groups) ∧
       (d.kind = .scratch → ∀ g ∈ s.groups, ∀ w b, (g.arm w).barw = some b → b.core = core → b.desc = id → b.broke = none → old b.sector →
         d.secs.look b.sector ≠ none → ∃ h ∈ t.groups, h.key = g.key ∧ (h.arm w).barw = some { b with broke := some .lost }) ∧
       (d.kind = .mapped → t = s) ∧
       (d.kind = .scratch → ∃ e, t.desc? core id = some e ∧ e.bytes = d.bytes ∧
         ∀ i, (old i → d.secs.look i ≠ none ∨ d.secs.length < d.leaves * 16 → e.sec i = { d.sec i with st := .lost }) ∧
           (¬old i → e.sec i = d.sec i)) ∧
       (d.kind = .derived → d.anySec (fun x => x.st == .good && decide (d.life ≤ x.age now)) = true →
         ∃ e, t.desc? core id = some e ∧ e.dropped = true ∧ e.leafs = [])) ∧
  (∀ (s : State) (core id leaf n : Nat) (bad : List Nat) (d : Desc), s.desc? core id = some d → d.kind = .scratch →
     (d.leafs.look leaf).isSome = true →
     let now := s.rclk core
     let kept := 0 < s.pins core id ∨ s.teamSaved d.team = true
     Does (.scrubberVisit core id leaf bad n) s fun t => (t.coreAt core).corrected = (s.coreAt core).corrected + n ∧
       t.mem = s.mem ∧ ∃ e, t.desc? core id = some e ∧ e.bytes = d.bytes ∧
         ∀ i, e.sec i = if i / 16 ≠ leaf then d.sec i else if i % 16 ∈ bad then { d.sec i with st := .poisoned }
           else if kept ∧ 40 ≤ (now + 2 ^ 32 - (d.sec i).stamp) % 2 ^ 32 ∧ (d.sec i).st = .good then { d.sec i with stamp := now }
           else d.sec i) ∧
  ((∀ (s s' : State) (core id sector : Nat) (d : Desc) (tm : Team) (pa key : Nat),
     s.desc? core id = some d → d.kind = .mapped → (d.sec sector).present = false → s.teams.look d.team = some tm →
     s.translate tm.part core .read (d.mapva + 128 * sector) = .ok pa key → s.takeLeaf core id (sector / 16) 0 = some s' →
     (∃ g ∈ s.groups, ∃ w p, (g.arm w).park = some p ∧ Cause.sector core id sector ∈ p.causes) →
     Does (.mappedFill core id sector) s fun t =>
       (∃ e, t.desc? core id = some e ∧ (e.leafs.look (sector / 16)).isSome = true ∧ e.sec sector =
         ⟨s.rclk core, if (s'.recall (pa / 128)).poisonAt pa 128 then .poisoned else .good, true, false, true, pa / 128⟩) ∧
       ∀ g ∈ t.groups, ∀ w p, (g.arm w).park = some p → Cause.sector core id sector ∉ p.causes) ∧
   (∀ (s : State) (core id sector : Nat),
     (∀ g ∈ s.groups, ∀ w p, (g.arm w).park = some p → Cause.sector core id sector ∉ p.causes) →
     exec (.mappedFill core id sector) s = .next s) ∧
   ∀ (s : State) (core id line k : Nat) (y : Crib), Tbl.rising s.cores = true →
     Tbl.rising (s.coreAt core).cribs = true → s.crib? core id = some y → (line, k) ∈ y.watch →
     (Does (.cribWatchHit line) s fun t => t.mem = s.mem ∧ ∀ z, t.crib? core id = some z → z.st = .stale) ∧
     ∀ own, (∀ w ∈ y.watch, w.1 = line → (y.srcs[w.2]?).map (cribSource core) = some own) →
       (core, id) ∉ s.watchers line (some own))

/-- R155, R156, R212, R232: An engine moves the next chunk of the request it serves, after a gather has read its index slate: its bytes are
charged to its partition's budget and the request's position moves on; the last chunk frees the command record, and a chunk that fails
records its trap kind; in both cases the request leaves the engine and its operation ends. A chunk that meets a page not present pauses its
request on the page's ticket. A paused request that is served next resumes. Every 10 µs a partition's budget is its share × 10,000 bytes.
Where chunks end is the model's reading (log 22, log 97). A response that names a ticket takes it off the partition's list; an arm that
waited on it waits no more, and a rejected one remembers the page. A ticket that has gone unanswered for 100 ms is reported once. -/
def Obligations.EnginesMoveChunks : Prop :=
  ((∀ (s : State) (e : Nat) (q : GKey × Nat) (g : Group) (r0 r : CmdRec) (sr : State), s.pm.stopped = false → s.nextRequest e = some q →
     s.request q = some (g, r0) → (g.endOp s.cnt.steps r0.op).done = false →
     let s0 := (s.modRec q fun y => { y with st := 1 }).modEngine e fun x => { x with cur := some q }
     let s0 := if r0.unread then s0.claimPages g.part (s0.indexWalks g r0) else s0
     let s1 := (sr.chunkSetup g r).walkAhead g r
     let left := fun (t : State) (h : Group) => t.groupAt q.1 = some h ∧ h.ops.look r0.op = none ∧ q ∉ (t.engineAt e).queue
     let read := s0.readIndices g r0 = .ok (sr, r)
     (∀ k poison, s0.readIndices g r0 = .error (.fail k poison) ∨ read ∧ s1.chunk g r = .error (.fail k poison) →
       Does (.engineChunkDone e) s fun t => (∀ a, t.mem.byte a = s.mem.byte a) ∧ ∃ h y, left t h ∧
         h.eng.recs.look q.2 = some y ∧ y.st = 3 ∧ y.fkind = some k ∧ y.fchunk = r0.next ∧ y.fpoison = poison) ∧
     (∀ va access level, s0.readIndices g r0 = .error (.wait va access level) ∨
         read ∧ s1.chunk g r = .error (.wait va access level) →
       Does (.engineChunkDone e) s fun t => (t.engineAt e).cur = none ∧ (t.engineAt e).queue = (s.engineAt e).queue ∧
         ∃ h y, t.groupAt q.1 = some h ∧ h.eng.recs.look q.2 = some y ∧ y.st = 2 ∧ y.ticket.isSome = true ∧ y.unit = r0.unit ∧
           y.next = r0.next) ∧
     ∀ s2 v, read → s1.chunk g r = .ok (s2, v) →
       let last := decide (r.job.units ≤ v)
       let n := (r.job.dest r.fmt.planes (v - 1)).2 - (r.job.dest r.fmt.planes r.unit).1
       (last = true → s2.groupAt q.1 = s1.groupAt q.1 → Does (.engineChunkDone e) s fun t =>
         (∃ h, left t h ∧ h.eng.recs.look q.2 = none) ∧
         (t.engineAt e).budgetOf g.part = (s2.engineAt e).budgetOf g.part - (n : Int)) ∧
       (last = false → s2.groupAt q.1 = s1.groupAt q.1 →
         ((n : Int) < (s2.engineAt e).budgetOf g.part ∨ ∀ y ∈ (s2.engineAt e).queue, y = q) →
         Does (.engineChunkDone e) s fun t =>
           (∃ h y, t.groupAt q.1 = some h ∧ h.eng.recs.look q.2 = some y ∧ y.unit = v ∧ y.next = r0.next + 1 ∧
             y.moved = r0.moved + n ∧ y.st = 1) ∧
           (t.engineAt e).budgetOf g.part = (s2.engineAt e).budgetOf g.part - (n : Int))) ∧
   (∀ (s : State) (e k : Nat) (q : GKey × Nat) (g : Group) (r : CmdRec), (s.engineAt e).queue[k]? = some q →
     s.nextRequest e = some q → (s.engineAt e).cur = none → s.request q = some (g, r) →
     Does (.engineResume e k) s fun t => (t.engineAt e).cur = some q ∧ (t.engineAt e).queue = (s.engineAt e).queue ∧
       t.mem = s.mem ∧ ∃ h, t.request q = some h ∧ h.2 = { r with st := 1 }) ∧
   ∀ s : State, Does .engineBudgetPeriod s fun t => t.mem = s.mem ∧ t.groups = s.groups ∧
     ∀ e x, s.engines.look e = some x → (t.engineAt e).queue = x.queue ∧ (t.engineAt e).cur = x.cur ∧
       let sum := ((s.engineParts e).map fun p => (s.par p).engw).sum
       ∀ p, p ∈ s.engineParts e → 0 < sum →
         (t.engineAt e).budgetOf p = (((if e < 96 then 256 else if e < 128 then 512 else 128) * (s.par p).engw * 10000 / sum : Nat) : Int)) ∧
  ((∀ (s s' : State) (p id : Nat) (x : Part) (k : Ticket) (l : List Byte) (reject : Bool), (s.parts.look p).isSome = true →
     s.ringPop p (s.par p).respRing = (s', some l) → s'.parts.look p = some x → 0 < id → id < 2 ^ 32 →
     (∀ t ∈ x.tickets, t.sent = true) → x.tickets.find? (fun t => t.id == id) = some k →
     fieldAt l 0 8 = id + (if reject then 2 ^ 32 else 0) → (∀ i, 0 < i → i < 8 → fieldAt l (8 * i) 8 = 0) →
     s'.fab.held = [] → s'.swaps = [] → (∀ g ∈ s'.groups, g.eng.recs = []) →
     Does (.faultResponse p) s fun t =>
       (∃ y, t.parts.look p = some y ∧ ∀ j ∈ y.tickets, j.id ≠ id) ∧
       (∀ g ∈ t.groups, g.part = p → ∀ w j, (g.arm w).park = some j → ∀ lanes, Cause.ticket id lanes ∉ j.causes) ∧
       ∀ g ∈ s'.groups, g.part = p → ∀ w j lanes, (g.arm w).park = some j → reject = true → lanes ≠ 0 →
         Cause.ticket id lanes ∈ j.causes →
         ∃ h ∈ t.groups, h.key = g.key ∧ ∃ y, (h.arm w).park = some y ∧ ∃ z ∈ y.rejected, z.1 = k.page) ∧
   ∀ (s : State) (p id : Nat) (x : Part) (k : Ticket), s.parts.look p = some x →
     x.tickets.find? (fun t => t.id == id) = some k →
     (k.stalled = true ∨ s.pm.time < k.time + 100000000 → exec (.faultStall p id) s = .next s) ∧
     (k.stalled = false → k.time + 100000000 ≤ s.pm.time → Does (.faultStall p id) s fun t =>
       t.mem = s.mem ∧ (∃ e ∈ t.pm.events, e = ⟨0x49, [p, id]⟩) ∧
       ∃ y, t.parts.look p = some y ∧ ∀ j ∈ y.tickets, j.id = id → j.stalled = true))

/-- R188, R189, R204–R206, R190, R207, R25, R34, R62: A tray whose bell has run out is ready; a spilled record is read back from its place in
device memory, and joins its type's tray where that has room. NOTIFY maps a queue in a free slot, or in that of a queue that gives way, and
clears its roll bit; one whose descriptor is no good is reported and its bit cleared; with no slot to be had the bit stays, STARVED counts
one more and that is reported. A queue that is idle leaves its slot. TEAM_PLACEMENT of work that fits at a core of the cluster chosen: the
team stands there with the records it takes, which memory holds as its record block; each of its groups starts at the entry with the number
of records in s1 and the type in s2. No other byte of memory changes. Here where no crib watches the record block. That the record block is
physical and under the partition's key is deduced (log 38), and the places in the context pool are the model's choice (log 16). -/
def Obligations.RecordsMoveAndTeamsArePlaced : Prop :=
  ((∀ (s : State) (die n : Nat) (y : Tray), (s.dieAt die).trays.look n = some y → y.ready = false → y.recs ≠ [] →
     let bell := TaskEntry.bell (s.rawEntry y.part y.type)
     bell ≠ 0 → y.bell + 64 * bell ≤ s.pm.time → Does (.bellExpiry die n) s fun t =>
       (t.dieAt die).trays.look n = some { y with ready := true, since := s.pm.time } ∧ t.mem = s.mem ∧
       ∀ k, k ≠ n → (t.dieAt die).trays.look k = (s.dieAt die).trays.look k) ∧
   (∀ (s : State) (p n : Nat) (x : Part) (e : Spilled) (rest : List Spilled) (y : Tray), s.parts.look p = some x →
     x.spill = e :: rest → x.home = [] → x.mapped = [] → (∀ h ∈ s.fab.held, h.ticket ≠ 0 ∨ h.part ≠ p) →
     let r := s.spillRead p e
     let at' := (s.par p).spillBase + 16 * e.slot
     (s.mem.frameOk at' (s.par p).hdmKey = true → r.lo = BitVec.ofNat 64 (s.mem.num at' 8) ∧ r.hi = BitVec.ofNat 64 (s.mem.num (at' + 8) 8)) ∧
     (s.openTray p e.die r.type = some (n, y) → y.recs.length < 64 →
       Does (.spillMove p) s fun t => (∃ z, t.parts.look p = some z ∧ z.spill = rest) ∧ t.mem = s.mem ∧
         ∃ z, (t.dieAt e.die).trays.look n = some z ∧ z.recs = y.recs ++ [r] ∧ z.part = y.part ∧ z.type = y.type)) ∧
   (∀ (s : State) (p : Nat) (q : BitVec 6) (x : Part), s.parts.look p = some x →
     let i := Instr.notify p q
     (x.fenced = true ∨ s.pm.stopped = true ∨ s.hostUp = false → exec i s = .next s) ∧
     (x.fenced = false → s.pm.stopped = false → s.hostUp = true → (∀ slot m, x.mapped.look slot = some m → m.q ≠ q.toNat) →
       Tbl.rising x.mapped = true →
       (∀ slot, s.freeQSlot p = some slot →
         (s.queueDesc p q.toNat = none → Does i s fun t => (∃ e ∈ t.pm.events, e = ⟨0x44, [p, q.toNat]⟩) ∧
           ∃ y, t.parts.look p = some y ∧ y.mapped = x.mapped ∧ y.roll.getLsbD q.toNat = false) ∧
         ∀ m, s.queueDesc p q.toNat = some m → Does i s fun t => ∃ y, t.parts.look p = some y ∧
           y.roll.getLsbD q.toNat = false ∧ ∃ m', y.mapped.look slot = some m' ∧ m'.q = q.toNat ∧ m'.deficit = 0) ∧
       (s.freeQSlot p = none →
         (∀ slot old m, (x.mapped.filter fun y => y.2.preempt && x.par.slots.getLsbD y.1) = [(slot, old)] →
           s.residentTeams p old.q = [] → s.queueDesc p q.toNat = some m → Does i s fun t => ∃ y, t.parts.look p = some y ∧
             y.roll.getLsbD q.toNat = false ∧ ∃ m', y.mapped.look slot = some m' ∧ m'.q = q.toNat ∧ m'.deficit = 0) ∧
         ((∀ slot m', x.mapped.look slot = some m' → m'.preempt = false) →
           Does i s fun t => (∃ e ∈ t.pm.events, e = ⟨0x42, [p, q.toNat]⟩) ∧
             ∃ y, t.parts.look p = some y ∧ y.mapped = x.mapped ∧ y.roll.getLsbD q.toNat = true ∧
               y.starved = min (x.starved + 1) (2 ^ 32 - 1))))) ∧
   ∀ (s : State) (p slot : Nat) (x : Part) (m : MapQ), s.parts.look p = some x → x.mapped.look slot = some m → x.fenced = false →
     (s.queueIdle p m = false → exec (.queueSlotFree p slot) s = .next s) ∧
     (s.queueIdle p m = true → x.roll = 0 → Does (.queueSlotFree p slot) s fun t => t.mem = s.mem ∧ t.teams = s.teams ∧
       ∃ y, t.parts.look p = some y ∧ y.mapped.look slot = none ∧ ∀ k, k ≠ slot → y.mapped.look k = x.mapped.look k)) ∧
  (∀ (s : State) (p core block : Nat) (x : Part) (w : Work), s.parts.look p = some x → x.fenced = false → s.pm.stopped = false →
     s.pickWork p = some (w, none) →
     let e := s.rawEntry p w.type
     let k := Khdr.ofWord (TaskEntry.khdr e)
     let n := s.workTakes p w
     let data := (w.recs.take n).flatMap Rec.bytes
     s.bestCluster p k (TaskEntry.pages e) n w = some (core / 4) → s.fitsAt p k (TaskEntry.pages e) n core w.launch = true →
     s.recRoom p n = some block → (∀ a, block ≤ a → a < block + data.length → s.watchers (a / 128) = []) →
     Does (.teamPlacement p core) s fun t => t.cnt.team = s.cnt.team + 1 ∧
       (∃ y, t.teams.look s.cnt.team = some y ∧ y.part = p ∧ y.type = w.type ∧ y.core = core ∧ y.recs = w.recs.take n ∧
         y.recBlock = block ∧ y.start = s.pm.time ∧ y.pre = .none ∧ y.retired = []) ∧
       (∀ j, j < k.groups → ∃ g ∈ t.others, g.gid = j ∧ g.team = s.cnt.team ∧ g.part = p ∧ g.live = true ∧
         g.a0.pc = TaskEntry.entry e ∧ Tbl.get 0 g.regs.s 1 = BitVec.ofNat 64 n ∧ Tbl.get 0 g.regs.s 2 = BitVec.ofNat 64 w.type ∧
         g.regs.v = [] ∧ g.regs.m = [] ∧ g.regs.z = [] ∧ g.regs.zver = [] ∧ g.a0.flags = [] ∧ g.tr = TrapRegs.zero) ∧
       ∀ a, t.mem.byte a = if block ≤ a ∧ a < block + data.length then data.getD (a - block) 0 else s.mem.byte a)

/-- R175, R213–R215, R63, R70, R71, R117, R215, R67–R70, R132, R162, R236: A team that is pre-empted is saved, drained or discarded by the first
row of the table that holds, with its deadline; one that drains already is chosen for afresh with the earlier deadline, and one whose save
or discard is in progress goes on with it, under the earlier deadline. A team that drains holds no reservation. A drain becomes a save at
the deadline, and a team not gone by then is counted once. AVGRUN is kept as log 30 says; of two deadlines the earlier stands (log 96). A
save, or a discard, that nothing holds up any more ends with the team off its cores, and the saved groups keep their registers; a saved team
that fits at a core, where its leaves are to be had, is resident there again, and a group that comes back to its own slot is as it was. Here
with no waiter at a ring and no replay chain. The blocks of a context image: a save writes the scalars, masks m1 to m15 and the engine block
there, a dirty vector line is written to its place when the register cache lets it go, and an accumulator, with its version, when it is
copied out. A frame that is owned under another key is not written. The places of images are the model's choice (log 16). -/
def Obligations.PreemptionSavesAndRestores : Prop :=
  (∀ (s : State) (team : Nat) (tm : Team), s.teams.look team = some tm →
     (∀ (asked acc leaves : Nat),
       let i := Instr.preemptionRequest team asked acc leaves
       let deadline : Nat := match tm.pre, tm.deadline with
         | .drain, some d => min d asked
         | _, _ => asked
       let gs := s.groups.filter fun g => g.team == team && g.replayId.isNone
       let pol := s.prepolOf tm.part (tm.core / 4)
       let save := pol = 3 ∨ ∃ g ∈ gs, g.tr.tm = true ∨ g.swapping = true
       let drain := pol ≠ 1 ∧ ∃ x a, s.parts.look tm.part = some x ∧ x.avgrun.look tm.type = some a ∧ a ≠ 0xFFFF_FFFF ∧
         ((1000 * a : Nat) : Int) - (s.pm.time - tm.start : Nat) ≤ (deadline : Int) - s.pm.time
       let discard := pol ≠ 2 ∧ ∀ g ∈ gs, g.rg.inside = true ∧
         s.pm.time ≤ g.rg.entered + 2 * (2000 + (16448 * acc + 2048 * leaves) / 64)
       let goes := fun (i : Instr) (c : PreSt) => Does i s fun t => t.mem = s.mem ∧
         t.teams.look team = some { tm with pre := c, deadline := some deadline, needAcc := acc, needLeaves := leaves
                                            late := tm.late && decide (tm.pre = .drain) } ∧
         (∀ k, k ≠ team → t.teams.look k = s.teams.look k) ∧
         (c = .drain → ∀ g ∈ gs, ∃ h ∈ t.groups, h.key = g.key ∧ h.regs = g.regs ∧ ∀ w, (h.arm w).resv = [])
       let chooses := fun (i : Instr) => (save → goes i .saving) ∧ (¬save → drain → goes i .drain) ∧
         (¬save → ¬drain → discard → goes i .discard) ∧ (¬save → ¬drain → ¬discard → goes i .saving)
       (tm.pre = .saved → exec i s = .next s) ∧
       (tm.pre = .saving ∨ tm.pre = .discard → Does i s fun t => t = { s with teams := t.teams } ∧
         t.teams.look team = some { tm with deadline := some (match tm.deadline with | some d => min d asked | none => asked) } ∧
         ∀ k, k ≠ team → t.teams.look k = s.teams.look k) ∧
       (tm.pre = .none ∨ tm.pre = .drain → chooses i) ∧
       (∀ x, tm.pre = .none ∨ tm.pre = .drain → acc = 0 → leaves = 0 → s.parts.look tm.part = some x → x.fenced = false →
         chooses (.preEmptTeam team asked))) ∧
     (tm.pre = .none ∨ tm.pre = .saved ∨ (∀ d, tm.deadline = some d → s.pm.time < d) → exec (.preemptDeadline team) s = .next s) ∧
     ∀ d, tm.pre = .drain → tm.deadline = some d → d ≤ s.pm.time → Does (.preemptDeadline team) s fun t => t.mem = s.mem ∧
       (∃ y, t.teams.look team = some y ∧ y.pre = .saving ∧ y.deadline = some d) ∧
       ∀ x, s.parts.look tm.part = some x → ∃ y, t.parts.look tm.part = some y ∧
         y.late = if tm.late = false ∧ d < s.pm.time then min (x.late + 1) (2 ^ 32 - 1) else x.late) ∧
  ((∀ (s : State) (team : Nat) (tm : Team), s.teams.look team = some tm → tm.pre = .saving ∨ tm.pre = .discard →
     s.waits = [] → (∀ c x, s.cores.look c = some x → x.chains = []) → (s.groups.map (·.key)).Nodup →
     let gs := s.groups.filter fun g => g.team == team && g.replayId.isNone
     (gs.all (Group.saves (decide (tm.pre = .discard))) = false → exec (.saveComplete team) s = .next s) ∧
     (gs.all (Group.saves (decide (tm.pre = .discard))) = true → Does (.saveComplete team) s fun t =>
       ∃ y, t.teams.look team = some y ∧ y.pre = .saved ∧ y.deadline = none ∧ y.part = tm.part ∧
         ∀ g ∈ gs, t.groupAt g.key = none ∧ ∃ h ∈ y.saved, h.key = g.key ∧ h.regs = g.regs ∧ h.tr = g.tr)) ∧
   ∀ (s : State) (team core : Nat) (tm : Team) (x : Part), s.teams.look team = some tm → tm.pre = .saved →
     s.parts.look tm.part = some x → x.fenced = false → s.pm.stopped = false → s.resumesAt tm team core = true →
     (s.resumeTeam team core tm).isSome = true → Does (.teamResume team core) s fun t =>
       (∃ y, t.teams.look team = some y ∧ y.pre = .none ∧ y.core = core ∧ y.saved = []) ∧
       ∀ g, tm.saved = [g] → core = tm.core → g.key.core = core → tm.pair = false → (Khdr.ofWord tm.khdr).groups ≤ 16 →
         g.key.slot < 32 → s.ctxIdle core g.key.slot = true →
         ∃ h ∈ t.others, h.key = g.key ∧ h.regs = g.regs ∧ h.a0 = g.a0 ∧ h.a1 = g.a1 ∧ h.tr = g.tr ∧ h.rg = g.rg) ∧
  (∀ (s : State) (g : Group),
     let scalars := g.img + 4 * g.shape.vregs * g.shape.width
     let key := (s.par g.part).hdmKey
     let ours := fun lo n => ∀ a, lo ≤ a → a < lo + n → s.mem.frameOk a key = true
     let t := s.writeImage g
     (∀ a, s.mem.frameOk a key = false → t.mem.byte a = s.mem.byte a) ∧
     (ours scalars 0x480 → ∀ k, k < 128 → t.mem.num (scalars + 8 * k) 8 = (Tbl.get 0 g.regs.s k).toNat) ∧
     (ours scalars 0x480 → ∀ k, 1 ≤ k → k < 16 → t.mem.num (scalars + 0x400 + 8 * k) 8 = (Tbl.get 0 g.regs.m k).toNat) ∧
     (ours (g.img + g.engAt) 0x48 → t.mem.num (g.img + g.engAt) 4 = g.eng.openSet.toNat ∧
       ∀ b, b < 16 → t.mem.num (g.img + g.engAt + 8 + 4 * b) 4 = (Tbl.get 0 g.eng.batches b).toNat) ∧
     (∀ a, a < scalars ∨ g.img + g.engAt + 0x4100 ≤ a → t.mem.byte a = s.mem.byte a) ∧
     (∀ (n : Nat) (x : VLine), x.dirty = true → n < g.shape.vregs → n < 256 →
       ours (g.img + 4 * n * g.shape.width) (4 * g.shape.width) → ∀ l, l < g.shape.width →
       (s.evictLine g n x).mem.num (g.img + 4 * (n * g.shape.width + l)) 4 = (Tbl.get 0 g.regs.v (64 * n + l)).toNat) ∧
     ∀ z i, i < 4096 → ours (g.img + g.accAt z) 0x4100 → (s.accOut g z).mem.num (g.img + g.accAt z + 4 * i) 4 = (Tbl.get 0 g.regs.z (4096 * z + i)).toNat ∧
       (s.accOut g z).mem.num (g.img + g.accAt z + 0x4000) 2 = g.regs.ver z % 2 ^ 16)

/-- R30, R32, R38, R39, R208, R209, R211, R252, R255, R209–R211, R23, R219–R222, R216, R218: A core's ready control threads are offered an
opportunity in order: replay groups, groups that have not issued for 1,024 opportunities, the others, each from the oldest; those whose
clause had YIELDH last. The arm that defers keeps it, else one whose ageing counter is 63 comes first. A vector instruction fits where the
vector slot is free or holds its class, in free quads as its width needs, a LEGACY group's quads 0 and 1; matrix instructions and engine
requests share it with nothing; a group issues once, and one scalar instruction fits. Throttled at t, vector memory instructions and engine
requests issue at opportunities whose number is a multiple of 2^t. Charged quarters come off the deficit. Every 100 µs a queue with teams or
ready work receives WEIGHT × 2^16 core-cycles, up to 2^24; every 1 ms the only queue 2^20 behind one with work that fits nowhere has its
team pre-empted; every 1 µs the clusters of a partition above its share raise their throttle, up to 4; others lower it. Every 100 µs the
quotas add up to the pool, which does not grow while a die is hot; each partition has its cluster count where the pool covers those, else
one where it can. A thermal cap limits, then the external throttle, then the lowest module-wide limit where power is due, then the own cap;
power is shed rank by rank from the highest, in one rank by equal fractions, to the floor. A partition limited below a broadcast's rank is
reported. Its power is what it would draw uncapped. CAPSRC is active exactly while its cap is in force. The model's choice: a cycle's end
(log 90), the caps' order and module and current limits' shedding (log 94), inputs (log 19); deduced: opportunities kept (log 28), quarters
(log 37), YIELDH (log 49), power (log 31). EXAM_START of the core whose turn it is pre-empts its pair's teams by TIME + 1 ms, and starts the
exam, the store empty, once none stands there. EXAM_END 5 ms later: a pass counts from its start, a failure quarantines the core and is
reported. -/
def Obligations.PeriodsAndExams : Prop :=
  ((∀ (s : State) (core : Nat) (hint : Who), (s.groups.map (·.key)).Nodup → (∀ g ∈ s.groups, g.team * 32 + g.gid < 2 ^ 80) →
     let late := fun g : Group => g.lastIssue + 1024 ≤ (s.coreAt core).opps
     (∀ k w, (k, w) ∈ s.offered core hint → ∃ g, s.groupAt k = some g ∧ k.core = core ∧ s.coreRuns g = true ∧
       g.ready w = true ∧ w ≠ .mon) ∧
     (∀ g ∈ s.groups, g.key.core = core → s.coreRuns g = true → (g.ready .arm0 = true ∨ g.ready .arm1 = true) →
       ∃ w, (g.key, w) ∈ s.offered core hint) ∧
     (∀ g : Group, g.yields = true ↔ ∀ w, w ≠ .mon → g.ready w = false ∨ ((g.arm w).hint = true ∧ (g.arm w).cl.left = 0)) ∧
     (s.offered core hint).Pairwise fun a b => ∀ g h, s.groupAt a.1 = some g → s.groupAt b.1 = some h →
       (g.yields = true → h.yields = true) ∧
       (g.yields = h.yields → (h.replayId.isSome = true → g.replayId.isSome = true) ∧
         (g.replayId.isSome = h.replayId.isSome →
           (g.replayId.isSome = false → late h → late g) ∧
           (g.replayId.isSome = true ∨ (late g ↔ late h) → g.team * 32 + g.gid ≤ h.team * 32 + h.gid)))) ∧
   (∀ (g : Group) (hint w : Who), w ≠ .mon → g.ready w = true → (g.arm (otherArm w)).defers = false →
     ((g.arm w).defers = true → g.armOrder hint = [w]) ∧
     ((g.arm w).defers = false → 63 ≤ (g.arm w).age → (g.arm (otherArm w)).age < 63 → (g.armOrder hint).head? = some w)) ∧
   (∀ (c c' : Cycle) (k : GKey) (cls m : Nat) (shape : Shape) (q : Nat × Nat), c.quads < 16 →
     c.add k cls shape q = some (c', m) →
     k ∉ c.issued ∧ c'.issued = k :: c.issued ∧
     (cls = 0 → c.scalar = none ∧ c'.scalar = some q ∧ c'.quads = c.quads ∧ m = 0) ∧
     (cls ≠ 0 → (c.quads = 0 ∨ (c.cls = cls ∧ cls < 5)) ∧ c'.cls = cls ∧ c'.scalar = c.scalar ∧
       (shape.legacy = true → m = 3) ∧
       (shape.legacy = false → quadCount m = if shape.width ≤ 16 then 1 else if shape.width ≤ 32 then 2 else 4) ∧
       quadCount c'.quads = quadCount c.quads + quadCount m ∧ c'.quads < 16)) ∧
   (∀ (s : State) (g : Group) (cls : Nat) (x : Part), s.parts.look g.part = some x →
     (s.throttled g cls = true ↔
       (cls = 4 ∨ cls = 6) ∧ (s.coreAt g.key.core).opps % 2 ^ Tbl.get 0 x.throttle (g.key.core / 4) ≠ 0)) ∧
   ∀ (s : State) (p n slot : Nat) (x : Part) (m : MapQ), s.parts.look p = some x → x.mapped.look slot = some m →
     ∃ y m', (s.charge (p, m.q) (n : Int)).parts.look p = some y ∧ y.mapped.look slot = some m' ∧ m'.quarters < 4 ∧
       4 * m'.deficit - (m'.quarters : Int) = 4 * m.deficit - (m.quarters : Int) - (n : Int)) ∧
  ((∀ s : State, Does .deficitCreditPeriod s fun t => t.mem = s.mem ∧ t.groups = s.groups ∧ t.teams = s.teams ∧
     ∀ p x slot m, s.parts.look p = some x → x.mapped.look slot = some m →
       let busy := (∃ y ∈ s.teams, y.2.part = p ∧ y.2.queue = m.q ∧ y.2.pre ≠ .saved) ∨ s.hasWork p m.q = true
       ∃ x' m', t.parts.look p = some x' ∧ x'.mapped.look slot = some m' ∧ m'.q = m.q ∧
         (busy → m'.deficit = min (2 ^ 24) (m.deficit + m.weight * 2 ^ 16)) ∧ (¬busy → m'.deficit = m.deficit)) ∧
   (∀ (s : State) (p : Nat) (x : Part), s.parts.look p = some x →
     let stuck := (s.trayWork p ++ s.gridWork p).filter fun w => (s.workFails p w).isNone && (s.takerOf p w).isNone
     (stuck = [] → exec (.deficitCompare p) s = .next s) ∧
     ∀ (w : Work) (r : MapQ) (team : Nat) (tm : Team), stuck = [w] →
       (x.mapped.vals.filter fun m => m.preempt && m.q != w.queue && decide (m.deficit + 2 ^ 20 ≤ s.deficitOf p w.queue) &&
         (s.residentTeams p m.q).any fun y => y.2.pre == .none) = [r] →
       ((s.residentTeams p r.q).filter fun y => y.2.pre == .none) = [(team, tm)] → s.teams.look team = some tm →
       Does (.deficitCompare p) s fun t => t.mem = s.mem ∧ ∃ y, t.teams.look team = some y ∧ y.pre ≠ .none ∧
         y.deadline = some (s.pm.time + 1000 * r.deadline)) ∧
   ∀ (s : State) (busy : Bool) (shares : List (Nat × Nat)), Does (.bandwidthPeriod busy shares) s fun t =>
     t.mem = s.mem ∧ t.groups = s.groups ∧ ∀ p x, s.parts.look p = some x → ∃ y, t.parts.look p = some y ∧ y.par = x.par ∧
       ∀ c, c < 48 → let n := Tbl.get 0 x.throttle c
         Tbl.get 0 y.throttle c = if x.par.clbase ≤ c ∧ c ≤ x.par.cllimit then
           (if busy = true ∧ x.par.bwshare < (assoc shares p).getD 0 then min 4 (n + 1) else n - 1) else n) ∧
  ((∀ (s : State) (n base : Nat) (draws : List (Nat × Nat × Nat)), Tbl.rising s.parts = true →
     let size := min (min n 768) (if s.hot then s.pm.pool else 768)
     let clusters := fun (x : Part) => x.par.cllimit + 1 - x.par.clbase
     let power := fun (p : Nat) (x : Part) => (((draws.find? fun d => d.1 == p).map (·.2)).getD (0, x.par.pcap))
     let load := s.parts.map fun y => (y.1, y.2.par.rank, min (power y.1 y.2).1 y.2.par.pcap, (power y.1 y.2).2)
     let drawn := base + (load.map (·.2.2.1)).sum
     let sheds := fun (p : Nat) (c : CapCode) (h : Option Nat) => ∃ w, s.moduleLimit = some (c, w) ∧ p ∈ shedAll (drawn - w) load ∧
       h = assoc (heldAll (drawn - w) load) p
     let low := fun (p : Nat) (x : Part) (k : Nat) => (∃ h, sheds p .broadcast h) ∧ s.capHolds x.par .thermal = false ∧
       s.pm.external = false ∧ x.par.rank < k
     (∀ p x, s.parts.look p = some x → x.par.clbase ≤ x.par.cllimit) →
     Does (.poolPeriod n ⟨base, draws⟩) s fun t => t.pm.pool = size ∧ t.mem = s.mem ∧
       (s.parts ≠ [] → (t.parts.map fun y => y.2.quota).sum = size) ∧
       ∀ p x, s.parts.look p = some x → ∃ y, t.parts.look p = some y ∧ y.par = x.par ∧
         ((s.parts.map fun z => clusters z.2).sum ≤ size → clusters x ≤ y.quota) ∧
         (s.parts.length ≤ size → 1 ≤ y.quota) ∧ (s.parts.length > size → y.quota ≤ 1) ∧
         y.dry = (if y.quota = 0 then x.dry + 1 else 0) ∧
         ∃ c, y.capsrc.active = s.capHolds x.par c ∧ (y.capsrc.active = true → y.capsrc.src = c) ∧
           (s.capHolds x.par .thermal = true → c = .thermal ∧ y.held = none) ∧
           (s.capHolds x.par .thermal = false → s.pm.external = true → c = .external ∧ y.held = none) ∧
           (s.capHolds x.par .thermal = false → s.pm.external = false → (∀ k h, sheds p k h → c = k ∧ y.held = h) ∧
             ((∀ k h, ¬sheds p k h) → (x.par.pcap < (power p x).1 → c = .partition ∧ y.held = some x.par.pcap) ∧
               (¬x.par.pcap < (power p x).1 → c = .none ∧ y.held = none))) ∧
           ∀ w k, s.pm.broadcast = some (w, k) → (p ∈ t.pm.below ↔ low p x k) ∧
             (low p x k → p ∉ s.pm.below → s.parts.length ≤ 16 → ∃ e ∈ t.pm.events, e = ⟨0x41, [p, k]⟩)) ∧
   (∀ (n due p v : Nat) (l : List (Nat × Nat × Nat × Nat)), (p, v) ∈ heldRank n due l →
     ∃ x ∈ l, x.1 = p ∧ min x.2.2.1 x.2.2.2 ≤ v ∧ v ≤ x.2.2.1) ∧
   (∀ (n due : Nat) (l : List (Nat × Nat × Nat × Nat)), let sum := (l.map (·.2.2.1)).sum
     (∀ x ∈ l, due * x.2.2.1 ≤ (x.2.2.1 - x.2.2.2) * sum) →
     heldRank (n + 1) due l = l.map fun x => (x.1, x.2.2.1 - (due * x.2.2.1 + sum - 1) / sum)) ∧
   (∀ (due p : Nat) (l : List (Nat × Nat × Nat × Nat)), p ∈ shedAll due l ↔
     ∃ x ∈ l, x.1 = p ∧ x.2.1 ≤ 7 ∧ x.2.2.2 < x.2.2.1 ∧
       ((l.filter fun y => decide (x.2.1 < y.2.1 ∧ y.2.1 ≤ 7)).map fun y => y.2.2.1 - y.2.2.2).sum < due) ∧
   ∀ (s : State) (c : CapCode) (w : Nat), s.moduleLimit = some (c, w) →
     (∀ v, s.pm.moduleCap = some v → w ≤ v) ∧ (∀ v, s.pm.current = some v → w ≤ v) ∧
     (∀ v k, s.pm.broadcast = some (v, k) → v ≠ 2800 → w ≤ v) ∧
     ((c = .module ∧ s.pm.moduleCap = some w) ∨ (c = .current ∧ s.pm.current = some w) ∨
       (c = .broadcast ∧ ∃ k, s.pm.broadcast = some (w, k)))) ∧
  ((∀ (s : State) (core : Nat), core < 192 → s.pm.stopped = false → s.examNext core = true →
     Tbl.rising (s.coreAt core).descs = true →
     (s.pairTeams core = [] → Does (.examStart core) s fun t => (t.coreAt core).exam.running = true ∧
       (t.coreAt core).exam.wanted = false ∧ (t.coreAt core).exam.started = s.pm.time ∧
       (t.coreAt core).exam.lastPass = (s.coreAt core).exam.lastPass ∧ t.teams = s.teams ∧
       ∀ id d, t.desc? core id = some d → d.leafs = []) ∧
     (s.pairTeams core ≠ [] → (s.coreAt core).exam.wanted = false → Does (.examStart core) s fun t =>
       (t.coreAt core).exam.wanted = true ∧ (t.coreAt core).exam.running = (s.coreAt core).exam.running ∧
       ∀ i ∈ s.pairTeams core, ∀ tm, s.teams.look i = some tm →
         (tm.pre = .none → ∃ y, t.teams.look i = some y ∧ y.pre ≠ .none ∧ y.deadline = some (s.pm.time + 1000000)) ∧
         ∀ d, tm.pre ≠ .none → tm.deadline = some d →
           ∃ y, t.teams.look i = some y ∧ y.pre ≠ .none ∧ y.deadline = some (min d (s.pm.time + 1000000)))) ∧
   ∀ (s : State) (core : Nat) (pass : Bool),
     let e := (s.coreAt core).exam
     (e.running = false ∨ s.pm.time < e.started + 5000000 → exec (.examEnd core pass) s = .next s) ∧
     (e.running = true → e.started + 5000000 ≤ s.pm.time → Does (.examEnd core pass) s fun t =>
       t.mem = s.mem ∧ (t.coreAt core).exam.running = false ∧
       (pass = true → (t.coreAt core).exam.lastPass = e.started ∧ (t.coreAt core).exam.quarantined = e.quarantined) ∧
       (pass = false → (t.coreAt core).exam.quarantined = true ∧ (t.coreAt core).exam.lastPass = e.lastPass ∧
         ∃ v ∈ t.pm.events, v = ⟨0x4C, core :: e.lastPass :: s.pm.time :: e.seen⟩)))

/-- R198, R242, R243, R253, R182, R236, R239, R244: The host's ring window. A read claims without blocking and gets the position or all ones; a
write of a commit register commits at the position next to TAIL with those low bits; the other registers hold ring addresses, which read
back, or notify. An access that no ring can serve is aborted. Before bring-up ends every access is. BAR2 shows the partition's status block.
Here with no waiter at a ring. That a write-only register reads 0 is the model's choice (log 20). The host reads and writes device memory
under the partition's key, and learns of poison; a frame recorded under another key is reported and not touched. Configuration requests are
retried until bring-up ends, and a function that does not exist reads as all ones; a device in management only shows no function. Link
training reports its width and speed. A configuration register that the manual does not describe reads as a free value (log 20). -/
def Obligations.HostAccesses : Prop :=
  ((∀ (s : State) (p ring n : Nat) (x : Part), s.hostUp = true → s.parts.look p = some x → ring < 64 → 1 ≤ n → n ≤ 64 →
     s.waits = [] →
     let i := Instr.hostRclaimRead p ring n
     let aborts := Does i s fun t => t.pm.out = s.pm.out ++ [.abort] ∧ ∀ a, t.mem.byte a = s.mem.byte a
     (x.hostRings.look ring = none → aborts) ∧
     ∀ va, x.hostRings.look ring = some va →
       let w := s.devUse p .atomic va
       (va = 0 ∨ va % 64 ≠ 0 ∨ w.devPa p .atomic va 64 = none → aborts) ∧
       ∀ pa, va ≠ 0 → va % 64 = 0 → w.devPa p .atomic va 64 = some pa →
         let b := s.ringAt pa
         (b.ok n = false → Does i s fun t => t.pm.out = s.pm.out ++ [.abort] ∧
           ∀ a, t.mem.byte a = if a = pa + 11 then s.mem.byte a ||| 1 else s.mem.byte a) ∧
         (b.ok n = true → b.claimN n = none → Does i s fun t =>
           t.pm.out = s.pm.out ++ [.word (BitVec.allOnes 64)] ∧ ∀ a, t.mem.byte a = s.mem.byte a) ∧
         ∀ pos b', b.ok n = true → b.claimN n = some (pos, b') → Does i s fun t =>
           t.pm.out = s.pm.out ++ [.word (BitVec.ofNat 64 pos)] ∧
           ∀ a, t.mem.byte a = if pa ≤ a ∧ a < pa + 64 then BitVec.ofNat 8 (b'.toNat / 256 ^ (a - pa)) else s.mem.byte a) ∧
   (∀ (s : State) (p ring va pa pos : Nat) (x : Part) (val : Word) (b' : RingBlk), s.hostUp = true → s.parts.look p = some x →
     ring < 64 → s.waits = [] → x.hostRings.look ring = some va → va ≠ 0 → va % 64 = 0 →
     (s.devUse p .atomic va).devPa p .atomic va 64 = some pa →
     let b := s.ringAt pa
     let n := val.toNat / 2 ^ 58 % 64 + 1
     b.ok n = true → pos % 2 ^ 58 = val.toNat % 2 ^ 58 → b.tail ≤ pos → pos < b.tail + 2 ^ 58 →
     (b.commit pos n = none → Does (.hostRcommitWrite p ring val) s fun t =>
       t.pm.out = s.pm.out ++ [.abort] ∧ ∀ a, t.mem.byte a = s.mem.byte a) ∧
     (b.commit pos n = some b' → Does (.hostRcommitWrite p ring val) s fun t => t.pm.out = s.pm.out ∧
       ∀ a, t.mem.byte a = if pa ≤ a ∧ a < pa + 64 then BitVec.ofNat 8 (b'.toNat / 256 ^ (a - pa)) else s.mem.byte a)) ∧
   ∀ (s : State) (p : Nat) (val : Word),
     (s.hostUp = false ∨ s.parts.look p = none → ∀ off, Does (.registerWrite p off val) s (fun t =>
       t.pm.out = s.pm.out ++ [.abort] ∧ t.mem = s.mem) ∧ execOccur (.bar0Read p off) s = .next (s.reply .abort) ∧
       execOccur (.bar2Read p off) s = .next (s.reply .abort)) ∧
     ∀ x, s.hostUp = true → s.parts.look p = some x →
       exec (.registerWrite p 0 val) s = exec (.notify p (val.setWidth 6)) s ∧
       (∀ ring, ring < 64 → exec (.registerWrite p (0x1200 + 0x400 * ring) val) s = exec (.hostRcommitWrite p ring val) s) ∧
       (∀ k, k < 64 → (Does (.registerWrite p (0x800 + 8 * k) val) s fun t => t.mem = s.mem ∧ t.groups = s.groups ∧
           ∃ y, t.parts.look p = some y ∧ y.par = x.par ∧
             ∀ j, Tbl.get 0 y.hostRings j = if j = k then val.toNat else Tbl.get 0 x.hostRings j) ∧
         execOccur (.bar0Read p (0x800 + 8 * k)) s = .next (s.reply (.word (BitVec.ofNat 64 (Tbl.get 0 x.hostRings k))))) ∧
       (∀ ring n, ring < 64 → n < 64 →
         execOccur (.bar0Read p (0x1000 + 0x400 * ring + 8 * n)) s = exec (.hostRclaimRead p ring (n + 1)) s) ∧
       (x.starved < 2 ^ 32 →
         execOccur (.bar2Read p 0) s = .next (s.reply (.word (BitVec.ofNat 64
           ((if x.fenced then 1 else 0) + (if s.pm.alarm = 0 then 0 else 2) + x.starved * 2 ^ 32)))) ∧
         execOccur (.bar2Read p 8) s = .next (s.reply (.word (BitVec.ofNat 64 (x.losterr + x.late * 2 ^ 32)))) ∧
         ∀ off, 16 ≤ off → off < 4096 → x.losterr < 2 ^ 32 → x.late < 2 ^ 32 →
           execOccur (.bar2Read p off) s = .next (s.reply (.word 0)))) ∧
  ((∀ (s : State) (p pa n : Nat), s.hostUp = true → (s.parts.look p).isSome = true → pa + n ≤ 2 ^ 39 →
     let key := (s.par p).hdmKey
     let mine := ∀ f ∈ framesOf pa n, ∀ k, s.mem.owners.look f = some k → k = key
     let bad := ((s.claimRange pa n key).recallRange pa n).poisonAt pa n
     (mine → Does (.hostMemRead p pa n) s fun t =>
       t.pm.out = s.pm.out ++ [if bad then .bytes [] true else .bytes ((List.range n).map fun k => s.mem.byte (pa + k)) false] ∧
       (∀ a, t.mem.byte a = s.mem.byte a) ∧ ∀ f ∈ framesOf pa n, t.mem.owners.look f = some key) ∧
     (¬mine → Does (.hostMemRead p pa n) s fun t => t.pm.out = s.pm.out ++ [.bytes [] true] ∧ t.mem = s.mem ∧
       ∃ f ∈ framesOf pa n, ∃ e ∈ t.pm.events, e = ⟨0x46, [p, f]⟩) ∧
     ∀ data : List Byte, data.length = n →
       (mine → Does (.hostMemWrite p pa data) s fun t => t.pm.out = s.pm.out ∧
         ∀ a, t.mem.byte a = if pa ≤ a ∧ a < pa + n then data.getD (a - pa) 0 else s.mem.byte a) ∧
       (¬mine → Does (.hostMemWrite p pa data) s fun t => t.mem = s.mem ∧
         ∃ f ∈ framesOf pa n, ∃ e ∈ t.pm.events, e = ⟨0x46, [p, f]⟩)) ∧
   ∀ (s : State) (fn off : Nat),
     (s.pm.failed = false → s.pm.stage ≠ 5 → ∀ wr, Does (.hostConfigAccess fn off wr) s fun t =>
       t.pm.out = s.pm.out ++ [.retry] ∧ t.mem = s.mem) ∧
     (s.pm.failed = false → s.pm.stage = 5 →
       (17 ≤ fn ∨ (fn ≠ 0 ∧ s.parts.look (fn - 1) = none) → ∀ wr, Does (.hostConfigAccess fn off wr) s fun t =>
         t.pm.out = s.pm.out ++ [.word 0xFFFFFFFF]) ∧
       (fn = 0 ∨ (fn < 17 ∧ (s.parts.look (fn - 1)).isSome = true) → Does (.hostConfigAccess fn off none) s fun t =>
         t.pm.out = s.pm.out ++ [.word ((Config.configRegister fn off).setWidth 64)] ∧ t.mem = s.mem)) ∧
     (s.pm.failed = true → ∀ wr, Does (.hostConfigAccess fn off wr) s fun t => t.pm.out = s.pm.out ++ [.abort] ∧ t.mem = s.mem) ∧
     ∀ width speed, width = 4 ∨ width = 8 ∨ width = 16 → Does (.linkTraining width speed) s fun t =>
       t = if Config.cxlSpeed speed = true then
         { s with pm := { s.pm with linkWidth := width, linkSpeed := speed, out := s.pm.out ++ [.link width speed] } } else s)

/-- R153, R193, R235, R246–R248, R246, R248: A request of another device for this one, whose flit its port takes, is translated for its tenant's
partition and answered with its tag, on its port, each flit with the port's next sequence number: a read with the bytes read, those beyond
48 in data flits; a write, and a masked write, after they are stored; an atomic with the old value; a DEPDEC with the count it found, once
its successor record, if there is one, is routed. A tenant of no partition gets PERMISSION, one of a fenced partition MEM_FAULT; a page not
present keeps the request waiting. A long write waits for its data flits. A flit out of sequence, unsound, or on a port that is down is not
taken. The coding of OPC, the answer to a refused translation and that of a DEPDEC are the model's (log 40, log 66, log 67). The queue of a
remote DEPDEC's record (log 103) and the data flits of answers (log 93) are the model's too. The header of a flit holds its fields at their
bits. A response reaches the arm or the command record that asked, and its tag is free, one of more than 48 bytes once its data flits have
come; a request unanswered for 10 ms ends as MEM_FAULT. Credits add up; a port goes down, and is reported, at the eighth failed resend; a
flit of a reserved kind is dropped and counted. The port of a response and the counting of sequence numbers are the model's choice (log 93). -/
def Obligations.FabricRequestsAndLinks : Prop :=
  ((∀ (s : State) (a : Arrival), let f := a.flit
     f.dest = s.fab.id → s.pm.stopped = false → s.pm.failed = false →
     a.port < 16 → (s.portAt a.port).down = false → a.sound = true → a.seq = (s.portAt a.port).seq →
     let n := 2 ^ f.size.toNat
     let va := f.va.toNat
     let seq := (s.portAt a.port).spent
     let sends := fun (e : RemoteEnd) (more : List (List Byte)) (t : State) => ∃ h : BitVec 128,
       t.pm.out = s.pm.out ++ .flit a.port seq h e :: more.zipIdx.map (fun x => .data a.port (seq + 1 + x.2) x.1) ∧
       (t.portAt a.port).spent = seq + 1 + more.length ∧ h.extractLsb' 0 4 = 3 ∧ h.extractLsb' 4 17 = f.src ∧ h.extractLsb' 21 17 = s.fab.id ∧ h.extractLsb' 38 16 = f.tenant ∧
       h.extractLsb' 54 10 = f.tag
     let answers := fun (e : RemoteEnd) (t : State) => sends e [] t
     let keeps := fun (t : State) => ∀ k, t.mem.byte k = s.mem.byte k
     (s.tenantPart f.tenant = none → Does (.fabricRead a) s fun t => answers .permission t ∧ keeps t) ∧
     ∀ p x, s.tenantPart f.tenant = some p → s.parts.look p = some x →
       (x.fenced = true → Does (.fabricRead a) s fun t => answers .memFault t ∧ keeps t) ∧
       ∀ pa key, x.fenced = false →
         let w := s.claimWalk p va
         let r := ({ w with mem := w.mem.claim pa key }).recall (pa / 128)
         (∀ level, w.walkTr p .read va = .park level → Does (.fabricRead a) s fun t =>
           ∃ h ∈ t.fab.held, h.part = p ∧ h.port = a.port ∧ h.flit = { f with kind := 0 }) ∧
         (w.walkTr p .read va = .ok pa key → Does (.fabricRead a) s fun t =>
           keeps t ∧ if r.poisonAt pa n then answers .poisoned t else sends (.ok (s.mem.num pa n % 256 ^ 48))
             (if n ≤ 48 then [] else if n = 64 then [s.mem.bytes (pa + 48) 16] else [s.mem.bytes (pa + 48) 64, s.mem.bytes (pa + 112) 16]) t) ∧
         (w.walkTr p .write va = .ok pa key → n ≤ 48 → ∀ data : List Byte, n ≤ data.length →
           Does (.fabricWrite a data) s fun t => answers (.ok 0) t ∧
             ∀ k, t.mem.byte k = if pa ≤ k ∧ k < pa + n then data.getD (k - pa) 0 else s.mem.byte k) ∧
         (w.walkTr p .write va = .ok pa key → 48 < n → ∀ d1 d2 d3 : List Byte, d1.length = 48 → d2.length = 64 → d3.length = 64 →
           (∀ y ∈ s.fab.parts, y.1 ≠ a.port) →
           let stored := fun (u : State) => answers (.ok 0) u ∧ u.fab.parts = s.fab.parts ∧
             ∀ k, u.mem.byte k = if pa ≤ k ∧ k < pa + n then (d1 ++ d2 ++ d3).getD (k - pa) 0 else s.mem.byte k
           Does (.fabricWrite a d1) s fun t => t.mem = s.mem ∧ t.pm.out = s.pm.out ∧
             Does (.fabricData { a with seq := a.seq + 1, flit := { f with kind := 4 } } d2) t fun u => if n ≤ 112 then stored u else
               u.mem = s.mem ∧ u.pm.out = s.pm.out ∧
               Does (.fabricData { a with seq := a.seq + 2, flit := { f with kind := 4 } } d3) u stored) ∧
         (w.walkTr p .atomic va = .ok pa key → r.poisonAt pa n = false → ∀ data : List Byte,
           let old := s.mem.num pa n
           let sets := fun (v : Nat) => Does (.fabricAtomic a data) s fun t => answers (.ok old) t ∧ t.mem.num pa n = v ∧
             ∀ k, k < pa ∨ pa + n ≤ k → t.mem.byte k = s.mem.byte k
           (∀ ty op, opcType (bits f.opc.toNat 3 3) = some ty → opcOp (bits f.opc.toNat 0 3) = some op → f.opc.getLsbD 6 = false →
             sets (atResult ty op old (fieldAt data 0 n) % 256 ^ n)) ∧
           (f.opc.getLsbD 6 = true → sets (if old = fieldAt data 0 n then fieldAt data n n % 256 ^ n else old))) ∧
         (w.walkTr p .write va = .ok pa key → isMasked f.opc = true → isDepdec f.opc = false → ∀ data : List Byte, data.length = 2 * n →
           (2 * n ≤ 48 → Does (.fabricAtomic a data) s fun t => answers (.ok 0) t ∧ ∀ k, t.mem.byte k = if pa ≤ k ∧ k < pa + n then
             (let m := data.getD (n + (k - pa)) 0; (s.mem.byte k &&& ~~~m) ||| (data.getD (k - pa) 0 &&& m)) else s.mem.byte k) ∧
           (48 < 2 * n → Does (.fabricAtomic a data) s fun t => t.mem = s.mem ∧ t.pm.out = s.pm.out ∧
             (a.port, { f with kind := 2 }, data.take 48) ∈ t.fab.parts)) ∧
         (w.walkTr p .atomic va = .ok pa key → isDepdec f.opc = true → ∀ data : List Byte,
           let steps := fun (t : State) => t.mem.num pa 4 = s.mem.num pa 4 - 1
           (s.mem.num pa 4 ≠ 1 → Does (.fabricAtomic a data) s fun t => answers (.ok (s.mem.num pa 4)) t ∧ steps t ∧
             ∀ k, k < pa ∨ pa + 4 ≤ k → t.mem.byte k = s.mem.byte k) ∧
           (s.mem.num pa 4 = 1 → s.poisonAt (pa + 16) 16 = false →
             (∀ b, inSpill s p b = true → s.watchers (b / 128) = [] ∧ (b < pa ∨ pa + 32 ≤ b)) →
             let rec' : Rec := ⟨BitVec.ofNat 64 (s.mem.num (pa + 16) 8), BitVec.ofNat 64 (s.mem.num (pa + 24) 8), 0, 0xFF⟩
             s.mem.owners.look (s.entryAt p rec'.type / 8192) = some (s.par p).hdmKey →
             s.entryAt p rec'.type + 64 ≤ pa ∨ pa + 4 ≤ s.entryAt p rec'.type →
             Routes s p (s.homeOf p pa / 2) x rec'
               (fun _ q => Does (.fabricAtomic a data) s fun t => answers (.ok 1) t ∧ steps t ∧ q t)
               (Does (.fabricAtomic a data) s fun t => steps t ∧ t.pm.out = s.pm.out ∧
                 ∃ h ∈ t.fab.held, h.ticket = 0 ∧ h.part = p ∧ h.port = a.port ∧ h.flit = { f with kind := 2 })))) ∧
   ∀ (s : State) (a : Arrival) (data : List Byte) (e : RemoteEnd),
     16 ≤ a.port ∨ (s.portAt a.port).down = true ∨ a.sound = false ∨ a.seq ≠ (s.portAt a.port).seq →
     exec (.fabricRead a) s = .next s ∧ exec (.fabricWrite a data) s = .next s ∧ exec (.fabricAtomic a data) s = .next s ∧
     exec (.fabricData a data) s = .next s ∧ exec (.fabricResponse a e) s = .next s ∧ exec (.reservedKindFlit a) s = .next s ∧
     ∀ n, exec (.linkCredit a n) s = .next s) ∧
  ((∀ f : Flit, let h := headerOf f
     h.extractLsb' 0 4 = f.kind ∧ h.extractLsb' 4 17 = f.dest ∧ h.extractLsb' 21 17 = f.src ∧ h.extractLsb' 38 16 = f.tenant ∧
     h.extractLsb' 54 10 = f.tag ∧ h.extractLsb' 64 54 = f.va ∧ h.extractLsb' 118 3 = f.size ∧ h.extractLsb' 121 7 = f.opc) ∧
   (∀ (s : State) (port tag : Nat) (y : Tag) (g : Group), port < 16 → tag < 1024 →
     s.fab.tags.look (port * 1024 + tag) = some y → s.groupAt y.key = some g →
     let n := port * 1024 + tag
     let got := fun (e : RemoteEnd) (t : State) => t.fab.tags.look n = none ∧ t.mem = s.mem ∧
       (∀ k, k ≠ n → t.fab.tags.look k = s.fab.tags.look k) ∧ ∃ h, t.groupAt y.key = some h ∧ h.regs = g.regs ∧
       (y.record = none → ∀ r ∈ (h.arm y.who).remote, r.tag = n → r.answer ≠ none ∧
         (⟨r.lane, r.addr, n, none⟩ ∈ (g.arm y.who).remote ∧ r.answer = some e ∨ r ∈ (g.arm y.who).remote)) ∧
       ∀ k c, y.record = some k → h.eng.recs.look k = some c → ∀ r ∈ c.remote, r.tag = n → r.answer ≠ none
     (∀ (a : Arrival) (e : RemoteEnd), a.flit.dest = s.fab.id → s.pm.stopped = false → s.pm.failed = false →
       a.port = port → (s.portAt port).down = false → a.sound = true → a.seq = (s.portAt port).seq → a.flit.tag.toNat = tag →
       ((∀ v, e ≠ .ok v) ∨ y.data ≤ 48 → Does (.fabricResponse a e) s (got e)) ∧
       ∀ (v : Nat) (d : List Byte), e = .ok v → 48 < y.data → y.data ≤ 112 → d.length = 64 → (∀ z ∈ s.fab.parts, z.1 ≠ port) →
         Does (.fabricResponse a e) s fun t => t.fab.tags = s.fab.tags ∧ t.mem = s.mem ∧ t.groups = s.groups ∧
           Does (.fabricData { a with seq := a.seq + 1, flit := { a.flit with kind := 4 } } d) t (got (.ok (ofBytes (toBytes 48 v ++ d))))) ∧
     (y.sent + 10000000 ≤ s.pm.time → Does (.fabricTimeout n) s (got .memFault)) ∧
     (s.pm.time < y.sent + 10000000 → exec (.fabricTimeout n) s = .next s)) ∧
   (∀ (s : State) (a : Arrival) (n : Nat), a.port < 16 → (s.portAt a.port).down = false → a.sound = true →
     a.seq = (s.portAt a.port).seq → Does (.linkCredit a n) s fun t => (t.portAt a.port).credit = (s.portAt a.port).credit + n ∧
       (t.portAt a.port).seq = a.seq + 1 ∧ (t.portAt a.port).down = false ∧ t.mem = s.mem) ∧
   (∀ (s : State) (port : Nat), port < 16 → (s.portAt port).down = false →
     let k := (s.portAt port).resends
     Does (.linkRetry port true) s (fun t => (t.portAt port).resends = 0 ∧ (t.portAt port).down = false) ∧
     (k < 7 → Does (.linkRetry port false) s fun t => (t.portAt port).resends = k + 1 ∧ (t.portAt port).down = false) ∧
     (7 ≤ k → Does (.linkRetry port false) s fun t => (t.portAt port).down = true ∧ ∃ e ∈ t.pm.events, e = ⟨0x4E, [port]⟩)) ∧
   ∀ (s : State) (a : Arrival), 6 ≤ a.flit.kind.toNat → a.port < 16 → (s.portAt a.port).down = false → a.sound = true →
     a.seq = (s.portAt a.port).seq → Does (.reservedKindFlit a) s fun t => t.fab.dropped = s.fab.dropped + 1 ∧
       t.fab.tags = s.fab.tags ∧ t.fab.held = s.fab.held ∧ t.mem = s.mem ∧ t.groups = s.groups ∧ t.pm = s.pm)

/-- R22, R104, R202, R204, R240, R241, R254, R101, R102, R220, R221, R236, R243, R246: PARTITION_CREATE with parameters that suit makes a
partition with nothing in it, its cap clamped and acknowledged; a change replaces its parameter, and ends an FSWAP's step on a die it takes
away with 0xE; a fence ends every team of it, unbinds its slots and is reported; a reset ends the fence and keeps keys, log and chain, but
not after a security alarm; after destruction nothing of it is left. The colours and strip regions of the others follow, and nothing else of
them changes. Every request is answered; one that names no partition, whose parameters do not suit, or that names a fenced partition, but
for those excepted, changes nothing and is answered with an error that is reported. What a reset keeps is deduced (log 41), creation is
answered at every stage (log 73), and what records that end with their partition are reported as is the model's choice (log 99). That
bindings and swap steps on dies a change takes away end at once is the model's choice (log 99), and so is what becomes of teams there (log
101). The other requests of the management port. A cap is clamped, applied and acknowledged; a broadcast replaces the one before it, and
2,800 W lifts it; the device id is set before array-die release; a released frame reads zero, is not poisoned, and belongs to no key; a key
is enrolled, or revoked, under the platform owner's signature, and a slot whose record a revoked key signed is unbound as by FSWAP; the log
is rolled and its chain goes on; counters and measurements are read. What a request does not name stays; one that is not well formed changes
nothing and is answered with an error that is reported. The bytes a signature covers are the model's choice (log 13), and that a revocation
drains as FSWAP's unbind form does is deduced (log 69). That an SPDM request without attestation keys is refused is the model's choice (log
20), and so is an enrolment under a number already enrolled (log 106); the arguments of event 0x50 are deduced (log 75). -/
def Obligations.PartitionsAndManagement : Prop :=
  (∀ (s : State) (p : Nat),
     let rest := fun (t : State) => t.mem = s.mem ∧ t.groups = s.groups ∧ t.cores = s.cores ∧ t.teams = s.teams ∧
       t.engines = s.engines ∧ t.waits = s.waits ∧ t.launches = s.launches ∧ t.fab = s.fab
     let answers := fun (r : Reply) (t : State) => t.pm.out = s.pm.out ++ [r]
     let tells := fun (code : Nat) (args : List Nat) (t : State) => t.pm.events.getLast? = some ⟨code, args⟩
     let fails := fun (i : Instr) (code : Nat) => Does i s fun t => rest t ∧ t.parts = s.parts ∧ t.dies = s.dies ∧ t.swaps = s.swaps ∧
       answers .mgmtError t ∧ tells 0x50 [code] t
     let others := fun (t : State) => ∀ q z, q ≠ p → s.parts.look q = some z →
       ∃ y, t.parts.look q = some y ∧ { y with colours := z.colours, regions := z.regions } = z
     let cap := fun w : Nat => max 1000 (min 2800 w)
     (∀ x : PartParams,
       let x' := { x with pcap := cap x.pcap }
       (p < 16 → s.parts.look p = none → s.paramsOk p x' = true → s.pm.stopped = false → s.pm.failed = false → s.pm.alarm = 0 →
         Does (.partitionCreate p x) s fun t => rest t ∧ t.dies = s.dies ∧ t.swaps = s.swaps ∧ answers .mgmtOk t ∧ others t ∧
           tells 0x40 [2, cap x.pcap, if cap x.pcap = x.pcap then 0 else 1] t ∧
           ∃ y, t.parts.look p = some y ∧ y.par = x' ∧ y.fenced = false ∧ y.roll = 0 ∧ y.mapped = [] ∧ y.spill = [] ∧ y.home = [] ∧
             y.grids = [] ∧ y.hostRings = [] ∧ y.tickets = [] ∧ y.keys = [] ∧ y.log = [] ∧ y.chain = 0 ∧ y.verified = [] ∧
             y.starved = 0 ∧ y.losterr = 0 ∧ y.late = 0 ∧ y.avgrun = [] ∧ y.replayCtx = []) ∧
       (16 ≤ p ∨ (s.parts.look p).isSome = true ∨ s.paramsOk p x' = false ∨ s.pm.alarm ≠ 0 → fails (.partitionCreate p x) 1)) ∧
     (s.parts.look p = none → (∀ c, fails (.partitionParameterChange p c) 1) ∧ fails (.partitionDestroy p) 2 ∧
       fails (.partitionFence p) 3 ∧ fails (.partitionReset p) 3) ∧
     ∀ x : Part, s.parts.look p = some x →
       let gone := fun (t : State) => (∀ k tm, t.teams.look k = some tm → tm.part ≠ p) ∧
         (∀ d slot, slot < 16 → (t.slotOf p d slot).st = .unbound) ∧ t.pm.out.getLast? = some .mgmtOk
       (∀ c, x.fenced = false → s.paramsOk p (changeParams x.par c) = true → Does (.partitionParameterChange p c) s fun t =>
         rest t ∧ answers .mgmtOk t ∧ others t ∧
         (∀ q d slot, slot < 16 → q ≠ p ∨ partHasDie (changeParams x.par c) d = true → t.slotOf q d slot = s.slotOf q d slot) ∧
         (∀ d slot, slot < 16 → partHasDie (changeParams x.par c) d = false → (t.slotOf p d slot).st = .unbound) ∧
         (∀ n z d st, s.swaps.look n = some z → z.part = p → z.key.isSome = true → z.dies.look d = some st →
           ∃ u, t.swaps.look n = some u ∧ u.dies.look d = some
             (if partHasDie (changeParams x.par c) d = true then st else match st with | .done k => .done k | _ => .done 0xE)) ∧
         (∀ n z, s.swaps.look n = some z → z.part ≠ p → z.key.isSome = true → t.swaps.look n = some z) ∧
         ∃ y, t.parts.look p = some y ∧
           { y with par := x.par, colours := x.colours, regions := x.regions, logReserved := x.logReserved } = x ∧
           (∀ n, c = .rank n → y.par = { x.par with rank := n }) ∧
           (∀ w, c = .pcap w → y.par = { x.par with pcap := cap w } ∧ tells 0x40 [2, cap w, if cap w = w then 0 else 1] t) ∧
           (∀ n, c = .bwshare n → y.par = { x.par with bwshare := n }) ∧
           (∀ w n, c = .engine w n → y.par = { x.par with engw := w, eprio := n }) ∧
           (∀ l, c = .prepol l → y.par = { x.par with prepol := l }) ∧
           (∀ on l, c = .expert on l → y.par = { x.par with expert := on, regions := l }) ∧
           (∀ l, c = .colours l → y.par = { x.par with colours := l }) ∧
           (∀ u l, c = .fabric u l → y.par = { x.par with tenant := u, fabRanges := l }) ∧
           (∀ m, c = .slots m → y.par = { x.par with slots := m }) ∧ (∀ va, c = .qdt va → y.par = { x.par with qdt := va }) ∧
           (∀ b n, c = .taskTable b n → y.par = { x.par with ttbase := b, ttlen := n }) ∧
           (∀ va, c = .tvbase va → y.par = { x.par with tvbase := va }) ∧
           (∀ b n, c = .clusters b n → y.par = { x.par with clbase := b, cllimit := n })) ∧
       (∀ c, x.fenced = true ∨ s.paramsOk p (changeParams x.par c) = false → fails (.partitionParameterChange p c) 1) ∧
       (x.fenced = true → Does (.partitionFence p) s fun t => rest t ∧ t.parts = s.parts ∧ t.dies = s.dies ∧ t.swaps = s.swaps ∧
         answers .mgmtOk t) ∧
       (x.fenced = false → Does (.partitionFence p) s fun t => gone t ∧ (∃ e ∈ t.pm.events, e = ⟨0x47, [p]⟩) ∧
         .ioError p ∈ t.pm.out ∧ ∃ y, t.parts.look p = some y ∧ y.fenced = true ∧ y.par = x.par ∧ y.tickets = [] ∧
           y.keys = x.keys ∧ y.log = x.log ∧ y.chain = x.chain) ∧
       (s.pm.alarm ≠ 0 → fails (.partitionReset p) 3) ∧
       (s.pm.alarm = 0 → Does (.partitionReset p) s fun t => (x.fenced = false → gone t) ∧ t.pm.out.getLast? = some .mgmtOk ∧
         ∃ y, t.parts.look p = some y ∧ y.fenced = false ∧ y.par = x.par ∧ y.roll = 0 ∧ y.mapped = [] ∧ y.spill = [] ∧ y.home = [] ∧
           y.grids = [] ∧ y.hostRings = [] ∧ y.tickets = [] ∧ y.keys = x.keys ∧ y.log = x.log ∧ y.chain = x.chain ∧
           y.verified = x.verified ∧ y.starved = 0 ∧ y.losterr = 0 ∧ y.late = 0) ∧
       Does (.partitionDestroy p) s fun t => (x.fenced = false → gone t) ∧ t.pm.out.getLast? = some .mgmtOk ∧
         t.parts.look p = none) ∧
  (∀ s : State,
     let ok := fun (i : Instr) (pm : Package) => Does i s fun t => t = { s with pm := { pm with out := s.pm.out ++ [.mgmtOk] } }
     let fails := fun (i : Instr) (code : Nat) => Does i s fun t => t = { s with pm := t.pm } ∧
       t.pm.out = s.pm.out ++ [.mgmtError] ∧ t.pm.events.getLast? = some ⟨0x50, [code]⟩ ∧
       t.pm = { s.pm with out := t.pm.out, events := t.pm.events, lostEvents := t.pm.lostEvents }
     let cap := fun w : Nat => max 1000 (min 2800 w)
     (∀ w, Does (.moduleCap w) s fun t => t = { s with pm := t.pm } ∧ t.pm.out = s.pm.out ++ [.mgmtOk] ∧
       t.pm.events.getLast? = some ⟨0x40, [1, cap w, if cap w = w then 0 else 1]⟩ ∧
       t.pm = { s.pm with moduleCap := some (cap w), out := t.pm.out, events := t.pm.events, lostEvents := t.pm.lostEvents }) ∧
     (∀ c k, (k < 8 → c < 4096 → ok (.rackBroadcast c k)
         { s.pm with broadcast := if c = 2800 then none else some (c, k), below := [] }) ∧
       (8 ≤ k ∨ 4096 ≤ c → fails (.rackBroadcast c k) 5)) ∧
     (∀ id : BitVec 17, s.pm.stage < 3 → Does (.deviceIdSet id) s fun t =>
       t = { s with fab := { s.fab with id := id }, pm := { s.pm with out := s.pm.out ++ [.mgmtOk] } }) ∧
     (∀ team d, s.teams.look team = none → fails (.preEmptTeam team d) 0xA) ∧
     (∀ p, s.parts.look p = none → (∀ f, fails (.frameRelease p f) 6) ∧ (∀ k key sig, fails (.keyEnrol p k key sig) 7) ∧
       (∀ k sig, fails (.keyRevoke p k sig) 8) ∧ fails (.attestationLogRoll p) 9 ∧ fails (.counterRead p) 0xB ∧
       fails (.spdmGetMeasurements p) 5) ∧
     ∀ (p : Nat) (x : Part), s.parts.look p = some x →
       let part := fun (i : Instr) (y : Part) => Does i s fun t => t.parts.look p = some y ∧
         (∀ q, q ≠ p → t.parts.look q = s.parts.look q) ∧
         t = { s with parts := t.parts, pm := { s.pm with out := s.pm.out ++ [.mgmtOk] } }
       (∀ frame, (frame < 2 ^ 26 → Does (.frameRelease p frame) s fun t => t.pm.out = s.pm.out ++ [.mgmtOk] ∧
           t.mem.owners.look frame = none ∧ (∀ f, f ≠ frame → t.mem.owners.look f = s.mem.owners.look f) ∧
           (∀ a, t.mem.byte a = if a / 8192 = frame then 0 else s.mem.byte a) ∧
           (∀ l, l ∈ t.mem.poison ↔ l ∈ s.mem.poison ∧ l / 64 ≠ frame) ∧ t.parts = s.parts ∧ t.teams = s.teams) ∧
         (2 ^ 26 ≤ frame → fails (.frameRelease p frame) 6)) ∧
       Does (.counterRead p) s (fun t => t = { s with pm := { s.pm with out := s.pm.out ++ [.counters
         [if x.fenced then 1 else 0, if s.pm.alarm = 0 then 0 else 1, x.starved, x.losterr, x.late]
         (s.pm.corrected :: ((s.cores.filter fun c => decide (x.par.clbase ≤ c.1 / 4 ∧ c.1 / 4 ≤ x.par.cllimit)).map
           fun c => c.2.corrected))] } }) ∧
       (s.pm.attKeys = true → Does (.spdmGetMeasurements p) s fun t =>
         t = { s with pm := { s.pm with out := s.pm.out ++ [.measurement [s.pm.meas] x.log x.chain] } }) ∧
       (s.pm.attKeys = false → fails (.spdmGetMeasurements p) 5) ∧
       (x.fenced = false → part (.attestationLogRoll p) { x with log := [] }) ∧
       (x.fenced = true → fails (.attestationLogRoll p) 9) ∧
       (∀ signer key sig,
         let suits := x.fenced = false ∧ 1 ≤ signer ∧ signer ≤ 15 ∧ key.length = 32
         (suits → if Config.sigVerify Config.platformKey (keyMessage p signer key) sig = true then
           part (.keyEnrol p signer key sig) { x with keys := x.keys.ins signer key } else fails (.keyEnrol p signer key sig) 7) ∧
         (¬suits → fails (.keyEnrol p signer key sig) 7)) ∧
       (∀ k signer (key : List Byte), (x.keys.ins signer key).look k = if k = signer then some key else x.keys.look k) ∧
       ∀ signer sig,
         let suits := x.fenced = false ∧ (x.keys.look signer).isSome = true
         let good := Config.sigVerify Config.platformKey (keyMessage p signer []) sig = true
         let signed := fun d slot => (s.slotOf p d slot).st = .bound ∧ (s.slotOf p d slot).signer = signer
         (suits → (∀ y ∈ s.swaps, y.2.part ≠ p) → (∀ d slot, d < 4 → 8 ≤ slot → slot < 16 → ¬signed d slot) →
           if good then part (.keyRevoke p signer sig) { x with keys := x.keys.del signer } else fails (.keyRevoke p signer sig) 8) ∧
         (suits → (∀ y ∈ s.swaps, y.2.part ≠ p) → if good then Does (.keyRevoke p signer sig) s fun t => t.mem = s.mem ∧
           t.pm.out = s.pm.out ++ [.mgmtOk] ∧ (∃ y, t.parts.look p = some y ∧ y.keys = x.keys.del signer) ∧
           ∀ d slot, d < 4 → 8 ≤ slot → slot < 16 →
             (signed d slot → t.slotOf p d slot = { s.slotOf p d slot with st := .transition, wasBound := true } ∧
               ∃ z ∈ t.swaps, z.2.part = p ∧ z.2.slot = slot ∧ z.2.src = 2 ∧ z.2.dies.look d = some (.drain s.pm.time)) ∧
             (¬signed d slot → t.slotOf p d slot = s.slotOf p d slot)
           else fails (.keyRevoke p signer sig) 8) ∧
         (¬suits → fails (.keyRevoke p signer sig) 8))

/-- R95–R99, R101, R102, R105: The steps of an FSWAP on a die, and of the unbinding that a revocation starts. Verification of an unbinding, or
of a basic form's record that is not bound yet, puts the slot in TRANSITION where the log has an entry free; a slot bound to the record
already ends with 1, an unbound one with 2, a full log with 8, and one without a free region with 6. The expert form's record is read under
the partition's translation, a page not present being waited for and a rejected one ending with 9: under basic control, or without its
signer's key, it ends with 5, misaligned or malformed with 4, unsigned with 3. Once nothing uses the old binding, within 1 ms, the region
whose turn it is is reconfigured, and then the binding is published with its generation and its log entry. A drain that has lasted 1 ms ends
with 7 and the old binding. One record and one region of a die are served at a time, the partitions in turn, and within one in order of
arrival. The order of the failures is deduced (log 65); an unbinding that finds the log full stands in no entry, by the model's choice (log
86). That the turn goes by partition number from the one served last is the model's choice (log 99). -/
def Obligations.FormatSwapSteps : Prop :=
  (∀ (s : State) (n d : Nat) (x : Swap), s.swaps.look n = some x → s.pm.stopped = false → s.pm.failed = false →
    let b := s.slotOf x.part d x.slot
    let step := fun (t : State) => (t.swaps.look n).bind fun y => y.dies.look d
    let ends := fun (i : Instr) (k : Nat) => Does i s fun t => step t = some (.done k) ∧ t.slotOf x.part d x.slot = b ∧ t.mem = s.mem
    let drains := fun (i : Instr) (region : Nat) => Does i s fun t => step t = some (.drain s.pm.time) ∧
      t.slotOf x.part d x.slot = { b with st := .transition, wasBound := decide (b.st = .bound), region := region }
    let i := Instr.proctorVerifyDone n d
    (x.dies.look d = some .verify → x.rejected = true → x.ticket = none → s.swapWaits n x d = false → s.verifyTurn n x = true →
      x.key.isSome = true → ends i 9) ∧
    (x.dies.look d = some .verify → x.ticket = none → x.rejected = false → s.swapWaits n x d = false →
      (s.verifyTurn n x = false → exec i s = .next s) ∧
      (x.src = 2 → x.key.isSome = true → (b.st = .unbound → ends i 2) ∧ (b.st ≠ .unbound → s.logFree x.part = false → ends i 8) ∧
        (b.st ≠ .unbound → s.logFree x.part = true → drains i b.region)) ∧
      (x.src = 2 → x.key = none → (b.st = .bound → b.signer = x.arg → drains i b.region) ∧
        (b.st ≠ .bound ∨ b.signer ≠ x.arg → Does i s fun t => t.slotOf x.part d x.slot = b ∧ t.mem = s.mem)) ∧
      (x.src = 1 → x.record = none → x.key.isSome = true → s.verifyTurn n x = true →
        let l := standardRecord x.arg
        let free := (s.regionsOf x.part d).find? fun r => !(s.regionsUsed x.part d).contains r
        if (headerOk l && exponentsAgree l) = false then ends i 4 else
          (b.st = .bound → b.meas = shaNum l → ends i 1) ∧
          (b.st = .unbound → (∀ r ∈ s.regionsOf x.part d, r ∈ s.regionsUsed x.part d) → ends i 6) ∧
          (¬(b.st = .bound ∧ b.meas = shaNum l) → ¬(b.st = .unbound ∧ free = none) →
            (s.logFree x.part = false → ends i 8) ∧
            (s.logFree x.part = true → drains i (if b.st = .unbound then free.getD b.region else b.region))))) ∧
    (x.dies.look d = some .verify → x.ticket = none → x.rejected = false → s.swapWaits n x d = false → x.src = 0 → x.record = none →
      x.key.isSome = true → s.verifyTurn n x = true →
      let fails := fun (k : Nat) => Does i s fun t => step t = some (.done k) ∧ t.slotOf x.part d x.slot = b ∧ ∀ a, t.mem.byte a = s.mem.byte a
      let waits := Does i s fun t => step t = some .verify ∧ t.slotOf x.part d x.slot = b ∧ (∀ a, t.mem.byte a = s.mem.byte a) ∧
        ∃ y, t.swaps.look n = some y ∧ y.ticket.isSome = true
      ((s.par x.part).expert = false → fails 5) ∧
      ((s.par x.part).expert = true → (x.arg % 128 ≠ 0 → fails 4) ∧ (x.arg % 128 = 0 →
        (s.proctorRead x.part x.arg 128 = .err → fails 9) ∧
        (∀ va level, s.proctorRead x.part x.arg 128 = .wait va level → waits) ∧
        ∀ h s1, s.proctorRead x.part x.arg 128 = .ok h s1 → (headerOk h = false → fails 4) ∧ (headerOk h = true →
          let len := 0x80 + fieldAt h 0x40 4
          let signer := fieldAt h 0x44 2
          (s1.proctorRead x.part x.arg (len + 7856) = .err → fails 9) ∧
          (∀ va level, s1.proctorRead x.part x.arg (len + 7856) = .wait va level → waits) ∧
          ∀ l s2, s1.proctorRead x.part x.arg (len + 7856) = .ok l s2 →
            let body := l.take len
            (exponentsAgree body = false → fails 4) ∧
            (exponentsAgree body = true → (s.signerKey x.part signer = none → fails 5) ∧
              ∀ key y, s.signerKey x.part signer = some key → s.parts.look x.part = some y →
                let known := (shaNum body, signer) ∈ y.verified
                let signed := Config.sigVerify key body (slice l len 7856) = true
                let free := (s.regionsOf x.part d).find? fun r => !(s.regionsUsed x.part d).contains r
                (¬known → ¬signed → fails 3) ∧
                (known ∨ signed → (b.st = .bound → b.meas = shaNum body → fails 1) ∧ (b.st = .unbound → free = none → fails 6) ∧
                  (¬(b.st = .bound ∧ b.meas = shaNum body) → ¬(b.st = .unbound ∧ free = none) →
                    (s.logFree x.part = false → fails 8) ∧
                    (s.logFree x.part = true → Does i s fun t => step t = some (.drain s.pm.time) ∧
                      (∀ a, t.mem.byte a = s.mem.byte a) ∧ (∃ z, t.parts.look x.part = some z ∧ (shaNum body, signer) ∈ z.verified) ∧
                      t.slotOf x.part d x.slot = { b with st := .transition, wasBound := decide (b.st = .bound)
                                                          region := if b.st = .unbound then free.getD b.region else b.region })))))))) ∧
    (∀ t0, x.dies.look d = some (.drain t0) →
      (s.slotUsed x.part d x.slot = true ∨ t0 + 1000000 < s.pm.time → exec (.fmgDrainDone n d) s = .next s) ∧
      (s.slotUsed x.part d x.slot = false → s.pm.time ≤ t0 + 1000000 → Does (.fmgDrainDone n d) s fun t =>
        step t = some (.reconf s.cnt.steps) ∧ t.mem = s.mem) ∧
      (s.pm.time < t0 + 1000000 → exec (.drainTimeout n d) s = .next s) ∧
      (t0 + 1000000 ≤ s.pm.time → Does (.drainTimeout n d) s fun t => (x.key.isSome = true → step t = some (.done 7)) ∧
        t.slotOf x.part d x.slot = { b with st := if b.wasBound then .bound else .unbound, wasBound := false })) ∧
    (turnOf (Tbl.get 0 s.pm.reconfTurn d) (Swap.came d) (s.toReconfigure d) ≠ some n → exec (.regionReconfigured n d) s = .next s) ∧
    ∀ y, s.parts.look x.part = some y → turnOf (Tbl.get 0 s.pm.reconfTurn d) (Swap.came d) (s.toReconfigure d) = some n →
      Does (.regionReconfigured n d) s fun t => (x.key.isSome = true → step t = some (.done (if x.src = 2 then 2 else 0))) ∧
        (t.slotOf x.part d x.slot).gen = b.gen + 1 ∧ (t.slotOf x.part d x.slot).st = (if x.src = 2 then .unbound else .bound) ∧
        (x.src ≠ 2 → (t.slotOf x.part d x.slot).meas = x.meas ∧ (t.slotOf x.part d x.slot).record = x.record.getD []) ∧
        (d ∈ x.unlogged → ∃ z, t.parts.look x.part = some z ∧ z.log = y.log ∧ z.chain = y.chain) ∧
        (d ∉ x.unlogged → ∃ z e, t.parts.look x.part = some z ∧ z.log = y.log ++ [e] ∧ z.chain = chainNext y.chain e ∧
          z.logReserved = y.logReserved - 1 ∧ e.die = d ∧ e.slot = x.slot ∧ e.gen = b.gen + 1 ∧ e.time = s.pm.time)) ∧
  ∀ (last n : Nat) (came : Nat × Swap → Nat) (l : List (Nat × Swap)), turnOf last came l = some n → ∃ x, (n, x) ∈ l ∧
    (∀ y ∈ l, y.2.part = x.part → came (n, x) ≤ came y) ∧
    ((last < x.part ∧ ∀ y ∈ l, last < y.2.part → x.part ≤ y.2.part) ∨
      ((∀ y ∈ l, y.2.part ≤ last) ∧ ∀ y ∈ l, x.part ≤ y.2.part))

/-- R15, R118, R127, R217, R239, R240, R23, R220, R238, R241, R17, R19, R94, R218, R253: A directory entry that is freed takes every copy of its
line that it tracks away, in other dies' L2 and in mapped slates, and no crib becomes STALE by it. An uncorrectable error in a sector of a
scratch slate makes it POISONED, one in a slate descriptor kills its team, one in the entry of a crib that is LIVE or DROPPED makes it
STALE, and one in a partition's own state fences it; corrected ones are counted. An acknowledged quarantine is noted. That these errors come
by the agenda is the model's choice (log 77). A line with an error of two pin groups is poisoned, one group is corrected and counted; a hot
die throttles, with fewer hall passes, and recovers; at 110 °C, and at an alarm, every partition is fenced, which is reported and stays.
Readings are inputs (log 19), and the amount by which the pool falls is free (log 94). After a package reset TIME and every retention clock
are 0, no group, team or partition is there and device memory reads as nothing has written it. The stages of bring-up follow one another;
one that fails leaves management only and is reported; at the release of the array dies the clocks are 0 and the slots unbound; a core that
fails its first exam is quarantined. That unwritten memory reads 0 and when a first exam starts are the model's (log 5, log 68). -/
def Obligations.ErrorsHeatResetAndBringUp : Prop :=
  ((∀ (s : State) (line : Nat), Tbl.rising s.cores = true →
     (∀ c x, s.cores.look c = some x → Tbl.rising x.descs = true) →
     (∀ c id d, s.desc? c id = some d → d.kind = .mapped → d.dflt.present = false ∧ Tbl.rising d.secs = true) →
     ∃ t, execOccur (.dirEvict line) s = .next t ∧ (∀ a, t.mem.byte a = s.mem.byte a) ∧
       (∀ c, (t.coreAt c).cribs = (s.coreAt c).cribs) ∧
       (∀ x ∈ t.l2, x.1 % 2 ^ 48 = line → x.1 / 2 ^ 48 = s.homeOf x.2.part (line * 128) / 2) ∧
       ∀ c id d i, t.desc? c id = some d → d.kind = .mapped → (d.sec i).present = true → (d.sec i).line ≠ line) ∧
   (∀ (s : State) (core id i : Nat) (d : Desc), s.desc? core id = some d → d.kind = .scratch →
     ∃ t e, execOccur (.sectorError core id i) s = .next t ∧ t.desc? core id = some e ∧ e.bytes = d.bytes ∧
       (∀ k, e.sec k = if k = i then { d.sec i with st := .poisoned } else d.sec k) ∧ t.mem = s.mem) ∧
   (∀ (s : State) (core n : Nat), ∃ t, execOccur (.corrected core n) s = .next t ∧
     (t.coreAt core).corrected = (s.coreAt core).corrected + n ∧ (t.coreAt core).descs = (s.coreAt core).descs ∧ t.mem = s.mem) ∧
   (∀ (s : State) (core id : Nat) (d : Desc), s.desc? core id = some d →
     ∃ t, execOccur (.descError core id) s = .next t ∧ t.teams.look d.team = none) ∧
   (∀ (s : State) (core id : Nat) (x : Crib), s.crib? core id = some x →
     (x.st = .live ∨ x.st = .dropped → ∃ t, execOccur (.cribError core id) s = .next t ∧ ∀ y, t.crib? core id = some y → y.st = .stale) ∧
     (x.st ≠ .live → x.st ≠ .dropped → execOccur (.cribError core id) s = .next s)) ∧
   (∀ (s : State) (p : Nat), ∃ t, execOccur (.stateError p) s = .next t ∧ ∀ y, t.parts.look p = some y → y.fenced = true) ∧
   ∀ (s : State) (p core : Nat), (s.coreAt core).exam.quarantined = true →
     ∃ t, execOccur (.examAck p core) s = .next t ∧ p ∈ (t.coreAt core).exam.acked ∧ t.mem = s.mem ∧ t.groups = s.groups) ∧
  ((∀ (s : State) (line stack : Nat),
     exec (.hbmPatrol line stack .clean) s = .next s ∧
     (∀ pin, Does (.hbmPatrol line stack (.oneGroup pin)) s fun t => t.mem = s.mem ∧ t.pm.corrected = s.pm.corrected + 1) ∧
     (Does (.hbmPatrol line stack .twoGroups) s fun t => (∀ a, t.mem.byte a = s.mem.byte a) ∧
       (∀ l, l ∈ t.mem.poison ↔ l = line ∨ l ∈ s.mem.poison)) ∧
     (Does (.hbmPatrol line stack (.more [])) s fun t => ∀ l, l ∈ t.mem.poison ↔ l = line ∨ l ∈ s.mem.poison) ∧
     ∀ l : List Byte, l ≠ [] → Does (.hbmPatrol line stack (.more l)) s fun t => ∀ a, t.mem.byte a =
       if line * 128 ≤ a ∧ a < line * 128 + min 128 l.length then l.getD (a - line * 128) 0 else s.mem.byte a) ∧
   (∀ (s : State) (die : Nat), die < 4 →
     ((s.dieAt die).band = .normal → Does (.thermalThrottle die) s fun t => (t.dieAt die).band = .throttled ∧ t.mem = s.mem ∧
       (0 < s.pm.pool → t.pm.pool < s.pm.pool) ∧ ∀ d, d ≠ die → t.dieAt d = s.dieAt d) ∧
     ((s.dieAt die).band = .throttled → Does (.thermalRecover die) s fun t => (t.dieAt die).band = .normal ∧ t.mem = s.mem ∧
       ∀ d, d ≠ die → t.dieAt d = s.dieAt d) ∧
     (s.pm.stopped = false → Does (.thermalStop die) s fun t => t.pm.stopped = true ∧ (∃ e ∈ t.pm.events, e = ⟨0x4B, [die]⟩) ∧
       ∀ p x, t.parts.look p = some x → x.fenced = true)) ∧
   (∀ (s : State) (mesh : Bool) (level : Nat),
     let n := if mesh then 2 else level
     (n ≠ 1 → n ≠ 2 → exec (.securityAlarm mesh level) s = .next s) ∧
     (n = 1 ∨ n = 2 → Does (.securityAlarm mesh level) s fun t => t.pm.alarm = max n s.pm.alarm ∧
       t.pm.zeroised = (s.pm.zeroised || decide (n = 2)) ∧ (n = 2 → t.pm.attKeys = false ∧ t.pm.keysMade = false) ∧ (∃ e ∈ t.pm.events, e = ⟨0x4D, [n]⟩) ∧
       ∀ p x, t.parts.look p = some x → x.fenced = true)) ∧
   ∀ (s : State) (w : Option Nat) (on : Bool),
     Does (.currentLimit w) s (fun t => t = { s with pm := { s.pm with current := w } }) ∧
     Does (.externalThrottle on) s (fun t => t = { s with pm := { s.pm with external := on } })) ∧
  ((∀ s : State, Does .packageReset s fun t => t.pm.time = 0 ∧ t.pm.stage = 0 ∧ t.pm.failed = false ∧ t.groups = [] ∧ t.teams = [] ∧
     t.parts = [] ∧ (∀ d, (t.dieAt d).rclk = 0) ∧ (∀ p d k, (t.slotOf p d k).st = .unbound ∧ (t.slotOf p d k).gen = 0) ∧
     (∀ a, a < 2 ^ 51 → t.mem.byte a = State.reset.mem.byte a) ∧ t.agenda = s.agenda) ∧
   ∀ s : State, s.pm.failed = false →
     let next := fun (n : Nat) (t : State) => t.pm.stage = n ∧ t.pm.failed = false ∧ t.mem = s.mem ∧ t.parts = s.parts
     let fails := fun (n : Nat) (t : State) => t.pm.failed = true ∧ t.pm.stage = s.pm.stage ∧ ∃ e ∈ t.pm.events, e = ⟨0x4F, [n]⟩
     (s.pm.stage = 0 → (∀ b c : Bool, (b || c) = true → Does (.firmwareVerify b c) s (next 1)) ∧
       Does (.firmwareVerify false false) s (fails 1)) ∧
     (s.pm.stage = 1 → Does (.hbmTraining true) s (next 2) ∧ Does (.hbmTraining false) s (fails 2)) ∧
     (s.pm.stage = 2 → Does .arrayDieRelease s fun t => next 3 t ∧ (∀ d x, s.dies.look d = some x → (t.dieAt d).rclk = 0) ∧
       ∀ p d k, (t.slotOf p d k).st = .unbound ∧ (t.slotOf p d k).gen = 0) ∧
     (s.pm.stage = 3 → ∀ failed, Does (.firstExam failed) s fun t => next 4 t ∧ ∀ c, c < 192 →
       (c ∈ failed → (t.coreAt c).exam.quarantined = true) ∧
       (c ∉ failed → (t.coreAt c).exam.lastPass = s.pm.time ∧ (t.coreAt c).exam.quarantined = (s.coreAt c).exam.quarantined)) ∧
     (s.pm.stage = 4 → Does .cxlConfigReady s (next 5)))
end

