-- ==== Sys2Proof/Laws/Encoding.lean ====
section
/-! SUPPORT. What the encoder packs, the decoder's fields read back: one lemma for each word layout and operand code. -/

namespace Sys2Proof

/-! ## Layouts -/

/-- Fields within their widths. -/
def VW.fits (v : VW) : Prop :=
  v.d < 512 ∧ v.a < 512 ∧ v.b < 512 ∧ v.c < 512 ∧ v.sub < 64 ∧ v.fa < 16 ∧ v.fb < 16
def VcW.fits (v : VcW) : Prop := v.d < 512 ∧ v.a < 512 ∧ v.c < 512 ∧ v.win < 8 ∧ v.ofs < 131072 ∧ v.mod < 8
def IW.fits (v : IW) : Prop := v.d < 512 ∧ v.sub < 512 ∧ v.imm < 4294967296
def MW.fits (v : MW) : Prop :=
  v.d < 512 ∧ v.base < 512 ∧ v.idx < 512 ∧ v.size < 8 ∧ v.ord < 8 ∧ v.sco < 8 ∧ v.sub < 16 ∧ v.off < 1024
def BW.fits (v : BW) : Prop := v.cond < 16 ∧ v.cm < 16 ∧ v.cs < 512 ∧ v.sub < 2 ∧ v.off < 4294967296

theorem VW.pack_lt {v : VW} (h : v.fits) : v.pack < 2 ^ 50 := by
  obtain ⟨h1, h2, h3, h4, h5, h6, h7⟩ := h; unfold VW.pack; omega
theorem VcW.pack_lt {v : VcW} (h : v.fits) : v.pack < 2 ^ 50 := by
  obtain ⟨h1, h2, h3, h4, h5, h6⟩ := h; unfold VcW.pack; omega
theorem IW.pack_lt {v : IW} (h : v.fits) : v.pack < 2 ^ 50 := by
  obtain ⟨h1, h2, h3⟩ := h; unfold IW.pack; omega
theorem MW.pack_lt {v : MW} (h : v.fits) : v.pack < 2 ^ 50 := by
  obtain ⟨h1, h2, h3, h4, h5, h6, h7, h8⟩ := h; unfold MW.pack; omega
theorem BW.pack_lt {v : BW} (h : v.fits) : v.pack < 2 ^ 50 := by
  obtain ⟨h1, h2, h3, h4, h5⟩ := h; unfold BW.pack; omega

theorem b2n_lt (b : Bool) : b2n b < 2 := by cases b <;> decide

theorem encTop_split (op : Nat) (g : Guard) (x : Bool) :
    ∃ t, encTop op g x = t * 2 ^ 50 ∧ t = op * 64 + g.m.val * 4 + b2n g.neg * 2 + b2n x := by
  refine ⟨_, ?_, rfl⟩; simp only [encTop, TopW.pack]; omega

theorem encTop_lt {op : Nat} (h : op < 256) (g : Guard) (x : Bool) {p : Nat} (hp : p < 2 ^ 50) :
    encTop op g x + p < 2 ^ 64 := by
  obtain ⟨t, ht, h'⟩ := encTop_split op g x
  have := g.m.isLt; have := b2n_lt g.neg; have := b2n_lt x; omega

theorem fld_top {t p lo n : Nat} (hp : p < 2 ^ 50) (h : 50 ≤ lo) : fld (t * 2 ^ 50 + p) lo n = t / 2 ^ (lo - 50) % 2 ^ n := by
  unfold fld
  obtain ⟨k, rfl⟩ := Nat.exists_eq_add_of_le h
  rw [Nat.pow_add, ← Nat.div_div_eq_div_mul, Nat.add_sub_cancel_left]
  congr 2; omega

theorem fld_low {t p lo n : Nat} (h : lo + n ≤ 50) : fld (t * 2 ^ 50 + p) lo n = fld p lo n := by
  unfold fld
  obtain ⟨k, hk⟩ := Nat.exists_eq_add_of_le h
  have e : t * 2 ^ 50 = 2 ^ lo * (2 ^ n * (t * 2 ^ k)) := by rw [hk, Nat.pow_add, Nat.pow_add]; ac_rfl
  rw [e, Nat.mul_add_div (Nat.two_pow_pos lo), Nat.mul_add_mod]

theorem beq_one_b2n (b : Bool) : (b2n b == 1) = b := by cases b <;> rfl

/-- The top fields of any word. -/
theorem top_parse {op : Nat} (h : op < 256) (g : Guard) (x : Bool) {p : Nat} (hp : p < 2 ^ 50) :
    TopW.parse (encTop op g x + p) = ⟨op, g.m.val, g.neg, x⟩ := by
  obtain ⟨t, ht, h'⟩ := encTop_split op g x
  have hm := g.m.isLt; have hn := b2n_lt g.neg; have hx := b2n_lt x
  have e1 : t / 2 ^ 6 % 2 ^ 8 = op := by omega
  have e2 : t / 2 ^ 2 % 2 ^ 4 = g.m.val := by omega
  have e3 : t / 2 ^ 1 % 2 ^ 1 = b2n g.neg := by omega
  have e4 : t / 2 ^ 0 % 2 ^ 1 = b2n x := by omega
  simp only [TopW.parse, ht, fld_top hp (show 50 ≤ 56 by decide), fld_top hp (show 50 ≤ 52 by decide),
    fld_top hp (show 50 ≤ 51 by decide), fld_top hp (show 50 ≤ 50 by decide), Nat.reduceSub, e1, e2, e3, e4, beq_one_b2n]

theorem VW.parse_pack (op : Nat) (g : Guard) (x : Bool) {v : VW} (h : v.fits) : VW.parse (encTop op g x + v.pack) = v := by
  obtain ⟨t, ht, -⟩ := encTop_split op g x
  obtain ⟨d, a, b, c, sub, fa, fb⟩ := v
  obtain ⟨h1, h2, h3, h4, h5, h6, h7⟩ := h
  simp only at h1 h2 h3 h4 h5 h6 h7
  simp (disch := decide) only [VW.parse, ht, fld_low, VW.mk.injEq]
  simp only [fld, VW.pack]
  refine ⟨?_, ?_, ?_, ?_, ?_, ?_, ?_⟩ <;> omega

theorem VcW.parse_pack (op : Nat) (g : Guard) (x : Bool) {v : VcW} (h : v.fits) : VcW.parse (encTop op g x + v.pack) = v := by
  obtain ⟨t, ht, -⟩ := encTop_split op g x
  obtain ⟨d, a, c, win, ofs, mod⟩ := v
  obtain ⟨h1, h2, h3, h4, h5, h6⟩ := h
  simp only at h1 h2 h3 h4 h5 h6
  simp (disch := decide) only [VcW.parse, ht, fld_low, VcW.mk.injEq]
  simp only [fld, VcW.pack]
  refine ⟨?_, ?_, ?_, ?_, ?_, ?_⟩ <;> omega

theorem IW.parse_pack (op : Nat) (g : Guard) (x : Bool) {v : IW} (h : v.fits) : IW.parse (encTop op g x + v.pack) = v := by
  obtain ⟨t, ht, -⟩ := encTop_split op g x
  obtain ⟨d, sub, imm⟩ := v
  obtain ⟨h1, h2, h3⟩ := h
  simp only at h1 h2 h3
  simp (disch := decide) only [IW.parse, ht, fld_low, IW.mk.injEq]
  simp only [fld, IW.pack]
  refine ⟨?_, ?_, ?_⟩ <;> omega

theorem MW.parse_pack (op : Nat) (g : Guard) (x : Bool) {v : MW} (h : v.fits) : MW.parse (encTop op g x + v.pack) = v := by
  obtain ⟨t, ht, -⟩ := encTop_split op g x
  obtain ⟨d, base, idx, size, ord, sco, sub, off⟩ := v
  obtain ⟨h1, h2, h3, h4, h5, h6, h7, h8⟩ := h
  simp only at h1 h2 h3 h4 h5 h6 h7 h8
  simp (disch := decide) only [MW.parse, ht, fld_low, MW.mk.injEq]
  simp only [fld, MW.pack]
  refine ⟨?_, ?_, ?_, ?_, ?_, ?_, ?_, ?_⟩ <;> omega

theorem BW.parse_pack (op : Nat) (g : Guard) (x : Bool) {v : BW} (h : v.fits) : BW.parse (encTop op g x + v.pack) = v := by
  obtain ⟨t, ht, -⟩ := encTop_split op g x
  obtain ⟨cond, cm, cs, sub, off⟩ := v
  obtain ⟨h1, h2, h3, h4, h5⟩ := h
  simp only at h1 h2 h3 h4 h5
  simp (disch := decide) only [BW.parse, ht, fld_low, BW.mk.injEq]
  simp only [fld, BW.pack]
  refine ⟨?_, ?_, ?_, ?_, ?_⟩ <;> omega

/-! ## Operand and field codes -/

@[simp] theorem SReg.of_code (k : SReg) : SReg.ofCode (SReg.code k) = some k := by revert k; decide
@[simp] theorem VReg.of_code (k : VReg) : VReg.ofCode (VReg.code k) = some k := by
  have h := k.isLt
  show (if k.val < 256 then some (Fin.ofNat 256 k.val) else none) = some k
  rw [if_pos h]; exact congrArg some (Fin.ext (Nat.mod_eq_of_lt h))
@[simp] theorem MReg.of_code (k : MReg) : MReg.ofCode (MReg.code k) = some k := by revert k; decide
@[simp] theorem SSrc.of_code (x : SSrc) : SSrc.ofCode x.code = some x := by
  cases x with
  | s k => revert k; decide
  | m k => revert k; decide
  | gwid => rfl
  | zero => rfl
  | imm c => revert c; decide
@[simp] theorem VSrc.of_code (x : VSrc) : VSrc.ofCode x.code = some x := by
  cases x with
  | v k =>
    have h := k.isLt
    show (if k.val < 256 then some (VSrc.v (Fin.ofNat 256 k.val)) else _) = some (.v k)
    rw [if_pos h]; exact congrArg (some ∘ VSrc.v) (Fin.ext (Nat.mod_eq_of_lt h))
  | s k => revert k; decide
  | m k => revert k; decide
  | lane => rfl
  | gwid => rfl
  | zero => rfl
  | imm c => revert c; decide
@[simp] theorem MSrc.of_code (x : MSrc) : MSrc.ofCode x.code = some x := by
  cases x with
  | m k => revert k; decide
  | zero => rfl
@[simp] theorem SBase.of_code (x : SBase) : SBase.ofCode x.code = some x := by
  cases x with
  | s k => revert k; decide
  | zero => rfl
/-- A scalar source's code names no vector register. -/
@[simp] theorem VReg.of_scalar (x : SSrc) : VReg.ofCode x.code = none := by
  cases x with
  | s k => revert k; decide
  | m k => revert k; decide
  | gwid => rfl
  | zero => rfl
  | imm c => revert c; decide
@[simp] theorem SReg.of_vreg (k : VReg) : SReg.ofCode (VReg.code k) = none := by
  have h := k.isLt
  exact if_neg (fun c => absurd c.1 (Nat.not_le_of_lt h))

theorem SReg.code_lt (k : SReg) : SReg.code k < 512 := by have := k.isLt; simp only [SReg.code]; omega
theorem VReg.code_lt (k : VReg) : VReg.code k < 512 := by have := k.isLt; simp only [VReg.code]; omega
theorem MReg.code_lt (k : MReg) : MReg.code k < 512 := by have := k.isLt; simp only [MReg.code]; omega
theorem SSrc.code_lt (x : SSrc) : x.code < 512 := by cases x <;> simp only [SSrc.code] <;> omega
theorem VSrc.code_lt (x : VSrc) : x.code < 512 := by cases x <;> simp only [VSrc.code] <;> omega
theorem MSrc.code_lt (x : MSrc) : x.code < 512 := by cases x <;> simp only [MSrc.code] <;> omega
theorem SBase.code_lt (x : SBase) : x.code < 512 := by cases x <;> simp only [SBase.code] <;> omega

@[simp] theorem ITy.of_codeS (t : ITy) : ITy.ofS t.codeS = t := by cases t <;> rfl
@[simp] theorem ITy.of_codeV (t : ITy) : ITy.ofV t.codeV = t := by cases t <;> rfl
@[simp] theorem FTy.of_code (t : FTy) : FTy.ofCode t.code = some t := by cases t <;> rfl
@[simp] theorem RedTy.of_code (t : RedTy) : RedTy.ofCode t.code = some t := by cases t <;> rfl
@[simp] theorem RedOp.of_code (t : RedOp) : RedOp.ofCode t.code = some t := by cases t <;> rfl
@[simp] theorem LogOp.of_code (t : LogOp) : LogOp.ofCode t.code = some t := by cases t <;> rfl
@[simp] theorem Rel.of_code (t : Rel) : Rel.ofCode t.code = some t := by cases t <;> rfl
@[simp] theorem FRel.of_code (t : FRel) : FRel.ofCode t.code = some t := by cases t with | rel r => cases r <;> rfl | _ => rfl
@[simp] theorem SCond.of_code (t : SCond) : SCond.ofCode t.code = some t := by cases t <;> rfl
@[simp] theorem MCond.of_code (t : MCond) : MCond.ofCode t.code = some t := by cases t <;> rfl
@[simp] theorem CvtKind.of_code (t : CvtKind) : CvtKind.ofCode t.code = some t := by cases t <;> rfl
@[simp] theorem Scope.of_code (t : Scope) : Scope.ofCode t.code = some t := by cases t <;> rfl
@[simp] theorem MemOrd.of_code (t : MemOrd) : MemOrd.ofCode t.code = some t := by cases t <;> rfl
@[simp] theorem MSize.of_code (t : MSize) : MSize.ofCode t.code = some t := by cases t <;> rfl
@[simp] theorem AtTy.of_code (t : AtTy) : AtTy.ofCode t.code = some t := by cases t <;> rfl
@[simp] theorem AtOp.of_code (t : AtOp) : AtOp.ofCode t.code = some t := by cases t <;> rfl
@[simp] theorem CmOp.of_code (t : CmOp) : CmOp.ofCode t.code = some t := by cases t <;> rfl
@[simp] theorem SMode.of_code (t : SMode) : SMode.ofCode t.code = some t := by cases t <;> rfl
@[simp] theorem SlKind.of_code (t : SlKind) : SlKind.ofCode t.code = some t := by cases t <;> rfl
@[simp] theorem StzForm.of_code (t : StzForm) : StzForm.ofCode t.code = some t := by cases t <;> rfl
@[simp] theorem Spr.of_code (t : Spr) : Spr.ofCode t.code = some t := by cases t <;> rfl
@[simp] theorem SMoviForm.of_code (t : SMoviForm) : SMoviForm.ofCode t.code = some t := by cases t <;> rfl
@[simp] theorem VMoviForm.of_code (t : VMoviForm) : VMoviForm.ofCode t.code = some t := by cases t <;> rfl
@[simp] theorem Rnd.of_code (r : Rnd) : Rnd.ofCode r.code = some r := by
  obtain ⟨m, s⟩ := r; cases m <;> cases s <;> rfl
@[simp] theorem bool01_b2n (b : Bool) : bool01 (b2n b) = some b := by cases b <;> rfl
@[simp] theorem flagField_of_code (f : Option Flag) : flagFieldOf (flagFieldCode f) = some f := by
  cases f with
  | none => rfl
  | some k => revert k; decide

theorem ITy.codeS_lt (t : ITy) : t.codeS < 8 := by cases t <;> decide
theorem ITy.codeV_lt (t : ITy) : t.codeV < 8 := by cases t <;> decide
theorem FTy.code_lt (t : FTy) : t.code < 4 := by cases t <;> decide
theorem RedTy.code_lt (t : RedTy) : t.code < 8 := by cases t <;> decide
theorem RedOp.code_lt (t : RedOp) : t.code < 8 := by cases t <;> decide
theorem LogOp.code_lt (t : LogOp) : t.code < 8 := by cases t <;> decide
theorem Rel.code_lt (t : Rel) : t.code < 8 := by cases t <;> decide
theorem FRel.code_lt (t : FRel) : t.code < 8 := by cases t with | rel r => cases r <;> decide | _ => decide
theorem SCond.code_lt (t : SCond) : t.code < 16 := by cases t <;> decide
theorem MCond.code_lt (t : MCond) : t.code < 16 := by cases t <;> decide
theorem CvtKind.code_lt (t : CvtKind) : t.code < 8 := by cases t <;> decide
theorem Scope.code_lt (t : Scope) : t.code < 8 := by cases t <;> decide
theorem MemOrd.code_lt (t : MemOrd) : t.code < 8 := by cases t <;> decide
theorem MSize.code_lt (t : MSize) : t.code < 8 := by cases t <;> decide
theorem AtTy.code_lt (t : AtTy) : t.code < 8 := by cases t <;> decide
theorem AtOp.code_lt (t : AtOp) : t.code < 8 := by cases t <;> decide
theorem CmOp.code_lt (t : CmOp) : t.code < 8 := by cases t <;> decide
theorem SMode.code_lt (t : SMode) : t.code < 16 := by cases t <;> decide
theorem SlKind.code_lt (t : SlKind) : t.code < 4 := by cases t <;> decide
theorem StzForm.code_lt (t : StzForm) : t.code < 8 := by cases t <;> decide
theorem Spr.code_lt (t : Spr) : t.code < 64 := by cases t <;> decide
theorem Rnd.code_lt (r : Rnd) : r.code < 16 := by obtain ⟨m, s⟩ := r; cases m <;> cases s <;> decide
theorem flagFieldCode_lt (f : Option Flag) : flagFieldCode f < 16 := by
  cases f with
  | none => decide
  | some k => have := k.isLt; simp only [flagFieldCode]; omega

@[simp] theorem guard_eta (g : Guard) : (⟨Fin.ofNat 16 g.m.val, g.neg⟩ : Guard) = g := by
  obtain ⟨m, n⟩ := g; exact congrArg (Guard.mk · n) (Fin.ext (Nat.mod_eq_of_lt m.isLt))

end Sys2Proof
end

