-- ==== Sys2Proof/Laws/Exec.lean ====
section
/-! SUPPORT. What `exec` runs for each constructor: one equation each, by which a proof goes from an instruction to its
meaning without unfolding `exec`. -/

namespace Sys2Proof.Machine

-- One proof at a time, which keeps the memory that the whole text takes low.
set_option Elab.async false

@[simp] theorem exec_nop : ∀ s, exec .nop s = execNop s := fun _ => rfl
@[simp] theorem exec_bra : ∀ x s, exec (.bra x) s = execBra x s := fun _ _ => rfl
@[simp] theorem exec_bmask : ∀ g cond off s, exec (.bmask g cond off) s = execBmask g cond off s := fun _ _ _ _ => rfl
@[simp] theorem exec_btab : ∀ g idx tab n s, exec (.btab g idx tab n) s = execBtab g idx tab n s := fun _ _ _ _ _ => rfl
@[simp] theorem exec_call : ∀ x s, exec (.call x) s = execCall x s := fun _ _ => rfl
@[simp] theorem exec_ret : ∀ g s, exec (.ret g) s = execRet g s := fun _ _ => rfl
@[simp] theorem exec_fork : ∀ g shared m off s, exec (.fork g shared m off) s = execFork g shared m off s := fun _ _ _ _ _ => rfl
@[simp] theorem exec_join : ∀ g s, exec (.join g) s = execJoin g s := fun _ _ => rfl
@[simp] theorem exec_exit : ∀ g s, exec (.exit g) s = execExit g s := fun _ _ => rfl
@[simp] theorem exec_yield : ∀ g n s, exec (.yield g n) s = execYield g n s := fun _ _ _ => rfl
@[simp] theorem exec_trap : ∀ g a s, exec (.trap g a) s = execTrap g a s := fun _ _ _ => rfl
@[simp] theorem exec_rft : ∀ g s, exec (.rft g) s = execRft g s := fun _ _ => rfl
@[simp] theorem exec_waitt : ∀ g t f s, exec (.waitt g t f) s = execWaitt g t f s := fun _ _ _ _ => rfl
@[simp] theorem exec_sadd : ∀ sat x s, exec (.sadd sat x) s = execSadd sat x s := fun _ _ _ => rfl
@[simp] theorem exec_ssub : ∀ sat x s, exec (.ssub sat x) s = execSsub sat x s := fun _ _ _ => rfl
@[simp] theorem exec_smul : ∀ sat x s, exec (.smul sat x) s = execSmul sat x s := fun _ _ _ => rfl
@[simp] theorem exec_smulh : ∀ x s, exec (.smulh x) s = execSmulh x s := fun _ _ => rfl
@[simp] theorem exec_smad : ∀ sat x s, exec (.smad sat x) s = execSmad sat x s := fun _ _ _ => rfl
@[simp] theorem exec_sdiv : ∀ rem x s, exec (.sdiv rem x) s = execSdiv rem x s := fun _ _ _ => rfl
@[simp] theorem exec_slog : ∀ op x b s, exec (.slog op x b) s = execSlog op x b s := fun _ _ _ _ => rfl
@[simp] theorem exec_sshl : ∀ x s, exec (.sshl x) s = execSshl x s := fun _ _ => rfl
@[simp] theorem exec_sshr : ∀ x s, exec (.sshr x) s = execSshr x s := fun _ _ => rfl
@[simp] theorem exec_ssra : ∀ x s, exec (.ssra x) s = execSsra x s := fun _ _ => rfl
@[simp] theorem exec_smin : ∀ x s, exec (.smin x) s = execSmin x s := fun _ _ => rfl
@[simp] theorem exec_smax : ∀ x s, exec (.smax x) s = execSmax x s := fun _ _ => rfl
@[simp] theorem exec_scmp : ∀ rel x s, exec (.scmp rel x) s = execScmp rel x s := fun _ _ _ => rfl
@[simp] theorem exec_ssel : ∀ x s, exec (.ssel x) s = execSsel x s := fun _ _ => rfl
@[simp] theorem exec_smov : ∀ x s, exec (.smov x) s = execSmov x s := fun _ _ => rfl
@[simp] theorem exec_smovi : ∀ g form d imm s, exec (.smovi g form d imm) s = execSmovi g form d imm s := fun _ _ _ _ _ => rfl
@[simp] theorem exec_spopc : ∀ x s, exec (.spopc x) s = execSpopc x s := fun _ _ => rfl
@[simp] theorem exec_sclz : ∀ x s, exec (.sclz x) s = execSclz x s := fun _ _ => rfl
@[simp] theorem exec_sbfx : ∀ x s, exec (.sbfx x) s = execSbfx x s := fun _ _ => rfl
@[simp] theorem exec_sbfi : ∀ x s, exec (.sbfi x) s = execSbfi x s := fun _ _ => rfl
@[simp] theorem exec_sldc : ∀ g d win ofs s, exec (.sldc g d win ofs) s = execSldc g d win ofs s := fun _ _ _ _ _ => rfl
@[simp] theorem exec_srd : ∀ g hi d r s, exec (.srd g hi d r) s = execSrd g hi d r s := fun _ _ _ _ _ => rfl
@[simp] theorem exec_swr : ∀ g hi r a s, exec (.swr g hi r a) s = execSwr g hi r a s := fun _ _ _ _ _ => rfl
@[simp] theorem exec_mlog : ∀ g op d a b s, exec (.mlog g op d a b) s = execMlog g op d a b s := fun _ _ _ _ _ _ => rfl
@[simp] theorem exec_mpopc : ∀ g d a s, exec (.mpopc g d a) s = execMpopc g d a s := fun _ _ _ _ => rfl
@[simp] theorem exec_mffs : ∀ g last d a s, exec (.mffs g last d a) s = execMffs g last d a s := fun _ _ _ _ _ => rfl
@[simp] theorem exec_mset : ∀ g d a s, exec (.mset g d a) s = execMset g d a s := fun _ _ _ _ => rfl
@[simp] theorem exec_mget : ∀ g neg d a s, exec (.mget g neg d a) s = execMget g neg d a s := fun _ _ _ _ _ => rfl
@[simp] theorem exec_mbal : ∀ g form s, exec (.mbal g form) s = execMbal g form s := fun _ _ _ => rfl
@[simp] theorem exec_vadd : ∀ sat x s, exec (.vadd sat x) s = execVadd sat x s := fun _ _ _ => rfl
@[simp] theorem exec_vsub : ∀ sat x s, exec (.vsub sat x) s = execVsub sat x s := fun _ _ _ => rfl
@[simp] theorem exec_vmul : ∀ sat x s, exec (.vmul sat x) s = execVmul sat x s := fun _ _ _ => rfl
@[simp] theorem exec_vmulh : ∀ x s, exec (.vmulh x) s = execVmulh x s := fun _ _ => rfl
@[simp] theorem exec_vmad : ∀ sat x s, exec (.vmad sat x) s = execVmad sat x s := fun _ _ _ => rfl
@[simp] theorem exec_vlog : ∀ op x b s, exec (.vlog op x b) s = execVlog op x b s := fun _ _ _ _ => rfl
@[simp] theorem exec_vshl : ∀ x s, exec (.vshl x) s = execVshl x s := fun _ _ => rfl
@[simp] theorem exec_vshr : ∀ x s, exec (.vshr x) s = execVshr x s := fun _ _ => rfl
@[simp] theorem exec_vsra : ∀ x s, exec (.vsra x) s = execVsra x s := fun _ _ => rfl
@[simp] theorem exec_vmin : ∀ x s, exec (.vmin x) s = execVmin x s := fun _ _ => rfl
@[simp] theorem exec_vmax : ∀ x s, exec (.vmax x) s = execVmax x s := fun _ _ => rfl
@[simp] theorem exec_vabs : ∀ sat x s, exec (.vabs sat x) s = execVabs sat x s := fun _ _ _ => rfl
@[simp] theorem exec_vcmp : ∀ g rel ty mt mf a b s, exec (.vcmp g rel ty mt mf a b) s = execVcmp g rel ty mt mf a b s := fun _ _ _ _ _ _ _ _ => rfl
@[simp] theorem exec_vsel : ∀ x s, exec (.vsel x) s = execVsel x s := fun _ _ => rfl
@[simp] theorem exec_vmov : ∀ x s, exec (.vmov x) s = execVmov x s := fun _ _ => rfl
@[simp] theorem exec_vmovi : ∀ g form d imm s, exec (.vmovi g form d imm) s = execVmovi g form d imm s := fun _ _ _ _ _ => rfl
@[simp] theorem exec_vcvt : ∀ g dst src rnd d a fsl s, exec (.vcvt g dst src rnd d a fsl) s = execVcvt g dst src rnd d a fsl s := fun _ _ _ _ _ _ _ _ => rfl
@[simp] theorem exec_vpopc : ∀ x s, exec (.vpopc x) s = execVpopc x s := fun _ _ => rfl
@[simp] theorem exec_vclz : ∀ x s, exec (.vclz x) s = execVclz x s := fun _ _ => rfl
@[simp] theorem exec_vbfx : ∀ x s, exec (.vbfx x) s = execVbfx x s := fun _ _ => rfl
@[simp] theorem exec_vbfi : ∀ x s, exec (.vbfi x) s = execVbfi x s := fun _ _ => rfl
@[simp] theorem exec_vfadd : ∀ x r s, exec (.vfadd x r) s = execVfadd x r s := fun _ _ _ => rfl
@[simp] theorem exec_vfsub : ∀ x r s, exec (.vfsub x r) s = execVfsub x r s := fun _ _ _ => rfl
@[simp] theorem exec_vfmul : ∀ x r s, exec (.vfmul x r) s = execVfmul x r s := fun _ _ _ => rfl
@[simp] theorem exec_vfma : ∀ x r s, exec (.vfma x r) s = execVfma x r s := fun _ _ _ => rfl
@[simp] theorem exec_vfmin : ∀ x s, exec (.vfmin x) s = execVfmin x s := fun _ _ => rfl
@[simp] theorem exec_vfmax : ∀ x s, exec (.vfmax x) s = execVfmax x s := fun _ _ => rfl
@[simp] theorem exec_vfcmp : ∀ g rel ty mt mf a b s, exec (.vfcmp g rel ty mt mf a b) s = execVfcmp g rel ty mt mf a b s := fun _ _ _ _ _ _ _ _ => rfl
@[simp] theorem exec_vmed3 : ∀ x s, exec (.vmed3 x) s = execVmed3 x s := fun _ _ => rfl
@[simp] theorem exec_vfrcp : ∀ x s, exec (.vfrcp x) s = execVfrcp x s := fun _ _ => rfl
@[simp] theorem exec_vfrsq : ∀ x s, exec (.vfrsq x) s = execVfrsq x s := fun _ _ => rfl
@[simp] theorem exec_vfexp2 : ∀ x s, exec (.vfexp2 x) s = execVfexp2 x s := fun _ _ => rfl
@[simp] theorem exec_vflog2 : ∀ x s, exec (.vflog2 x) s = execVflog2 x s := fun _ _ => rfl
@[simp] theorem exec_vfcls : ∀ x s, exec (.vfcls x) s = execVfcls x s := fun _ _ => rfl
@[simp] theorem exec_vshfl : ∀ g wide d a idx s, exec (.vshfl g wide d a idx) s = execVshfl g wide d a idx s := fun _ _ _ _ _ _ => rfl
@[simp] theorem exec_vbcast : ∀ g wide d a n s, exec (.vbcast g wide d a n) s = execVbcast g wide d a n s := fun _ _ _ _ _ _ => rfl
@[simp] theorem exec_vred : ∀ g op ty r d a s, exec (.vred g op ty r d a) s = execVred g op ty r d a s := fun _ _ _ _ _ _ _ => rfl
@[simp] theorem exec_vscan : ∀ g op ty r d a c s, exec (.vscan g op ty r d a c) s = execVscan g op ty r d a c s := fun _ _ _ _ _ _ _ _ => rfl
@[simp] theorem exec_vcmpr : ∀ g wide d a s, exec (.vcmpr g wide d a) s = execVcmpr g wide d a s := fun _ _ _ _ _ => rfl
@[simp] theorem exec_fswap : ∀ g x d form dies slot s, exec (.fswap g x d form dies slot) s = execFswap g x d form dies slot s := fun _ _ _ _ _ _ _ => rfl
@[simp] theorem exec_ffence : ∀ g s, exec (.ffence g) s = execFfence g s := fun _ _ => rfl
@[simp] theorem exec_fqry : ∀ g d word slot s, exec (.fqry g d word slot) s = execFqry g d word slot s := fun _ _ _ _ _ => rfl
@[simp] theorem exec_qnt : ∀ g x src dst sc t mode slot r s, exec (.qnt g x src dst sc t mode slot r) s = execQnt g x src dst sc t mode slot r s := fun _ _ _ _ _ _ _ _ _ _ => rfl
@[simp] theorem exec_dqnt : ∀ g x d src sc t mode slot r s, exec (.dqnt g x d src sc t mode slot r) s = execDqnt g x d src sc t mode slot r s := fun _ _ _ _ _ _ _ _ _ _ => rfl
@[simp] theorem exec_vld : ∀ m s, exec (.vld m) s = execVld m s := fun _ _ => rfl
@[simp] theorem exec_vst : ∀ m s, exec (.vst m) s = execVst m s := fun _ _ => rfl
@[simp] theorem exec_vlds : ∀ m s, exec (.vlds m) s = execVlds m s := fun _ _ => rfl
@[simp] theorem exec_vsts : ∀ m s, exec (.vsts m) s = execVsts m s := fun _ _ => rfl
@[simp] theorem exec_sld : ∀ g x d base off size ord sco sl sx s, exec (.sld g x d base off size ord sco sl sx) s = execSld g x d base off size ord sco sl sx s := fun _ _ _ _ _ _ _ _ _ _ _ => rfl
@[simp] theorem exec_sst : ∀ g x a base off size ord sco sl s, exec (.sst g x a base off size ord sco sl) s = execSst g x a base off size ord sco sl s := fun _ _ _ _ _ _ _ _ _ _ => rfl
@[simp] theorem exec_ldsl : ∀ m s, exec (.ldsl m) s = execLdsl m s := fun _ _ => rfl
@[simp] theorem exec_stsl : ∀ m s, exec (.stsl m) s = execStsl m s := fun _ _ => rfl
@[simp] theorem exec_atom : ∀ g x d base idx off ty op ord sco sl s, exec (.atom g x d base idx off ty op ord sco sl) s = execAtom g x d base idx off ty op ord sco sl s := fun _ _ _ _ _ _ _ _ _ _ _ _ => rfl
@[simp] theorem exec_acas : ∀ g x d base idx off wide ord sco sl s, exec (.acas g x d base idx off wide ord sco sl) s = execAcas g x d base idx off wide ord sco sl s := fun _ _ _ _ _ _ _ _ _ _ _ => rfl
@[simp] theorem exec_ldr : ∀ m s, exec (.ldr m) s = execLdr m s := fun _ _ => rfl
@[simp] theorem exec_stc : ∀ m s, exec (.stc m) s = execStc m s := fun _ _ => rfl
@[simp] theorem exec_fence : ∀ g x ord sco s, exec (.fence g x ord sco) s = execFence g x ord sco s := fun _ _ _ _ _ => rfl
@[simp] theorem exec_cmaint : ∀ g x op rel sco base idx off s, exec (.cmaint g x op rel sco base idx off) s = execCmaint g x op rel sco base idx off s := fun _ _ _ _ _ _ _ _ _ => rfl
@[simp] theorem exec_slalloc : ∀ g d n lx part kind s, exec (.slalloc g d n lx part kind) s = execSlalloc g d n lx part kind s := fun _ _ _ _ _ _ _ => rfl
@[simp] theorem exec_slfree : ∀ g x a s, exec (.slfree g x a) s = execSlfree g x a s := fun _ _ _ _ => rfl
@[simp] theorem exec_slrenew : ∀ g x a len s, exec (.slrenew g x a len) s = execSlrenew g x a len s := fun _ _ _ _ _ => rfl
@[simp] theorem exec_slqry : ∀ g d a k crib s, exec (.slqry g d a k crib) s = execSlqry g d a k crib s := fun _ _ _ _ _ _ => rfl
@[simp] theorem exec_crib : ∀ g x t c arg src nsrc warm s, exec (.crib g x t c arg src nsrc warm) s = execCrib g x t c arg src nsrc warm s := fun _ _ _ _ _ _ _ _ _ => rfl
@[simp] theorem exec_crtouch : ∀ g x a d renew warm cold s, exec (.crtouch g x a d renew warm cold) s = execCrtouch g x a d renew warm cold s := fun _ _ _ _ _ _ _ _ => rfl
@[simp] theorem exec_crdrop : ∀ g a s, exec (.crdrop g a) s = execCrdrop g a s := fun _ _ _ => rfl
@[simp] theorem exec_mma : ∀ g x z ver a b sc fa fb s, exec (.mma g x z ver a b sc fa fb) s = execMma g x z ver a b sc fa fb s := fun _ _ _ _ _ _ _ _ _ _ => rfl
@[simp] theorem exec_mzero : ∀ g x z ver s, exec (.mzero g x z ver) s = execMzero g x z ver s := fun _ _ _ _ _ => rfl
@[simp] theorem exec_mstz : ∀ g x z ver a rng form slot r s, exec (.mstz g x z ver a rng form slot r) s = execMstz g x z ver a rng form slot r s := fun _ _ _ _ _ _ _ _ _ _ => rfl
@[simp] theorem exec_mldz : ∀ g x z ver a s, exec (.mldz g x z ver a) s = execMldz g x z ver a s := fun _ _ _ _ _ _ => rfl
@[simp] theorem exec_mver : ∀ g d z s, exec (.mver g d z) s = execMver g d z s := fun _ _ _ _ => rfl
@[simp] theorem exec_cpy : ∀ g x d rec org sl s, exec (.cpy g x d rec org sl) s = execCpy g x d rec org sl s := fun _ _ _ _ _ _ _ => rfl
@[simp] theorem exec_gath : ∀ g x d rec op idx s, exec (.gath g x d rec op idx) s = execGath g x d rec op idx s := fun _ _ _ _ _ _ _ => rfl
@[simp] theorem exec_bseal : ∀ g n s, exec (.bseal g n) s = execBseal g n s := fun _ _ _ => rfl
@[simp] theorem exec_bwait : ∀ g n test s, exec (.bwait g n test) s = execBwait g n test s := fun _ _ _ _ => rfl
@[simp] theorem exec_bari : ∀ g a form s, exec (.bari g a form) s = execBari g a form s := fun _ _ _ _ => rfl
@[simp] theorem exec_bara : ∀ g x a d s, exec (.bara g x a d) s = execBara g x a d s := fun _ _ _ _ _ => rfl
@[simp] theorem exec_barw : ∀ g a p test s, exec (.barw g a p test) s = execBarw g a p test s := fun _ _ _ _ _ => rfl
@[simp] theorem exec_tray : ∀ g x hdr crd pay s, exec (.tray g x hdr crd pay) s = execTray g x hdr crd pay s := fun _ _ _ _ _ _ => rfl
@[simp] theorem exec_depdec : ∀ g x base idx s, exec (.depdec g x base idx) s = execDepdec g x base idx s := fun _ _ _ _ _ => rfl
@[simp] theorem exec_rclaim : ∀ g nb d ring n s, exec (.rclaim g nb d ring n) s = execRclaim g nb d ring n s := fun _ _ _ _ _ _ => rfl
@[simp] theorem exec_rcommit : ∀ g x ring p n s, exec (.rcommit g x ring p n) s = execRcommit g x ring p n s := fun _ _ _ _ _ _ => rfl
@[simp] theorem exec_rawait : ∀ g nb d ring n s, exec (.rawait g nb d ring n) s = execRawait g nb d ring n s := fun _ _ _ _ _ _ => rfl
@[simp] theorem exec_rretire : ∀ g x ring q n s, exec (.rretire g x ring q n) s = execRretire g x ring q n s := fun _ _ _ _ _ _ => rfl
@[simp] theorem exec_qpush : ∀ g a s, exec (.qpush g a) s = execQpush g a s := fun _ _ _ => rfl
@[simp] theorem exec_qpop : ∀ g d s, exec (.qpop g d) s = execQpop g d s := fun _ _ _ => rfl
@[simp] theorem exec_tlbinv : ∀ g x va len part s, exec (.tlbinv g x va len part) s = execTlbinv g x va len part s := fun _ _ _ _ _ _ => rfl
@[simp] theorem exec_clauseHeader : ∀ h s, exec (.clauseHeader h) s = execClauseHeader h s := fun _ _ => rfl
@[simp] theorem exec_operationComplete : ∀ k op s, exec (.operationComplete k op) s = execOperationComplete k op s := fun _ _ _ => rfl
@[simp] theorem exec_versionTimeout : ∀ k op s, exec (.versionTimeout k op) s = execVersionTimeout k op s := fun _ _ _ => rfl
@[simp] theorem exec_registerLineFill : ∀ k line foreign bad s, exec (.registerLineFill k line foreign bad) s = execRegisterLineFill k line foreign bad s := fun _ _ _ _ _ => rfl
@[simp] theorem exec_mappedFill : ∀ core desc sector s, exec (.mappedFill core desc sector) s = execMappedFill core desc sector s := fun _ _ _ _ => rfl
@[simp] theorem exec_faultResponse : ∀ part s, exec (.faultResponse part) s = execFaultResponse part s := fun _ _ => rfl
@[simp] theorem exec_faultStall : ∀ part ticket s, exec (.faultStall part ticket) s = execFaultStall part ticket s := fun _ _ _ => rfl
@[simp] theorem exec_replayStart : ∀ core chain slot s, exec (.replayStart core chain slot) s = execReplayStart core chain slot s := fun _ _ _ _ => rfl
@[simp] theorem exec_cribWatchHit : ∀ line s, exec (.cribWatchHit line) s = execCribWatchHit line s := fun _ _ => rfl
@[simp] theorem exec_engineChunkDone : ∀ engine s, exec (.engineChunkDone engine) s = execEngineChunkDone engine s := fun _ _ => rfl
@[simp] theorem exec_engineResume : ∀ engine req s, exec (.engineResume engine req) s = execEngineResume engine req s := fun _ _ _ => rfl
@[simp] theorem exec_engineBudgetPeriod : ∀ s, exec .engineBudgetPeriod s = execEngineBudgetPeriod s := fun _ => rfl
@[simp] theorem exec_waittWake : ∀ k who s, exec (.waittWake k who) s = execWaittWake k who s := fun _ _ _ => rfl
@[simp] theorem exec_reservationDeferralEnd : ∀ k who s, exec (.reservationDeferralEnd k who) s = execReservationDeferralEnd k who s := fun _ _ _ => rfl
@[simp] theorem exec_yieldEnd : ∀ k who s, exec (.yieldEnd k who) s = execYieldEnd k who s := fun _ _ _ => rfl
@[simp] theorem exec_rclkTick : ∀ die s, exec (.rclkTick die) s = execRclkTick die s := fun _ _ => rfl
@[simp] theorem exec_sectorExpiry : ∀ core desc sector s, exec (.sectorExpiry core desc sector) s = execSectorExpiry core desc sector s := fun _ _ _ _ => rfl
@[simp] theorem exec_scrubberVisit : ∀ core desc leaf bad corrected s, exec (.scrubberVisit core desc leaf bad corrected) s = execScrubberVisit core desc leaf bad corrected s := fun _ _ _ _ _ _ => rfl
@[simp] theorem exec_spillMove : ∀ part s, exec (.spillMove part) s = execSpillMove part s := fun _ _ => rfl
@[simp] theorem exec_bellExpiry : ∀ die tray s, exec (.bellExpiry die tray) s = execBellExpiry die tray s := fun _ _ _ => rfl
@[simp] theorem exec_teamPlacement : ∀ part core s, exec (.teamPlacement part core) s = execTeamPlacement part core s := fun _ _ _ => rfl
@[simp] theorem exec_preemptionRequest : ∀ team deadline newAcc newLeaves s, exec (.preemptionRequest team deadline newAcc newLeaves) s = execPreemptionRequest team deadline newAcc newLeaves s := fun _ _ _ _ _ => rfl
@[simp] theorem exec_saveComplete : ∀ team s, exec (.saveComplete team) s = execSaveComplete team s := fun _ _ => rfl
@[simp] theorem exec_preemptDeadline : ∀ team s, exec (.preemptDeadline team) s = execPreemptDeadline team s := fun _ _ => rfl
@[simp] theorem exec_teamResume : ∀ team core s, exec (.teamResume team core) s = execTeamResume team core s := fun _ _ _ => rfl
@[simp] theorem exec_deficitCreditPeriod : ∀ s, exec .deficitCreditPeriod s = execDeficitCreditPeriod s := fun _ => rfl
@[simp] theorem exec_deficitCompare : ∀ part s, exec (.deficitCompare part) s = execDeficitCompare part s := fun _ _ => rfl
@[simp] theorem exec_bandwidthPeriod : ∀ busy shares s, exec (.bandwidthPeriod busy shares) s = execBandwidthPeriod busy shares s := fun _ _ _ => rfl
@[simp] theorem exec_poolPeriod : ∀ n power s, exec (.poolPeriod n power) s = execPoolPeriod n power s := fun _ _ _ => rfl
@[simp] theorem exec_examStart : ∀ core s, exec (.examStart core) s = execExamStart core s := fun _ _ => rfl
@[simp] theorem exec_examEnd : ∀ core pass s, exec (.examEnd core pass) s = execExamEnd core pass s := fun _ _ _ => rfl
@[simp] theorem exec_queueSlotFree : ∀ part slot s, exec (.queueSlotFree part slot) s = execQueueSlotFree part slot s := fun _ _ _ => rfl
@[simp] theorem exec_notify : ∀ part q s, exec (.notify part q) s = execNotify part q s := fun _ _ _ => rfl
@[simp] theorem exec_hostRclaimRead : ∀ part ring n s, exec (.hostRclaimRead part ring n) s = execHostRclaimRead part ring n s := fun _ _ _ _ => rfl
@[simp] theorem exec_hostRcommitWrite : ∀ part ring val s, exec (.hostRcommitWrite part ring val) s = execHostRcommitWrite part ring val s := fun _ _ _ _ => rfl
@[simp] theorem exec_registerWrite : ∀ part off val s, exec (.registerWrite part off val) s = execRegisterWrite part off val s := fun _ _ _ _ => rfl
@[simp] theorem exec_hostMemRead : ∀ part pa len s, exec (.hostMemRead part pa len) s = execHostMemRead part pa len s := fun _ _ _ _ => rfl
@[simp] theorem exec_hostMemWrite : ∀ part pa bytes s, exec (.hostMemWrite part pa bytes) s = execHostMemWrite part pa bytes s := fun _ _ _ _ => rfl
@[simp] theorem exec_hostConfigAccess : ∀ fn off wr s, exec (.hostConfigAccess fn off wr) s = execHostConfigAccess fn off wr s := fun _ _ _ _ => rfl
@[simp] theorem exec_linkTraining : ∀ width speed s, exec (.linkTraining width speed) s = execLinkTraining width speed s := fun _ _ _ => rfl
@[simp] theorem exec_fabricRead : ∀ a s, exec (.fabricRead a) s = execFabricRead a s := fun _ _ => rfl
@[simp] theorem exec_fabricWrite : ∀ a payload s, exec (.fabricWrite a payload) s = execFabricWrite a payload s := fun _ _ _ => rfl
@[simp] theorem exec_fabricAtomic : ∀ a payload s, exec (.fabricAtomic a payload) s = execFabricAtomic a payload s := fun _ _ _ => rfl
@[simp] theorem exec_fabricResponse : ∀ a e s, exec (.fabricResponse a e) s = execFabricResponse a e s := fun _ _ _ => rfl
@[simp] theorem exec_fabricData : ∀ a payload s, exec (.fabricData a payload) s = execFabricData a payload s := fun _ _ _ => rfl
@[simp] theorem exec_linkCredit : ∀ a n s, exec (.linkCredit a n) s = execLinkCredit a n s := fun _ _ _ => rfl
@[simp] theorem exec_linkRetry : ∀ port resent s, exec (.linkRetry port resent) s = execLinkRetry port resent s := fun _ _ _ => rfl
@[simp] theorem exec_fabricTimeout : ∀ tag s, exec (.fabricTimeout tag) s = execFabricTimeout tag s := fun _ _ => rfl
@[simp] theorem exec_partitionCreate : ∀ p x s, exec (.partitionCreate p x) s = execPartitionCreate p x s := fun _ _ _ => rfl
@[simp] theorem exec_partitionDestroy : ∀ p s, exec (.partitionDestroy p) s = execPartitionDestroy p s := fun _ _ => rfl
@[simp] theorem exec_partitionFence : ∀ p s, exec (.partitionFence p) s = execPartitionFence p s := fun _ _ => rfl
@[simp] theorem exec_partitionReset : ∀ p s, exec (.partitionReset p) s = execPartitionReset p s := fun _ _ => rfl
@[simp] theorem exec_moduleCap : ∀ w s, exec (.moduleCap w) s = execModuleCap w s := fun _ _ => rfl
@[simp] theorem exec_rackBroadcast : ∀ c k s, exec (.rackBroadcast c k) s = execRackBroadcast c k s := fun _ _ _ => rfl
@[simp] theorem exec_frameRelease : ∀ p frame s, exec (.frameRelease p frame) s = execFrameRelease p frame s := fun _ _ _ => rfl
@[simp] theorem exec_keyEnrol : ∀ p signer key sig s, exec (.keyEnrol p signer key sig) s = execKeyEnrol p signer key sig s := fun _ _ _ _ _ => rfl
@[simp] theorem exec_keyRevoke : ∀ p signer sig s, exec (.keyRevoke p signer sig) s = execKeyRevoke p signer sig s := fun _ _ _ _ => rfl
@[simp] theorem exec_attestationLogRoll : ∀ p s, exec (.attestationLogRoll p) s = execAttestationLogRoll p s := fun _ _ => rfl
@[simp] theorem exec_preEmptTeam : ∀ team deadline s, exec (.preEmptTeam team deadline) s = execPreEmptTeam team deadline s := fun _ _ _ => rfl
@[simp] theorem exec_counterRead : ∀ p s, exec (.counterRead p) s = execCounterRead p s := fun _ _ => rfl
@[simp] theorem exec_spdmGetMeasurements : ∀ p s, exec (.spdmGetMeasurements p) s = execSpdmGetMeasurements p s := fun _ _ => rfl
@[simp] theorem exec_proctorVerifyDone : ∀ swap die s, exec (.proctorVerifyDone swap die) s = execProctorVerifyDone swap die s := fun _ _ _ => rfl
@[simp] theorem exec_fmgDrainDone : ∀ swap die s, exec (.fmgDrainDone swap die) s = execFmgDrainDone swap die s := fun _ _ _ => rfl
@[simp] theorem exec_regionReconfigured : ∀ swap die s, exec (.regionReconfigured swap die) s = execRegionReconfigured swap die s := fun _ _ _ => rfl
@[simp] theorem exec_drainTimeout : ∀ swap die s, exec (.drainTimeout swap die) s = execDrainTimeout swap die s := fun _ _ _ => rfl
@[simp] theorem exec_hbmPatrol : ∀ line stack e s, exec (.hbmPatrol line stack e) s = execHbmPatrol line stack e s := fun _ _ _ _ => rfl
@[simp] theorem exec_thermalThrottle : ∀ die s, exec (.thermalThrottle die) s = execThermalThrottle die s := fun _ _ => rfl
@[simp] theorem exec_thermalRecover : ∀ die s, exec (.thermalRecover die) s = execThermalRecover die s := fun _ _ => rfl
@[simp] theorem exec_thermalStop : ∀ die s, exec (.thermalStop die) s = execThermalStop die s := fun _ _ => rfl
@[simp] theorem exec_currentLimit : ∀ w s, exec (.currentLimit w) s = execCurrentLimit w s := fun _ _ => rfl
@[simp] theorem exec_externalThrottle : ∀ on s, exec (.externalThrottle on) s = execExternalThrottle on s := fun _ _ => rfl
@[simp] theorem exec_securityAlarm : ∀ mesh level s, exec (.securityAlarm mesh level) s = execSecurityAlarm mesh level s := fun _ _ _ => rfl
@[simp] theorem exec_packageReset : ∀ s, exec .packageReset s = execPackageReset s := fun _ => rfl
@[simp] theorem exec_firmwareVerify : ∀ first second s, exec (.firmwareVerify first second) s = execFirmwareVerify first second s := fun _ _ _ => rfl
@[simp] theorem exec_hbmTraining : ∀ ok s, exec (.hbmTraining ok) s = execHbmTraining ok s := fun _ _ => rfl
@[simp] theorem exec_arrayDieRelease : ∀ s, exec .arrayDieRelease s = execArrayDieRelease s := fun _ => rfl
@[simp] theorem exec_firstExam : ∀ failed s, exec (.firstExam failed) s = execFirstExam failed s := fun _ _ => rfl
@[simp] theorem exec_cxlConfigReady : ∀ s, exec .cxlConfigReady s = execCxlConfigReady s := fun _ => rfl
@[simp] theorem exec_partitionParameterChange : ∀ p c s, exec (.partitionParameterChange p c) s = execPartitionParameterChange p c s := fun _ _ _ => rfl
@[simp] theorem exec_reservedKindFlit : ∀ a s, exec (.reservedKindFlit a) s = execReservedKindFlit a s := fun _ _ => rfl
@[simp] theorem exec_deviceIdSet : ∀ id s, exec (.deviceIdSet id) s = execDeviceIdSet id s := fun _ _ => rfl

end Sys2Proof.Machine
end

