-- ==== Sys2Proof/Laws/Tables.lean ====
section
/-! SUPPORT. Tables with rising keys: what reading, writing and deleting a key do, and that they keep the form. -/

namespace Sys2Proof

/-- Every key lies above a bound. -/
def Tbl.above {α : Type} (k : Nat) (t : Tbl α) : Prop := ∀ p ∈ t, k < p.1

theorem Tbl.rising_cons {α : Type} {k : Nat} {v : α} {t : Tbl α} :
    Tbl.rising ((k, v) :: t) = true ↔ t.above k ∧ Tbl.rising t = true := by
  induction t generalizing k v with
  | nil => simp [Tbl.rising, Tbl.above]
  | cons q t ih =>
    obtain ⟨j, y⟩ := q
    simp only [Tbl.rising, Bool.and_eq_true, decide_eq_true_eq]
    constructor
    · rintro ⟨h, hr⟩
      refine ⟨fun p hp => ?_, hr⟩
      cases hp with
      | head => exact h
      | tail _ hp => exact Nat.lt_trans h ((ih.mp hr).1 p hp)
    · rintro ⟨ha, hr⟩
      exact ⟨ha (j, y) (List.mem_cons_self ..), hr⟩

/-! ## Reading a key back -/

@[simp] theorem Tbl.look_ins {α : Type} (t : Tbl α) (j : Nat) (x : α) : (t.ins j x).look j = some x := by
  induction t with
  | nil => simp [Tbl.ins, Tbl.look]
  | cons q t ih =>
    obtain ⟨k, v⟩ := q
    by_cases h : j < k
    · simp [Tbl.ins, h, Tbl.look]
    · by_cases e : j = k
      · simp [Tbl.ins, e, Tbl.look]
      · simp [Tbl.ins, h, e, Tbl.look, ih]

theorem Tbl.look_ins_ne {α : Type} (t : Tbl α) {i j : Nat} (x : α) (hne : i ≠ j) : (t.ins j x).look i = t.look i := by
  induction t with
  | nil => simp [Tbl.ins, Tbl.look, hne]
  | cons q t ih =>
    obtain ⟨k, v⟩ := q
    by_cases h : j < k
    · simp [Tbl.ins, h, Tbl.look, hne]
    · by_cases e : j = k
      · subst e; simp [Tbl.ins, Tbl.look, hne]
      · simp [Tbl.ins, h, e, Tbl.look, ih]

@[simp] theorem Tbl.look_del {α : Type} (t : Tbl α) (j : Nat) : (t.del j).look j = none := by
  induction t with
  | nil => rfl
  | cons q t ih =>
    obtain ⟨k, v⟩ := q
    unfold Tbl.del at *
    by_cases e : k = j
    · simp [e, ih]
    · simp [e, Tbl.look, Ne.symm e, ih]

theorem Tbl.look_del_ne {α : Type} (t : Tbl α) {i j : Nat} (hne : i ≠ j) : (t.del j).look i = t.look i := by
  induction t with
  | nil => rfl
  | cons q t ih =>
    obtain ⟨k, v⟩ := q
    unfold Tbl.del at *
    by_cases e : k = j
    · subst e; simp [ih, Tbl.look, hne]
    · simp [e, Tbl.look, ih]

/-! ## The form is kept -/

theorem Tbl.mem_ins {α : Type} {t : Tbl α} {j : Nat} {x : α} {p : Nat × α} (h : p ∈ t.ins j x) : p = (j, x) ∨ p ∈ t := by
  induction t with
  | nil => exact .inl (by simpa [Tbl.ins] using h)
  | cons q t ih =>
    obtain ⟨k, v⟩ := q
    by_cases hj : j < k
    · simpa [Tbl.ins, hj] using h
    · by_cases e : j = k
      · simp [Tbl.ins, e] at h ⊢
        rcases h with h | h
        · exact .inl h
        · exact .inr (.inr h)
      · simp [Tbl.ins, hj, e] at h ⊢
        rcases h with h | h
        · exact .inr (.inl h)
        · rcases ih h with h | h
          · exact .inl h
          · exact .inr (.inr h)

theorem Tbl.mem_del {α : Type} {t : Tbl α} {j : Nat} {p : Nat × α} (h : p ∈ t.del j) : p ∈ t := (List.mem_filter.mp h).1

theorem Tbl.ins_rising {α : Type} {t : Tbl α} (h : t.rising = true) (j : Nat) (x : α) : (t.ins j x).rising = true := by
  induction t with
  | nil => rfl
  | cons q t ih =>
    obtain ⟨k, v⟩ := q
    have hr := Tbl.rising_cons.mp h
    by_cases hj : j < k
    · simp only [Tbl.ins, hj, if_true, Tbl.rising_cons]
      refine ⟨fun p hp => ?_, Tbl.rising_cons.mp h⟩
      cases hp with
      | head => exact hj
      | tail _ hp => exact Nat.lt_trans hj (hr.1 p hp)
    · by_cases e : j = k
      · subst e; simp only [Tbl.ins, Nat.lt_irrefl, if_false, if_true, Tbl.rising_cons]; exact hr
      · simp only [Tbl.ins, hj, e, if_false, Tbl.rising_cons]
        refine ⟨fun p hp => ?_, ih hr.2⟩
        rcases Tbl.mem_ins hp with rfl | hp
        · exact Nat.lt_of_le_of_ne (Nat.le_of_not_lt hj) (Ne.symm e)
        · exact hr.1 p hp

theorem Tbl.filter_rising {α : Type} {t : Tbl α} (h : t.rising = true) (p : Nat × α → Bool) : Tbl.rising (t.filter p) = true := by
  induction t with
  | nil => rfl
  | cons q t ih =>
    obtain ⟨k, v⟩ := q
    have hr := Tbl.rising_cons.mp h
    rw [List.filter_cons]
    split
    · exact Tbl.rising_cons.mpr ⟨fun x hx => hr.1 x ((List.mem_filter.mp hx).1), ih hr.2⟩
    · exact ih hr.2

theorem Tbl.del_rising {α : Type} {t : Tbl α} (h : t.rising = true) (j : Nat) : (t.del j).rising = true := Tbl.filter_rising h _

theorem Tbl.put_rising {α : Type} [DecidableEq α] {d : α} {t : Tbl α} (h : t.rising = true) (j : Nat) (x : α) :
    (Tbl.put d t j x).rising = true := by
  unfold Tbl.put; split
  · exact Tbl.del_rising h j
  · exact Tbl.ins_rising h j x

theorem Tbl.wf_iff {α : Type} [DecidableEq α] {d : α} {t : Tbl α} :
    Tbl.wf d t = true ↔ t.rising = true ∧ ∀ p ∈ t, p.2 ≠ d := by
  simp [Tbl.wf, List.all_eq_true]

/-- Writing a key keeps the canonical form. -/
theorem Tbl.put_wf {α : Type} [DecidableEq α] {d : α} {t : Tbl α} (h : Tbl.wf d t = true) (j : Nat) (x : α) :
    Tbl.wf d (Tbl.put d t j x) = true := by
  obtain ⟨hr, hd⟩ := Tbl.wf_iff.mp h
  refine Tbl.wf_iff.mpr ⟨Tbl.put_rising hr j x, fun p hp => ?_⟩
  unfold Tbl.put at hp
  split at hp
  · exact hd p (Tbl.mem_del hp)
  · rename_i hx
    rcases Tbl.mem_ins hp with rfl | hp
    · exact hx
    · exact hd p hp

theorem Tbl.filter_wf {α : Type} [DecidableEq α] {d : α} {t : Tbl α} (h : Tbl.wf d t = true) (p : Nat × α → Bool) :
    Tbl.wf d (t.filter p) = true := by
  obtain ⟨hr, hd⟩ := Tbl.wf_iff.mp h
  exact Tbl.wf_iff.mpr ⟨Tbl.filter_rising hr p, fun x hx => hd x ((List.mem_filter.mp hx).1)⟩

/-! ## Reading after writing -/

theorem Tbl.get_put {α : Type} [DecidableEq α] (d : α) (t : Tbl α) (j : Nat) (x : α) : Tbl.get d (Tbl.put d t j x) j = x := by
  unfold Tbl.get Tbl.put; split
  · rename_i e; rw [Tbl.look_del, e]; rfl
  · rw [Tbl.look_ins]; rfl

theorem Tbl.get_put_ne {α : Type} [DecidableEq α] (d : α) (t : Tbl α) {i j : Nat} (x : α) (hne : i ≠ j) :
    Tbl.get d (Tbl.put d t j x) i = Tbl.get d t i := by
  unfold Tbl.get Tbl.put; split
  · rw [Tbl.look_del_ne t hne]
  · rw [Tbl.look_ins_ne t x hne]

theorem Tbl.look_upd {α : Type} (t : Tbl α) (j : Nat) (f : α → α) : (t.upd j f).look j = (t.look j).map f := by
  unfold Tbl.upd; split <;> simp_all

theorem Tbl.look_upd_ne {α : Type} (t : Tbl α) {i j : Nat} (f : α → α) (hne : i ≠ j) : (t.upd j f).look i = t.look i := by
  unfold Tbl.upd; split
  · exact Tbl.look_ins_ne t _ hne
  · rfl

end Sys2Proof
end

