-- ==== Sys2Proof/Laws/Memory.lean ====
section
/-! SUPPORT. Memory: what a byte reads as after each operation, and that every operation keeps the canonical form. -/

namespace Sys2Proof.Machine

theorem insNat_map (l : List Nat) (j : Nat) : (insNat l j).map (fun k => (k, ())) = Tbl.ins (l.map fun k => (k, ())) j () := by
  induction l with
  | nil => rfl
  | cons k t ih =>
    by_cases h : j < k
    · simp [insNat, Tbl.ins, h]
    · by_cases e : j = k
      · simp [insNat, Tbl.ins, e]
      · simp [insNat, Tbl.ins, h, e, ih]

theorem filter_map (l : List Nat) (p : Nat → Bool) :
    (l.filter p).map (fun k => (k, ())) = (l.map fun k => (k, ())).filter fun q => p q.1 := by
  rw [List.filter_map]; rfl

/-! ## The canonical form -/

theorem Memory.wf_iff {m : Memory} : m.wf = true ↔
    Tbl.wf 0 m.cells = true ∧ Tbl.rising m.owners = true ∧ Tbl.rising (m.poison.map fun k => (k, ())) = true := by
  simp [Memory.wf, and_assoc]

theorem Memory.put_wf {m : Memory} (h : m.wf = true) (pa : Nat) (b : Byte) : (m.put pa b).wf = true := by
  obtain ⟨h1, h2, h3⟩ := wf_iff.mp h
  exact wf_iff.mpr ⟨Tbl.put_wf h1 pa b, h2, h3⟩

theorem Memory.puts_wf (l : List (Nat × Byte)) {m : Memory} (h : m.wf = true) :
    (l.foldl (fun t c => t.put c.1 c.2) m).wf = true := by
  induction l generalizing m with
  | nil => exact h
  | cons c l ih => exact ih (put_wf h c.1 c.2)

theorem Memory.dropPoison_wf {m : Memory} (h : m.wf = true) (p : Nat → Bool) :
    Memory.wf { m with poison := m.poison.filter p } = true := by
  obtain ⟨h1, h2, h3⟩ := wf_iff.mp h
  exact wf_iff.mpr ⟨h1, h2, by rw [filter_map]; exact Tbl.filter_rising h3 _⟩

theorem Memory.store_wf {m : Memory} (h : m.wf = true) (l : List (Nat × Byte)) : (m.store l).wf = true :=
  dropPoison_wf (puts_wf l h) _

theorem Memory.setPoison_wf {m : Memory} (h : m.wf = true) (line : Nat) : (m.setPoison line).wf = true := by
  obtain ⟨h1, h2, h3⟩ := wf_iff.mp h
  exact wf_iff.mpr ⟨h1, h2, by unfold setPoison; rw [insNat_map]; exact Tbl.ins_rising h3 _ _⟩

theorem Memory.claim_wf {m : Memory} (h : m.wf = true) (pa key : Nat) : (m.claim pa key).wf = true := by
  unfold claim
  split
  · exact h
  · obtain ⟨h1, h2, h3⟩ := wf_iff.mp h
    exact wf_iff.mpr ⟨h1, Tbl.ins_rising h2 _ _, h3⟩

theorem reset_mem_wf : State.reset.mem.wf = true := rfl

/-! ## Reading a byte -/

/-- Reading the byte just written. -/
theorem Memory.byte_put (m : Memory) (pa : Nat) (b : Byte) : (m.put pa b).byte pa = b := Tbl.get_put 0 m.cells pa b

/-- A write leaves every other byte alone. -/
theorem Memory.byte_put_ne (m : Memory) {a pa : Nat} (b : Byte) (hne : a ≠ pa) : (m.put pa b).byte a = m.byte a :=
  Tbl.get_put_ne 0 m.cells b hne

@[simp] theorem Memory.byte_claim (m : Memory) (pa key a : Nat) : (m.claim pa key).byte a = m.byte a := by
  unfold claim; split <;> rfl
@[simp] theorem Memory.byte_setPoison (m : Memory) (line a : Nat) : (m.setPoison line).byte a = m.byte a := rfl
@[simp] theorem Memory.byte_dropPoison (m : Memory) (l : List Nat) (a : Nat) : Memory.byte { m with poison := l } a = m.byte a := rfl

theorem Memory.byte_puts_out (l : List (Nat × Byte)) (m : Memory) {a : Nat} (ha : ∀ c ∈ l, c.1 ≠ a) :
    (l.foldl (fun t c => t.put c.1 c.2) m).byte a = m.byte a := by
  induction l generalizing m with
  | nil => rfl
  | cons c l ih =>
    rw [List.foldl_cons, ih _ fun x hx => ha x (List.mem_cons_of_mem _ hx)]
    exact byte_put_ne m c.2 (Ne.symm (ha c (List.mem_cons_self ..)))

/-- A store leaves every byte alone that it does not list. -/
theorem Memory.byte_store_out (m : Memory) {l : List (Nat × Byte)} {a : Nat} (ha : ∀ c ∈ l, c.1 ≠ a) :
    (m.store l).byte a = m.byte a := byte_puts_out l m ha

/-- A store of distinct addresses writes each byte it lists. -/
theorem Memory.byte_store_in (m : Memory) {l : List (Nat × Byte)} (hd : (l.map (·.1)).Nodup) {c : Nat × Byte}
    (hc : c ∈ l) : (m.store l).byte c.1 = c.2 := by
  show (l.foldl (fun t c => t.put c.1 c.2) m).byte c.1 = c.2
  induction l generalizing m with
  | nil => exact absurd hc (List.not_mem_nil)
  | cons x l ih =>
    rw [List.map_cons, List.nodup_cons] at hd
    rw [List.foldl_cons]
    cases hc with
    | head =>
      rw [byte_puts_out l _ (a := c.1) fun y hy e => hd.1 (e ▸ List.mem_map_of_mem hy)]
      exact byte_put m c.1 c.2
    | tail _ hc => exact ih _ hd.2 hc

/-! ## Cells of consecutive addresses -/

theorem mem_cellsAt {pa : Nat} {bs : List Byte} {c : Nat × Byte} (h : c ∈ cellsAt pa bs) : pa ≤ c.1 ∧ c.1 < pa + bs.length := by
  unfold cellsAt at h
  obtain ⟨i, hi, rfl⟩ := List.mem_iff_getElem.mp h
  simp at hi ⊢; omega

theorem cellsAt_addr (pa : Nat) (bs : List Byte) : (cellsAt pa bs).map (·.1) = (List.range bs.length).map fun k => pa + k := by
  unfold cellsAt
  apply List.ext_getElem <;> simp

theorem cellsAt_nodup (pa : Nat) (bs : List Byte) : ((cellsAt pa bs).map (·.1)).Nodup := by
  rw [cellsAt_addr]
  exact List.Pairwise.map _ (fun a b (h : a < b) => by omega) List.pairwise_lt_range

theorem cellsAt_mem (pa : Nat) (bs : List Byte) {k : Nat} (hk : k < bs.length) : (pa + k, bs[k]) ∈ cellsAt pa bs := by
  unfold cellsAt
  exact List.mem_iff_getElem.mpr ⟨k, by simpa using hk, by simp⟩

/-- Bytes stored at consecutive addresses read back. -/
theorem Memory.byte_store_cells (m : Memory) (pa : Nat) (bs : List Byte) {k : Nat} (hk : k < bs.length) :
    (m.store (cellsAt pa bs)).byte (pa + k) = bs[k] :=
  byte_store_in m (cellsAt_nodup pa bs) (cellsAt_mem pa bs hk)

theorem Memory.bytes_store_cells (m : Memory) (pa : Nat) (bs : List Byte) :
    (m.store (cellsAt pa bs)).bytes pa bs.length = bs := by
  unfold bytes
  apply List.ext_getElem
  · simp
  · intro k h1 h2
    simp only [List.getElem_map, List.getElem_range]
    exact byte_store_cells m pa bs h2

/-! ## Numbers as bytes -/

@[simp] theorem toBytes_length (n x : Nat) : (toBytes n x).length = n := by simp [toBytes]

theorem toBytes_succ (n x : Nat) : toBytes (n + 1) x = BitVec.ofNat 8 x :: toBytes n (x / 256) := by
  unfold toBytes
  rw [List.range_succ_eq_map, List.map_cons, List.map_map]
  rw [Nat.pow_zero, Nat.div_one]
  refine congrArg (List.cons _) (List.map_congr_left fun k _ => ?_)
  simp only [Function.comp, Nat.pow_succ, Nat.div_div_eq_div_mul, Nat.mul_comm]

theorem ofBytes_toBytes (n x : Nat) : ofBytes (toBytes n x) = x % 256 ^ n := by
  induction n generalizing x with
  | zero => simp [toBytes, ofBytes, Nat.mod_one]
  | succ n ih =>
    rw [toBytes_succ]
    show (BitVec.ofNat 8 x).toNat + 256 * ofBytes (toBytes n (x / 256)) = _
    rw [ih, BitVec.toNat_ofNat, Nat.pow_add_one' (m := 256), Nat.mod_mul]

/-- A number stored reads back, within its bytes. -/
theorem Memory.num_store (m : Memory) (pa n x : Nat) :
    (m.store (cellsAt pa (toBytes n x))).num pa n = x % 256 ^ n := by
  have := bytes_store_cells m pa (toBytes n x)
  rw [toBytes_length] at this
  rw [num, this, ofBytes_toBytes]

end Sys2Proof.Machine
end

