-- ==== Sys2Proof/Laws/State.lean ====
section
/-! SUPPORT. What each update of the state leaves: one lemma for each field and update, true by rfl. -/

namespace Sys2Proof.Machine

@[simp] theorem modGrp_grp (s : State) (f : Group → Group) : (s.modGrp f).grp = f s.grp := rfl
@[simp] theorem modGrp_who (s : State) (f : Group → Group) : (s.modGrp f).who = s.who := rfl
@[simp] theorem modGrp_others (s : State) (f : Group → Group) : (s.modGrp f).others = s.others := rfl
@[simp] theorem modGrp_mem (s : State) (f : Group → Group) : (s.modGrp f).mem = s.mem := rfl
@[simp] theorem modGrp_l2 (s : State) (f : Group → Group) : (s.modGrp f).l2 = s.l2 := rfl
@[simp] theorem modGrp_cores (s : State) (f : Group → Group) : (s.modGrp f).cores = s.cores := rfl
@[simp] theorem modGrp_teams (s : State) (f : Group → Group) : (s.modGrp f).teams = s.teams := rfl
@[simp] theorem modGrp_parts (s : State) (f : Group → Group) : (s.modGrp f).parts = s.parts := rfl
@[simp] theorem modGrp_dies (s : State) (f : Group → Group) : (s.modGrp f).dies = s.dies := rfl
@[simp] theorem modGrp_engines (s : State) (f : Group → Group) : (s.modGrp f).engines = s.engines := rfl
@[simp] theorem modGrp_waits (s : State) (f : Group → Group) : (s.modGrp f).waits = s.waits := rfl
@[simp] theorem modGrp_swaps (s : State) (f : Group → Group) : (s.modGrp f).swaps = s.swaps := rfl
@[simp] theorem modGrp_launches (s : State) (f : Group → Group) : (s.modGrp f).launches = s.launches := rfl
@[simp] theorem modGrp_fab (s : State) (f : Group → Group) : (s.modGrp f).fab = s.fab := rfl
@[simp] theorem modGrp_pm (s : State) (f : Group → Group) : (s.modGrp f).pm = s.pm := rfl
@[simp] theorem modGrp_cnt (s : State) (f : Group → Group) : (s.modGrp f).cnt = s.cnt := rfl
@[simp] theorem modGrp_agenda (s : State) (f : Group → Group) : (s.modGrp f).agenda = s.agenda := rfl

@[simp] theorem modArm_grp (s : State) (f : Arm → Arm) : (s.modArm f).grp = s.grp.setArm s.who (f s.arm) := rfl
@[simp] theorem modArm_who (s : State) (f : Arm → Arm) : (s.modArm f).who = s.who := rfl
@[simp] theorem modArm_others (s : State) (f : Arm → Arm) : (s.modArm f).others = s.others := rfl
@[simp] theorem modArm_mem (s : State) (f : Arm → Arm) : (s.modArm f).mem = s.mem := rfl
@[simp] theorem modArm_l2 (s : State) (f : Arm → Arm) : (s.modArm f).l2 = s.l2 := rfl
@[simp] theorem modArm_cores (s : State) (f : Arm → Arm) : (s.modArm f).cores = s.cores := rfl
@[simp] theorem modArm_teams (s : State) (f : Arm → Arm) : (s.modArm f).teams = s.teams := rfl
@[simp] theorem modArm_parts (s : State) (f : Arm → Arm) : (s.modArm f).parts = s.parts := rfl
@[simp] theorem modArm_dies (s : State) (f : Arm → Arm) : (s.modArm f).dies = s.dies := rfl
@[simp] theorem modArm_engines (s : State) (f : Arm → Arm) : (s.modArm f).engines = s.engines := rfl
@[simp] theorem modArm_waits (s : State) (f : Arm → Arm) : (s.modArm f).waits = s.waits := rfl
@[simp] theorem modArm_swaps (s : State) (f : Arm → Arm) : (s.modArm f).swaps = s.swaps := rfl
@[simp] theorem modArm_launches (s : State) (f : Arm → Arm) : (s.modArm f).launches = s.launches := rfl
@[simp] theorem modArm_fab (s : State) (f : Arm → Arm) : (s.modArm f).fab = s.fab := rfl
@[simp] theorem modArm_pm (s : State) (f : Arm → Arm) : (s.modArm f).pm = s.pm := rfl
@[simp] theorem modArm_cnt (s : State) (f : Arm → Arm) : (s.modArm f).cnt = s.cnt := rfl
@[simp] theorem modArm_agenda (s : State) (f : Arm → Arm) : (s.modArm f).agenda = s.agenda := rfl

@[simp] theorem setCore_grp (s : State) (c : Nat) (x : Core) : (s.setCore c x).grp = s.grp := rfl
@[simp] theorem setCore_who (s : State) (c : Nat) (x : Core) : (s.setCore c x).who = s.who := rfl
@[simp] theorem setCore_others (s : State) (c : Nat) (x : Core) : (s.setCore c x).others = s.others := rfl
@[simp] theorem setCore_mem (s : State) (c : Nat) (x : Core) : (s.setCore c x).mem = s.mem := rfl
@[simp] theorem setCore_l2 (s : State) (c : Nat) (x : Core) : (s.setCore c x).l2 = s.l2 := rfl
@[simp] theorem setCore_cores (s : State) (c : Nat) (x : Core) : (s.setCore c x).cores = s.cores.ins c x := rfl
@[simp] theorem setCore_teams (s : State) (c : Nat) (x : Core) : (s.setCore c x).teams = s.teams := rfl
@[simp] theorem setCore_parts (s : State) (c : Nat) (x : Core) : (s.setCore c x).parts = s.parts := rfl
@[simp] theorem setCore_dies (s : State) (c : Nat) (x : Core) : (s.setCore c x).dies = s.dies := rfl
@[simp] theorem setCore_engines (s : State) (c : Nat) (x : Core) : (s.setCore c x).engines = s.engines := rfl
@[simp] theorem setCore_waits (s : State) (c : Nat) (x : Core) : (s.setCore c x).waits = s.waits := rfl
@[simp] theorem setCore_swaps (s : State) (c : Nat) (x : Core) : (s.setCore c x).swaps = s.swaps := rfl
@[simp] theorem setCore_launches (s : State) (c : Nat) (x : Core) : (s.setCore c x).launches = s.launches := rfl
@[simp] theorem setCore_fab (s : State) (c : Nat) (x : Core) : (s.setCore c x).fab = s.fab := rfl
@[simp] theorem setCore_pm (s : State) (c : Nat) (x : Core) : (s.setCore c x).pm = s.pm := rfl
@[simp] theorem setCore_cnt (s : State) (c : Nat) (x : Core) : (s.setCore c x).cnt = s.cnt := rfl
@[simp] theorem setCore_agenda (s : State) (c : Nat) (x : Core) : (s.setCore c x).agenda = s.agenda := rfl

@[simp] theorem modCore_grp (s : State) (c : Nat) (f : Core → Core) : (s.modCore c f).grp = s.grp := rfl
@[simp] theorem modCore_who (s : State) (c : Nat) (f : Core → Core) : (s.modCore c f).who = s.who := rfl
@[simp] theorem modCore_others (s : State) (c : Nat) (f : Core → Core) : (s.modCore c f).others = s.others := rfl
@[simp] theorem modCore_mem (s : State) (c : Nat) (f : Core → Core) : (s.modCore c f).mem = s.mem := rfl
@[simp] theorem modCore_l2 (s : State) (c : Nat) (f : Core → Core) : (s.modCore c f).l2 = s.l2 := rfl
@[simp] theorem modCore_cores (s : State) (c : Nat) (f : Core → Core) : (s.modCore c f).cores = s.cores.ins c (f (s.coreAt c)) := rfl
@[simp] theorem modCore_teams (s : State) (c : Nat) (f : Core → Core) : (s.modCore c f).teams = s.teams := rfl
@[simp] theorem modCore_parts (s : State) (c : Nat) (f : Core → Core) : (s.modCore c f).parts = s.parts := rfl
@[simp] theorem modCore_dies (s : State) (c : Nat) (f : Core → Core) : (s.modCore c f).dies = s.dies := rfl
@[simp] theorem modCore_engines (s : State) (c : Nat) (f : Core → Core) : (s.modCore c f).engines = s.engines := rfl
@[simp] theorem modCore_waits (s : State) (c : Nat) (f : Core → Core) : (s.modCore c f).waits = s.waits := rfl
@[simp] theorem modCore_swaps (s : State) (c : Nat) (f : Core → Core) : (s.modCore c f).swaps = s.swaps := rfl
@[simp] theorem modCore_launches (s : State) (c : Nat) (f : Core → Core) : (s.modCore c f).launches = s.launches := rfl
@[simp] theorem modCore_fab (s : State) (c : Nat) (f : Core → Core) : (s.modCore c f).fab = s.fab := rfl
@[simp] theorem modCore_pm (s : State) (c : Nat) (f : Core → Core) : (s.modCore c f).pm = s.pm := rfl
@[simp] theorem modCore_cnt (s : State) (c : Nat) (f : Core → Core) : (s.modCore c f).cnt = s.cnt := rfl
@[simp] theorem modCore_agenda (s : State) (c : Nat) (f : Core → Core) : (s.modCore c f).agenda = s.agenda := rfl

@[simp] theorem modDie_grp (s : State) (d : Nat) (f : Die → Die) : (s.modDie d f).grp = s.grp := rfl
@[simp] theorem modDie_who (s : State) (d : Nat) (f : Die → Die) : (s.modDie d f).who = s.who := rfl
@[simp] theorem modDie_others (s : State) (d : Nat) (f : Die → Die) : (s.modDie d f).others = s.others := rfl
@[simp] theorem modDie_mem (s : State) (d : Nat) (f : Die → Die) : (s.modDie d f).mem = s.mem := rfl
@[simp] theorem modDie_l2 (s : State) (d : Nat) (f : Die → Die) : (s.modDie d f).l2 = s.l2 := rfl
@[simp] theorem modDie_cores (s : State) (d : Nat) (f : Die → Die) : (s.modDie d f).cores = s.cores := rfl
@[simp] theorem modDie_teams (s : State) (d : Nat) (f : Die → Die) : (s.modDie d f).teams = s.teams := rfl
@[simp] theorem modDie_parts (s : State) (d : Nat) (f : Die → Die) : (s.modDie d f).parts = s.parts := rfl
@[simp] theorem modDie_dies (s : State) (d : Nat) (f : Die → Die) : (s.modDie d f).dies = s.dies.ins d (f (s.dieAt d)) := rfl
@[simp] theorem modDie_engines (s : State) (d : Nat) (f : Die → Die) : (s.modDie d f).engines = s.engines := rfl
@[simp] theorem modDie_waits (s : State) (d : Nat) (f : Die → Die) : (s.modDie d f).waits = s.waits := rfl
@[simp] theorem modDie_swaps (s : State) (d : Nat) (f : Die → Die) : (s.modDie d f).swaps = s.swaps := rfl
@[simp] theorem modDie_launches (s : State) (d : Nat) (f : Die → Die) : (s.modDie d f).launches = s.launches := rfl
@[simp] theorem modDie_fab (s : State) (d : Nat) (f : Die → Die) : (s.modDie d f).fab = s.fab := rfl
@[simp] theorem modDie_pm (s : State) (d : Nat) (f : Die → Die) : (s.modDie d f).pm = s.pm := rfl
@[simp] theorem modDie_cnt (s : State) (d : Nat) (f : Die → Die) : (s.modDie d f).cnt = s.cnt := rfl
@[simp] theorem modDie_agenda (s : State) (d : Nat) (f : Die → Die) : (s.modDie d f).agenda = s.agenda := rfl

@[simp] theorem modPart_grp (s : State) (p : Nat) (f : Part → Part) : (s.modPart p f).grp = s.grp := rfl
@[simp] theorem modPart_who (s : State) (p : Nat) (f : Part → Part) : (s.modPart p f).who = s.who := rfl
@[simp] theorem modPart_others (s : State) (p : Nat) (f : Part → Part) : (s.modPart p f).others = s.others := rfl
@[simp] theorem modPart_mem (s : State) (p : Nat) (f : Part → Part) : (s.modPart p f).mem = s.mem := rfl
@[simp] theorem modPart_l2 (s : State) (p : Nat) (f : Part → Part) : (s.modPart p f).l2 = s.l2 := rfl
@[simp] theorem modPart_cores (s : State) (p : Nat) (f : Part → Part) : (s.modPart p f).cores = s.cores := rfl
@[simp] theorem modPart_teams (s : State) (p : Nat) (f : Part → Part) : (s.modPart p f).teams = s.teams := rfl
@[simp] theorem modPart_parts (s : State) (p : Nat) (f : Part → Part) : (s.modPart p f).parts = s.parts.upd p f := rfl
@[simp] theorem modPart_dies (s : State) (p : Nat) (f : Part → Part) : (s.modPart p f).dies = s.dies := rfl
@[simp] theorem modPart_engines (s : State) (p : Nat) (f : Part → Part) : (s.modPart p f).engines = s.engines := rfl
@[simp] theorem modPart_waits (s : State) (p : Nat) (f : Part → Part) : (s.modPart p f).waits = s.waits := rfl
@[simp] theorem modPart_swaps (s : State) (p : Nat) (f : Part → Part) : (s.modPart p f).swaps = s.swaps := rfl
@[simp] theorem modPart_launches (s : State) (p : Nat) (f : Part → Part) : (s.modPart p f).launches = s.launches := rfl
@[simp] theorem modPart_fab (s : State) (p : Nat) (f : Part → Part) : (s.modPart p f).fab = s.fab := rfl
@[simp] theorem modPart_pm (s : State) (p : Nat) (f : Part → Part) : (s.modPart p f).pm = s.pm := rfl
@[simp] theorem modPart_cnt (s : State) (p : Nat) (f : Part → Part) : (s.modPart p f).cnt = s.cnt := rfl
@[simp] theorem modPart_agenda (s : State) (p : Nat) (f : Part → Part) : (s.modPart p f).agenda = s.agenda := rfl

@[simp] theorem modTeam_grp (s : State) (t : Nat) (f : Team → Team) : (s.modTeam t f).grp = s.grp := rfl
@[simp] theorem modTeam_who (s : State) (t : Nat) (f : Team → Team) : (s.modTeam t f).who = s.who := rfl
@[simp] theorem modTeam_others (s : State) (t : Nat) (f : Team → Team) : (s.modTeam t f).others = s.others := rfl
@[simp] theorem modTeam_mem (s : State) (t : Nat) (f : Team → Team) : (s.modTeam t f).mem = s.mem := rfl
@[simp] theorem modTeam_l2 (s : State) (t : Nat) (f : Team → Team) : (s.modTeam t f).l2 = s.l2 := rfl
@[simp] theorem modTeam_cores (s : State) (t : Nat) (f : Team → Team) : (s.modTeam t f).cores = s.cores := rfl
@[simp] theorem modTeam_teams (s : State) (t : Nat) (f : Team → Team) : (s.modTeam t f).teams = s.teams.upd t f := rfl
@[simp] theorem modTeam_parts (s : State) (t : Nat) (f : Team → Team) : (s.modTeam t f).parts = s.parts := rfl
@[simp] theorem modTeam_dies (s : State) (t : Nat) (f : Team → Team) : (s.modTeam t f).dies = s.dies := rfl
@[simp] theorem modTeam_engines (s : State) (t : Nat) (f : Team → Team) : (s.modTeam t f).engines = s.engines := rfl
@[simp] theorem modTeam_waits (s : State) (t : Nat) (f : Team → Team) : (s.modTeam t f).waits = s.waits := rfl
@[simp] theorem modTeam_swaps (s : State) (t : Nat) (f : Team → Team) : (s.modTeam t f).swaps = s.swaps := rfl
@[simp] theorem modTeam_launches (s : State) (t : Nat) (f : Team → Team) : (s.modTeam t f).launches = s.launches := rfl
@[simp] theorem modTeam_fab (s : State) (t : Nat) (f : Team → Team) : (s.modTeam t f).fab = s.fab := rfl
@[simp] theorem modTeam_pm (s : State) (t : Nat) (f : Team → Team) : (s.modTeam t f).pm = s.pm := rfl
@[simp] theorem modTeam_cnt (s : State) (t : Nat) (f : Team → Team) : (s.modTeam t f).cnt = s.cnt := rfl
@[simp] theorem modTeam_agenda (s : State) (t : Nat) (f : Team → Team) : (s.modTeam t f).agenda = s.agenda := rfl

@[simp] theorem mapGroups_grp (s : State) (f : Group → Group) : (s.mapGroups f).grp = if s.grp.live then f s.grp else s.grp := rfl
@[simp] theorem mapGroups_who (s : State) (f : Group → Group) : (s.mapGroups f).who = s.who := rfl
@[simp] theorem mapGroups_others (s : State) (f : Group → Group) : (s.mapGroups f).others = s.others.map f := rfl
@[simp] theorem mapGroups_mem (s : State) (f : Group → Group) : (s.mapGroups f).mem = s.mem := rfl
@[simp] theorem mapGroups_l2 (s : State) (f : Group → Group) : (s.mapGroups f).l2 = s.l2 := rfl
@[simp] theorem mapGroups_cores (s : State) (f : Group → Group) : (s.mapGroups f).cores = s.cores := rfl
@[simp] theorem mapGroups_teams (s : State) (f : Group → Group) : (s.mapGroups f).teams = s.teams := rfl
@[simp] theorem mapGroups_parts (s : State) (f : Group → Group) : (s.mapGroups f).parts = s.parts := rfl
@[simp] theorem mapGroups_dies (s : State) (f : Group → Group) : (s.mapGroups f).dies = s.dies := rfl
@[simp] theorem mapGroups_engines (s : State) (f : Group → Group) : (s.mapGroups f).engines = s.engines := rfl
@[simp] theorem mapGroups_waits (s : State) (f : Group → Group) : (s.mapGroups f).waits = s.waits := rfl
@[simp] theorem mapGroups_swaps (s : State) (f : Group → Group) : (s.mapGroups f).swaps = s.swaps := rfl
@[simp] theorem mapGroups_launches (s : State) (f : Group → Group) : (s.mapGroups f).launches = s.launches := rfl
@[simp] theorem mapGroups_fab (s : State) (f : Group → Group) : (s.mapGroups f).fab = s.fab := rfl
@[simp] theorem mapGroups_pm (s : State) (f : Group → Group) : (s.mapGroups f).pm = s.pm := rfl
@[simp] theorem mapGroups_cnt (s : State) (f : Group → Group) : (s.mapGroups f).cnt = s.cnt := rfl
@[simp] theorem mapGroups_agenda (s : State) (f : Group → Group) : (s.mapGroups f).agenda = s.agenda := rfl

@[simp] theorem reply_grp (s : State) (r : Reply) : (s.reply r).grp = s.grp := rfl
@[simp] theorem reply_who (s : State) (r : Reply) : (s.reply r).who = s.who := rfl
@[simp] theorem reply_others (s : State) (r : Reply) : (s.reply r).others = s.others := rfl
@[simp] theorem reply_mem (s : State) (r : Reply) : (s.reply r).mem = s.mem := rfl
@[simp] theorem reply_l2 (s : State) (r : Reply) : (s.reply r).l2 = s.l2 := rfl
@[simp] theorem reply_cores (s : State) (r : Reply) : (s.reply r).cores = s.cores := rfl
@[simp] theorem reply_teams (s : State) (r : Reply) : (s.reply r).teams = s.teams := rfl
@[simp] theorem reply_parts (s : State) (r : Reply) : (s.reply r).parts = s.parts := rfl
@[simp] theorem reply_dies (s : State) (r : Reply) : (s.reply r).dies = s.dies := rfl
@[simp] theorem reply_engines (s : State) (r : Reply) : (s.reply r).engines = s.engines := rfl
@[simp] theorem reply_waits (s : State) (r : Reply) : (s.reply r).waits = s.waits := rfl
@[simp] theorem reply_swaps (s : State) (r : Reply) : (s.reply r).swaps = s.swaps := rfl
@[simp] theorem reply_launches (s : State) (r : Reply) : (s.reply r).launches = s.launches := rfl
@[simp] theorem reply_fab (s : State) (r : Reply) : (s.reply r).fab = s.fab := rfl
@[simp] theorem reply_pm (s : State) (r : Reply) : (s.reply r).pm = { s.pm with out := s.pm.out ++ [r] } := rfl
@[simp] theorem reply_cnt (s : State) (r : Reply) : (s.reply r).cnt = s.cnt := rfl
@[simp] theorem reply_agenda (s : State) (r : Reply) : (s.reply r).agenda = s.agenda := rfl

/-! ## Arms of a group -/

@[simp] theorem setArm_live (g : Group) (w : Who) (a : Arm) : (g.setArm w a).live = g.live := by cases w <;> rfl
@[simp] theorem setArm_key (g : Group) (w : Who) (a : Arm) : (g.setArm w a).key = g.key := by cases w <;> rfl
@[simp] theorem setArm_part (g : Group) (w : Who) (a : Arm) : (g.setArm w a).part = g.part := by cases w <;> rfl
@[simp] theorem setArm_team (g : Group) (w : Who) (a : Arm) : (g.setArm w a).team = g.team := by cases w <;> rfl
@[simp] theorem setArm_gid (g : Group) (w : Who) (a : Arm) : (g.setArm w a).gid = g.gid := by cases w <;> rfl
@[simp] theorem setArm_tid (g : Group) (w : Who) (a : Arm) : (g.setArm w a).tid = g.tid := by cases w <;> rfl
@[simp] theorem setArm_shape (g : Group) (w : Who) (a : Arm) : (g.setArm w a).shape = g.shape := by cases w <;> rfl
@[simp] theorem setArm_replayId (g : Group) (w : Who) (a : Arm) : (g.setArm w a).replayId = g.replayId := by cases w <;> rfl
@[simp] theorem setArm_regs (g : Group) (w : Who) (a : Arm) : (g.setArm w a).regs = g.regs := by cases w <;> rfl
@[simp] theorem setArm_two (g : Group) (w : Who) (a : Arm) : (g.setArm w a).two = g.two := by cases w <;> rfl
@[simp] theorem setArm_tr (g : Group) (w : Who) (a : Arm) : (g.setArm w a).tr = g.tr := by cases w <;> rfl
@[simp] theorem setArm_rg (g : Group) (w : Who) (a : Arm) : (g.setArm w a).rg = g.rg := by cases w <;> rfl
@[simp] theorem setArm_qstat (g : Group) (w : Who) (a : Arm) : (g.setArm w a).qstat = g.qstat := by cases w <;> rfl
@[simp] theorem setArm_srseed (g : Group) (w : Who) (a : Arm) : (g.setArm w a).srseed = g.srseed := by cases w <;> rfl
@[simp] theorem setArm_gen (g : Group) (w : Who) (a : Arm) : (g.setArm w a).gen = g.gen := by cases w <;> rfl
@[simp] theorem setArm_cw (g : Group) (w : Who) (a : Arm) : (g.setArm w a).cw = g.cw := by cases w <;> rfl
@[simp] theorem setArm_ops (g : Group) (w : Who) (a : Arm) : (g.setArm w a).ops = g.ops := by cases w <;> rfl
@[simp] theorem setArm_eng (g : Group) (w : Who) (a : Arm) : (g.setArm w a).eng = g.eng := by cases w <;> rfl
@[simp] theorem setArm_img (g : Group) (w : Who) (a : Arm) : (g.setArm w a).img = g.img := by cases w <;> rfl
@[simp] theorem setArm_lines (g : Group) (w : Who) (a : Arm) : (g.setArm w a).lines = g.lines := by cases w <;> rfl
@[simp] theorem setArm_badLines (g : Group) (w : Who) (a : Arm) : (g.setArm w a).badLines = g.badLines := by cases w <;> rfl
@[simp] theorem setArm_redo (g : Group) (w : Who) (a : Arm) : (g.setArm w a).redo = g.redo := by cases w <;> rfl
@[simp] theorem setArm_lastIssue (g : Group) (w : Who) (a : Arm) : (g.setArm w a).lastIssue = g.lastIssue := by cases w <;> rfl
@[simp] theorem setArm_zout (g : Group) (w : Who) (a : Arm) : (g.setArm w a).zout = g.zout := by cases w <;> rfl
@[simp] theorem setArm_passWait (g : Group) (w : Who) (a : Arm) : (g.setArm w a).passWait = g.passWait := by cases w <;> rfl
@[simp] theorem setArm_passReady (g : Group) (w : Who) (a : Arm) : (g.setArm w a).passReady = g.passReady := by cases w <;> rfl
@[simp] theorem setArm_passes (g : Group) (w : Who) (a : Arm) : (g.setArm w a).passes = g.passes := by cases w <;> rfl
@[simp] theorem setArm_arm (g : Group) (w : Who) (a : Arm) : (g.setArm w a).arm w = a := by cases w <;> rfl
theorem setArm_arm_ne (g : Group) {w v : Who} (a : Arm) (h : v ≠ w) : (g.setArm w a).arm v = g.arm v := by
  cases w <;> cases v <;> first | rfl | exact absurd rfl h
@[simp] theorem setArm_same (g : Group) (w : Who) : g.setArm w (g.arm w) = g := by cases w <;> rfl
@[simp] theorem setArm_mon_s (g : Group) (w : Who) (a : Arm) : (g.setArm w a).mon.s = g.mon.s := by cases w <;> rfl
@[simp] theorem setArm_mon_v (g : Group) (w : Who) (a : Arm) : (g.setArm w a).mon.v = g.mon.v := by cases w <;> rfl
@[simp] theorem setArm_mon_st (g : Group) (w : Who) (a : Arm) : (g.setArm w a).mon.st = g.mon.st := by cases w <;> rfl
@[simp] theorem setArm_mon_window (g : Group) (w : Who) (a : Arm) : (g.setArm w a).mon.window = g.mon.window := by cases w <;> rfl
@[simp] theorem modArm_arm (s : State) (f : Arm → Arm) : (s.modArm f).arm = f s.arm := setArm_arm _ _ _
@[simp] theorem modArm_id (s : State) : s.modArm (fun a => a) = s := by
  cases s; simp only [State.modArm, State.arm, setArm_same]
/-- The executing arm after a change of its group that keeps the three arms. -/
theorem modGrp_arm (s : State) (f : Group → Group) (h : (f s.grp).arm s.who = s.grp.arm s.who) : (s.modGrp f).arm = s.arm := h

/-! ## Management events -/

@[simp] theorem event_grp (s : State) (c : Nat) (l : List Nat) : (s.event c l).grp = s.grp := by
  unfold State.event; dsimp only; split <;> rfl
@[simp] theorem event_who (s : State) (c : Nat) (l : List Nat) : (s.event c l).who = s.who := by
  unfold State.event; dsimp only; split <;> rfl
@[simp] theorem event_others (s : State) (c : Nat) (l : List Nat) : (s.event c l).others = s.others := by
  unfold State.event; dsimp only; split <;> rfl
@[simp] theorem event_mem (s : State) (c : Nat) (l : List Nat) : (s.event c l).mem = s.mem := by
  unfold State.event; dsimp only; split <;> rfl
@[simp] theorem event_l2 (s : State) (c : Nat) (l : List Nat) : (s.event c l).l2 = s.l2 := by
  unfold State.event; dsimp only; split <;> rfl
@[simp] theorem event_cores (s : State) (c : Nat) (l : List Nat) : (s.event c l).cores = s.cores := by
  unfold State.event; dsimp only; split <;> rfl
@[simp] theorem event_teams (s : State) (c : Nat) (l : List Nat) : (s.event c l).teams = s.teams := by
  unfold State.event; dsimp only; split <;> rfl
@[simp] theorem event_parts (s : State) (c : Nat) (l : List Nat) : (s.event c l).parts = s.parts := by
  unfold State.event; dsimp only; split <;> rfl
@[simp] theorem event_dies (s : State) (c : Nat) (l : List Nat) : (s.event c l).dies = s.dies := by
  unfold State.event; dsimp only; split <;> rfl
@[simp] theorem event_engines (s : State) (c : Nat) (l : List Nat) : (s.event c l).engines = s.engines := by
  unfold State.event; dsimp only; split <;> rfl
@[simp] theorem event_waits (s : State) (c : Nat) (l : List Nat) : (s.event c l).waits = s.waits := by
  unfold State.event; dsimp only; split <;> rfl
@[simp] theorem event_swaps (s : State) (c : Nat) (l : List Nat) : (s.event c l).swaps = s.swaps := by
  unfold State.event; dsimp only; split <;> rfl
@[simp] theorem event_launches (s : State) (c : Nat) (l : List Nat) : (s.event c l).launches = s.launches := by
  unfold State.event; dsimp only; split <;> rfl
@[simp] theorem event_fab (s : State) (c : Nat) (l : List Nat) : (s.event c l).fab = s.fab := by
  unfold State.event; dsimp only; split <;> rfl
@[simp] theorem event_cnt (s : State) (c : Nat) (l : List Nat) : (s.event c l).cnt = s.cnt := by
  unfold State.event; dsimp only; split <;> rfl
@[simp] theorem event_agenda (s : State) (c : Nat) (l : List Nat) : (s.event c l).agenda = s.agenda := by
  unfold State.event; dsimp only; split <;> rfl
@[simp] theorem event_pm_time (s : State) (c : Nat) (l : List Nat) : (s.event c l).pm.time = s.pm.time := by
  unfold State.event; dsimp only; split <;> rfl
@[simp] theorem event_pm_stage (s : State) (c : Nat) (l : List Nat) : (s.event c l).pm.stage = s.pm.stage := by
  unfold State.event; dsimp only; split <;> rfl
@[simp] theorem event_pm_failed (s : State) (c : Nat) (l : List Nat) : (s.event c l).pm.failed = s.pm.failed := by
  unfold State.event; dsimp only; split <;> rfl
@[simp] theorem event_pm_stopped (s : State) (c : Nat) (l : List Nat) : (s.event c l).pm.stopped = s.pm.stopped := by
  unfold State.event; dsimp only; split <;> rfl
@[simp] theorem event_pm_alarm (s : State) (c : Nat) (l : List Nat) : (s.event c l).pm.alarm = s.pm.alarm := by
  unfold State.event; dsimp only; split <;> rfl
@[simp] theorem event_pm_zeroised (s : State) (c : Nat) (l : List Nat) : (s.event c l).pm.zeroised = s.pm.zeroised := by
  unfold State.event; dsimp only; split <;> rfl
@[simp] theorem event_pm_keysMade (s : State) (c : Nat) (l : List Nat) : (s.event c l).pm.keysMade = s.pm.keysMade := by
  unfold State.event; dsimp only; split <;> rfl
@[simp] theorem event_pm_attKeys (s : State) (c : Nat) (l : List Nat) : (s.event c l).pm.attKeys = s.pm.attKeys := by
  unfold State.event; dsimp only; split <;> rfl
@[simp] theorem event_pm_meas (s : State) (c : Nat) (l : List Nat) : (s.event c l).pm.meas = s.pm.meas := by
  unfold State.event; dsimp only; split <;> rfl
@[simp] theorem event_pm_verifyTurn (s : State) (c : Nat) (l : List Nat) : (s.event c l).pm.verifyTurn = s.pm.verifyTurn := by
  unfold State.event; dsimp only; split <;> rfl
@[simp] theorem event_pm_reconfTurn (s : State) (c : Nat) (l : List Nat) : (s.event c l).pm.reconfTurn = s.pm.reconfTurn := by
  unfold State.event; dsimp only; split <;> rfl
@[simp] theorem event_pm_pool (s : State) (c : Nat) (l : List Nat) : (s.event c l).pm.pool = s.pm.pool := by
  unfold State.event; dsimp only; split <;> rfl
@[simp] theorem event_pm_lastCluster (s : State) (c : Nat) (l : List Nat) : (s.event c l).pm.lastCluster = s.pm.lastCluster := by
  unfold State.event; dsimp only; split <;> rfl
@[simp] theorem event_pm_moduleCap (s : State) (c : Nat) (l : List Nat) : (s.event c l).pm.moduleCap = s.pm.moduleCap := by
  unfold State.event; dsimp only; split <;> rfl
@[simp] theorem event_pm_current (s : State) (c : Nat) (l : List Nat) : (s.event c l).pm.current = s.pm.current := by
  unfold State.event; dsimp only; split <;> rfl
@[simp] theorem event_pm_external (s : State) (c : Nat) (l : List Nat) : (s.event c l).pm.external = s.pm.external := by
  unfold State.event; dsimp only; split <;> rfl
@[simp] theorem event_pm_broadcast (s : State) (c : Nat) (l : List Nat) : (s.event c l).pm.broadcast = s.pm.broadcast := by
  unfold State.event; dsimp only; split <;> rfl
@[simp] theorem event_pm_linkWidth (s : State) (c : Nat) (l : List Nat) : (s.event c l).pm.linkWidth = s.pm.linkWidth := by
  unfold State.event; dsimp only; split <;> rfl
@[simp] theorem event_pm_below (s : State) (c : Nat) (l : List Nat) : (s.event c l).pm.below = s.pm.below := by
  unfold State.event; dsimp only; split <;> rfl
@[simp] theorem event_pm_linkSpeed (s : State) (c : Nat) (l : List Nat) : (s.event c l).pm.linkSpeed = s.pm.linkSpeed := by
  unfold State.event; dsimp only; split <;> rfl
@[simp] theorem event_pm_out (s : State) (c : Nat) (l : List Nat) : (s.event c l).pm.out = s.pm.out := by
  unfold State.event; dsimp only; split <;> rfl
@[simp] theorem event_pm_pinErrors (s : State) (c : Nat) (l : List Nat) : (s.event c l).pm.pinErrors = s.pm.pinErrors := by
  unfold State.event; dsimp only; split <;> rfl
@[simp] theorem event_pm_corrected (s : State) (c : Nat) (l : List Nat) : (s.event c l).pm.corrected = s.pm.corrected := by
  unfold State.event; dsimp only; split <;> rfl

end Sys2Proof.Machine
end

