-- ==== Sys2Proof/Laws/Words.lean ====
section
/-! SUPPORT. What every instruction word shares: how a word that runs undisturbed ends, what going on to the next word
leaves, and how frames compose. -/

namespace Sys2Proof

open Machine

/-! ## The outcome of a word that runs -/

/-- A word that runs undisturbed is its body for every selected lane, with the use of its register lines, and what `finish`
makes of it. -/
theorem wordOp_runs {i : Info} {s : State} (h : Runs i s) (body : Body) :
    wordOp i body s = .next (s.finish (allLanes i.g s) ((body (allLanes i.g s) s).map (Done.lines i (allLanes i.g s)))) := by
  have hl : s.runLines i (allLanes i.g s) body = (body (allLanes i.g s) s).map (Done.lines i (allLanes i.g s)) := by
    simp only [State.runLines, h.present, h.sound]
    cases body (allLanes i.g s) s <;> simp [Except.map]
  have hb : s.runBody i (allLanes i.g s) body = (body (allLanes i.g s) s).map (Done.lines i (allLanes i.g s)) := by
    unfold State.runBody
    cases hw : i.lanewise with
    | true => simp [hl]
    | false =>
      obtain ⟨h1, h2⟩ := h.selects hw
      cases hx : i.long with
      | none => simp [allLanes] at *; simp [h2 hx, hl]
      | some x =>
        simp [allLanes] at *
        rcases h1 (by simp [hx]) with h1 | h1 <;> simp [h1, hl]
  simp [wordOp, h.live, h.allowed, h.unparked, h.free]
  rw [← hb]; rfl

theorem wordOp_next {i : Info} {s s' : State} {body : Body} (h : Runs i s) (hb : body (allLanes i.g s) s = .ok (.next s')) :
    wordOp i body s = .next (usedLines i (allLanes i.g s) s').advance := by
  rw [wordOp_runs h, hb]; rfl

theorem wordOp_goto {i : Info} {s s' : State} {body : Body} {pc : Nat} (h : Runs i s)
    (hb : body (allLanes i.g s) s = .ok (.goto s' pc)) :
    wordOp i body s = .next ((usedLines i (allLanes i.g s) s').jump pc) := by
  rw [wordOp_runs h, hb]; rfl

theorem wordOp_here {i : Info} {s s' : State} {body : Body} (h : Runs i s) (hb : body (allLanes i.g s) s = .ok (.here s')) :
    wordOp i body s = .next s' := by
  rw [wordOp_runs h, hb]; rfl

theorem wordOp_trap {i : Info} {s : State} {body : Body} {t : TrapRec} (h : Runs i s)
    (hb : body (allLanes i.g s) s = .error (.trap t)) : wordOp i body s = .next (s.raise s.arm.pc s.arm.cl t) := by
  rw [wordOp_runs h, hb]; simp [Except.map, State.finish, markPartial, allLanes]

/-! ## Frames compose -/

theorem Kept.refl : ∀ d, Kept d d
  | none => trivial
  | some _ => ⟨rfl, fun _ => .inl rfl⟩

theorem Kept.trans {a b c : Option Desc} (h : Kept a b) (k : Kept b c) : Kept a c := by
  cases a <;> cases b <;> cases c <;> first | trivial | contradiction | skip
  refine ⟨k.1.trans h.1, fun i => ?_⟩
  rcases h.2 i with e | e <;> rcases k.2 i with f | f <;> rw [f] <;> simp [e]

theorem Kept.kind {d e : Desc} (h : Kept (some d) (some e)) : e.kind = d.kind := by have := congrArg Desc.kind h.1; exact this
theorem Kept.bytes {d e : Desc} (h : Kept (some d) (some e)) : e.bytes = d.bytes := by have := congrArg Desc.bytes h.1; exact this

theorem Frame.refl (c : Changes) (s : State) : Frame c s s :=
  ⟨fun _ _ => rfl, fun _ _ _ _ => rfl, fun _ _ => rfl, fun _ _ => rfl, fun _ => ⟨rfl, rfl⟩, fun _ => rfl, fun _ => ⟨rfl, rfl⟩, fun _ => ⟨rfl, rfl, rfl⟩,
    fun _ _ => rfl, fun _ _ => ⟨fun _ => .refl _, rfl⟩, fun _ _ _ _ => rfl, rfl, fun _ => rfl, fun _ => ⟨rfl, rfl, rfl, rfl, rfl, rfl, rfl, rfl, rfl⟩⟩

theorem Frame.trans {c : Changes} {s t u : State} (h : Frame c s t) (k : Frame c t u) : Frame c s u where
  scalars n hn := (k.scalars n hn).trans (h.scalars n hn)
  lanes r l hl hc := (k.lanes r l hl hc).trans (h.lanes r l hl hc)
  masks n hn := (k.masks n hn).trans (h.masks n hn)
  flags f hf := (k.flags f hf).trans (h.flags f hf)
  control e := ⟨(k.control e).1.trans (h.control e).1, (k.control e).2.trans (h.control e).2⟩
  reservation e := (k.reservation e).trans (h.reservation e)
  accumulators e := ⟨(k.accumulators e).1.trans (h.accumulators e).1, (k.accumulators e).2.trans (h.accumulators e).2⟩
  special e := ⟨(k.special e).1.trans (h.special e).1, (k.special e).2.1.trans (h.special e).2.1,
    (k.special e).2.2.trans (h.special e).2.2⟩
  bytes a ha := (k.bytes a ha).trans (h.bytes a ha)
  slates e n := ⟨fun id => ((h.slates e n).1 id).trans ((k.slates e n).1 id), (k.slates e n).2.trans (h.slates e n).2⟩
  own core id ofs hc := (k.own core id ofs hc).trans (h.own core id ofs hc)
  who := k.who.trans h.who
  others e := (k.others e).trans (h.others e)
  units e := by
    obtain ⟨a1, a2, a3, a4, a5, a6, a7, a8, a9⟩ := h.units e
    obtain ⟨b1, b2, b3, b4, b5, b6, b7, b8, b9⟩ := k.units e
    exact ⟨b1.trans a1, b2.trans a2, b3.trans a3, b4.trans a4, b5.trans a5, b6.trans a6, b7.trans a7, b8.trans a8, b9.trans a9⟩

/-- A frame that allows less allows this. -/
theorem Frame.weaken {c d : Changes} {s t : State} (h : Frame c s t) (hs : ∀ k ∈ c.scalars, k ∈ d.scalars)
    (hv : ∀ r l, d.lanes r l = false → c.lanes r l = false) (hm : ∀ k ∈ c.masks, k ∈ d.masks) (hf : ∀ f ∈ c.flags, f ∈ d.flags)
    (hb : ∀ a, d.bytes a = false → c.bytes a = false) (h1 : d.special = false → c.special = false)
    (h2 : d.accumulators = false → c.accumulators = false) (h3 : d.slates = false → c.slates = false)
    (h4 : d.control = false → c.control = false) (h5 : d.units = false → c.units = false)
    (h6 : ∀ x y z, d.own x y z = false → c.own x y z = false) (h7 : d.reservation = false → c.reservation = false)
    (h8 : d.others = false → c.others = false) : Frame d s t :=
  { h with
    special := fun e => h.special (h1 e)
    control := fun e => h.control (h4 e)
    units := fun e => h.units (h5 e)
    reservation := fun e => h.reservation (h7 e)
    others := fun e => h.others (h8 e)
    own := fun x y z e => h.own x y z (h6 x y z e)
    accumulators := fun e => h.accumulators (h2 e)
    slates := fun e => h.slates (h3 e)
    scalars := fun k hk => h.scalars k fun x => hk (hs k x)
    lanes := fun r l hl hc => h.lanes r l hl (hv r l hc)
    masks := fun k hk => h.masks k fun x => hk (hm k x)
    flags := fun f hk => h.flags f fun x => hk (hf f x)
    bytes := fun a ha => h.bytes a (hb a ha) }

theorem Frame.any {s t : State} (h : Frame {} s t) (c : Changes) : Frame c s t :=
  h.weaken (by simp) (by simp) (by simp) (by simp) (by simp) (by simp) (by simp) (by simp) (by simp) (by simp) (by simp) (by simp) (by simp)

/-! ## Changes that no register shows: caches and frame owners -/

/-- The states differ in what a core keeps of translations and constants, in frame owners, and in what modified copies a
line's home has recalled, at most. -/
structure Cached (s t : State) : Prop where
  grp : t.grp = s.grp
  who : t.who = s.who
  others : t.others = s.others
  cells : t.mem.cells = s.mem.cells
  slates : ∀ n, (∀ id, Kept (s.desc? n id) (t.desc? n id)) ∧ (t.coreAt n).cribs = (s.coreAt n).cribs
  units : t.teams = s.teams ∧ t.parts = s.parts ∧ t.dies = s.dies ∧ t.engines = s.engines ∧ t.waits = s.waits ∧
    t.swaps = s.swaps ∧ t.launches = s.launches ∧ t.fab = s.fab ∧ t.pm = s.pm

theorem Cached.refl (s : State) : Cached s s :=
  ⟨rfl, rfl, rfl, rfl, fun _ => ⟨fun _ => .refl _, rfl⟩, ⟨rfl, rfl, rfl, rfl, rfl, rfl, rfl, rfl, rfl⟩⟩

theorem Cached.trans {s t u : State} (h : Cached s t) (k : Cached t u) : Cached s u where
  grp := k.grp.trans h.grp
  who := k.who.trans h.who
  others := k.others.trans h.others
  cells := k.cells.trans h.cells
  slates n := ⟨fun id => ((h.slates n).1 id).trans ((k.slates n).1 id), (k.slates n).2.trans (h.slates n).2⟩
  units := by
    obtain ⟨a1, a2, a3, a4, a5, a6, a7, a8, a9⟩ := h.units
    obtain ⟨b1, b2, b3, b4, b5, b6, b7, b8, b9⟩ := k.units
    exact ⟨b1.trans a1, b2.trans a2, b3.trans a3, b4.trans a4, b5.trans a5, b6.trans a6, b7.trans a7, b8.trans a8, b9.trans a9⟩

theorem Cached.arm {s t : State} (h : Cached s t) : t.arm = s.arm := by simp only [State.arm, h.grp, h.who]
theorem Cached.readS {s t : State} (h : Cached s t) (k : Nat) : t.readS k = s.readS k := by simp only [State.readS, h.grp, h.who]
theorem Cached.readV {s t : State} (h : Cached s t) (r l : Nat) : t.readV r l = s.readV r l := by simp only [State.readV, h.grp, h.who]
theorem Cached.readM {s t : State} (h : Cached s t) (k : Nat) : t.readM k = s.readM k := by
  simp only [State.readM, State.active, h.grp, h.who]
theorem Cached.readPair {s t : State} (h : Cached s t) (r l : Nat) : t.readPair r l = s.readPair r l := by
  simp only [State.readPair, h.readV]
theorem Cached.byte {s t : State} (h : Cached s t) (a : Nat) : t.mem.byte a = s.mem.byte a := by simp only [Memory.byte, h.cells]
theorem Cached.svalue {s t : State} (h : Cached s t) (x : SSrc) : x.value t = x.value s := by
  cases x <;> simp only [SSrc.value, h.readS, h.readM, h.grp]
theorem Cached.lane32 {s t : State} (h : Cached s t) (x : VSrc) (i : Nat) : x.lane32 t i = x.lane32 s i := by
  cases x <;> simp only [VSrc.lane32, h.readV, h.readS, h.readM, h.grp]
theorem Cached.lane64 {s t : State} (h : Cached s t) (x : VSrc) (i : Nat) : x.lane64 t i = x.lane64 s i := by
  cases x <;> simp only [VSrc.lane64, h.readPair, h.readS, h.readM, h.grp]

theorem Cached.frame {s t : State} (h : Cached s t) (c : Changes) : Frame c s t where
  scalars k _ := h.readS k
  lanes r l _ _ := h.readV r l
  masks k _ := h.readM k
  flags f _ := by rw [h.arm]
  control _ := by rw [h.arm]; exact ⟨rfl, rfl⟩
  reservation _ := by rw [h.arm]
  accumulators _ := by rw [h.grp]; exact ⟨rfl, rfl⟩
  special _ := by rw [h.grp]; exact ⟨rfl, rfl, rfl⟩
  bytes a _ := h.byte a
  slates _ := h.slates
  own core id ofs _ := by
    have hk := (h.slates core).1 id
    unfold slateByte
    cases hd : s.desc? core id <;> cases he : t.desc? core id <;> rw [hd, he] at hk <;> first | rfl | contradiction | skip
    dsimp only; rw [hk.kind, hk.bytes]
  who := h.who
  others _ := h.others
  units _ := h.units

theorem Cached.claims (s : State) (m : Memory) (h : m.cells = s.mem.cells) : Cached s { s with mem := m } :=
  ⟨rfl, rfl, rfl, h, fun _ => ⟨fun _ => .refl _, rfl⟩, ⟨rfl, rfl, rfl, rfl, rfl, rfl, rfl, rfl, rfl⟩⟩

@[simp] theorem claim_cells (m : Memory) (pa key : Nat) : (m.claim pa key).cells = m.cells := by
  unfold Memory.claim; split <;> rfl

theorem claims_cells (l : List Nat) (key : Nat) (m : Memory) : (l.foldl (fun m a => m.claim a key) m).cells = m.cells := by
  induction l generalizing m with
  | nil => rfl
  | cons a l ih => rw [List.foldl_cons, ih, claim_cells]

theorem coreAt_ins (s : State) (c n : Nat) (x : Core) :
    ({ s with cores := s.cores.ins c x } : State).coreAt n = if n = c then x else s.coreAt n := by
  by_cases h : n = c
  · subst h; simp [State.coreAt]
  · simp [State.coreAt, Tbl.look_ins_ne _ _ h, h]

/-- A change of one core that keeps its descriptors and cribs. -/
theorem Cached.core (s : State) (c : Nat) (x : Core) (h1 : x.descs = (s.coreAt c).descs) (h2 : x.cribs = (s.coreAt c).cribs) :
    Cached s { s with cores := s.cores.ins c x } :=
  ⟨rfl, rfl, rfl, rfl, fun n => by
    refine ⟨fun id => ?_, by rw [coreAt_ins]; split <;> simp_all⟩
    simp only [State.desc?, coreAt_ins]
    split
    · rename_i e; rw [e, h1]; exact .refl _
    · exact .refl _, ⟨rfl, rfl, rfl, rfl, rfl, rfl, rfl, rfl, rfl⟩⟩

/-- Writing back a sector keeps all but that it is dirty, and its poison goes to the line (R113, R118). -/
theorem writeBack_cached (s : State) (core id i : Nat) : Cached s (s.writeBack core id i) := by
  unfold State.writeBack
  split
  · exact .refl s
  rename_i d hd
  dsimp only
  split
  · have hm : Cached s (if (d.sec i).st = .poisoned then { s with mem := s.mem.setPoison (d.sec i).line } else s) := by
      split
      · exact .claims s _ rfl
      · exact .refl s
    refine hm.trans ⟨rfl, rfl, rfl, rfl, fun n => ?_, ⟨rfl, rfl, rfl, rfl, rfl, rfl, rfl, rfl, rfl⟩⟩
    generalize hu : (if (d.sec i).st = .poisoned then { s with mem := s.mem.setPoison (d.sec i).line } else s) = u at *
    have hc : u.cores = s.cores := by rw [← hu]; split <;> rfl
    have hd' : u.desc? core id = some d := by rw [← hd]; simp only [State.desc?, State.coreAt, hc]
    simp only [State.setDesc, State.modCore, State.setCore, State.desc?, coreAt_ins]
    split
    · rename_i e; subst e
      refine ⟨fun k => ?_, rfl⟩
      by_cases hk : k = id
      · subst hk
        rw [show (u.coreAt n).descs.look k = some d from hd', Tbl.look_ins]
        refine ⟨rfl, fun j => ?_⟩
        by_cases hj : j = i
        · subst hj; exact .inr (Tbl.get_put ..)
        · exact .inl (Tbl.get_put_ne _ _ _ hj)
      · rw [Tbl.look_ins_ne _ _ hk]; exact .refl _
    · exact ⟨fun _ => .refl _, rfl⟩
  · exact .refl s

theorem foldl_cached {α : Type} {f : State → α → State} (hf : ∀ t x, Cached t (f t x)) (l : List α) (s : State) :
    Cached s (l.foldl f s) := by
  induction l generalizing s with
  | nil => exact .refl s
  | cons x l ih => exact (hf s x).trans (ih _)

/-- A recall writes back, and nothing else (R113). -/
theorem recall_cached (s : State) (line : Nat) : Cached s (s.recall line) := by
  refine foldl_cached (fun t x => foldl_cached (fun t y => ?_) _ _) _ _
  obtain ⟨id, d⟩ := y
  dsimp only
  split
  · refine foldl_cached (fun t z => ?_) _ _
    obtain ⟨i, z⟩ := z
    dsimp only
    split
    · exact writeBack_cached ..
    · exact .refl t
  · exact .refl t

theorem claimWalk_cached (s : State) (p va : Nat) : Cached s (s.claimWalk p va) := by
  unfold State.claimWalk
  split
  · exact Cached.refl s
  · exact Cached.claims s _ (claims_cells ..)

theorem useVa_cached (s : State) (p core va pa key : Nat) : Cached s (s.useVa p core va pa key) := by
  unfold State.useVa
  have h : Cached s (({ s with mem := s.mem.claim pa key } : State).claimWalk p va) :=
    (Cached.claims s _ (claim_cells ..)).trans (claimWalk_cached ..)
  dsimp only
  split
  · exact h.trans (Cached.core _ core _ rfl rfl)
  · exact h

theorem keepConst_cached (s : State) (key : Nat × Nat) (x : BitVec 32) : Cached s (s.keepConst key x) :=
  Cached.core s _ _ rfl rfl

theorem globalAt_cached {s : State} {c : Ctx} {a : Machine.Acc} {va n : Nat} {r : Nat × State} (h : s.globalAt c a va n = .ok r) :
    Cached s r.2 := by
  unfold State.globalAt at h
  dsimp only at h
  split at h
  · exact nomatch h
  · split at h
    · split at h
      · exact nomatch h
      · split at h
        · exact nomatch h
        · cases h; exact (useVa_cached ..).trans (recall_cached ..)
    all_goals exact nomatch h

theorem cwRead_cached {s : State} {c : Ctx} {w o : Nat} {r : BitVec 32 × State} (h : s.cwRead c w o = .ok r) : Cached s r.2 := by
  unfold State.cwRead at h
  dsimp only at h
  generalize (s.grp.part + if w = 7 then 16 else 0, ((s.grp.cw.look w).getD ⟨0, 0⟩).base + 4 * o) = key at h
  split at h
  · exact nomatch h
  split at h
  · exact nomatch h
  split at h
  · cases h; exact Cached.refl s
  · cases hf : s.cwFetch c w (((s.grp.cw.look w).getD ⟨0, 0⟩).base + 4 * o) with
    | error e => rw [hf] at h; exact nomatch h
    | ok q =>
      rw [hf] at h
      cases h
      have hq : Cached s q.2.1 := by
        unfold State.cwFetch at hf
        dsimp only at hf
        split at hf
        · split at hf
          · exact nomatch hf
          · split at hf
            · exact nomatch hf
            · cases hf; exact Cached.claims s _ (claim_cells ..)
        · split at hf
          · cases hr : s.remoteRead c _ _ 2 with
            | error e => rw [hr] at hf; exact nomatch hf
            | ok v => rw [hr] at hf; cases hf; exact Cached.refl s
          · cases hg : s.globalAt c .read _ 4 with
            | error e => rw [hg] at hf; exact nomatch hf
            | ok v => rw [hg] at hf; cases hf; exact globalAt_cached hg
      dsimp only
      split
      · exact hq.trans (keepConst_cached ..)
      · exact hq

theorem sb_cached {s : State} {c : Ctx} {b : Bool} {x : SB} {r : Word × State} (h : x.read s c b = .ok r) : Cached s r.2 := by
  cases x with
  | src y => cases h; exact Cached.refl s
  | cw w o =>
    simp only [SB.read] at h
    cases hc : s.cwRead c w.val o.toNat with
    | error e => rw [hc] at h; exact nomatch h
    | ok q => rw [hc] at h; cases h; exact cwRead_cached hc

theorem vb_cached {s : State} {c : Ctx} {x : VB} {r : (Nat → Lane) × (Nat → Word) × State} (h : x.read s c = .ok r) :
    Cached s r.2.2 := by
  cases x with
  | src y => cases h; exact Cached.refl s
  | cw w o =>
    simp only [VB.read] at h
    cases hc : s.cwRead c w.val o.toNat with
    | error e => rw [hc] at h; exact nomatch h
    | ok q => rw [hc] at h; cases h; exact cwRead_cached hc

/-! ## Going on to the next word -/

theorem endClause_eq (s : State) (c : Clause) : s.endClause c = s ∨ s.endClause c = s.modGrp Group.leaveRegion := by
  unfold State.endClause; split
  · exact .inr rfl
  · exact .inl rfl

theorem advance_eq {s : State} (h : s.arm.park = none) (hb : s.arm.back = none) :
    s.advance = s.modArm (fun a => { a with pc := a.pc + 8, jumped := false, cl := s.arm.cl.step, park := none, remote := [], uses := [], barw := none }) ∨
    s.advance = (s.modArm (fun a => { a with
      pc := a.pc + 8, jumped := false, cl := s.arm.cl.step, park := none, remote := [], uses := [], barw := none })).modGrp Group.leaveRegion := by
  unfold State.advance
  simp only [h, hb, Option.isSome_none, Bool.false_eq_true, if_false]
  split
  · exact (endClause_eq _ _).elim .inl .inr
  · exact .inl rfl

/-- The use of a word's register lines changes what its group keeps of its lines, and nothing else. -/
theorem usedLines_eq (i : Info) (c : Ctx) (s : State) :
    ∃ l b, usedLines i c s = s.modGrp fun g => { g with lines := l, badLines := b } := by
  unfold usedLines
  dsimp only
  generalize (if i.long.isSome || c.todo = 0 then [] else i.vd.map (lineNo s.who)) = dst
  have h : ∀ u : State, (∃ l b, u = s.modGrp fun g => { g with lines := l, badLines := b }) →
      ∃ l b, (if !u.grp.badLines.isEmpty && decide (c.todo = lanesBelow u.grp.shape.width) then
        u.modGrp fun g => { g with badLines := g.badLines.filter fun l => !(i.vd.map (lineNo u.who)).contains l }
      else u) = s.modGrp fun g => { g with lines := l, badLines := b } := by
    rintro u ⟨l, b, rfl⟩; split <;> exact ⟨_, _, rfl⟩
  refine h _ ?_
  split <;> exact ⟨_, _, rfl⟩

theorem modLines_arm (s : State) (l : Tbl VLine) (b : List Nat) :
    (s.modGrp fun g => { g with lines := l, badLines := b }).arm = s.arm := modGrp_arm _ _ (by cases s.who <;> rfl)

@[simp] theorem usedLines_arm (i : Info) (c : Ctx) (s : State) : (usedLines i c s).arm = s.arm := by
  obtain ⟨l, b, h⟩ := usedLines_eq i c s
  rw [h, modLines_arm]

theorem Frame.modLines (c : Changes) (s : State) (l : Tbl VLine) (b : List Nat) :
    Frame c s (s.modGrp fun g => { g with lines := l, badLines := b }) :=
  ⟨fun _ _ => rfl, fun _ _ _ _ => rfl, fun _ _ => rfl, fun _ _ => by rw [modLines_arm], fun _ => by rw [modLines_arm]; exact ⟨rfl, rfl⟩,
    fun _ => by rw [modLines_arm], fun _ => ⟨rfl, rfl⟩, fun _ => ⟨rfl, rfl, rfl⟩, fun _ _ => rfl, fun _ _ => ⟨fun _ => .refl _, rfl⟩, fun _ _ _ _ => rfl,
    rfl, fun _ => rfl, fun _ => ⟨rfl, rfl, rfl, rfl, rfl, rfl, rfl, rfl, rfl⟩⟩

theorem Frame.usedLines (k : Changes) (i : Info) (c : Ctx) (s : State) : Frame k s (usedLines i c s) := by
  obtain ⟨l, b, h⟩ := usedLines_eq i c s
  rw [h]; exact Frame.modLines ..

/-- A change of the executing arm that keeps its mask and flags. -/
theorem Frame.modArm (c : Changes) (s : State) (f : Arm → Arm) (hm : (f s.arm).mask = s.arm.mask)
    (hf : (f s.arm).flags = s.arm.flags)
    (hk : c.control = false → (f s.arm).rets = s.arm.rets ∧ (f s.arm).forks = s.arm.forks)
    (hr : c.reservation = false → (f s.arm).resv = s.arm.resv) : Frame c s (s.modArm f) where
  scalars k _ := by simp only [State.readS, modArm_who, modArm_grp]; cases s.who <;> rfl
  lanes r l _ _ := by simp only [State.readV, modArm_who, modArm_grp]; cases s.who <;> rfl
  masks k _ := by
    simp only [State.readM, State.active, Group.activeOf, modArm_who, modArm_grp, setArm_arm, setArm_shape, setArm_regs, hm]; rfl
  flags g _ := by simp only [modArm_arm, Arm.flag, hf]
  control e := by rw [modArm_arm]; exact hk e
  reservation e := by rw [modArm_arm]; exact hr e
  accumulators _ := by simp
  special _ := by simp
  bytes _ _ := rfl
  slates _ _ := ⟨fun _ => .refl _, rfl⟩
  own _ _ _ _ := rfl
  who := rfl
  others _ := rfl
  units _ := ⟨rfl, rfl, rfl, rfl, rfl, rfl, rfl, rfl, rfl⟩

/-- Leaving a region changes no register. -/
theorem Frame.leave (c : Changes) (s : State) : Frame c s (s.modGrp Group.leaveRegion) :=
  ⟨fun _ _ => rfl, fun _ _ _ _ => rfl, fun _ _ => rfl, fun _ _ => rfl, fun _ => ⟨rfl, rfl⟩, fun _ => rfl, fun _ => ⟨rfl, rfl⟩, fun _ => ⟨rfl, rfl, rfl⟩,
    fun _ _ => rfl, fun _ _ => ⟨fun _ => .refl _, rfl⟩, fun _ _ _ _ => rfl, rfl, fun _ => rfl, fun _ => ⟨rfl, rfl, rfl, rfl, rfl, rfl, rfl, rfl, rfl⟩⟩

theorem Frame.advance (c : Changes) {s : State} (h : s.arm.park = none) (hb : s.arm.back = none) : Frame c s s.advance := by
  rcases advance_eq h hb with e | e <;> rw [e]
  · exact Frame.modArm c s _ rfl rfl (fun _ => ⟨rfl, rfl⟩) fun _ => rfl
  · exact (Frame.modArm c s _ rfl rfl (fun _ => ⟨rfl, rfl⟩) fun _ => rfl).trans (Frame.leave c _)

theorem advance_next {s : State} (h : s.arm.park = none) (hb : s.arm.back = none) : NextWord s s.advance := by
  rcases advance_eq h hb with e | e <;> rw [e]
  · exact ⟨by simp, by simp⟩
  · exact ⟨by rw [modGrp_arm _ _ (by cases s.who <;> rfl)]; simp, by rw [modGrp_arm _ _ (by cases s.who <;> rfl)]; simp⟩

/-- An arm that issues no withdrawn word has nothing to go back to. -/
theorem unback_none {a : Arm} (h : a.back = none) : a.unback = a := by simp [Arm.unback, h]

theorem jump_eq {s : State} (pc : Nat) (hb : s.arm.back = none) :
    s.jump pc = s.modArm (fun a => { a with pc := pc, jumped := true, cl := Clause.start, park := none, remote := [], uses := [], barw := none }) ∨
    s.jump pc = (s.modArm (fun a => { a with
      pc := pc, jumped := true, cl := Clause.start, park := none, remote := [], uses := [], barw := none })).modGrp Group.leaveRegion := by
  unfold State.jump State.modArm
  simp only [unback_none hb]
  exact endClause_eq _ _

theorem Frame.jump (c : Changes) {s : State} (pc : Nat) (hb : s.arm.back = none) : Frame c s (s.jump pc) := by
  rcases jump_eq pc hb with e | e <;> rw [e]
  · exact Frame.modArm c s _ rfl rfl (fun _ => ⟨rfl, rfl⟩) fun _ => rfl
  · exact (Frame.modArm c s _ rfl rfl (fun _ => ⟨rfl, rfl⟩) fun _ => rfl).trans (Frame.leave c _)

theorem jump_arm {s : State} (pc : Nat) (hb : s.arm.back = none) : (s.jump pc).arm.pc = pc ∧ (s.jump pc).arm.cl = Clause.start := by
  rcases jump_eq pc hb with e | e <;> rw [e]
  · simp
  · rw [modGrp_arm _ _ (by cases s.who <;> rfl)]; simp

end Sys2Proof
end

