-- ==== Sys2Proof/Laws/Registers.lean ====
section
/-! SUPPORT. Register writes: what is read back, and what each write leaves. -/

namespace Sys2Proof

open Machine

namespace Machine

/-! ## Scalars -/

/-- A scalar written reads back; s0 reads 0. -/
theorem readS_writeS (s : State) (n : Nat) (x : Word) : (s.writeS n x).readS n = if n = 0 then 0 else x := by
  by_cases h : n = 0
  · simp [State.readS, h]
  · obtain ⟨g, w, _⟩ := s
    cases w <;> simp [State.writeS, State.readS, State.modGrp, h, Tbl.get_put]

theorem readS_writeS_ne (s : State) {k n : Nat} (x : Word) (h : k ≠ n) : (s.writeS n x).readS k = s.readS k := by
  by_cases h0 : n = 0
  · simp [State.writeS, h0]
  · obtain ⟨g, w, _⟩ := s
    cases w <;> simp [State.writeS, State.readS, State.modGrp, h0, Tbl.get_put_ne _ _ _ h]

theorem writeS_frame (s : State) (n : Nat) (x : Word) (c : Changes) (hn : n ∈ c.scalars) : Frame c s (s.writeS n x) := by
  by_cases h0 : n = 0
  · simp only [State.writeS, h0, if_true]; exact Frame.refl c s
  · have hs := fun k hk => readS_writeS_ne s (k := k) (n := n) x hk
    obtain ⟨g, w, _⟩ := s
    cases w <;> simp only [State.writeS, h0, if_false, State.modGrp] at * <;>
      exact ⟨fun k hk => hs k fun e => hk (e ▸ hn), fun _ _ _ _ => rfl, fun _ _ => rfl, fun _ _ => rfl, fun _ => ⟨rfl, rfl⟩, fun _ => rfl, fun _ => ⟨rfl, rfl⟩, fun _ => ⟨rfl, rfl, rfl⟩,
        fun _ _ => rfl, fun _ _ => ⟨fun _ => .refl _, rfl⟩, fun _ _ _ _ => rfl, rfl, fun _ => rfl, fun _ => ⟨rfl, rfl, rfl, rfl, rfl, rfl, rfl, rfl, rfl⟩⟩

@[simp] theorem writeS_arm (s : State) (n : Nat) (x : Word) : (s.writeS n x).arm = s.arm := by
  obtain ⟨g, w, _⟩ := s
  by_cases h0 : n = 0
  · simp [State.writeS, h0]
  · cases w <;> simp [State.writeS, State.arm, State.modGrp, Group.arm, h0]

/-! ## Vector lanes -/

theorem mem_laneList {x : LaneSet} {i : Nat} : i ∈ laneList x ↔ i < 64 ∧ x.getLsbD i = true := by
  simp [laneList, List.mem_filter]

theorem readV_writeV (s : State) (r l : Nat) (x : Lane) : (s.writeV r l x).readV r l = x := by
  obtain ⟨g, w, _⟩ := s; cases w <;> simp [State.writeV, State.readV, State.modGrp, Tbl.get_put]

theorem readV_writeV_ne (s : State) {r l r' l' : Nat} (x : Lane) (hl : l < 64) (hl' : l' < 64) (h : r ≠ r' ∨ l ≠ l') :
    (s.writeV r' l' x).readV r l = s.readV r l := by
  have hk : r * 64 + l ≠ r' * 64 + l' := by omega
  obtain ⟨g, w, _⟩ := s; cases w <;> simp [State.writeV, State.readV, State.modGrp, Tbl.get_put_ne _ _ _ hk]

theorem writeV_frame (s : State) (r l : Nat) (x : Lane) (c : Changes) (hl : l < 64) (h : c.lanes r l = true) :
    Frame c s (s.writeV r l x) := by
  have hv : ∀ r' l', l' < 64 → c.lanes r' l' = false → (s.writeV r l x).readV r' l' = s.readV r' l' :=
    fun r' l' hl' hc => readV_writeV_ne s x hl' hl (by
      by_cases e : r' = r
      · exact .inr fun e' => by subst e; subst e'; simp [h] at hc
      · exact .inl e)
  obtain ⟨g, w, _⟩ := s
  cases w <;> simp only [State.writeV, State.modGrp] at * <;>
    exact ⟨fun _ _ => rfl, hv, fun _ _ => rfl, fun _ _ => rfl, fun _ => ⟨rfl, rfl⟩, fun _ => rfl, fun _ => ⟨rfl, rfl⟩, fun _ => ⟨rfl, rfl, rfl⟩,
      fun _ _ => rfl, fun _ _ => ⟨fun _ => .refl _, rfl⟩, fun _ _ _ _ => rfl, rfl, fun _ => rfl, fun _ => ⟨rfl, rfl, rfl, rfl, rfl, rfl, rfl, rfl, rfl⟩⟩

@[simp] theorem writeV_arm (s : State) (r l : Nat) (x : Lane) : (s.writeV r l x).arm = s.arm := by
  obtain ⟨g, w, _⟩ := s
  cases w <;> rfl

/-- Writes of one lane after another. -/
theorem foldV (w : State → Nat → State) (L : List Nat) (s : State) (r l : Nat)
    (hw : ∀ t i, i ∈ L → l ≠ i → (w t i).readV r l = t.readV r l) (h : l ∉ L) : (L.foldl w s).readV r l = s.readV r l := by
  induction L generalizing s with
  | nil => rfl
  | cons i L ih =>
    rw [List.foldl_cons, ih _ (fun t j hj => hw t j (List.mem_cons_of_mem _ hj)) fun m => h (List.mem_cons_of_mem _ m)]
    exact hw s i (List.mem_cons_self ..) fun e => h (e ▸ List.mem_cons_self ..)

theorem foldV_mem (w : State → Nat → State) (f : Nat → Lane) (L : List Nat) (s : State) (r l : Nat)
    (hw : ∀ t i, i ∈ L → l ≠ i → (w t i).readV r l = t.readV r l) (hs : ∀ t, (w t l).readV r l = f l) (h : l ∈ L) :
    (L.foldl w s).readV r l = f l := by
  induction L generalizing s with
  | nil => exact absurd h (List.not_mem_nil)
  | cons i L ih =>
    rw [List.foldl_cons]
    by_cases m : l ∈ L
    · exact ih _ (fun t j hj => hw t j (List.mem_cons_of_mem _ hj)) m
    · cases h with
      | head => rw [foldV w L _ r l (fun t j hj => hw t j (List.mem_cons_of_mem _ hj)) m]; exact hs s
      | tail _ h => exact absurd h m

/-- Lane `l` of register `r` after a vector result. -/
theorem readV_writeLanes (s : State) (reg : Nat) (sel : LaneSet) (f : Nat → Lane) (r l : Nat) (hl : l < 64) :
    (s.writeLanes reg sel f).readV r l = if r = reg ∧ sel.getLsbD l = true then f l else s.readV r l := by
  unfold State.writeLanes
  have ne : ∀ (t : State) i, i ∈ laneList sel → l ≠ i → (t.writeV reg i (f i)).readV r l = t.readV r l :=
    fun t i hi hne => readV_writeV_ne t _ hl (mem_laneList.mp hi).1 (.inr hne)
  by_cases hr : r = reg
  · subst hr
    by_cases hm : sel.getLsbD l = true
    · rw [if_pos ⟨rfl, hm⟩]
      exact foldV_mem (fun t i => t.writeV r i (f i)) f _ s r l ne (fun t => readV_writeV t r l (f l)) (mem_laneList.mpr ⟨hl, hm⟩)
    · rw [if_neg (fun h => hm h.2)]
      exact foldV _ _ s r l ne fun h => hm (mem_laneList.mp h).2
  · rw [if_neg (fun h => hr h.1)]
    have all : ∀ (L : List Nat) (t : State), (∀ i ∈ L, i < 64) → (L.foldl (fun t i => t.writeV reg i (f i)) t).readV r l = t.readV r l := by
      intro L
      induction L with
      | nil => exact fun _ _ => rfl
      | cons i L ih =>
        intro t h
        rw [List.foldl_cons, ih _ fun j hj => h j (List.mem_cons_of_mem _ hj)]
        exact readV_writeV_ne t _ hl (h i (List.mem_cons_self ..)) (.inl hr)
    exact all _ s fun i hi => (mem_laneList.mp hi).1

theorem fold_frame (c : Changes) (w : State → Nat → State) (L : List Nat) (s : State) (h : ∀ t, ∀ i ∈ L, Frame c t (w t i)) :
    Frame c s (L.foldl w s) := by
  induction L generalizing s with
  | nil => exact Frame.refl c s
  | cons i L ih =>
    exact (h s i (List.mem_cons_self ..)).trans (ih _ fun t j hj => h t j (List.mem_cons_of_mem _ hj))

theorem fold_arm (w : State → Nat → State) (L : List Nat) (s : State) (h : ∀ t i, (w t i).arm = t.arm) : (L.foldl w s).arm = s.arm := by
  induction L generalizing s with
  | nil => rfl
  | cons i L ih => rw [List.foldl_cons, ih, h]

theorem writeLanes_frame (s : State) (reg : Nat) (sel : LaneSet) (f : Nat → Lane) (c : Changes)
    (h : ∀ l, l < 64 → sel.getLsbD l = true → c.lanes reg l = true) : Frame c s (s.writeLanes reg sel f) :=
  fold_frame c _ _ s fun t i hi => writeV_frame t reg i _ c (mem_laneList.mp hi).1 (h i (mem_laneList.mp hi).1 (mem_laneList.mp hi).2)

@[simp] theorem writeLanes_arm (s : State) (reg : Nat) (sel : LaneSet) (f : Nat → Lane) : (s.writeLanes reg sel f).arm = s.arm :=
  fold_arm _ _ s fun _ _ => writeV_arm ..

theorem writePairs_frame (s : State) (reg : Nat) (sel : LaneSet) (f : Nat → Word) (c : Changes)
    (h : ∀ l, l < 64 → sel.getLsbD l = true → c.lanes reg l = true ∧ c.lanes (reg + 1) l = true) :
    Frame c s (s.writePairs reg sel f) :=
  fold_frame c _ _ s fun t i hi => by
    have hm := mem_laneList.mp hi
    exact (writeV_frame t reg i _ c hm.1 (h i hm.1 hm.2).1).trans (writeV_frame _ (reg + 1) i _ c hm.1 (h i hm.1 hm.2).2)

@[simp] theorem writePairs_arm (s : State) (reg : Nat) (sel : LaneSet) (f : Nat → Word) : (s.writePairs reg sel f).arm = s.arm :=
  fold_arm _ _ s fun _ _ => by simp

/-- A lane's 64-bit value after a pair result: the low word in the first register (R59). -/
theorem readPair_writePairs (s : State) (reg : Nat) (sel : LaneSet) (f : Nat → Word) (l : Nat) (hl : l < 64)
    (hm : sel.getLsbD l = true) : (s.writePairs reg sel f).readPair reg l = f l := by
  have lo : (s.writePairs reg sel f).readV reg l = (f l).setWidth 32 :=
    foldV_mem (fun t i => (t.writeV reg i ((f i).setWidth 32)).writeV (reg + 1) i ((f i >>> 32).setWidth 32))
      (fun i => (f i).setWidth 32) _ s reg l
      (fun t i hi hne => by
        have h64 := (mem_laneList.mp hi).1
        rw [readV_writeV_ne _ _ hl h64 (.inr hne), readV_writeV_ne _ _ hl h64 (.inr hne)])
      (fun t => by
        rw [readV_writeV_ne _ _ hl hl (.inl (by omega)), readV_writeV]) (mem_laneList.mpr ⟨hl, hm⟩)
  have hi : (s.writePairs reg sel f).readV (reg + 1) l = (f l >>> 32).setWidth 32 :=
    foldV_mem (fun t i => (t.writeV reg i ((f i).setWidth 32)).writeV (reg + 1) i ((f i >>> 32).setWidth 32))
      (fun i => (f i >>> 32).setWidth 32) _ s (reg + 1) l
      (fun t i hi hne => by
        have h64 := (mem_laneList.mp hi).1
        rw [readV_writeV_ne _ _ hl h64 (.inr hne), readV_writeV_ne _ _ hl h64 (.inr hne)])
      (fun t => readV_writeV ..) (mem_laneList.mpr ⟨hl, hm⟩)
  rw [State.readPair, lo, hi]
  apply BitVec.eq_of_getLsbD_eq
  intro i hi
  simp only [BitVec.getLsbD_append, BitVec.getLsbD_setWidth, BitVec.getLsbD_ushiftRight]
  by_cases h : i < 32
  · simp [h]
  · have e : 32 + (i - 32) = i := by omega
    simp [h, e, show i - 32 < 32 by omega]

/-- A lane outside the set keeps its 64-bit value, and any other register too. -/
theorem writePairs_out (s : State) (reg : Nat) (sel : LaneSet) (f : Nat → Word) (r l : Nat) (hl : l < 64)
    (h : ¬((r = reg ∨ r = reg + 1) ∧ sel.getLsbD l = true)) : (s.writePairs reg sel f).readV r l = s.readV r l :=
  (writePairs_frame s reg sel f { lanes := lanesOfTy true reg sel } (fun l _ hm => by simp [lanesOfTy, hm])).lanes r l hl (by
    simp only [lanesOfTy, Bool.and_eq_false_iff, decide_eq_false_iff_not]
    by_cases hm : sel.getLsbD l = true
    · exact .inl fun c => h ⟨c.imp_right (·.2), hm⟩
    · exact .inr (Bool.eq_false_iff.mpr hm))

theorem writeTy_frame (s : State) (t : ITy) (d : VReg) (sel : LaneSet) (f : Nat → Int) :
    Frame { lanes := lanesOfTy t.wide d.val sel } s (s.writeTy t d sel f) := by
  unfold State.writeTy
  split
  · rename_i h; exact writePairs_frame s _ _ _ _ fun l _ hm => by simp [lanesOfTy, hm, h]
  · exact writeLanes_frame s _ _ _ _ fun l _ hm => by simp [lanesOfTy, hm]

@[simp] theorem writeTy_arm (s : State) (t : ITy) (d : VReg) (sel : LaneSet) (f : Nat → Int) : (s.writeTy t d sel f).arm = s.arm := by
  unfold State.writeTy; split <;> simp

theorem writeW_frame (s : State) (wide : Bool) (d : VReg) (sel : LaneSet) (f : Nat → Word) :
    Frame { lanes := lanesOfTy wide d.val sel } s (s.writeW wide d sel f) := by
  unfold State.writeW
  split
  · rename_i h; exact writePairs_frame s _ _ _ _ fun l _ hm => by simp [lanesOfTy, hm, h]
  · exact writeLanes_frame s _ _ _ _ fun l _ hm => by simp [lanesOfTy, hm]

@[simp] theorem writeW_arm (s : State) (wide : Bool) (d : VReg) (sel : LaneSet) (f : Nat → Word) : (s.writeW wide d sel f).arm = s.arm := by
  unfold State.writeW; split <;> simp

/-! ## Masks -/

theorem readM_writeM (s : State) (n : Nat) (x : Word) :
    (s.writeM n x).readM n = if n = 0 then s.active else x &&& lanesBelow s.grp.shape.width := by
  by_cases h : n = 0
  · simp [State.writeM, State.readM, h]
  · simp [State.writeM, State.readM, State.modGrp, h, Tbl.get_put]

theorem readM_writeM_ne (s : State) {k n : Nat} (x : Word) (h : k ≠ n) : (s.writeM n x).readM k = s.readM k := by
  by_cases h0 : n = 0
  · simp [State.writeM, h0]
  · obtain ⟨g, w, _⟩ := s
    cases w <;> simp [State.writeM, State.readM, State.modGrp, State.active, Group.activeOf, Group.arm, h0, Tbl.get_put_ne _ _ _ h]

theorem writeM_frame (s : State) (n : Nat) (x : Word) (c : Changes) (hn : n ∈ c.masks) : Frame c s (s.writeM n x) := by
  by_cases h0 : n = 0
  · simp only [State.writeM, h0, if_true]; exact Frame.refl c s
  · have hm := fun k hk => readM_writeM_ne s (k := k) (n := n) x hk
    obtain ⟨g, w, _⟩ := s
    cases w <;> simp only [State.writeM, h0, if_false, State.modGrp] at * <;>
      exact ⟨fun _ _ => rfl, fun _ _ _ _ => rfl, fun k hk => hm k fun e => hk (e ▸ hn), fun _ _ => rfl, fun _ => ⟨rfl, rfl⟩, fun _ => rfl, fun _ => ⟨rfl, rfl⟩, fun _ => ⟨rfl, rfl, rfl⟩,
        fun _ _ => rfl, fun _ _ => ⟨fun _ => .refl _, rfl⟩, fun _ _ _ _ => rfl, rfl, fun _ => rfl, fun _ => ⟨rfl, rfl, rfl, rfl, rfl, rfl, rfl, rfl, rfl⟩⟩

@[simp] theorem writeM_arm (s : State) (n : Nat) (x : Word) : (s.writeM n x).arm = s.arm := by
  obtain ⟨g, w, _⟩ := s
  by_cases h0 : n = 0
  · simp [State.writeM, h0]
  · cases w <;> simp [State.writeM, State.arm, State.modGrp, Group.arm, h0]

/-! ## The generator -/

theorem drawLanes_frame (c : Changes) (s : State) (m : RMode) : Frame c s (s.drawLanes m).2 := by
  unfold State.drawLanes
  split
  · exact ⟨fun _ _ => rfl, fun _ _ _ _ => rfl, fun _ _ => rfl, fun _ _ => rfl, fun _ => ⟨rfl, rfl⟩, fun _ => rfl, fun _ => ⟨rfl, rfl⟩, fun _ => ⟨rfl, rfl, rfl⟩, fun _ _ => rfl,
      fun _ _ => ⟨fun _ => .refl _, rfl⟩, fun _ _ _ _ => rfl, rfl, fun _ => rfl, fun _ => ⟨rfl, rfl, rfl, rfl, rfl, rfl, rfl, rfl, rfl⟩⟩
  · exact Frame.refl c s

@[simp] theorem drawLanes_arm (s : State) (m : RMode) : (s.drawLanes m).2.arm = s.arm := by
  unfold State.drawLanes
  split
  · simp only [State.modGrp, State.arm]; cases s.who <;> rfl
  · rfl

end Machine

/-! ## Results -/

/-- The next word's view of any result that keeps the executing arm: whatever the word's lines do, control goes on. -/
theorem word_done {c : Changes} {f : Info} {s t : State} (h : Runs f s) (x : Ctx) (hf : Frame c s t) (ha : t.arm = s.arm) :
    NextWord s (usedLines f x t).advance ∧ Frame c s (usedLines f x t).advance := by
  have hu : (usedLines f x t).arm = s.arm := by rw [usedLines_arm, ha]
  have hp : (usedLines f x t).arm.park = none := by rw [hu, h.unparked]
  have hb : (usedLines f x t).arm.back = none := by rw [hu, h.fresh]
  refine ⟨?_, (hf.trans (.usedLines c f x t)).trans (Frame.advance c hp hb)⟩
  have := advance_next hp hb
  simpa [NextWord, ha] using this

/-- What the next word reads is what the body left. -/
theorem word_reads {f : Info} {s t : State} (h : Runs f s) (x : Ctx) (ha : t.arm = s.arm) :
    Frame {} t (usedLines f x t).advance :=
  have hu : (usedLines f x t).arm = s.arm := by rw [usedLines_arm, ha]
  (Frame.usedLines {} f x t).trans (Frame.advance {} (by rw [hu, h.unparked]) (by rw [hu, h.fresh]))

/-- A word whose body writes one scalar. -/
theorem WritesScalar.of {i : Instr} {f : Info} {body : Body} {s s' : State} {d : SReg} {r : Word} (h : Runs f s)
    (he : exec i s = wordOp f body s) (hc : Cached s s') (hb : body (allLanes f.g s) s = .ok (.next (s'.writeS d.val r))) :
    WritesScalar i s d r := by
  have ha : (s'.writeS d.val r).arm = s.arm := by rw [writeS_arm, hc.arm]
  refine ⟨_, he.trans (wordOp_next h hb), ?_,
    word_done h _ ((hc.frame { scalars := [d.val] }).trans (writeS_frame s' d.val r _ (by simp))) ha⟩
  rw [(word_reads h _ ha).scalars d.val (by simp), readS_writeS]

/-- A word whose body writes lanes of one vector register. -/
theorem WritesLanes.of {i : Instr} {f : Info} {body : Body} {s s' : State} {d : VReg} {sel : LaneSet} {v : Nat → Lane}
    {r : Nat → Word} (h : Runs f s) (he : exec i s = wordOp f body s) (hc : Frame {} s s') (ha : s'.arm = s.arm)
    (hb : body (allLanes f.g s) s = .ok (.next (s'.writeLanes d.val sel v)))
    (hr : ∀ l, l < 64 → sel.getLsbD l = true → v l = (r l).setWidth 32) : WritesLanes i s false d sel r := by
  have ha : (s'.writeLanes d.val sel v).arm = s.arm := by rw [writeLanes_arm, ha]
  refine ⟨_, he.trans (wordOp_next h hb), fun l hl hm => ?_, word_done h _
    ((hc.any _).trans (writeLanes_frame s' d.val sel v { lanes := lanesOfTy false d.val sel } fun l _ hm => by simp [lanesOfTy, hm])) ha⟩
  simp only [Bool.false_eq_true, if_false]
  rw [(word_reads h _ ha).lanes _ _ hl rfl, readV_writeLanes _ _ _ _ _ _ hl, if_pos ⟨rfl, hm⟩, hr l hl hm]

/-- A word whose body writes lanes of a pair. -/
theorem WritesLanes.ofPairs {i : Instr} {f : Info} {body : Body} {s s' : State} {d : VReg} {sel : LaneSet} {v : Nat → Word}
    (h : Runs f s) (he : exec i s = wordOp f body s) (hc : Frame {} s s') (ha : s'.arm = s.arm)
    (hb : body (allLanes f.g s) s = .ok (.next (s'.writePairs d.val sel v))) : WritesLanes i s true d sel v := by
  have ha : (s'.writePairs d.val sel v).arm = s.arm := by rw [writePairs_arm, ha]
  refine ⟨_, he.trans (wordOp_next h hb), fun l hl hm => ?_, word_done h _
    ((hc.any _).trans (writePairs_frame s' d.val sel v { lanes := lanesOfTy true d.val sel } fun l _ hm => by simp [lanesOfTy, hm])) ha⟩
  simp only [if_true, State.readPair]
  rw [(word_reads h _ ha).lanes _ _ hl rfl, (word_reads h _ ha).lanes _ _ hl rfl]
  exact readPair_writePairs s' d.val sel v l hl hm

/-- A word whose body writes a mask. -/
theorem WritesMask.of {i : Instr} {f : Info} {body : Body} {s : State} {d : MReg} {x : LaneSet} (h : Runs f s)
    (he : exec i s = wordOp f body s) (hb : body (allLanes f.g s) s = .ok (.next (s.writeM d.val x))) : WritesMask i s d x := by
  have ha : (s.writeM d.val x).arm = s.arm := writeM_arm ..
  refine ⟨_, he.trans (wordOp_next h hb), ?_,
    word_done h _ (writeM_frame s d.val x { masks := [d.val] } (by simp)) ha⟩
  rw [(word_reads h _ ha).masks d.val (by simp), readM_writeM]

end Sys2Proof
end

