-- ==== Sys2Proof/Laws/Lanes.lean ====
section
/-! SUPPORT. What the words that act lane by lane read and write: sources through a constant window, results under a
type. -/

namespace Sys2Proof

open Machine

namespace Machine

theorem readB_cached {s : State} {c : Ctx} {t : ITy} {x : VB} {r : (Nat → Nat) × State} (h : readB s c t x = .ok r) :
    Cached s r.2 := by
  unfold readB at h
  cases hx : x.read s c with
  | error e => rw [hx] at h; exact nomatch h
  | ok q => rw [hx] at h; simp only [bind, Except.bind] at h; cases h; split <;> exact vb_cached hx

theorem readFB_cached {s : State} {c : Ctx} {t : FTy} {x : VB} {r : (Nat → Nat) × State} (h : readFB s c t x = .ok r) :
    Cached s r.2 := by
  cases x with
  | src y => cases h; exact Cached.refl s
  | cw w o =>
    simp only [readFB] at h
    cases hc : s.cwRead c w.val o.toNat with
    | error e => rw [hc] at h; exact nomatch h
    | ok q => rw [hc] at h; cases h; exact cwRead_cached hc

end Machine

theorem Cached.laneOf {s t : State} (h : Cached s t) (y : ITy) (x : VSrc) (l : Nat) :
    Machine.laneOf t y x l = Machine.laneOf s y x l := by
  simp only [Machine.laneOf, h.lane32, h.lane64]

theorem Cached.codeOf {s t : State} (h : Cached s t) (y : FTy) (x : VSrc) (l : Nat) :
    Machine.codeOf t y x l = Machine.codeOf s y x l := by
  unfold Machine.codeOf; cases x <;> simp only [h.lane32]

theorem Cached.drawLanes {s t : State} (h : Cached s t) (m : RMode) : (t.drawLanes m).1 = (s.drawLanes m).1 := by
  simp only [State.drawLanes, h.grp]; split <;> rfl

/-- A 32-bit lane is the low half of the 64-bit result. -/
theorem ofInt_setWidth (v : Int) : BitVec.ofInt 32 v = (wordOf v).setWidth 32 := by
  apply BitVec.eq_of_toNat_eq
  simp only [wordOf, BitVec.toNat_ofInt, BitVec.toNat_setWidth]
  omega

/-- A word whose body writes lanes under an integer type. -/
theorem WritesLanes.ofTy {i : Instr} {f : Info} {body : Body} {s s' : State} {t : ITy} {d : VReg} {sel : LaneSet}
    {v : Nat → Int} (h : Runs f s) (he : exec i s = wordOp f body s) (hc : Cached s s')
    (hb : body (allLanes f.g s) s = .ok (.next (s'.writeTy t d sel v))) :
    WritesLanes i s t.wide d sel fun l => wordOf (v l) := by
  unfold State.writeTy at hb
  cases hw : t.wide with
  | true => exact .ofPairs h he (hc.frame _) hc.arm (by rw [hb, hw]; rfl)
  | false => exact .of h he (hc.frame _) hc.arm (by rw [hb, hw]; rfl) fun l _ _ => ofInt_setWidth _

/-- A word whose body writes lanes with or without a pair. -/
theorem WritesLanes.ofW {i : Instr} {f : Info} {body : Body} {s s' : State} {wide : Bool} {d : VReg} {sel : LaneSet}
    {v : Nat → Word} (h : Runs f s) (he : exec i s = wordOp f body s) (hc : Frame {} s s') (ha : s'.arm = s.arm)
    (hb : body (allLanes f.g s) s = .ok (.next (s'.writeW wide d sel v))) : WritesLanes i s wide d sel v := by
  unfold State.writeW at hb
  cases wide with
  | true => exact .ofPairs h he hc ha hb
  | false => exact .of h he hc ha hb fun _ _ _ => rfl

/-- A word whose body writes codes. -/
theorem WritesLanes.ofF {i : Instr} {f : Info} {body : Body} {s s' : State} {d : VReg} {sel : LaneSet} {v : Nat → Nat}
    (h : Runs f s) (he : exec i s = wordOp f body s) (hc : Frame {} s s') (ha : s'.arm = s.arm)
    (hb : body (allLanes f.g s) s = .ok (.next (s'.writeF d sel v))) :
    WritesLanes i s false d sel fun l => BitVec.ofNat 64 (v l) :=
  .of h he hc ha hb fun l _ _ => by
    apply BitVec.eq_of_toNat_eq
    simp only [BitVec.toNat_ofNat, BitVec.toNat_setWidth]
    omega

end Sys2Proof
end

