-- ==== Sys2Proof/Laws/PerInstr.lean ====
section
/-! SUPPORT. Facts about instructions as syntax, one lemma for each constructor. Family RoundTrip: the word of a
well-formed instruction decodes to it. -/

namespace Sys2Proof.Laws.RoundTrip

-- One proof at a time: the proofs share the equations of `encode` and `unpack`.
set_option Elab.async false

/-- The instruction has a word, and its word decodes to it; the steps that are not words claim nothing. -/
def Statement (i : Instr) : Prop := i.isWord = true → i.wf = true → ∃ w, encode i = some w ∧ decode w = .ok i

/-! ## From a word's fields to its decoding -/

theorem decode_of_unpack {n : Nat} {i : Instr} (hn : n < 2 ^ 64) (h : unpack n = .ok i) (hw : i.wf = true) :
    decode (BitVec.ofNat 64 n) = .ok i := by
  have e : (BitVec.ofNat 64 n).toNat = n := by rw [BitVec.toNat_ofNat, Nat.mod_eq_of_lt hn]
  simp only [decode, e, h, bind, Except.bind, hw, if_true]

/-- The top fields a word shows. -/
abbrev Top (w op : Nat) (g : Guard) (x : Bool) : Prop := TopW.parse w = ⟨op, g.m.val, g.neg, x⟩

theorem ofV {i : Instr} {op : Nat} {g : Guard} {x : Bool} {v : VW} (hw : i.wf = true) (ho : op < 256) (hv : v.fits)
    (he : encode i = some (BitVec.ofNat 64 (encV op g x v))) (hu : ∀ w, Top w op g x → VW.parse w = v → unpack w = .ok i) :
    ∃ w, encode i = some w ∧ decode w = .ok i := by
  refine ⟨_, he, ?_⟩
  rw [encV]
  exact decode_of_unpack (encTop_lt ho g x (VW.pack_lt hv)) (hu _ (top_parse ho g x (VW.pack_lt hv)) (VW.parse_pack op g x hv)) hw

theorem ofM {i : Instr} {op : Nat} {g : Guard} {x : Bool} {v : MW} (hw : i.wf = true) (ho : op < 256) (hv : v.fits)
    (he : encode i = some (BitVec.ofNat 64 (encM op g x v))) (hu : ∀ w, Top w op g x → MW.parse w = v → unpack w = .ok i) :
    ∃ w, encode i = some w ∧ decode w = .ok i := by
  refine ⟨_, he, ?_⟩
  rw [encM]
  exact decode_of_unpack (encTop_lt ho g x (MW.pack_lt hv)) (hu _ (top_parse ho g x (MW.pack_lt hv)) (MW.parse_pack op g x hv)) hw

theorem ofB {i : Instr} {op : Nat} {g : Guard} {v : BW} (hw : i.wf = true) (ho : op < 256) (hv : v.fits)
    (he : encode i = some (BitVec.ofNat 64 (encB op g v))) (hu : ∀ w, Top w op g false → BW.parse w = v → unpack w = .ok i) :
    ∃ w, encode i = some w ∧ decode w = .ok i := by
  refine ⟨_, he, ?_⟩
  rw [encB]
  exact decode_of_unpack (encTop_lt ho g false (BW.pack_lt hv)) (hu _ (top_parse ho g false (BW.pack_lt hv)) (BW.parse_pack op g false hv)) hw

theorem ofI {i : Instr} {op : Nat} {g : Guard} {v : IW} (hw : i.wf = true) (ho : op < 256) (hv : v.fits)
    (he : encode i = some (BitVec.ofNat 64 (encI op g v))) (hu : ∀ w, Top w op g false → IW.parse w = v → unpack w = .ok i) :
    ∃ w, encode i = some w ∧ decode w = .ok i := by
  refine ⟨_, he, ?_⟩
  rw [encI]
  exact decode_of_unpack (encTop_lt ho g false (IW.pack_lt hv)) (hu _ (top_parse ho g false (IW.pack_lt hv)) (IW.parse_pack op g false hv)) hw

theorem ofVc {i : Instr} {op : Nat} {g : Guard} {v : VcW} (hw : i.wf = true) (ho : op < 256) (hv : v.fits)
    (he : encode i = some (BitVec.ofNat 64 (encTop op g true + v.pack)))
    (hu : ∀ w, Top w op g true → VcW.parse w = v → unpack w = .ok i) : ∃ w, encode i = some w ∧ decode w = .ok i := by
  refine ⟨_, he, ?_⟩
  exact decode_of_unpack (encTop_lt ho g true (VcW.pack_lt hv)) (hu _ (top_parse ho g true (VcW.pack_lt hv)) (VcW.parse_pack op g true hv)) hw

theorem ty_split {v t : Nat} (h : t < 8) : (8 * v + t) / 8 = v ∧ (8 * v + t) % 8 = t := by omega

/-! ## Class A words, in both forms -/

/-- A class A scalar word: from its fields to `decSA`. -/
theorem ofSA {i : Instr} {op : Nat} {g : Guard} {d a c sub fsl mod : Nat} {b : SB} (hw : i.wf = true) (ho : op < 256)
    (hd : d < 512) (ha : a < 512) (hc : c < 512) (hs : sub < 64) (hf : fsl < 16) (hm : mod < 16)
    (hcw : b.isCw = true → sub = 0 ∧ fsl = 0 ∧ mod < 8)
    (he : encode i = some (BitVec.ofNat 64 (encSA op g d a b c sub fsl mod)))
    (hu : ∀ w, Top w op g b.isCw → decSA w b.isCw = .ok ⟨d, a, b, c, sub, fsl, mod⟩ → (b.isCw = false → (VW.parse w).sub = sub) →
      unpack w = .ok i) : ∃ w, encode i = some w ∧ decode w = .ok i := by
  cases b with
  | src y =>
    refine ofV hw ho ⟨hd, ha, y.code_lt, hc, hs, hf, hm⟩ he fun w ht hp => hu w ht ?_ fun _ => by rw [hp]
    simp [decSA, SB.isCw, hp, opnd, bind, Except.bind]
  | cw n o =>
    obtain ⟨rfl, rfl, hm'⟩ := hcw rfl
    refine ofVc hw ho ⟨hd, ha, hc, n.isLt, o.isLt, hm'⟩ he fun w ht hp => hu w ht ?_ fun h => nomatch h
    simp [decSA, SB.isCw, hp]

/-- A class A vector word: from its fields to `decVA`. -/
theorem ofVA {i : Instr} {op : Nat} {g : Guard} {d a c sub fsl mod : Nat} {b : VB} (hw : i.wf = true) (ho : op < 256)
    (hd : d < 512) (ha : a < 512) (hc : c < 512) (hs : sub < 64) (hf : fsl < 16) (hm : mod < 16)
    (hcw : b.isCw = true → sub = 0 ∧ fsl = 0 ∧ mod < 8)
    (he : encode i = some (BitVec.ofNat 64 (encVA op g d a b c sub fsl mod)))
    (hu : ∀ w, Top w op g b.isCw → decVA w b.isCw = .ok ⟨d, a, b, c, sub, fsl, mod⟩ → (b.isCw = false → (VW.parse w).sub = sub) →
      unpack w = .ok i) : ∃ w, encode i = some w ∧ decode w = .ok i := by
  cases b with
  | src y =>
    refine ofV hw ho ⟨hd, ha, y.code_lt, hc, hs, hf, hm⟩ he fun w ht hp => hu w ht ?_ fun _ => by rw [hp]
    simp [decVA, VB.isCw, hp, opnd, bind, Except.bind]
  | cw n o =>
    obtain ⟨rfl, rfl, hm'⟩ := hcw rfl
    refine ofVc hw ho ⟨hd, ha, hc, n.isLt, o.isLt, hm'⟩ he fun w ht hp => hu w ht ?_ fun h => nomatch h
    simp [decVA, VB.isCw, hp]

/-- A variant field below 8 and a type code make a SUB field. -/
theorem sub_lt {v t : Nat} (hv : v < 8) (ht : t < 8) : 8 * v + t < 64 := by omega

theorem ofSOp1 {i : Instr} {op var : Nat} {x : SOp1} (hw : i.wf = true) (ho : op < 256) (hv : var < 8)
    (he : encode i = some (BitVec.ofNat 64 (encSOp1 op var x)))
    (hu : ∀ w, Top w op x.g false → decSOp1 x.g w false = .ok (var, x) → (VW.parse w).sub / 8 = var → unpack w = .ok i) :
    ∃ w, encode i = some w ∧ decode w = .ok i := by
  have t := ty_split (v := var) x.ty.codeS_lt
  refine ofV hw ho ⟨x.d.code_lt, x.a.code_lt, Nat.zero_lt_succ _, Nat.zero_lt_succ _, sub_lt hv x.ty.codeS_lt, Nat.zero_lt_succ _,
    Nat.zero_lt_succ _⟩ he fun w ht hp => hu w ht ?_ (by rw [hp]; exact t.1)
  simp [decSOp1, hp, opnd, need, bind, Except.bind, t]

theorem ofVOp1 {i : Instr} {op var : Nat} {x : VOp1} (hw : i.wf = true) (ho : op < 256) (hv : var < 8)
    (he : encode i = some (BitVec.ofNat 64 (encVOp1 op var x)))
    (hu : ∀ w, Top w op x.g false → decVOp1 x.g w false = .ok (var, x) → (VW.parse w).sub / 8 = var → unpack w = .ok i) :
    ∃ w, encode i = some w ∧ decode w = .ok i := by
  have t := ty_split (v := var) x.ty.codeV_lt
  refine ofV hw ho ⟨x.d.code_lt, x.a.code_lt, Nat.zero_lt_succ _, Nat.zero_lt_succ _, sub_lt hv x.ty.codeV_lt, Nat.zero_lt_succ _,
    Nat.zero_lt_succ _⟩ he fun w ht hp => hu w ht ?_ (by rw [hp]; exact t.1)
  simp [decVOp1, hp, opnd, need, bind, Except.bind, t]

theorem ofFOp1 {i : Instr} {op : Nat} {x : FOp1} (hw : i.wf = true) (ho : op < 256)
    (he : encode i = some (BitVec.ofNat 64 (encFOp1 op x)))
    (hu : ∀ w, Top w op x.g false → decFOp1 x.g w false = .ok x → unpack w = .ok i) :
    ∃ w, encode i = some w ∧ decode w = .ok i := by
  refine ofV hw ho ⟨x.d.code_lt, x.a.code_lt, Nat.zero_lt_succ _, Nat.zero_lt_succ _, Nat.lt_trans x.ty.code_lt (by decide),
    Nat.zero_lt_succ _, Nat.zero_lt_succ _⟩ he fun w ht hp => hu w ht ?_
  simp [decFOp1, hp, opnd, field, need, bind, Except.bind]

/-- The forms with a constant word have variant 0 and the type coded 0. -/
theorem ofSOp2 {i : Instr} {op var : Nat} {x : SOp2} (hw : i.wf = true) (ho : op < 256) (hv : var < 8)
    (hcw : x.b.isCw = true → var = 0 ∧ x.ty = .i64) (he : encode i = some (BitVec.ofNat 64 (encSOp2 op var x)))
    (hu : ∀ w, Top w op x.g x.b.isCw → decSOp2 x.g w x.b.isCw = .ok (var, x) → (x.b.isCw = false → (VW.parse w).sub / 8 = var) →
      unpack w = .ok i) : ∃ w, encode i = some w ∧ decode w = .ok i := by
  have t := ty_split (v := var) x.ty.codeS_lt
  refine ofSA hw ho x.d.code_lt x.a.code_lt (Nat.zero_lt_succ _) (sub_lt hv x.ty.codeS_lt) (Nat.zero_lt_succ _) (Nat.zero_lt_succ _)
    (fun h => by obtain ⟨rfl, h'⟩ := hcw h; rw [h']; exact ⟨rfl, rfl, by decide⟩) he
    fun w ht hp hs => hu w ht ?_ (fun h => by rw [hs h]; exact t.1)
  simp [decSOp2, hp, opnd, need, bind, Except.bind, t]

theorem ofSOp3 {i : Instr} {op var : Nat} {x : SOp3} (hw : i.wf = true) (ho : op < 256) (hv : var < 8)
    (hcw : x.b.isCw = true → var = 0 ∧ x.ty = .i64) (he : encode i = some (BitVec.ofNat 64 (encSOp3 op var x)))
    (hu : ∀ w, Top w op x.g x.b.isCw → decSOp3 x.g w x.b.isCw = .ok (var, x) → unpack w = .ok i) :
    ∃ w, encode i = some w ∧ decode w = .ok i := by
  have t := ty_split (v := var) x.ty.codeS_lt
  refine ofSA hw ho x.d.code_lt x.a.code_lt x.c.code_lt (sub_lt hv x.ty.codeS_lt) (Nat.zero_lt_succ _) (Nat.zero_lt_succ _)
    (fun h => by obtain ⟨rfl, h'⟩ := hcw h; rw [h']; exact ⟨rfl, rfl, by decide⟩) he fun w ht hp _ => hu w ht ?_
  simp [decSOp3, hp, opnd, need, bind, Except.bind, t]

theorem ofVOp2 {i : Instr} {op var : Nat} {x : VOp2} (hw : i.wf = true) (ho : op < 256) (hv : var < 8)
    (hcw : x.b.isCw = true → var = 0 ∧ x.ty = .i32) (he : encode i = some (BitVec.ofNat 64 (encVOp2 op var x)))
    (hu : ∀ w, Top w op x.g x.b.isCw → decVOp2 x.g w x.b.isCw = .ok (var, x) → (x.b.isCw = false → (VW.parse w).sub / 8 = var) →
      unpack w = .ok i) : ∃ w, encode i = some w ∧ decode w = .ok i := by
  have t := ty_split (v := var) x.ty.codeV_lt
  refine ofVA hw ho x.d.code_lt x.a.code_lt (Nat.zero_lt_succ _) (sub_lt hv x.ty.codeV_lt) (Nat.zero_lt_succ _) (Nat.zero_lt_succ _)
    (fun h => by obtain ⟨rfl, h'⟩ := hcw h; rw [h']; exact ⟨rfl, rfl, by decide⟩) he
    fun w ht hp hs => hu w ht ?_ (fun h => by rw [hs h]; exact t.1)
  simp [decVOp2, hp, opnd, need, bind, Except.bind, t]

theorem ofVOp3 {i : Instr} {op var : Nat} {x : VOp3} (hw : i.wf = true) (ho : op < 256) (hv : var < 8)
    (hcw : x.b.isCw = true → var = 0 ∧ x.ty = .i32) (he : encode i = some (BitVec.ofNat 64 (encVOp3 op var x)))
    (hu : ∀ w, Top w op x.g x.b.isCw → decVOp3 x.g w x.b.isCw = .ok (var, x) → unpack w = .ok i) :
    ∃ w, encode i = some w ∧ decode w = .ok i := by
  have t := ty_split (v := var) x.ty.codeV_lt
  refine ofVA hw ho x.d.code_lt x.a.code_lt x.c.code_lt (sub_lt hv x.ty.codeV_lt) (Nat.zero_lt_succ _) (Nat.zero_lt_succ _)
    (fun h => by obtain ⟨rfl, h'⟩ := hcw h; rw [h']; exact ⟨rfl, rfl, by decide⟩) he fun w ht hp _ => hu w ht ?_
  simp [decVOp3, hp, opnd, need, bind, Except.bind, t]

theorem rnd_lt_of_sat {r : Rnd} (h : r.sat = false) : r.code < 8 := by obtain ⟨m, s⟩ := r; cases m <;> cases s <;> simp_all [Rnd.code, RMode.code]

theorem ofFOp2 {i : Instr} {op : Nat} {x : FOp2} {r : Rnd} (hw : i.wf = true) (ho : op < 256) (hf : x.wf r = true)
    (he : encode i = some (BitVec.ofNat 64 (encFOp2 op x r)))
    (hu : ∀ w, Top w op x.g x.b.isCw → decFOp2 x.g w x.b.isCw = .ok (x, r) → unpack w = .ok i) :
    ∃ w, encode i = some w ∧ decode w = .ok i := by
  refine ofVA hw ho x.d.code_lt x.a.code_lt (Nat.zero_lt_succ _) (Nat.lt_trans x.ty.code_lt (by decide)) (Nat.zero_lt_succ _) r.code_lt
    (fun h => ?_) he fun w ht hp _ => hu w ht ?_
  · simp [FOp2.wf, h] at hf; exact ⟨by rw [hf.1]; rfl, rfl, rnd_lt_of_sat hf.2⟩
  · simp [decFOp2, hp, opnd, field, need, bind, Except.bind]

theorem ofFOp3 {i : Instr} {op : Nat} {x : FOp3} {r : Rnd} (hw : i.wf = true) (ho : op < 256) (hf : x.wf r = true)
    (he : encode i = some (BitVec.ofNat 64 (encFOp3 op x r)))
    (hu : ∀ w, Top w op x.g x.b.isCw → decFOp3 x.g w x.b.isCw = .ok (x, r) → unpack w = .ok i) :
    ∃ w, encode i = some w ∧ decode w = .ok i := by
  refine ofVA hw ho x.d.code_lt x.a.code_lt x.c.code_lt (Nat.lt_trans x.ty.code_lt (by decide)) (Nat.zero_lt_succ _) r.code_lt
    (fun h => ?_) he fun w ht hp _ => hu w ht ?_
  · simp [FOp3.wf, h] at hf; exact ⟨by rw [hf.1]; rfl, rfl, rnd_lt_of_sat hf.2⟩
  · simp [decFOp3, hp, opnd, field, need, bind, Except.bind]


theorem ty_split4 {v t : Nat} (h : t < 4) : (4 * v + t) / 4 = v ∧ (4 * v + t) % 4 = t := by omega
theorem sub_lt4 {v t : Nat} (hv : v < 8) (ht : t < 4) : 4 * v + t < 64 := by omega
theorem acc_lt (z : Sys2Proof.Acc) : 8 * z.val < 64 := by have := z.isLt; omega
theorem maskPair_lt (mt mf : MReg) : maskPair mt mf < 512 := by have := mt.isLt; have := mf.isLt; simp only [maskPair]; omega
theorem maskPair_dec (mt mf : MReg) : decMaskPair (maskPair mt mf) = .ok (mt, mf) := by
  have h1 := mt.isLt; have h2 := mf.isLt
  have e1 : maskPair mt mf % 2 = 0 := by simp only [maskPair]; omega
  have e2 : Fin.ofNat 16 (maskPair mt mf / 32) = mt := Fin.ext (by simp only [maskPair, Fin.ofNat]; omega)
  have e3 : Fin.ofNat 16 (maskPair mt mf / 2) = mf := Fin.ext (by simp only [maskPair, Fin.ofNat]; omega)
  unfold decMaskPair
  rw [e2, e3]
  simp [e1, need, bind, Except.bind]
theorem flags_lt (a b c : Bool) : 8 * b2n a + 2 * b2n b + b2n c < 16 := by cases a <;> cases b <;> cases c <;> decide
theorem flags_bits (a b c : Bool) : bit (8 * b2n a + 2 * b2n b + b2n c) 2 = false ∧ bit (8 * b2n a + 2 * b2n b + b2n c) 3 = a ∧
    bit (8 * b2n a + 2 * b2n b + b2n c) 1 = b ∧ bit (8 * b2n a + 2 * b2n b + b2n c) 0 = c := by
  cases a <;> cases b <;> cases c <;> decide
theorem sl_bits (sl : Bool) {n : Nat} (h : n < 8) : 8 * b2n sl + n < 16 ∧ (8 * b2n sl + n) % 8 = n ∧ bit (8 * b2n sl + n) 3 = sl := by
  cases sl <;> simp only [b2n, bit] <;> refine ⟨by simp only [Bool.false_eq_true, if_true, if_false]; omega, by simp only [Bool.false_eq_true, if_true, if_false]; omega, ?_⟩ <;>
    simp only [Bool.false_eq_true, if_true, if_false, beq_eq_false_iff_ne, beq_iff_eq] <;> omega
theorem slalloc_lt (p : Bool) (k : SlKind) : 4 * b2n p + k.code < 64 := by cases p <;> cases k <;> decide
theorem slalloc_bits (p : Bool) (k : SlKind) : 4 * b2n p + k.code < 8 ∧ bit (4 * b2n p + k.code) 2 = p ∧
    SlKind.ofCode (k.code % 4) = some k := by cases p <;> cases k <;> decide
theorem slqry_lt (k : Fin 4) (c : Bool) : 4 * b2n c + k.val < 64 := by revert k; cases c <;> decide
theorem slqry_bits (k : Fin 4) (c : Bool) : 4 * b2n c + k.val < 8 ∧ bit (4 * b2n c + k.val) 2 = c ∧
    Fin.ofNat 4 (4 * b2n c + k.val) = k := by revert k; cases c <;> decide
theorem crib_bits (k : Fin 5) (c : Bool) : 8 * b2n c + k.val < 16 ∧ bit (8 * b2n c + k.val) 3 = c ∧ (8 * b2n c + k.val) % 8 < 5 ∧
    (8 * b2n c + k.val) % 8 = k.val := by revert k; cases c <;> decide

/-! ## The constructors -/

theorem nop : Statement .nop := fun _ _ => ⟨0, rfl, rfl⟩
theorem bra (x : BraOp) : Statement (.bra x) := fun _ hw => by
  obtain ⟨g, cond, off⟩ := x
  cases cond with
  | none =>
    exact ofB hw (by decide) ⟨Nat.zero_lt_succ _, Nat.zero_lt_succ _, Nat.zero_lt_succ _, Nat.zero_lt_succ _, off.isLt⟩ rfl
      fun w ht hp => by simp [unpack, ht, opcodeN, decControl, decBra, hp, need, bind, Except.bind]
  | some y =>
    obtain ⟨c, s⟩ := y
    have hc : c.code ≠ 0 := by cases c <;> decide
    exact ofB hw (by decide) ⟨c.code_lt, Nat.zero_lt_succ _, s.code_lt, Nat.zero_lt_succ _, off.isLt⟩ rfl
      fun w ht hp => by simp [unpack, ht, opcodeN, decControl, decBra, hp, need, opnd, field, hc, bind, Except.bind]
theorem call (x : BraOp) : Statement (.call x) := fun _ hw => by
  obtain ⟨g, cond, off⟩ := x
  cases cond with
  | none =>
    exact ofB hw (by decide) ⟨Nat.zero_lt_succ _, Nat.zero_lt_succ _, Nat.zero_lt_succ _, Nat.zero_lt_succ _, off.isLt⟩ rfl
      fun w ht hp => by simp [unpack, ht, opcodeN, decControl, decBra, hp, need, bind, Except.bind]
  | some y =>
    obtain ⟨c, s⟩ := y
    have hc : c.code ≠ 0 := by cases c <;> decide
    exact ofB hw (by decide) ⟨c.code_lt, Nat.zero_lt_succ _, s.code_lt, Nat.zero_lt_succ _, off.isLt⟩ rfl
      fun w ht hp => by simp [unpack, ht, opcodeN, decControl, decBra, hp, need, opnd, field, hc, bind, Except.bind]
theorem bmask (g : Guard) (cond : Option (MCond × MReg)) (off : BitVec 32) : Statement (.bmask g cond off) := fun _ hw => by
  cases cond with
  | none =>
    exact ofB hw (by decide) ⟨Nat.zero_lt_succ _, Nat.zero_lt_succ _, Nat.zero_lt_succ _, Nat.zero_lt_succ _, off.isLt⟩ rfl
      fun w ht hp => by simp [unpack, ht, opcodeN, decControl, hp, need, bind, Except.bind]
  | some y =>
    obtain ⟨c, m⟩ := y
    have hc : c.code ≠ 0 := by cases c <;> decide
    exact ofB hw (by decide) ⟨c.code_lt, m.isLt, Nat.zero_lt_succ _, Nat.zero_lt_succ _, off.isLt⟩ rfl
      fun w ht hp => by simp [unpack, ht, opcodeN, decControl, hp, need, field, hc, bind, Except.bind]
theorem btab (g : Guard) (i : VSrc) (t n : SSrc) : Statement (.btab g i t n) := fun _ hw =>
  ofV hw (by decide) ⟨VSrc.code_lt _, SSrc.code_lt _, SSrc.code_lt _, Nat.zero_lt_succ _, Nat.zero_lt_succ _, Nat.zero_lt_succ _, Nat.zero_lt_succ _⟩ rfl
    fun w ht hp => by simp [unpack, ht, opcodeN, decControl, hp, opnd, need, bind, Except.bind]
theorem ret (g : Guard) : Statement (.ret g) := fun _ hw =>
  ofV hw (by decide) ⟨Nat.zero_lt_succ _, Nat.zero_lt_succ _, Nat.zero_lt_succ _, Nat.zero_lt_succ _, Nat.zero_lt_succ _, Nat.zero_lt_succ _, Nat.zero_lt_succ _⟩ rfl
    fun w ht hp => by simp [unpack, ht, opcodeN, decControl, hp, need, decPlain, bind, Except.bind]
theorem join (g : Guard) : Statement (.join g) := fun _ hw =>
  ofV hw (by decide) ⟨Nat.zero_lt_succ _, Nat.zero_lt_succ _, Nat.zero_lt_succ _, Nat.zero_lt_succ _, Nat.zero_lt_succ _, Nat.zero_lt_succ _, Nat.zero_lt_succ _⟩ rfl
    fun w ht hp => by simp [unpack, ht, opcodeN, decControl, hp, need, decPlain, bind, Except.bind]
theorem exit (g : Guard) : Statement (.exit g) := fun _ hw =>
  ofV hw (by decide) ⟨Nat.zero_lt_succ _, Nat.zero_lt_succ _, Nat.zero_lt_succ _, Nat.zero_lt_succ _, Nat.zero_lt_succ _, Nat.zero_lt_succ _, Nat.zero_lt_succ _⟩ rfl
    fun w ht hp => by simp [unpack, ht, opcodeN, decControl, hp, need, decPlain, bind, Except.bind]
theorem rft (g : Guard) : Statement (.rft g) := fun _ hw =>
  ofV hw (by decide) ⟨Nat.zero_lt_succ _, Nat.zero_lt_succ _, Nat.zero_lt_succ _, Nat.zero_lt_succ _, Nat.zero_lt_succ _, Nat.zero_lt_succ _, Nat.zero_lt_succ _⟩ rfl
    fun w ht hp => by simp [unpack, ht, opcodeN, decControl, hp, need, decPlain, bind, Except.bind]
theorem fork (g : Guard) (shared : Bool) (m : MReg) (off : BitVec 32) : Statement (.fork g shared m off) := fun _ hw =>
  ofB hw (by decide) ⟨Nat.zero_lt_succ _, m.isLt, Nat.zero_lt_succ _, b2n_lt _, off.isLt⟩ rfl
    fun w ht hp => by cases shared <;> simp [unpack, ht, opcodeN, decControl, hp, need, b2n, bind, Except.bind]
theorem yield (g : Guard) (n : SSrc) : Statement (.yield g n) := fun _ hw =>
  ofV hw (by decide) ⟨SSrc.code_lt _, Nat.zero_lt_succ _, Nat.zero_lt_succ _, Nat.zero_lt_succ _, Nat.zero_lt_succ _, Nat.zero_lt_succ _, Nat.zero_lt_succ _⟩ rfl
    fun w ht hp => by simp [unpack, ht, opcodeN, decControl, hp, opnd, need, bind, Except.bind]
theorem trap (g : Guard) (a : SSrc) : Statement (.trap g a) := fun _ hw =>
  ofV hw (by decide) ⟨SSrc.code_lt _, Nat.zero_lt_succ _, Nat.zero_lt_succ _, Nat.zero_lt_succ _, Nat.zero_lt_succ _, Nat.zero_lt_succ _, Nat.zero_lt_succ _⟩ rfl
    fun w ht hp => by simp [unpack, ht, opcodeN, decControl, hp, opnd, need, bind, Except.bind]
theorem waitt (g : Guard) (t : SSrc) (f : Flag) : Statement (.waitt g t f) := fun _ hw =>
  ofV hw (by decide) ⟨SSrc.code_lt _, Nat.zero_lt_succ _, Nat.zero_lt_succ _, Nat.zero_lt_succ _, Nat.zero_lt_succ _, Nat.lt_trans f.isLt (by decide), Nat.zero_lt_succ _⟩ rfl
    fun w ht hp => by simp [unpack, ht, opcodeN, decControl, hp, opnd, need, bind, Except.bind]
theorem sadd (sat : Bool) (x : SOp2) : Statement (.sadd sat x) := fun _ hw =>
  ofSOp2 hw (by decide) (Nat.lt_trans (b2n_lt _) (by decide)) (fun h => by simp [Instr.wf, SOp2.wf, h] at hw; simp [hw, b2n]) rfl fun w ht hp _ => by
    simp [unpack, ht, opcodeN, decScalar, hp, var01, field, bind, Except.bind]
theorem ssub (sat : Bool) (x : SOp2) : Statement (.ssub sat x) := fun _ hw =>
  ofSOp2 hw (by decide) (Nat.lt_trans (b2n_lt _) (by decide)) (fun h => by simp [Instr.wf, SOp2.wf, h] at hw; simp [hw, b2n]) rfl fun w ht hp _ => by
    simp [unpack, ht, opcodeN, decScalar, hp, var01, field, bind, Except.bind]
theorem smul (sat : Bool) (x : SOp2) : Statement (.smul sat x) := fun _ hw =>
  ofSOp2 hw (by decide) (Nat.lt_trans (b2n_lt _) (by decide)) (fun h => by simp [Instr.wf, SOp2.wf, h] at hw; simp [hw, b2n]) rfl fun w ht hp _ => by
    simp [unpack, ht, opcodeN, decScalar, hp, var01, field, bind, Except.bind]
theorem smulh (x : SOp2) : Statement (.smulh x) := fun _ hw =>
  ofSOp2 hw (by decide) (var := 0) (by decide) (fun h => by simp [Instr.wf, SOp2.wf, h] at hw; simp [hw]) rfl fun w ht hp _ => by
    simp [unpack, ht, opcodeN, decScalar, hp, var0, need, bind, Except.bind]
theorem smad (sat : Bool) (x : SOp3) : Statement (.smad sat x) := fun _ hw =>
  ofSOp3 hw (by decide) (Nat.lt_trans (b2n_lt _) (by decide)) (fun h => by simp [Instr.wf, SOp3.wf, h] at hw; simp [hw, b2n]) rfl fun w ht hp => by
    simp [unpack, ht, opcodeN, decScalar, hp, var01, field, bind, Except.bind]
theorem sdiv (rem : Bool) (x : SOp2) : Statement (.sdiv rem x) := fun _ hw =>
  ofSOp2 hw (by decide) (Nat.lt_trans (b2n_lt _) (by decide)) (fun h => by simp [Instr.wf, SOp2.wf, h] at hw; simp [hw, b2n]) rfl fun w ht hp _ => by
    simp [unpack, ht, opcodeN, decScalar, hp, var01, field, bind, Except.bind]
theorem slog (op : LogOp) (x : SOp1) (b : Option SB) : Statement (.slog op x b) := fun _ hw => by
  cases b with
  | none =>
    have ho : op = .not := by simpa [Instr.wf, Option.isNone] using (show _ from hw) |> fun _ => by revert hw; cases op <;> simp [Instr.wf]
    subst ho
    exact ofSOp1 hw (by decide) (by decide) rfl fun w ht hp hs => by
      have hs' : (VW.parse w).sub / 8 = 6 := hs
      simp [unpack, ht, opcodeN, decScalar, hp, hs', bind, Except.bind]
  | some b =>
    have ho : op ≠ .not := by revert hw; cases op <;> simp [Instr.wf]
    have hc : op.code ≠ 6 := by revert ho; cases op <;> decide
    exact ofSOp2 (x := ⟨x.g, x.ty, x.d, x.a, b⟩) hw (by decide) op.code_lt
      (fun h => by cases b with
        | src y => exact absurd h (by simp [SB.isCw])
        | cw n o => simp [Instr.wf] at hw; simp [hw, LogOp.code]) rfl fun w ht hp hs => by
      have hn : (!b.isCw && (VW.parse w).sub / 8 == 6) = false := by
        cases hb : b.isCw with
        | true => rfl
        | false => simpa [hs hb] using hc
      simp only [unpack, ht, guard_eta]
      simp [opcodeN, decScalar, hn, hp, field, bind, Except.bind]
theorem sshl (x : SOp2) : Statement (.sshl x) := fun _ hw =>
  ofSOp2 hw (by decide) (var := 0) (by decide) (fun h => by simp [Instr.wf, SOp2.wf, h] at hw; simp [hw]) rfl fun w ht hp _ => by
    simp [unpack, ht, opcodeN, decScalar, hp, var0, need, bind, Except.bind]
theorem sshr (x : SOp2) : Statement (.sshr x) := fun _ hw =>
  ofSOp2 hw (by decide) (var := 0) (by decide) (fun h => by simp [Instr.wf, SOp2.wf, h] at hw; simp [hw]) rfl fun w ht hp _ => by
    simp [unpack, ht, opcodeN, decScalar, hp, var0, need, bind, Except.bind]
theorem ssra (x : SOp2) : Statement (.ssra x) := fun _ hw =>
  ofSOp2 hw (by decide) (var := 0) (by decide) (fun h => by simp [Instr.wf, SOp2.wf, h] at hw; simp [hw]) rfl fun w ht hp _ => by
    simp [unpack, ht, opcodeN, decScalar, hp, var0, need, bind, Except.bind]
theorem smin (x : SOp2) : Statement (.smin x) := fun _ hw =>
  ofSOp2 hw (by decide) (var := 0) (by decide) (fun h => by simp [Instr.wf, SOp2.wf, h] at hw; simp [hw]) rfl fun w ht hp _ => by
    simp [unpack, ht, opcodeN, decScalar, hp, var0, need, bind, Except.bind]
theorem smax (x : SOp2) : Statement (.smax x) := fun _ hw =>
  ofSOp2 hw (by decide) (var := 0) (by decide) (fun h => by simp [Instr.wf, SOp2.wf, h] at hw; simp [hw]) rfl fun w ht hp _ => by
    simp [unpack, ht, opcodeN, decScalar, hp, var0, need, bind, Except.bind]
theorem scmp (rel : Rel) (x : SOp2) : Statement (.scmp rel x) := fun _ hw =>
  ofSOp2 hw (by decide) (Rel.code_lt _) (fun h => by simp [Instr.wf, SOp2.wf, h] at hw; simp [hw, Rel.code]) rfl fun w ht hp _ => by
    simp [unpack, ht, opcodeN, decScalar, hp, field, bind, Except.bind]
theorem ssel (x : SOp3) : Statement (.ssel x) := fun _ hw =>
  ofSOp3 hw (by decide) (var := 0) (by decide) (fun h => by simp [Instr.wf, SOp3.wf, h] at hw; simp [hw]) rfl fun w ht hp => by
    simp [unpack, ht, opcodeN, decScalar, hp, var0, need, bind, Except.bind]
theorem smov (x : SOp1) : Statement (.smov x) := fun _ hw =>
  ofSOp1 hw (by decide) (var := 0) (by decide) rfl fun w ht hp _ => by
    simp [unpack, ht, opcodeN, decScalar, hp, var0, need, bind, Except.bind]
theorem smovi (g : Guard) (form : SMoviForm) (d : SReg) (imm : BitVec 32) : Statement (.smovi g form d imm) := fun _ hw =>
  ofI hw (by decide) ⟨d.code_lt, by cases form <;> simp [SMoviForm.code], imm.isLt⟩ rfl
    fun w ht hp => by simp [unpack, ht, opcodeN, decScalar, hp, opnd, field, bind, Except.bind]
theorem spopc (x : SOp1) : Statement (.spopc x) := fun _ hw =>
  ofSOp1 hw (by decide) (var := 0) (by decide) rfl fun w ht hp _ => by
    simp [unpack, ht, opcodeN, decScalar, hp, var0, need, bind, Except.bind]
theorem sclz (x : SOp1) : Statement (.sclz x) := fun _ hw =>
  ofSOp1 hw (by decide) (var := 0) (by decide) rfl fun w ht hp _ => by
    simp [unpack, ht, opcodeN, decScalar, hp, var0, need, bind, Except.bind]
theorem sbfx (x : SOp3) : Statement (.sbfx x) := fun _ hw =>
  ofSOp3 hw (by decide) (var := 0) (by decide) (fun h => by simp [Instr.wf, SOp3.wf, h] at hw; simp [hw]) rfl fun w ht hp => by
    simp [unpack, ht, opcodeN, decScalar, hp, var0, need, bind, Except.bind]
theorem sbfi (x : SOp3) : Statement (.sbfi x) := fun _ hw =>
  ofSOp3 hw (by decide) (var := 0) (by decide) (fun h => by simp [Instr.wf, SOp3.wf, h] at hw; simp [hw]) rfl fun w ht hp => by
    simp [unpack, ht, opcodeN, decScalar, hp, var0, need, bind, Except.bind]
theorem sldc (g : Guard) (d : SReg) (win : Fin 8) (ofs : BitVec 17) : Statement (.sldc g d win ofs) := fun _ hw =>
  ofVc hw (by decide) ⟨d.code_lt, Nat.zero_lt_succ _, Nat.zero_lt_succ _, win.isLt, ofs.isLt, Nat.zero_lt_succ _⟩ rfl
    fun w ht hp => by simp [unpack, ht, opcodeN, decScalar, hp, opnd, need, bind, Except.bind]
theorem srd (g : Guard) (hi : Bool) (d : SReg) (r : Spr) : Statement (.srd g hi d r) := fun _ hw =>
  ofV hw (by decide) ⟨SReg.code_lt _, Nat.zero_lt_succ _, Nat.zero_lt_succ _, Nat.zero_lt_succ _, Spr.code_lt _, Nat.zero_lt_succ _, Nat.lt_trans (b2n_lt _) (by decide)⟩ rfl
    fun w ht hp => by simp [unpack, ht, opcodeN, decScalar, hp, opnd, field, need, bind, Except.bind]
theorem swr (g : Guard) (hi : Bool) (r : Spr) (a : SSrc) : Statement (.swr g hi r a) := fun _ hw =>
  ofV hw (by decide) ⟨SSrc.code_lt _, Nat.zero_lt_succ _, Nat.zero_lt_succ _, Nat.zero_lt_succ _, Spr.code_lt _, Nat.zero_lt_succ _, Nat.lt_trans (b2n_lt _) (by decide)⟩ rfl
    fun w ht hp => by simp [unpack, ht, opcodeN, decScalar, hp, opnd, field, need, bind, Except.bind]
theorem mlog (g : Guard) (op : LogOp) (d : MReg) (a : MSrc) (b : Option MSrc) : Statement (.mlog g op d a b) := fun _ hw => by
  cases b with
  | none =>
    have ho : op = .not ∨ op = .mov := by revert hw; cases op <;> simp [Instr.wf]
    exact ofV hw (by decide) ⟨d.code_lt, a.code_lt, Nat.zero_lt_succ _, Nat.zero_lt_succ _, Nat.lt_trans op.code_lt (by decide),
      Nat.zero_lt_succ _, Nat.zero_lt_succ _⟩ rfl fun w ht hp => by
      simp [unpack, ht, opcodeN, decMaskCross, hp, opnd, field, need, ho, bind, Except.bind]
  | some b =>
    have ho : ¬(op = .not ∨ op = .mov) := by revert hw; cases op <;> simp [Instr.wf]
    exact ofV hw (by decide) ⟨d.code_lt, a.code_lt, b.code_lt, Nat.zero_lt_succ _, Nat.lt_trans op.code_lt (by decide),
      Nat.zero_lt_succ _, Nat.zero_lt_succ _⟩ rfl fun w ht hp => by
      simp [unpack, ht, opcodeN, decMaskCross, hp, opnd, field, need, ho, bind, Except.bind]
theorem mpopc (g : Guard) (d : SReg) (a : MReg) : Statement (.mpopc g d a) := fun _ hw =>
  ofV hw (by decide) ⟨SReg.code_lt _, MReg.code_lt _, Nat.zero_lt_succ _, Nat.zero_lt_succ _, Nat.zero_lt_succ _, Nat.zero_lt_succ _, Nat.zero_lt_succ _⟩ rfl
    fun w ht hp => by simp [unpack, ht, opcodeN, decMaskCross, hp, opnd, need, bind, Except.bind]
theorem mffs (g : Guard) (last : Bool) (d : SReg) (a : MReg) : Statement (.mffs g last d a) := fun _ hw =>
  ofV hw (by decide) ⟨SReg.code_lt _, MReg.code_lt _, Nat.zero_lt_succ _, Nat.zero_lt_succ _, Nat.lt_trans (b2n_lt _) (by decide), Nat.zero_lt_succ _, Nat.zero_lt_succ _⟩ rfl
    fun w ht hp => by simp [unpack, ht, opcodeN, decMaskCross, hp, opnd, field, need, bind, Except.bind]
theorem mset (g : Guard) (d : MReg) (a : SSrc) : Statement (.mset g d a) := fun _ hw =>
  ofV hw (by decide) ⟨MReg.code_lt _, SSrc.code_lt _, Nat.zero_lt_succ _, Nat.zero_lt_succ _, Nat.zero_lt_succ _, Nat.zero_lt_succ _, Nat.zero_lt_succ _⟩ rfl
    fun w ht hp => by simp [unpack, ht, opcodeN, decMaskCross, hp, opnd, need, bind, Except.bind]
theorem mget (g : Guard) (neg : Bool) (d : VReg) (a : MReg) : Statement (.mget g neg d a) := fun _ hw =>
  ofV hw (by decide) ⟨VReg.code_lt _, MReg.code_lt _, Nat.zero_lt_succ _, Nat.zero_lt_succ _, Nat.lt_trans (b2n_lt _) (by decide), Nat.zero_lt_succ _, Nat.zero_lt_succ _⟩ rfl
    fun w ht hp => by simp [unpack, ht, opcodeN, decMaskCross, hp, opnd, field, need, bind, Except.bind]
theorem mbal (g : Guard) (form : BalForm) : Statement (.mbal g form) := fun _ hw => by
  cases form with
  | mask d a =>
    exact ofV hw (by decide) ⟨d.code_lt, a.code_lt, Nat.zero_lt_succ _, Nat.zero_lt_succ _, Nat.zero_lt_succ _, Nat.zero_lt_succ _,
      Nat.zero_lt_succ _⟩ rfl fun w ht hp => by
      simp [unpack, ht, opcodeN, decMaskCross, hp, opnd, field, need, bool01, bind, Except.bind]
  | rank d a =>
    exact ofV hw (by decide) ⟨d.code_lt, a.code_lt, Nat.zero_lt_succ _, Nat.zero_lt_succ _, by simp, Nat.zero_lt_succ _,
      Nat.zero_lt_succ _⟩ rfl fun w ht hp => by
      simp [unpack, ht, opcodeN, decMaskCross, hp, opnd, field, need, bool01, bind, Except.bind]
theorem vadd (sat : Bool) (x : VOp2) : Statement (.vadd sat x) := fun _ hw =>
  ofVOp2 hw (by decide) (Nat.lt_trans (b2n_lt _) (by decide)) (fun h => by simp [Instr.wf, VOp2.wf, h] at hw; simp [hw, b2n]) rfl fun w ht hp _ => by
    simp [unpack, ht, opcodeN, decVector, hp, var01, field, bind, Except.bind]
theorem vsub (sat : Bool) (x : VOp2) : Statement (.vsub sat x) := fun _ hw =>
  ofVOp2 hw (by decide) (Nat.lt_trans (b2n_lt _) (by decide)) (fun h => by simp [Instr.wf, VOp2.wf, h] at hw; simp [hw, b2n]) rfl fun w ht hp _ => by
    simp [unpack, ht, opcodeN, decVector, hp, var01, field, bind, Except.bind]
theorem vmul (sat : Bool) (x : VOp2) : Statement (.vmul sat x) := fun _ hw =>
  ofVOp2 hw (by decide) (Nat.lt_trans (b2n_lt _) (by decide)) (fun h => by simp [Instr.wf, VOp2.wf, h] at hw; simp [hw, b2n]) rfl fun w ht hp _ => by
    simp [unpack, ht, opcodeN, decVector, hp, var01, field, bind, Except.bind]
theorem vmulh (x : VOp2) : Statement (.vmulh x) := fun _ hw =>
  ofVOp2 hw (by decide) (var := 0) (by decide) (fun h => by simp [Instr.wf, VOp2.wf, h] at hw; simp [hw]) rfl fun w ht hp _ => by
    simp [unpack, ht, opcodeN, decVector, hp, var0, need, bind, Except.bind]
theorem vmad (sat : Bool) (x : VOp3) : Statement (.vmad sat x) := fun _ hw =>
  ofVOp3 hw (by decide) (Nat.lt_trans (b2n_lt _) (by decide)) (fun h => by simp [Instr.wf, VOp3.wf, h] at hw; simp [hw, b2n]) rfl fun w ht hp => by
    simp [unpack, ht, opcodeN, decVector, hp, var01, field, bind, Except.bind]
theorem vlog (op : LogOp) (x : VOp1) (b : Option VB) : Statement (.vlog op x b) := fun _ hw => by
  cases b with
  | none =>
    have ho : op = .not := by simpa [Instr.wf, Option.isNone] using (show _ from hw) |> fun _ => by revert hw; cases op <;> simp [Instr.wf]
    subst ho
    exact ofVOp1 hw (by decide) (by decide) rfl fun w ht hp hs => by
      have hs' : (VW.parse w).sub / 8 = 6 := hs
      simp [unpack, ht, opcodeN, decVector, hp, hs', bind, Except.bind]
  | some b =>
    have ho : op ≠ .not := by revert hw; cases op <;> simp [Instr.wf]
    have hc : op.code ≠ 6 := by revert ho; cases op <;> decide
    exact ofVOp2 (x := ⟨x.g, x.ty, x.d, x.a, b⟩) hw (by decide) op.code_lt
      (fun h => by cases b with
        | src y => exact absurd h (by simp [VB.isCw])
        | cw n o => simp [Instr.wf] at hw; simp [hw, LogOp.code]) rfl fun w ht hp hs => by
      have hn : (!b.isCw && (VW.parse w).sub / 8 == 6) = false := by
        cases hb : b.isCw with
        | true => rfl
        | false => simpa [hs hb] using hc
      simp only [unpack, ht, guard_eta]
      simp [opcodeN, decVector, hn, hp, field, bind, Except.bind]
theorem vshl (x : VOp2) : Statement (.vshl x) := fun _ hw =>
  ofVOp2 hw (by decide) (var := 0) (by decide) (fun h => by simp [Instr.wf, VOp2.wf, h] at hw; simp [hw]) rfl fun w ht hp _ => by
    simp [unpack, ht, opcodeN, decVector, hp, var0, need, bind, Except.bind]
theorem vshr (x : VOp2) : Statement (.vshr x) := fun _ hw =>
  ofVOp2 hw (by decide) (var := 0) (by decide) (fun h => by simp [Instr.wf, VOp2.wf, h] at hw; simp [hw]) rfl fun w ht hp _ => by
    simp [unpack, ht, opcodeN, decVector, hp, var0, need, bind, Except.bind]
theorem vsra (x : VOp2) : Statement (.vsra x) := fun _ hw =>
  ofVOp2 hw (by decide) (var := 0) (by decide) (fun h => by simp [Instr.wf, VOp2.wf, h] at hw; simp [hw]) rfl fun w ht hp _ => by
    simp [unpack, ht, opcodeN, decVector, hp, var0, need, bind, Except.bind]
theorem vmin (x : VOp2) : Statement (.vmin x) := fun _ hw =>
  ofVOp2 hw (by decide) (var := 0) (by decide) (fun h => by simp [Instr.wf, VOp2.wf, h] at hw; simp [hw]) rfl fun w ht hp _ => by
    simp [unpack, ht, opcodeN, decVector, hp, var0, need, bind, Except.bind]
theorem vmax (x : VOp2) : Statement (.vmax x) := fun _ hw =>
  ofVOp2 hw (by decide) (var := 0) (by decide) (fun h => by simp [Instr.wf, VOp2.wf, h] at hw; simp [hw]) rfl fun w ht hp _ => by
    simp [unpack, ht, opcodeN, decVector, hp, var0, need, bind, Except.bind]
theorem vabs (sat : Bool) (x : VOp1) : Statement (.vabs sat x) := fun _ hw =>
  ofVOp1 hw (by decide) (Nat.lt_trans (b2n_lt _) (by decide)) rfl fun w ht hp _ => by
    simp [unpack, ht, opcodeN, decVector, hp, var01, field, bind, Except.bind]
theorem vcmp (g : Guard) (rel : Rel) (ty : ITy) (mt mf : MReg) (a : VSrc) (b : VB) :
    Statement (.vcmp g rel ty mt mf a b) := fun _ hw => by
  have hd := maskPair_dec mt mf
  have t := ty_split (v := rel.code) ty.codeV_lt
  refine ofVA hw (by decide) (maskPair_lt mt mf) a.code_lt (Nat.zero_lt_succ _) (sub_lt rel.code_lt ty.codeV_lt) (Nat.zero_lt_succ _) (Nat.zero_lt_succ _)
    (fun h => by simp [Instr.wf, h] at hw; simp [hw, Rel.code, ITy.codeV]) rfl fun w ht hp _ => ?_
  simp [unpack, ht, opcodeN, decVector, hp, hd, t, opnd, field, need, bind, Except.bind]
theorem vsel (x : VOp3) : Statement (.vsel x) := fun _ hw =>
  ofVOp3 hw (by decide) (var := 0) (by decide) (fun h => by simp [Instr.wf, VOp3.wf, h] at hw; simp [hw]) rfl fun w ht hp => by
    simp [unpack, ht, opcodeN, decVector, hp, var0, need, bind, Except.bind]
theorem vmov (x : VOp1) : Statement (.vmov x) := fun _ hw =>
  ofVOp1 hw (by decide) (var := 0) (by decide) rfl fun w ht hp _ => by
    simp [unpack, ht, opcodeN, decVector, hp, var0, need, bind, Except.bind]
theorem vmovi (g : Guard) (form : VMoviForm) (d : VReg) (imm : BitVec 32) : Statement (.vmovi g form d imm) := fun _ hw =>
  ofI hw (by decide) ⟨d.code_lt, by cases form <;> simp [VMoviForm.code], imm.isLt⟩ rfl
    fun w ht hp => by simp [unpack, ht, opcodeN, decVector, hp, opnd, field, bind, Except.bind]
theorem vcvt (g : Guard) (dst src : CvtKind) (rnd : Rnd) (d : VReg) (a : VSrc) (fsl : Slot) : Statement (.vcvt g dst src rnd d a fsl) := fun _ hw =>
  ofV hw (by decide) ⟨VReg.code_lt _, VSrc.code_lt _, Nat.zero_lt_succ _, Nat.zero_lt_succ _, sub_lt dst.code_lt src.code_lt, fsl.isLt, Rnd.code_lt _⟩ rfl
    fun w ht hp => by simp [unpack, ht, opcodeN, decVector, hp, opnd, field, need, ty_split src.code_lt, bind, Except.bind]
theorem vpopc (x : VOp1) : Statement (.vpopc x) := fun _ hw =>
  ofVOp1 hw (by decide) (var := 0) (by decide) rfl fun w ht hp _ => by
    simp [unpack, ht, opcodeN, decVector, hp, var0, need, bind, Except.bind]
theorem vclz (x : VOp1) : Statement (.vclz x) := fun _ hw =>
  ofVOp1 hw (by decide) (var := 0) (by decide) rfl fun w ht hp _ => by
    simp [unpack, ht, opcodeN, decVector, hp, var0, need, bind, Except.bind]
theorem vbfx (x : VOp3) : Statement (.vbfx x) := fun _ hw =>
  ofVOp3 hw (by decide) (var := 0) (by decide) (fun h => by simp [Instr.wf, VOp3.wf, h] at hw; simp [hw]) rfl fun w ht hp => by
    simp [unpack, ht, opcodeN, decVector, hp, var0, need, bind, Except.bind]
theorem vbfi (x : VOp3) : Statement (.vbfi x) := fun _ hw =>
  ofVOp3 hw (by decide) (var := 0) (by decide) (fun h => by simp [Instr.wf, VOp3.wf, h] at hw; simp [hw]) rfl fun w ht hp => by
    simp [unpack, ht, opcodeN, decVector, hp, var0, need, bind, Except.bind]
theorem vfadd (x : FOp2) (r : Rnd) : Statement (.vfadd x r) := fun _ hw =>
  ofFOp2 hw (by decide) hw rfl fun w ht hp => by simp [unpack, ht, opcodeN, decVector, hp, bind, Except.bind]
theorem vfsub (x : FOp2) (r : Rnd) : Statement (.vfsub x r) := fun _ hw =>
  ofFOp2 hw (by decide) hw rfl fun w ht hp => by simp [unpack, ht, opcodeN, decVector, hp, bind, Except.bind]
theorem vfmul (x : FOp2) (r : Rnd) : Statement (.vfmul x r) := fun _ hw =>
  ofFOp2 hw (by decide) hw rfl fun w ht hp => by simp [unpack, ht, opcodeN, decVector, hp, bind, Except.bind]
theorem vfma (x : FOp3) (r : Rnd) : Statement (.vfma x r) := fun _ hw =>
  ofFOp3 hw (by decide) hw rfl fun w ht hp => by simp [unpack, ht, opcodeN, decVector, hp, bind, Except.bind]
theorem vfmin (x : FOp2) : Statement (.vfmin x) := fun _ hw =>
  ofFOp2 hw (by decide) hw rfl fun w ht hp => by simp [unpack, ht, opcodeN, decVector, hp, noRnd, need, bind, Except.bind]
theorem vfmax (x : FOp2) : Statement (.vfmax x) := fun _ hw =>
  ofFOp2 hw (by decide) hw rfl fun w ht hp => by simp [unpack, ht, opcodeN, decVector, hp, noRnd, need, bind, Except.bind]
theorem vfcmp (g : Guard) (rel : FRel) (ty : FTy) (mt mf : MReg) (a : VSrc) (b : VB) :
    Statement (.vfcmp g rel ty mt mf a b) := fun _ hw => by
  have hd := maskPair_dec mt mf
  have t := ty_split4 (v := rel.code) ty.code_lt
  refine ofVA hw (by decide) (maskPair_lt mt mf) a.code_lt (Nat.zero_lt_succ _) (sub_lt4 rel.code_lt ty.code_lt) (Nat.zero_lt_succ _) (Nat.zero_lt_succ _)
    (fun h => by simp [Instr.wf, h] at hw; simp [hw, FRel.code, Rel.code, FTy.code]) rfl fun w ht hp _ => ?_
  simp [unpack, ht, opcodeN, decVector, hp, hd, t, opnd, field, need, bind, Except.bind]
theorem vmed3 (x : FOp3) : Statement (.vmed3 x) := fun _ hw =>
  ofFOp3 hw (by decide) hw rfl fun w ht hp => by simp [unpack, ht, opcodeN, decVector, hp, noRnd, need, bind, Except.bind]
theorem vfrcp (x : FOp1) : Statement (.vfrcp x) := fun _ hw =>
  ofFOp1 hw (by decide) rfl fun w ht hp => by simp [unpack, ht, opcodeN, decVector, hp, bind, Except.bind]
theorem vfrsq (x : FOp1) : Statement (.vfrsq x) := fun _ hw =>
  ofFOp1 hw (by decide) rfl fun w ht hp => by simp [unpack, ht, opcodeN, decVector, hp, bind, Except.bind]
theorem vfexp2 (x : FOp1) : Statement (.vfexp2 x) := fun _ hw =>
  ofFOp1 hw (by decide) rfl fun w ht hp => by simp [unpack, ht, opcodeN, decVector, hp, bind, Except.bind]
theorem vflog2 (x : FOp1) : Statement (.vflog2 x) := fun _ hw =>
  ofFOp1 hw (by decide) rfl fun w ht hp => by simp [unpack, ht, opcodeN, decVector, hp, bind, Except.bind]
theorem vfcls (x : FOp1) : Statement (.vfcls x) := fun _ hw =>
  ofFOp1 hw (by decide) rfl fun w ht hp => by simp [unpack, ht, opcodeN, decVector, hp, bind, Except.bind]
theorem vshfl (g : Guard) (wide : Bool) (d a : VReg) (idx : VSrc) : Statement (.vshfl g wide d a idx) := fun _ hw =>
  ofV hw (by decide) ⟨VReg.code_lt _, VReg.code_lt _, VSrc.code_lt _, Nat.zero_lt_succ _, Nat.lt_trans (b2n_lt _) (by decide), Nat.zero_lt_succ _, Nat.zero_lt_succ _⟩ rfl
    fun w ht hp => by simp [unpack, ht, opcodeN, decMaskCross, hp, opnd, field, need, bind, Except.bind]
theorem vbcast (g : Guard) (wide : Bool) (d a : VReg) (n : SSrc) : Statement (.vbcast g wide d a n) := fun _ hw =>
  ofV hw (by decide) ⟨VReg.code_lt _, VReg.code_lt _, SSrc.code_lt _, Nat.zero_lt_succ _, Nat.lt_trans (b2n_lt _) (by decide), Nat.zero_lt_succ _, Nat.zero_lt_succ _⟩ rfl
    fun w ht hp => by simp [unpack, ht, opcodeN, decMaskCross, hp, opnd, field, need, bind, Except.bind]
theorem vred (g : Guard) (op : RedOp) (ty : RedTy) (r : Rnd) (d : RedDst) (a : VSrc) : Statement (.vred g op ty r d a) := fun _ hw => by
  have t := ty_split (v := op.code) ty.code_lt
  cases d with
  | s k =>
    exact ofV hw (by decide) ⟨k.code_lt, a.code_lt, Nat.zero_lt_succ _, Nat.zero_lt_succ _, sub_lt op.code_lt ty.code_lt,
      Nat.zero_lt_succ _, r.code_lt⟩ rfl fun w ht hp => by
      simp [unpack, ht, opcodeN, decMaskCross, hp, t, opnd, field, need, bind, Except.bind]
  | v k =>
    exact ofV hw (by decide) ⟨k.code_lt, a.code_lt, Nat.zero_lt_succ _, Nat.zero_lt_succ _, sub_lt op.code_lt ty.code_lt,
      Nat.zero_lt_succ _, r.code_lt⟩ rfl fun w ht hp => by
      simp [unpack, ht, opcodeN, decMaskCross, hp, t, opnd, field, need, bind, Except.bind]
theorem vscan (g : Guard) (op : RedOp) (ty : RedTy) (r : Rnd) (d : VReg) (a : VSrc) (c : SSrc) : Statement (.vscan g op ty r d a c) := fun _ hw =>
  ofV hw (by decide) ⟨VReg.code_lt _, VSrc.code_lt _, SSrc.code_lt _, Nat.zero_lt_succ _, sub_lt op.code_lt ty.code_lt, Nat.zero_lt_succ _, Rnd.code_lt _⟩ rfl
    fun w ht hp => by simp [unpack, ht, opcodeN, decMaskCross, hp, opnd, field, need, ty_split ty.code_lt, bind, Except.bind]
theorem vcmpr (g : Guard) (wide : Bool) (d a : VReg) : Statement (.vcmpr g wide d a) := fun _ hw =>
  ofV hw (by decide) ⟨VReg.code_lt _, VReg.code_lt _, Nat.zero_lt_succ _, Nat.zero_lt_succ _, Nat.lt_trans (b2n_lt _) (by decide), Nat.zero_lt_succ _, Nat.zero_lt_succ _⟩ rfl
    fun w ht hp => by simp [unpack, ht, opcodeN, decMaskCross, hp, opnd, field, need, bind, Except.bind]
theorem fswap (g : Guard) (x : Bool) (d : SReg) (form : SwapForm) (dies : SSrc) (slot : Slot) :
    Statement (.fswap g x d form dies slot) := fun _ hw => by
  cases form with
  | expert a =>
    exact ofV hw (by decide) ⟨d.code_lt, a.code_lt, dies.code_lt, Nat.zero_lt_succ _, Nat.zero_lt_succ _, slot.isLt, Nat.zero_lt_succ _⟩
      rfl fun w ht hp => by simp [unpack, ht, opcodeN, opcodeEN, decEL, hp, opnd, need, bind, Except.bind]
  | basic a =>
    exact ofV hw (by decide) ⟨d.code_lt, a.code_lt, dies.code_lt, Nat.zero_lt_succ _, by simp, slot.isLt, Nat.zero_lt_succ _⟩
      rfl fun w ht hp => by simp [unpack, ht, opcodeN, opcodeEN, decEL, hp, opnd, need, bind, Except.bind]
  | unbind =>
    exact ofV hw (by decide) ⟨d.code_lt, Nat.zero_lt_succ _, dies.code_lt, Nat.zero_lt_succ _, by simp, slot.isLt, Nat.zero_lt_succ _⟩
      rfl fun w ht hp => by simp [unpack, ht, opcodeN, opcodeEN, decEL, hp, opnd, need, bind, Except.bind]
theorem ffence (g : Guard) : Statement (.ffence g) := fun _ hw =>
  ofV hw (by decide) ⟨Nat.zero_lt_succ _, Nat.zero_lt_succ _, Nat.zero_lt_succ _, Nat.zero_lt_succ _, Nat.zero_lt_succ _, Nat.zero_lt_succ _, Nat.zero_lt_succ _⟩ rfl
    fun w ht hp => by simp [unpack, ht, opcodeN, opcodeEN, decEN, hp, need, decPlain, bind, Except.bind]
theorem fqry (g : Guard) (d : SReg) (word : Fin 5) (slot : Slot) : Statement (.fqry g d word slot) := fun _ hw =>
  ofV hw (by decide) ⟨SReg.code_lt _, Nat.zero_lt_succ _, Nat.zero_lt_succ _, Nat.zero_lt_succ _, Nat.lt_trans word.isLt (by decide), slot.isLt, Nat.zero_lt_succ _⟩ rfl
    fun w ht hp => by simp [unpack, ht, opcodeN, opcodeEN, decEN, hp, opnd, need, bind, Except.bind]
theorem qnt (g : Guard) (x : Bool) (src dst sc t : SSrc) (mode : SMode) (slot : Slot) (r : Rnd) : Statement (.qnt g x src dst sc t mode slot r) := fun _ hw =>
  ofV hw (by decide) ⟨SSrc.code_lt _, SSrc.code_lt _, SSrc.code_lt _, SSrc.code_lt _, Nat.lt_trans mode.code_lt (by decide), slot.isLt, Rnd.code_lt _⟩ rfl
    fun w ht hp => by simp [unpack, ht, opcodeN, opcodeEN, decEL, hp, opnd, field, bind, Except.bind]
theorem dqnt (g : Guard) (x : Bool) (d : VReg) (src sc t : SSrc) (mode : SMode) (slot : Slot) (r : Rnd) : Statement (.dqnt g x d src sc t mode slot r) := fun _ hw =>
  ofV hw (by decide) ⟨VReg.code_lt _, SSrc.code_lt _, SSrc.code_lt _, SSrc.code_lt _, Nat.lt_trans mode.code_lt (by decide), slot.isLt, Rnd.code_lt _⟩ rfl
    fun w ht hp => by simp [unpack, ht, opcodeN, opcodeEN, decEL, hp, opnd, field, bind, Except.bind]
theorem vld (m : VMem) : Statement (.vld m) := fun _ hw => by
  obtain ⟨g, x, r, base, idx, off, size, ord, sco, sl, nt, sx⟩ := m
  refine ofM hw (by decide) ⟨r.code_lt, base.code_lt, idx.code_lt, size.code_lt, ord.code_lt, sco.code_lt, flags_lt sl nt sx, off.isLt⟩
    rfl fun w ht hp => ?_
  simp [unpack, ht, opcodeN, decMemory, decVMem, hp, flags_bits sl nt sx, opnd, field, need, bind, Except.bind]
theorem vst (m : VMem) : Statement (.vst m) := fun _ hw => by
  obtain ⟨g, x, r, base, idx, off, size, ord, sco, sl, nt, sx⟩ := m
  refine ofM hw (by decide) ⟨r.code_lt, base.code_lt, idx.code_lt, size.code_lt, ord.code_lt, sco.code_lt, flags_lt sl nt sx, off.isLt⟩
    rfl fun w ht hp => ?_
  simp [unpack, ht, opcodeN, decMemory, decVMem, hp, flags_bits sl nt sx, opnd, field, need, bind, Except.bind]
theorem vlds (m : VMemS) : Statement (.vlds m) := fun _ hw => by
  obtain ⟨g, x, r, base, idx, off, size, ord, sco, sl, nt, sx⟩ := m
  refine ofM hw (by decide) ⟨r.code_lt, base.code_lt, idx.code_lt, size.code_lt, ord.code_lt, sco.code_lt, flags_lt sl nt sx, off.isLt⟩
    rfl fun w ht hp => ?_
  simp [unpack, ht, opcodeN, decMemory, decVMemS, hp, flags_bits sl nt sx, opnd, field, need, bind, Except.bind]
theorem vsts (m : VMemS) : Statement (.vsts m) := fun _ hw => by
  obtain ⟨g, x, r, base, idx, off, size, ord, sco, sl, nt, sx⟩ := m
  refine ofM hw (by decide) ⟨r.code_lt, base.code_lt, idx.code_lt, size.code_lt, ord.code_lt, sco.code_lt, flags_lt sl nt sx, off.isLt⟩
    rfl fun w ht hp => ?_
  simp [unpack, ht, opcodeN, decMemory, decVMemS, hp, flags_bits sl nt sx, opnd, field, need, bind, Except.bind]
theorem sld (g : Guard) (x : Bool) (d : SReg) (base : SBase) (off : BitVec 10) (size : MSize) (ord : MemOrd) (sco : Scope)
    (sl sx : Bool) : Statement (.sld g x d base off size ord sco sl sx) := fun _ hw =>
  ofM (v := ⟨SReg.code d, base.code, 402, size.code, ord.code, sco.code, 8 * b2n sl + b2n sx, off.toNat⟩) hw (by decide)
    ⟨d.code_lt, base.code_lt, by simp, size.code_lt, ord.code_lt, sco.code_lt, flags_lt sl false sx, off.isLt⟩
    rfl fun w ht hp => by
      have f : 8 * b2n sl + b2n sx = 8 * b2n sl + 2 * b2n false + b2n sx := rfl
      rw [f] at hp
      simp [unpack, ht, opcodeN, decMemory, hp, flags_bits sl false sx, opnd, field, need, bind, Except.bind]
theorem sst (g : Guard) (x : Bool) (a : SSrc) (base : SBase) (off : BitVec 10) (size : MSize) (ord : MemOrd) (sco : Scope) (sl : Bool) :
    Statement (.sst g x a base off size ord sco sl) := fun _ hw =>
  ofM (v := ⟨a.code, base.code, 402, size.code, ord.code, sco.code, 8 * b2n sl, off.toNat⟩) hw (by decide)
    ⟨a.code_lt, base.code_lt, by simp, size.code_lt, ord.code_lt, sco.code_lt, flags_lt sl false false, off.isLt⟩
    rfl fun w ht hp => by
      have f : 8 * b2n sl = 8 * b2n sl + 2 * b2n false + b2n false := rfl
      rw [f] at hp
      simp [unpack, ht, opcodeN, decMemory, hp, flags_bits sl false false, opnd, field, need, bind, Except.bind]
theorem ldsl (m : SlMem) : Statement (.ldsl m) := fun _ hw => by
  obtain ⟨g, x, r, base, idx, off, size, ord, sco⟩ := m
  refine ofM hw (by decide) ⟨r.code_lt, base.code_lt, idx.code_lt, size.code_lt, ord.code_lt, sco.code_lt, Nat.zero_lt_succ _, off.isLt⟩
    rfl fun w ht hp => ?_
  simp [unpack, ht, opcodeN, decMemory, decSlMem, hp, opnd, field, need, bind, Except.bind]
theorem stsl (m : SlMem) : Statement (.stsl m) := fun _ hw => by
  obtain ⟨g, x, r, base, idx, off, size, ord, sco⟩ := m
  refine ofM hw (by decide) ⟨r.code_lt, base.code_lt, idx.code_lt, size.code_lt, ord.code_lt, sco.code_lt, Nat.zero_lt_succ _, off.isLt⟩
    rfl fun w ht hp => ?_
  simp [unpack, ht, opcodeN, decMemory, decSlMem, hp, opnd, field, need, bind, Except.bind]
theorem atom (g : Guard) (x : Bool) (d : VReg) (base : SBase) (idx : VSrc) (off : BitVec 10) (ty : AtTy) (op : AtOp)
    (ord : MemOrd) (sco : Scope) (sl : Bool) : Statement (.atom g x d base idx off ty op ord sco sl) := fun _ hw => by
  have f := sl_bits sl op.code_lt
  refine ofM (v := ⟨VReg.code d, base.code, idx.code, ty.code, ord.code, sco.code, 8 * b2n sl + op.code, off.toNat⟩) hw (by decide)
    ⟨d.code_lt, base.code_lt, idx.code_lt, ty.code_lt, ord.code_lt, sco.code_lt, f.1, off.isLt⟩ rfl fun w ht hp => ?_
  simp [unpack, ht, opcodeN, decMemory, hp, f, opnd, field, bind, Except.bind]
theorem acas (g : Guard) (x : Bool) (d : VReg) (base : SBase) (idx : VSrc) (off : BitVec 10) (wide : Bool) (ord : MemOrd)
    (sco : Scope) (sl : Bool) : Statement (.acas g x d base idx off wide ord sco sl) := fun _ hw => by
  have f : 8 * b2n sl < 16 ∧ (8 * b2n sl) % 8 = 0 ∧ bit (8 * b2n sl) 3 = sl := by cases sl <;> decide
  refine ofM (v := ⟨VReg.code d, base.code, idx.code, (if wide then 3 else 2), ord.code, sco.code, 8 * b2n sl, off.toNat⟩) hw (by decide)
    ⟨d.code_lt, base.code_lt, idx.code_lt, by cases wide <;> simp, ord.code_lt, sco.code_lt, f.1, off.isLt⟩ rfl fun w ht hp => ?_
  cases wide <;> simp_all [unpack, opcodeN, decMemory, opnd, field, need, bind, Except.bind]
theorem ldr (m : ResMem) : Statement (.ldr m) := fun _ hw => by
  obtain ⟨g, x, r, base, idx, off, wide, ord, sco⟩ := m
  refine ofM hw (by decide) ⟨r.code_lt, base.code_lt, idx.code_lt, by cases wide <;> simp, ord.code_lt, sco.code_lt,
    Nat.zero_lt_succ _, off.isLt⟩ rfl fun w ht hp => ?_
  cases wide <;> simp [unpack, ht, opcodeN, decMemory, decResMem, hp, opnd, field, need, bind, Except.bind]
theorem stc (m : ResMem) : Statement (.stc m) := fun _ hw => by
  obtain ⟨g, x, r, base, idx, off, wide, ord, sco⟩ := m
  refine ofM hw (by decide) ⟨r.code_lt, base.code_lt, idx.code_lt, by cases wide <;> simp, ord.code_lt, sco.code_lt,
    Nat.zero_lt_succ _, off.isLt⟩ rfl fun w ht hp => ?_
  cases wide <;> simp [unpack, ht, opcodeN, decMemory, decResMem, hp, opnd, field, need, bind, Except.bind]
theorem fence (g : Guard) (x : Bool) (ord : MemOrd) (sco : Scope) : Statement (.fence g x ord sco) := fun _ hw =>
  ofM hw (by decide) ⟨Nat.zero_lt_succ _, Nat.zero_lt_succ _, Nat.zero_lt_succ _, Nat.zero_lt_succ _, ord.code_lt, sco.code_lt,
    Nat.zero_lt_succ _, Nat.zero_lt_succ _⟩ rfl fun w ht hp => by
    simp [unpack, ht, opcodeN, decMemory, hp, field, need, bind, Except.bind]
theorem cmaint (g : Guard) (x : Bool) (op : CmOp) (rel : Bool) (sco : Scope) (base : SBase) (idx : VSrc) (off : BitVec 10) :
    Statement (.cmaint g x op rel sco base idx off) := fun _ hw => by
  have f : bit op.code 3 = false := by cases op <;> rfl
  refine ofM (v := ⟨0, base.code, idx.code, 0, (if rel then 2 else 0), sco.code, op.code, off.toNat⟩) hw (by decide)
    ⟨Nat.zero_lt_succ _, base.code_lt, idx.code_lt, Nat.zero_lt_succ _, by cases rel <;> simp, sco.code_lt,
      Nat.lt_trans op.code_lt (by decide), off.isLt⟩ rfl fun w ht hp => ?_
  cases rel <;> simp [unpack, ht, opcodeN, decMemory, hp, f, opnd, field, need, bind, Except.bind]
theorem slalloc (g : Guard) (d : SReg) (n lx : SSrc) (part : Bool) (kind : SlKind) : Statement (.slalloc g d n lx part kind) := fun _ hw =>
  ofV hw (by decide) ⟨SReg.code_lt _, SSrc.code_lt _, SSrc.code_lt _, Nat.zero_lt_succ _, slalloc_lt part kind, Nat.zero_lt_succ _, Nat.zero_lt_succ _⟩ rfl
    fun w ht hp => by simp [unpack, ht, opcodeN, opcodeEN, decEN, hp, opnd, field, need, slalloc_bits part kind, bind, Except.bind]
theorem slfree (g : Guard) (x : Bool) (a : SSrc) : Statement (.slfree g x a) := fun _ hw =>
  ofV hw (by decide) ⟨SSrc.code_lt _, Nat.zero_lt_succ _, Nat.zero_lt_succ _, Nat.zero_lt_succ _, Nat.zero_lt_succ _, Nat.zero_lt_succ _, Nat.zero_lt_succ _⟩ rfl
    fun w ht hp => by simp [unpack, ht, opcodeN, opcodeEN, decEL, hp, opnd, need, bind, Except.bind]
theorem slrenew (g : Guard) (x : Bool) (a len : SSrc) : Statement (.slrenew g x a len) := fun _ hw =>
  ofV hw (by decide) ⟨SSrc.code_lt _, SSrc.code_lt _, Nat.zero_lt_succ _, Nat.zero_lt_succ _, Nat.zero_lt_succ _, Nat.zero_lt_succ _, Nat.zero_lt_succ _⟩ rfl
    fun w ht hp => by simp [unpack, ht, opcodeN, opcodeEN, decEL, hp, opnd, need, bind, Except.bind]
theorem slqry (g : Guard) (d : SReg) (a : SSrc) (k : Fin 4) (crib : Bool) : Statement (.slqry g d a k crib) := fun _ hw =>
  ofV hw (by decide) ⟨SReg.code_lt _, SSrc.code_lt _, Nat.zero_lt_succ _, Nat.zero_lt_succ _, slqry_lt k crib, Nat.zero_lt_succ _, Nat.zero_lt_succ _⟩ rfl
    fun w ht hp => by
      simp [unpack, ht, opcodeN, opcodeEN, decEN, hp, opnd, need, slqry_bits k crib, bind, Except.bind] <;>
        exact (slqry_bits k crib).2.2
theorem crib (g : Guard) (x : Bool) (t c arg : SSrc) (src : Option SReg) (nsrc : Fin 5) (warm : Bool) :
    Statement (.crib g x t c arg src nsrc warm) := fun _ hw => by
  have f := crib_bits nsrc warm
  cases src with
  | none =>
    obtain rfl : nsrc = 0 := by simp [Instr.wf] at hw; omega
    refine ofV (v := ⟨t.code, c.code, arg.code, 402, 8 * b2n warm + (0 : Fin 5).val, 0, 0⟩) hw (by decide)
      ⟨t.code_lt, c.code_lt, arg.code_lt, by simp, Nat.lt_trans f.1 (by decide), Nat.zero_lt_succ _, Nat.zero_lt_succ _⟩ rfl fun w ht hp => ?_
    cases warm <;> simp [unpack, ht, opcodeN, opcodeEN, decEL, hp, b2n, bit, opnd, need, bind, Except.bind]
  | some k =>
    have hn : nsrc.val ≠ 0 := by simp [Instr.wf] at hw; omega
    refine ofV (v := ⟨t.code, c.code, arg.code, SReg.code k, 8 * b2n warm + nsrc.val, 0, 0⟩) hw (by decide)
      ⟨t.code_lt, c.code_lt, arg.code_lt, k.code_lt, Nat.lt_trans f.1 (by decide), Nat.zero_lt_succ _, Nat.zero_lt_succ _⟩ rfl fun w ht hp => ?_
    have hn' : ¬ nsrc = 0 := fun h => hn (by rw [h]; rfl)
    simp [unpack, ht, opcodeN, opcodeEN, decEL, hp, f, hn, opnd, need, bind, Except.bind]
theorem crtouch (g : Guard) (x : Bool) (a : SSrc) (d : SReg) (renew warm cold : Bool) : Statement (.crtouch g x a d renew warm cold) :=
  fun _ hw => by
  have f : 4 * b2n cold + 2 * b2n warm + b2n renew < 8 ∧ bit (4 * b2n cold + 2 * b2n warm + b2n renew) 0 = renew ∧
      bit (4 * b2n cold + 2 * b2n warm + b2n renew) 1 = warm ∧ bit (4 * b2n cold + 2 * b2n warm + b2n renew) 2 = cold := by
    cases renew <;> cases warm <;> cases cold <;> decide
  refine ofV (v := ⟨a.code, SReg.code d, 0, 0, 4 * b2n cold + 2 * b2n warm + b2n renew, 0, 0⟩) hw (by decide)
    ⟨a.code_lt, d.code_lt, Nat.zero_lt_succ _, Nat.zero_lt_succ _, Nat.lt_trans f.1 (by decide), Nat.zero_lt_succ _, Nat.zero_lt_succ _⟩
    rfl fun w ht hp => ?_
  simp [unpack, ht, opcodeN, opcodeEN, decEL, hp, f, opnd, need, bind, Except.bind]
theorem crdrop (g : Guard) (a : SSrc) : Statement (.crdrop g a) := fun _ hw =>
  ofV hw (by decide) ⟨SSrc.code_lt _, Nat.zero_lt_succ _, Nat.zero_lt_succ _, Nat.zero_lt_succ _, Nat.zero_lt_succ _, Nat.zero_lt_succ _, Nat.zero_lt_succ _⟩ rfl
    fun w ht hp => by simp [unpack, ht, opcodeN, opcodeEN, decEN, hp, opnd, need, bind, Except.bind]
theorem mma (g : Guard) (x : Bool) (z : Sys2Proof.Acc) (ver a b sc : SSrc) (fa fb : Slot) : Statement (.mma g x z ver a b sc fa fb) := fun _ hw =>
  ofV hw (by decide) ⟨SSrc.code_lt _, SSrc.code_lt _, SSrc.code_lt _, SSrc.code_lt _, acc_lt z, fa.isLt, fb.isLt⟩ rfl
    fun w ht hp => by simp [unpack, ht, opcodeN, opcodeEN, decEL, hp, opnd, need, bind, Except.bind]
theorem mzero (g : Guard) (x : Bool) (z : Sys2Proof.Acc) (ver : SSrc) : Statement (.mzero g x z ver) := fun _ hw =>
  ofV hw (by decide) ⟨SSrc.code_lt _, Nat.zero_lt_succ _, Nat.zero_lt_succ _, Nat.zero_lt_succ _, acc_lt z, Nat.zero_lt_succ _, Nat.zero_lt_succ _⟩ rfl
    fun w ht hp => by simp [unpack, ht, opcodeN, opcodeEN, decEL, hp, opnd, need, bind, Except.bind]
theorem mstz (g : Guard) (x : Bool) (z : Sys2Proof.Acc) (ver a rng : SSrc) (form : StzForm) (slot : Slot) (r : Rnd) : Statement (.mstz g x z ver a rng form slot r) := fun _ hw =>
  ofV hw (by decide) ⟨SSrc.code_lt _, SSrc.code_lt _, SSrc.code_lt _, Nat.zero_lt_succ _, sub_lt z.isLt form.code_lt, slot.isLt, Rnd.code_lt _⟩ rfl
    fun w ht hp => by simp [unpack, ht, opcodeN, opcodeEN, decEL, hp, opnd, field, need, ty_split form.code_lt, bind, Except.bind]
theorem mldz (g : Guard) (x : Bool) (z : Sys2Proof.Acc) (ver a : SSrc) : Statement (.mldz g x z ver a) := fun _ hw =>
  ofV hw (by decide) ⟨SSrc.code_lt _, SSrc.code_lt _, Nat.zero_lt_succ _, Nat.zero_lt_succ _, acc_lt z, Nat.zero_lt_succ _, Nat.zero_lt_succ _⟩ rfl
    fun w ht hp => by simp [unpack, ht, opcodeN, opcodeEN, decEL, hp, opnd, need, bind, Except.bind]
theorem mver (g : Guard) (d : SReg) (z : Sys2Proof.Acc) : Statement (.mver g d z) := fun _ hw =>
  ofV hw (by decide) ⟨SReg.code_lt _, Nat.zero_lt_succ _, Nat.zero_lt_succ _, Nat.zero_lt_succ _, acc_lt z, Nat.zero_lt_succ _, Nat.zero_lt_succ _⟩ rfl
    fun w ht hp => by simp [unpack, ht, opcodeN, opcodeEN, decEN, hp, opnd, need, bind, Except.bind]
theorem cpy (g : Guard) (x : Bool) (d : SReg) (rec org sl : SSrc) : Statement (.cpy g x d rec org sl) := fun _ hw =>
  ofV hw (by decide) ⟨SReg.code_lt _, SSrc.code_lt _, SSrc.code_lt _, SSrc.code_lt _, Nat.zero_lt_succ _, Nat.zero_lt_succ _, Nat.zero_lt_succ _⟩ rfl
    fun w ht hp => by simp [unpack, ht, opcodeN, opcodeEN, decEL, hp, opnd, need, bind, Except.bind]
theorem gath (g : Guard) (x : Bool) (d : SReg) (rec : SSrc) (op : SReg) (idx : GathIdx) : Statement (.gath g x d rec op idx) :=
  fun _ hw => by
  cases idx with
  | vec v =>
    exact ofV hw (by decide) ⟨d.code_lt, rec.code_lt, op.code_lt, v.code_lt, Nat.zero_lt_succ _, Nat.zero_lt_succ _, Nat.zero_lt_succ _⟩
      rfl fun w ht hp => by simp [unpack, ht, opcodeN, opcodeEN, decEL, hp, opnd, field, bool01, need, bind, Except.bind]
  | slate s =>
    exact ofV hw (by decide) ⟨d.code_lt, rec.code_lt, op.code_lt, s.code_lt, by simp, Nat.zero_lt_succ _, Nat.zero_lt_succ _⟩
      rfl fun w ht hp => by simp [unpack, ht, opcodeN, opcodeEN, decEL, hp, opnd, field, bool01, need, bind, Except.bind]
theorem bseal (g : Guard) (n : SSrc) : Statement (.bseal g n) := fun _ hw =>
  ofV hw (by decide) ⟨SSrc.code_lt _, Nat.zero_lt_succ _, Nat.zero_lt_succ _, Nat.zero_lt_succ _, Nat.zero_lt_succ _, Nat.zero_lt_succ _, Nat.zero_lt_succ _⟩ rfl
    fun w ht hp => by simp [unpack, ht, opcodeN, opcodeEN, decEN, hp, opnd, need, bind, Except.bind]
theorem bwait (g : Guard) (n : SSrc) (test : Option SReg) : Statement (.bwait g n test) := fun _ hw => by
  cases test with
  | none =>
    exact ofV hw (by decide) ⟨SSrc.code_lt _, Nat.zero_lt_succ _, Nat.zero_lt_succ _, Nat.zero_lt_succ _, Nat.zero_lt_succ _, Nat.zero_lt_succ _, Nat.zero_lt_succ _⟩
      rfl fun w ht hp => by simp [unpack, ht, opcodeN, opcodeEN, decEN, hp, opnd, field, bool01, need, bind, Except.bind]
  | some d =>
    exact ofV hw (by decide) ⟨SSrc.code_lt _, SReg.code_lt d, Nat.zero_lt_succ _, Nat.zero_lt_succ _, by simp, Nat.zero_lt_succ _, Nat.zero_lt_succ _⟩
      rfl fun w ht hp => by simp [unpack, ht, opcodeN, opcodeEN, decEN, hp, opnd, field, bool01, need, bind, Except.bind]
theorem bari (g : Guard) (a : SSrc) (form : BariForm) : Statement (.bari g a form) := fun _ hw => by
  cases form with
  | set m =>
    exact ofV hw (by decide) ⟨a.code_lt, m.code_lt, Nat.zero_lt_succ _, Nat.zero_lt_succ _, Nat.zero_lt_succ _, Nat.zero_lt_succ _,
      Nat.zero_lt_succ _⟩ rfl fun w ht hp => by simp [unpack, ht, opcodeN, opcodeEN, decEN, hp, opnd, need, bind, Except.bind]
  | all =>
    exact ofV hw (by decide) ⟨a.code_lt, Nat.zero_lt_succ _, Nat.zero_lt_succ _, Nat.zero_lt_succ _, by simp, Nat.zero_lt_succ _,
      Nat.zero_lt_succ _⟩ rfl fun w ht hp => by simp [unpack, ht, opcodeN, opcodeEN, decEN, hp, opnd, need, bind, Except.bind]
  | free =>
    exact ofV hw (by decide) ⟨a.code_lt, Nat.zero_lt_succ _, Nat.zero_lt_succ _, Nat.zero_lt_succ _, by simp, Nat.zero_lt_succ _,
      Nat.zero_lt_succ _⟩ rfl fun w ht hp => by simp [unpack, ht, opcodeN, opcodeEN, decEN, hp, opnd, need, bind, Except.bind]
theorem bara (g : Guard) (x : Bool) (a : SSrc) (d : SReg) : Statement (.bara g x a d) := fun _ hw =>
  ofV hw (by decide) ⟨SSrc.code_lt _, SReg.code_lt _, Nat.zero_lt_succ _, Nat.zero_lt_succ _, Nat.zero_lt_succ _, Nat.zero_lt_succ _, Nat.zero_lt_succ _⟩ rfl
    fun w ht hp => by simp [unpack, ht, opcodeN, opcodeEN, decEL, hp, opnd, need, bind, Except.bind]
theorem barw (g : Guard) (a p : SSrc) (test : Option SReg) : Statement (.barw g a p test) := fun _ hw => by
  cases test with
  | none =>
    exact ofV hw (by decide) ⟨SSrc.code_lt _, SSrc.code_lt _, Nat.zero_lt_succ _, Nat.zero_lt_succ _, Nat.zero_lt_succ _, Nat.zero_lt_succ _, Nat.zero_lt_succ _⟩
      rfl fun w ht hp => by simp [unpack, ht, opcodeN, opcodeEN, decEN, hp, opnd, field, bool01, need, bind, Except.bind]
  | some d =>
    exact ofV hw (by decide) ⟨SSrc.code_lt _, SSrc.code_lt _, SReg.code_lt d, Nat.zero_lt_succ _, by simp, Nat.zero_lt_succ _, Nat.zero_lt_succ _⟩
      rfl fun w ht hp => by simp [unpack, ht, opcodeN, opcodeEN, decEN, hp, opnd, field, bool01, need, bind, Except.bind]
theorem tray (g : Guard) (x : Bool) (hdr crd : VSrc) (pay : TrayPay) : Statement (.tray g x hdr crd pay) := fun _ hw => by
  cases pay with
  | v k =>
    exact ofV hw (by decide) ⟨hdr.code_lt, crd.code_lt, k.code_lt, Nat.zero_lt_succ _, Nat.zero_lt_succ _, Nat.zero_lt_succ _,
      Nat.zero_lt_succ _⟩ rfl fun w ht hp => by simp [unpack, ht, opcodeN, opcodeEN, decEL, hp, opnd, need, bind, Except.bind]
  | s y =>
    exact ofV hw (by decide) ⟨hdr.code_lt, crd.code_lt, y.code_lt, Nat.zero_lt_succ _, Nat.zero_lt_succ _, Nat.zero_lt_succ _,
      Nat.zero_lt_succ _⟩ rfl fun w ht hp => by simp [unpack, ht, opcodeN, opcodeEN, decEL, hp, opnd, need, bind, Except.bind]
theorem depdec (g : Guard) (x : Bool) (base : SSrc) (idx : VSrc) : Statement (.depdec g x base idx) := fun _ hw =>
  ofV hw (by decide) ⟨SSrc.code_lt _, VSrc.code_lt _, Nat.zero_lt_succ _, Nat.zero_lt_succ _, Nat.zero_lt_succ _, Nat.zero_lt_succ _, Nat.zero_lt_succ _⟩ rfl
    fun w ht hp => by simp [unpack, ht, opcodeN, opcodeEN, decEL, hp, opnd, need, bind, Except.bind]
theorem rclaim (g : Guard) (nb : Bool) (d : SReg) (ring n : SSrc) : Statement (.rclaim g nb d ring n) := fun _ hw =>
  ofV hw (by decide) ⟨SReg.code_lt _, SSrc.code_lt _, SSrc.code_lt _, Nat.zero_lt_succ _, Nat.lt_trans (b2n_lt _) (by decide), Nat.zero_lt_succ _, Nat.zero_lt_succ _⟩ rfl
    fun w ht hp => by simp [unpack, ht, opcodeN, opcodeEN, decEN, hp, opnd, field, need, bind, Except.bind]
theorem rawait (g : Guard) (nb : Bool) (d : SReg) (ring n : SSrc) : Statement (.rawait g nb d ring n) := fun _ hw =>
  ofV hw (by decide) ⟨SReg.code_lt _, SSrc.code_lt _, SSrc.code_lt _, Nat.zero_lt_succ _, Nat.lt_trans (b2n_lt _) (by decide), Nat.zero_lt_succ _, Nat.zero_lt_succ _⟩ rfl
    fun w ht hp => by simp [unpack, ht, opcodeN, opcodeEN, decEN, hp, opnd, field, need, bind, Except.bind]
theorem rcommit (g : Guard) (x : Bool) (ring p n : SSrc) : Statement (.rcommit g x ring p n) := fun _ hw =>
  ofV hw (by decide) ⟨SSrc.code_lt _, SSrc.code_lt _, SSrc.code_lt _, Nat.zero_lt_succ _, Nat.zero_lt_succ _, Nat.zero_lt_succ _, Nat.zero_lt_succ _⟩ rfl
    fun w ht hp => by simp [unpack, ht, opcodeN, opcodeEN, decEL, hp, opnd, need, bind, Except.bind]
theorem rretire (g : Guard) (x : Bool) (ring q n : SSrc) : Statement (.rretire g x ring q n) := fun _ hw =>
  ofV hw (by decide) ⟨SSrc.code_lt _, SSrc.code_lt _, SSrc.code_lt _, Nat.zero_lt_succ _, Nat.zero_lt_succ _, Nat.zero_lt_succ _, Nat.zero_lt_succ _⟩ rfl
    fun w ht hp => by simp [unpack, ht, opcodeN, opcodeEN, decEL, hp, opnd, need, bind, Except.bind]
theorem qpush (g : Guard) (a : VSrc) : Statement (.qpush g a) := fun _ hw =>
  ofV hw (by decide) ⟨VSrc.code_lt _, Nat.zero_lt_succ _, Nat.zero_lt_succ _, Nat.zero_lt_succ _, Nat.zero_lt_succ _, Nat.zero_lt_succ _, Nat.zero_lt_succ _⟩ rfl
    fun w ht hp => by simp [unpack, ht, opcodeN, opcodeEN, decEN, hp, opnd, need, bind, Except.bind]
theorem qpop (g : Guard) (d : VReg) : Statement (.qpop g d) := fun _ hw =>
  ofV hw (by decide) ⟨VReg.code_lt _, Nat.zero_lt_succ _, Nat.zero_lt_succ _, Nat.zero_lt_succ _, Nat.zero_lt_succ _, Nat.zero_lt_succ _, Nat.zero_lt_succ _⟩ rfl
    fun w ht hp => by simp [unpack, ht, opcodeN, opcodeEN, decEN, hp, opnd, need, bind, Except.bind]
theorem tlbinv (g : Guard) (x : Bool) (va len part : SSrc) : Statement (.tlbinv g x va len part) := fun _ hw =>
  ofV hw (by decide) ⟨SSrc.code_lt _, SSrc.code_lt _, SSrc.code_lt _, Nat.zero_lt_succ _, Nat.zero_lt_succ _, Nat.zero_lt_succ _, Nat.zero_lt_succ _⟩ rfl
    fun w ht hp => by simp [unpack, ht, opcodeN, opcodeEN, decEL, hp, opnd, need, bind, Except.bind]
theorem unpack_header (w : Nat) (wait : BitVec 12) (a b : Option Flag) (n : Fin 8) (region yieldh nr : Bool)
    (hw : w = 0xF8 * 2 ^ 56 + wait.toNat * 2 ^ 44 + flagFieldCode a * 2 ^ 40 + flagFieldCode b * 2 ^ 36 + n.val * 2 ^ 33 +
      b2n region * 2 ^ 32 + b2n yieldh * 2 ^ 30 + b2n nr * 2 ^ 29) :
    w < 2 ^ 64 ∧ unpack w = .ok (.clauseHeader (.clause wait a b n region yieldh nr)) := by
  have h1 := wait.isLt; have h2 := flagFieldCode_lt a; have h3 := flagFieldCode_lt b; have h4 := n.isLt
  have h5 := b2n_lt region; have h6 := b2n_lt yieldh; have h7 := b2n_lt nr
  have e0 : (TopW.parse w).op = 0xF8 := by simp only [TopW.parse, fld]; omega
  have e1 : bit w 31 = false := by simp only [bit, beq_eq_false_iff_ne]; omega
  have e2 : fld w 0 29 = 0 := by simp only [fld]; omega
  have e3 : fld w 40 4 = flagFieldCode a := by simp only [fld]; omega
  have e4 : fld w 36 4 = flagFieldCode b := by simp only [fld]; omega
  have e5 : fld w 44 12 = wait.toNat := by simp only [fld]; omega
  have e6 : fld w 33 3 = n.val := by simp only [fld]; omega
  have b1 : w / 2 ^ 32 % 2 = b2n region := by omega
  have b2 : w / 2 ^ 30 % 2 = b2n yieldh := by omega
  have b3 : w / 2 ^ 29 % 2 = b2n nr := by omega
  have e7 : bit w 32 = region := by simp only [bit, b1, beq_one_b2n]
  have e8 : bit w 30 = yieldh := by simp only [bit, b2, beq_one_b2n]
  have e9 : bit w 29 = nr := by simp only [bit, b3, beq_one_b2n]
  have lt : w < 2 ^ 64 := by omega
  clear hw
  exact ⟨lt, by simp [unpack, e0, decHdr, e1, e2, e3, e4, e5, e6, e7, e8, e9, need, field, bind, Except.bind]⟩
theorem clauseHeader (h : Hdr) : Statement (.clauseHeader h) := fun _ hw => by
  cases h with
  | endMark => exact ⟨0xF800000080000000#64, rfl, rfl⟩
  | clause wait a b n region yieldh nr =>
    have u := unpack_header _ wait a b n region yieldh nr rfl
    simp only [encode, encodeNat, Option.map_some]
    exact ⟨_, rfl, decode_of_unpack u.1 u.2 hw⟩
theorem operationComplete (k : GKey) (op : Nat) : Statement (.operationComplete k op) := fun h => nomatch h
theorem versionTimeout (k : GKey) (op : Nat) : Statement (.versionTimeout k op) := fun h => nomatch h
theorem registerLineFill (k : GKey) (line : Nat) (foreign bad : Bool) : Statement (.registerLineFill k line foreign bad) := fun h => nomatch h
theorem mappedFill (core desc sector : Nat) : Statement (.mappedFill core desc sector) := fun h => nomatch h
theorem faultResponse (part : Nat) : Statement (.faultResponse part) := fun h => nomatch h
theorem faultStall (part ticket : Nat) : Statement (.faultStall part ticket) := fun h => nomatch h
theorem replayStart (core chain : Nat) (slot : Option Nat) : Statement (.replayStart core chain slot) := fun h => nomatch h
theorem cribWatchHit (line : Nat) : Statement (.cribWatchHit line) := fun h => nomatch h
theorem engineChunkDone (engine : Nat) : Statement (.engineChunkDone engine) := fun h => nomatch h
theorem engineResume (engine req : Nat) : Statement (.engineResume engine req) := fun h => nomatch h
theorem engineBudgetPeriod : Statement (.engineBudgetPeriod) := fun h => nomatch h
theorem waittWake (k : GKey) (who : Who) : Statement (.waittWake k who) := fun h => nomatch h
theorem reservationDeferralEnd (k : GKey) (who : Who) : Statement (.reservationDeferralEnd k who) := fun h => nomatch h
theorem yieldEnd (k : GKey) (who : Who) : Statement (.yieldEnd k who) := fun h => nomatch h
theorem rclkTick (die : Nat) : Statement (.rclkTick die) := fun h => nomatch h
theorem sectorExpiry (core desc sector : Nat) : Statement (.sectorExpiry core desc sector) := fun h => nomatch h
theorem scrubberVisit (core desc leaf : Nat) (bad : List Nat) (corrected : Nat) : Statement (.scrubberVisit core desc leaf bad corrected) := fun h => nomatch h
theorem spillMove (part : Nat) : Statement (.spillMove part) := fun h => nomatch h
theorem bellExpiry (die tray : Nat) : Statement (.bellExpiry die tray) := fun h => nomatch h
theorem teamPlacement (part core : Nat) : Statement (.teamPlacement part core) := fun h => nomatch h
theorem preemptionRequest (team deadline newAcc newLeaves : Nat) : Statement (.preemptionRequest team deadline newAcc newLeaves) := fun h => nomatch h
theorem saveComplete (team : Nat) : Statement (.saveComplete team) := fun h => nomatch h
theorem preemptDeadline (team : Nat) : Statement (.preemptDeadline team) := fun h => nomatch h
theorem teamResume (team core : Nat) : Statement (.teamResume team core) := fun h => nomatch h
theorem deficitCreditPeriod : Statement (.deficitCreditPeriod) := fun h => nomatch h
theorem deficitCompare (part : Nat) : Statement (.deficitCompare part) := fun h => nomatch h
theorem bandwidthPeriod (busy : Bool) (shares : List (Nat × Nat)) : Statement (.bandwidthPeriod busy shares) := fun h => nomatch h
theorem poolPeriod (n : Nat) (power : PowerReading) : Statement (.poolPeriod n power) := fun h => nomatch h
theorem examStart (core : Nat) : Statement (.examStart core) := fun h => nomatch h
theorem examEnd (core : Nat) (pass : Bool) : Statement (.examEnd core pass) := fun h => nomatch h
theorem queueSlotFree (part slot : Nat) : Statement (.queueSlotFree part slot) := fun h => nomatch h
theorem notify (part : Nat) (q : BitVec 6) : Statement (.notify part q) := fun h => nomatch h
theorem hostRclaimRead (part ring n : Nat) : Statement (.hostRclaimRead part ring n) := fun h => nomatch h
theorem hostRcommitWrite (part ring : Nat) (val : Word) : Statement (.hostRcommitWrite part ring val) := fun h => nomatch h
theorem registerWrite (part off : Nat) (val : Word) : Statement (.registerWrite part off val) := fun h => nomatch h
theorem hostMemRead (part pa len : Nat) : Statement (.hostMemRead part pa len) := fun h => nomatch h
theorem hostMemWrite (part pa : Nat) (bytes : List Byte) : Statement (.hostMemWrite part pa bytes) := fun h => nomatch h
theorem hostConfigAccess (fn off : Nat) (wr : Option (BitVec 32)) : Statement (.hostConfigAccess fn off wr) := fun h => nomatch h
theorem linkTraining (width speed : Nat) : Statement (.linkTraining width speed) := fun h => nomatch h
theorem fabricRead (a : Arrival) : Statement (.fabricRead a) := fun h => nomatch h
theorem fabricWrite (a : Arrival) (payload : List Byte) : Statement (.fabricWrite a payload) := fun h => nomatch h
theorem fabricAtomic (a : Arrival) (payload : List Byte) : Statement (.fabricAtomic a payload) := fun h => nomatch h
theorem fabricResponse (a : Arrival) (e : RemoteEnd) : Statement (.fabricResponse a e) := fun h => nomatch h
theorem fabricData (a : Arrival) (payload : List Byte) : Statement (.fabricData a payload) := fun h => nomatch h
theorem linkCredit (a : Arrival) (n : Nat) : Statement (.linkCredit a n) := fun h => nomatch h
theorem linkRetry (port : Nat) (resent : Bool) : Statement (.linkRetry port resent) := fun h => nomatch h
theorem fabricTimeout (tag : Nat) : Statement (.fabricTimeout tag) := fun h => nomatch h
theorem partitionCreate (p : Nat) (x : PartParams) : Statement (.partitionCreate p x) := fun h => nomatch h
theorem partitionDestroy (p : Nat) : Statement (.partitionDestroy p) := fun h => nomatch h
theorem partitionFence (p : Nat) : Statement (.partitionFence p) := fun h => nomatch h
theorem partitionReset (p : Nat) : Statement (.partitionReset p) := fun h => nomatch h
theorem moduleCap (w : Nat) : Statement (.moduleCap w) := fun h => nomatch h
theorem rackBroadcast (c k : Nat) : Statement (.rackBroadcast c k) := fun h => nomatch h
theorem frameRelease (p frame : Nat) : Statement (.frameRelease p frame) := fun h => nomatch h
theorem keyEnrol (p signer : Nat) (key sig : List Byte) : Statement (.keyEnrol p signer key sig) := fun h => nomatch h
theorem keyRevoke (p signer : Nat) (sig : List Byte) : Statement (.keyRevoke p signer sig) := fun h => nomatch h
theorem attestationLogRoll (p : Nat) : Statement (.attestationLogRoll p) := fun h => nomatch h
theorem preEmptTeam (team deadline : Nat) : Statement (.preEmptTeam team deadline) := fun h => nomatch h
theorem counterRead (p : Nat) : Statement (.counterRead p) := fun h => nomatch h
theorem spdmGetMeasurements (p : Nat) : Statement (.spdmGetMeasurements p) := fun h => nomatch h
theorem proctorVerifyDone (swap die : Nat) : Statement (.proctorVerifyDone swap die) := fun h => nomatch h
theorem fmgDrainDone (swap die : Nat) : Statement (.fmgDrainDone swap die) := fun h => nomatch h
theorem regionReconfigured (swap die : Nat) : Statement (.regionReconfigured swap die) := fun h => nomatch h
theorem drainTimeout (swap die : Nat) : Statement (.drainTimeout swap die) := fun h => nomatch h
theorem hbmPatrol (line stack : Nat) (e : EccPattern) : Statement (.hbmPatrol line stack e) := fun h => nomatch h
theorem thermalThrottle (die : Nat) : Statement (.thermalThrottle die) := fun h => nomatch h
theorem thermalRecover (die : Nat) : Statement (.thermalRecover die) := fun h => nomatch h
theorem thermalStop (die : Nat) : Statement (.thermalStop die) := fun h => nomatch h
theorem currentLimit (w : Option Nat) : Statement (.currentLimit w) := fun h => nomatch h
theorem externalThrottle (on : Bool) : Statement (.externalThrottle on) := fun h => nomatch h
theorem securityAlarm (mesh : Bool) (level : Nat) : Statement (.securityAlarm mesh level) := fun h => nomatch h
theorem packageReset : Statement (.packageReset) := fun h => nomatch h
theorem firmwareVerify (first second : Bool) : Statement (.firmwareVerify first second) := fun h => nomatch h
theorem hbmTraining (ok : Bool) : Statement (.hbmTraining ok) := fun h => nomatch h
theorem arrayDieRelease : Statement (.arrayDieRelease) := fun h => nomatch h
theorem firstExam (failed : List Nat) : Statement (.firstExam failed) := fun h => nomatch h
theorem cxlConfigReady : Statement (.cxlConfigReady) := fun h => nomatch h
theorem partitionParameterChange (p : Nat) (c : PartChange) : Statement (.partitionParameterChange p c) := fun h => nomatch h
theorem reservedKindFlit (a : Arrival) : Statement (.reservedKindFlit a) := fun h => nomatch h
theorem deviceIdSet (id : BitVec 17) : Statement (.deviceIdSet id) := fun h => nomatch h

end Sys2Proof.Laws.RoundTrip
end

