-- ==== Sys2Proof/Tests/Slice0.lean ====
section
/-! SUPPORT. Tests: ill-formed words are refused, words written out from the encoding tables decode, worked examples of the
manual run, and every statement's hypotheses are met by a state named here. -/

namespace Sys2Proof.Tests

open Sys2Proof Sys2Proof.Machine

-- One proof at a time, which keeps the memory that the whole text takes low.
set_option Elab.async false

/-- No guard. -/
def gA : Guard := ⟨0, false⟩

/-! ## Ill-formed words (R60, R61, R79, R261–R267) -/

def scw : SOp2 := ⟨gA, .i32, 1, .s 1, .cw 0 0⟩
def scw3 : SOp3 := ⟨gA, .i32, 1, .s 1, .cw 0 0, .zero⟩
def scwI : SOp2 := ⟨gA, .i64, 1, .s 1, .cw 0 0⟩
def vodd1 : VOp1 := ⟨gA, .i64, 3, .v 2⟩
def vodd2 : VOp2 := ⟨gA, .n64, 2, .v 4, .src (.v 5)⟩
def vodd3 : VOp3 := ⟨gA, .i64, 2, .v 3, .src (.v 6), .v 8⟩
def voddC : VOp3 := ⟨gA, .i64, 2, .v 4, .src (.v 6), .v 9⟩
def vcw : VOp2 := ⟨gA, .i32, 2, .v 4, .cw 0 0⟩
def fcw : FOp2 := ⟨gA, .f16, 2, .v 4, .cw 0 0⟩
def fcw3 : FOp3 := ⟨gA, .f32, 2, .v 4, .cw 0 0, .v 5⟩
def vm (r : VReg) (size : MSize) (ord : MemOrd) (sx : Bool) : VMem := ⟨gA, false, r, .s 1, .lane, 0, size, ord, .grp, false, false, sx⟩
def vms (r : VReg) (size : MSize) (ord : MemOrd) (sx : Bool) : VMemS := ⟨gA, false, r, .s 1, .zero, 0, size, ord, .grp, false, false, sx⟩

/-- Words of the control thread and of masks: a negative small integer, a constant word where the form has none, SLOG and MLOG
with a source too many or too few, a register that no one may write. -/
theorem test_ill_formed_scalar : [
    .btab gA (.v 0) (.s 1) (.imm 0), .yield gA (.imm 31), .sadd false scw, .sadd true scwI, .ssub true scwI, .smul true scwI,
    .smulh scw, .smad false scw3, .sdiv true scwI, .slog .mov ⟨gA, .i64, 1, .s 1⟩ none, .slog .not ⟨gA, .i64, 1, .s 1⟩ (some (.src .zero)),
    .slog .and ⟨gA, .i64, 1, .s 1⟩ none, .slog .or ⟨gA, .i64, 1, .s 1⟩ (some (.cw 0 0)), .sshl scw, .sshr scw, .ssra scw, .smin scw,
    .smax scw, .scmp .ne scwI, .ssel scw3, .sbfx scw3, .sbfi scw3, .swr gA false .time .zero, .swr gA false .tstat .zero,
    .mlog gA .not 1 (.m 2) (some .zero), .mlog gA .and 1 (.m 2) none].all (fun i : Instr => !i.wf) = true := by decide

/-- Vector words: an odd register of a pair, a constant word where the form has none, an unsigned VABS, equal kinds of VCVT, a slot
without .fs, a rounding field between integers, a rounding of what does not round. -/
theorem test_ill_formed_vector : [
    .vadd false vodd2, .vadd true vcw, .vsub true vcw, .vmul true vcw, .vmulh vodd2, .vmad false vodd3, .vmad false voddC,
    .vlog .mov ⟨gA, .i32, 2, .v 4⟩ none, .vlog .not vodd1 none, .vlog .or ⟨gA, .i32, 2, .v 4⟩ (some (.cw 0 0)),
    .vlog .and ⟨gA, .i64, 2, .v 4⟩ (some (.src (.v 5))), .vshl vodd2, .vshr vodd2, .vsra vodd2, .vmin vodd2, .vmax vodd2,
    .vabs false ⟨gA, .n32, 2, .v 4⟩, .vabs false vodd1, .vcmp gA .eq .i64 1 2 (.v 3) (.src .zero), .vcmp gA .ne .i32 1 2 (.v 3) (.cw 0 0),
    .vsel vodd3, .vmov vodd1, .vmovi gA .i64 3 0, .vcvt gA .i32 .i32 ⟨.rn, false⟩ 2 (.v 4) 0, .vcvt gA .f32 .i32 ⟨.rn, false⟩ 2 (.v 4) 9,
    .vcvt gA .fs .i32 ⟨.rn, false⟩ 2 (.v 4) 0, .vcvt gA .n32 .i32 ⟨.rz, false⟩ 2 (.v 4) 0, .vcvt gA .i64 .i32 ⟨.rn, false⟩ 3 (.v 4) 0,
    .vcvt gA .i32 .i64 ⟨.rn, false⟩ 2 (.v 5) 0, .vpopc vodd1, .vclz vodd1, .vbfx voddC, .vbfi voddC, .vfadd fcw ⟨.rn, false⟩,
    .vfsub fcw ⟨.rn, false⟩, .vfmul fcw ⟨.rn, false⟩, .vfma fcw3 ⟨.rn, true⟩, .vfmin fcw, .vfmax fcw, .vfcmp gA .un .f32 1 2 (.v 3) (.cw 0 0),
    .vmed3 ⟨gA, .bf16, 2, .v 4, .cw 0 0, .v 5⟩, .vshfl gA true 2 4 (.v 3), .vbcast gA true 2 3 .zero,
    .vred gA .and .f32 ⟨.rn, false⟩ (.s 1) (.v 2), .vred gA .add .i32 ⟨.rz, false⟩ (.s 1) (.v 2), .vred gA .max .f32 ⟨.rn, true⟩ (.s 1) (.v 2),
    .vred gA .add .i64 ⟨.rn, false⟩ (.v 3) (.v 2), .vscan gA .add .n64 ⟨.rn, false⟩ 2 (.v 3) .zero, .vcmpr gA true 2 3].all
      (fun i : Instr => !i.wf) = true := by decide

/-- Words of the memory, slate, crib, matrix and engine families, and headers. -/
theorem test_ill_formed_long : [
    .fswap gA false 1 .unbind .zero 7, .qnt gA false .zero .zero .zero .zero .none 1 ⟨.rn, false⟩,
    .qnt gA false .zero .zero .zero .zero .e5m3 0 ⟨.rn, false⟩, .dqnt gA false 1 .zero .zero .zero .none 0 ⟨.rn, false⟩,
    .vld (vm 2 .b4 .rel false), .vld (vm 3 .b8 .rlx false), .vld (vm 2 .b4 .rlx true), .vst (vm 2 .b4 .acq false), .vst (vm 2 .b1 .rlx true),
    .vlds (vms 3 .b8 .rlx false), .vsts (vms 2 .b4 .acq false), .sld gA false 1 .zero 0 .b4 .rel .grp false false,
    .sst gA false .zero .zero 0 .b4 .acq .grp false, .ldsl ⟨gA, false, 1, .zero, .lane, 0, .b4, .rel, .grp⟩,
    .stsl ⟨gA, false, 1, .zero, .lane, 0, .b4, .acq, .grp⟩, .atom gA false 1 .zero .lane 0 .i64 .add .rlx .grp false,
    .atom gA false 1 .zero .lane 0 .f32 .xor .rlx .grp false, .atom gA false 1 .zero .lane 0 .i32 .add .sc .grp false,
    .acas gA false 1 .zero .lane 0 false .rlx .grp false, .acas gA false 2 .zero .lane 0 true .rlx .grp false,
    .ldr ⟨gA, false, 1, .zero, .lane, 0, true, .rlx, .grp⟩, .stc ⟨gA, false, 2, .zero, .lane, 0, true, .acq, .grp⟩, .fence gA false .rlx .grp,
    .cmaint gA false .cinv false .sys .zero .lane 0, .cmaint gA false .clean false .clu .zero .lane 0,
    .crib gA false .zero .zero .zero none 1 false, .crib gA false .zero .zero .zero (some 1) 0 false,
    .crib gA false .zero .zero .zero (some 127) 3 false, .crtouch gA false .zero 0 false true true, .mma gA false 0 .zero .zero .zero .zero 0 1,
    .mma gA false 0 .zero .zero .zero .zero 1 0, .mstz gA false 0 .zero .zero .zero .packed 0 ⟨.rn, false⟩, .gath gA false 1 .zero 3 (.vec 1),
    .tray gA false .lane .lane (.v 1), .clauseHeader (.clause 0 none none 0 false false false),
    .clauseHeader (.clause 0 none none 1 true false true)].all (fun i : Instr => !i.wf) = true := by decide

/-- A word that fails a check, and words of no opcode or with a reserved field, are refused by name. -/
theorem test_decode_refuses :
    decode 0xB003_C30A_85E4_8809 = .error .illFormed ∧ decode 0x1100_0000_0000_0000 = .error .operandCode ∧
    decode 0x9999_0000_0000_0000 = .error .unassignedOpcode ∧ decode 0x0004_0000_0000_0000 = .error .xBit ∧
    decode 0x0000_0000_0000_0001 = .error .reservedField := ⟨rfl, rfl, rfl, rfl, rfl⟩

/-! ## Words written out from the encoding tables (R255–R268) -/

theorem test_decode_nop : decode 0x0000_0000_0000_0000 = .ok (.nop) := rfl
theorem test_decode_bra : decode 0x0101_4212_FFFF_FFFE = .ok (.bra ⟨⟨0, false⟩, some (.gtz, .s 9), 0xFFFFFFFE#32⟩) := rfl
theorem test_decode_b : decode 0x0251_1C00_0000_0003 = .ok (.bmask ⟨5, false⟩ (some (.nall, 7)) 3#32) := rfl
theorem test_decode_btab : decode 0x0320_0B08_F180_0000 = .ok (.btab ⟨2, false⟩ (.v 5) (.s 8) (.imm 35)) := rfl
theorem test_decode_call : decode 0x0400_0000_0000_0010 = .ok (.call ⟨⟨0, false⟩, none, 16#32⟩) := rfl
theorem test_decode_ret : decode 0x0558_0000_0000_0000 = .ok (.ret ⟨5, true⟩) := rfl
theorem test_decode_fork : decode 0x0600_0C01_0000_0008 = .ok (.fork ⟨0, false⟩ true 3 8#32) := rfl
theorem test_decode_join : decode 0x0700_0000_0000_0000 = .ok (.join ⟨0, false⟩) := rfl
theorem test_decode_exit : decode 0x0800_0000_0000_0000 = .ok (.exit ⟨0, false⟩) := rfl
theorem test_decode_yield : decode 0x0903_C800_0000_0000 = .ok (.yield ⟨0, false⟩ (.imm 36)) := rfl
theorem test_decode_trap : decode 0x0A02_0C00_0000_0000 = .ok (.trap ⟨0, false⟩ (.s 6)) := rfl
theorem test_decode_rft : decode 0x0B00_0000_0000_0000 = .ok (.rft ⟨0, false⟩) := rfl
theorem test_decode_waitt : decode 0x0C02_1800_0000_0030 = .ok (.waitt ⟨0, false⟩ (.s 12) 3) := rfl
theorem test_decode_sadd : decode 0x1052_0784_ED80_0A00 = .ok (.sadd true ⟨⟨5, false⟩, .i32, 3, .m 4, .src (.imm 27)⟩) := rfl
theorem test_decode_ssub : decode 0x1152_0784_ED80_0100 = .ok (.ssub false ⟨⟨5, false⟩, .n64, 3, .m 4, .src (.imm 27)⟩) := rfl
theorem test_decode_smul : decode 0x1256_0704_0010_0020 = .ok (.smul false ⟨⟨5, false⟩, .i64, 3, .s 4, .cw 1 4#17⟩) := rfl
theorem test_decode_smulh : decode 0x1352_0784_ED80_0500 = .ok (.smulh ⟨⟨5, false⟩, .n16, 3, .m 4, .src (.imm 27)⟩) := rfl
theorem test_decode_smad : decode 0x145A_FF91_C950_0E00 = .ok (.smad true ⟨⟨5, true⟩, .i8, 127, .gwid, .src .zero, .s 64⟩) := rfl
theorem test_decode_sdiv : decode 0x1552_0784_ED80_0B00 = .ok (.sdiv true ⟨⟨5, false⟩, .n32, 3, .m 4, .src (.imm 27)⟩) := rfl
theorem test_decode_slog : decode 0x1652_0704_8280_2700 = .ok (.slog .orn ⟨⟨5, false⟩, .n8, 3, .s 4⟩ (some (.src (.s 5)))) := rfl
theorem test_decode_sshl : decode 0x1752_0784_ED80_0000 = .ok (.sshl ⟨⟨5, false⟩, .i64, 3, .m 4, .src (.imm 27)⟩) := rfl
theorem test_decode_sshr : decode 0x1852_0784_ED80_0100 = .ok (.sshr ⟨⟨5, false⟩, .n64, 3, .m 4, .src (.imm 27)⟩) := rfl
theorem test_decode_ssra : decode 0x1952_0784_ED80_0400 = .ok (.ssra ⟨⟨5, false⟩, .i16, 3, .m 4, .src (.imm 27)⟩) := rfl
theorem test_decode_smin : decode 0x1A52_0784_ED80_0200 = .ok (.smin ⟨⟨5, false⟩, .i32, 3, .m 4, .src (.imm 27)⟩) := rfl
theorem test_decode_smax : decode 0x1B52_0784_ED80_0300 = .ok (.smax ⟨⟨5, false⟩, .n32, 3, .m 4, .src (.imm 27)⟩) := rfl
theorem test_decode_scmp : decode 0x1C52_0784_ED80_1800 = .ok (.scmp .le ⟨⟨5, false⟩, .i64, 3, .m 4, .src (.imm 27)⟩) := rfl
theorem test_decode_ssel : decode 0x1D5A_FF91_C950_0100 = .ok (.ssel ⟨⟨5, true⟩, .n64, 127, .gwid, .src .zero, .s 64⟩) := rfl
theorem test_decode_smov : decode 0x1E52_0302_0000_0600 = .ok (.smov ⟨⟨5, false⟩, .i8, 1, .s 2⟩) := rfl
theorem test_decode_smovi : decode 0x1F52_1202_DEAD_BEEF = .ok (.smovi ⟨5, false⟩ .hi 9 0xDEADBEEF#32) := rfl
theorem test_decode_spopc : decode 0x2052_0382_0000_0300 = .ok (.spopc ⟨⟨5, false⟩, .n32, 1, .m 2⟩) := rfl
theorem test_decode_sclz : decode 0x2152_0302_0000_0000 = .ok (.sclz ⟨⟨5, false⟩, .i64, 1, .s 2⟩) := rfl
theorem test_decode_sbfx : decode 0x225A_FF91_C950_0200 = .ok (.sbfx ⟨⟨5, true⟩, .i32, 127, .gwid, .src .zero, .s 64⟩) := rfl
theorem test_decode_sbfi : decode 0x235A_FF91_C950_0100 = .ok (.sbfi ⟨⟨5, true⟩, .n64, 127, .gwid, .src .zero, .s 64⟩) := rfl
theorem test_decode_sldc : decode 0x2456_0C00_0078_8B80 = .ok (.sldc ⟨5, false⟩ 6 7 70000#17) := rfl
theorem test_decode_srd : decode 0x2552_0800_0000_0701 = .ok (.srd ⟨5, false⟩ true 4 .tpcv) := rfl
theorem test_decode_swr : decode 0x2652_0800_0000_0C00 = .ok (.swr ⟨5, false⟩ false .qstat (.s 4)) := rfl
theorem test_decode_mlog : decode 0x3053_0784_C900_0200 = .ok (.mlog ⟨5, false⟩ .xor 3 (.m 4) (some .zero)) := rfl
theorem test_decode_mpopc : decode 0x3152_0F84_0000_0000 = .ok (.mpopc ⟨5, false⟩ 7 4) := rfl
theorem test_decode_mffs : decode 0x3252_0F84_0000_0100 = .ok (.mffs ⟨5, false⟩ true 7 4) := rfl
theorem test_decode_mset : decode 0x3353_0509_0000_0000 = .ok (.mset ⟨5, false⟩ 2 (.s 9)) := rfl
theorem test_decode_mget : decode 0x3451_9184_0000_0100 = .ok (.mget ⟨5, false⟩ true 200 4) := rfl
theorem test_decode_mbal : decode 0x7550_2382_0000_0100 = .ok (.mbal ⟨5, false⟩ (.rank 17 2)) := rfl
theorem test_decode_vadd : decode 0x4054_3C29_002F_FFF8 = .ok (.vadd false ⟨⟨5, false⟩, .i32, 30, .v 41, .cw 2 131071#17⟩) := rfl
theorem test_decode_vsub : decode 0x4150_3C2A_8380_0D00 = .ok (.vsub true ⟨⟨5, false⟩, .n8, 30, .v 42, .src (.s 7)⟩) := rfl
theorem test_decode_vmul : decode 0x4250_3C2A_8380_0600 = .ok (.vmul false ⟨⟨5, false⟩, .i64, 30, .v 42, .src (.s 7)⟩) := rfl
theorem test_decode_vmulh : decode 0x4350_3C2A_8380_0100 = .ok (.vmulh ⟨⟨5, false⟩, .n32, 30, .v 42, .src (.s 7)⟩) := rfl
theorem test_decode_vmad : decode 0x4459_FD90_0670_0A00 = .ok (.vmad true ⟨⟨5, true⟩, .i16, 254, .lane, .src (.v 12), .imm 0⟩) := rfl
theorem test_decode_vlog : decode 0x4550_0806_0000_3700 = .ok (.vlog .not ⟨⟨5, false⟩, .n64, 4, .v 6⟩ none) := rfl
theorem test_decode_vshl : decode 0x4650_3C2A_8380_0400 = .ok (.vshl ⟨⟨5, false⟩, .i8, 30, .v 42, .src (.s 7)⟩) := rfl
theorem test_decode_vshr : decode 0x4750_3C2A_8380_0300 = .ok (.vshr ⟨⟨5, false⟩, .n16, 30, .v 42, .src (.s 7)⟩) := rfl
theorem test_decode_vsra : decode 0x4850_3C2A_8380_0000 = .ok (.vsra ⟨⟨5, false⟩, .i32, 30, .v 42, .src (.s 7)⟩) := rfl
theorem test_decode_vmin : decode 0x4950_3C2A_8380_0700 = .ok (.vmin ⟨⟨5, false⟩, .n64, 30, .v 42, .src (.s 7)⟩) := rfl
theorem test_decode_vmax : decode 0x4A50_3C2A_8380_0600 = .ok (.vmax ⟨⟨5, false⟩, .i64, 30, .v 42, .src (.s 7)⟩) := rfl
theorem test_decode_vabs : decode 0x4B50_0806_0000_0A00 = .ok (.vabs true ⟨⟨5, false⟩, .i16, 4, .v 6⟩) := rfl
theorem test_decode_vcmp : decode 0x4C50_C806_0480_2900 = .ok (.vcmp ⟨5, false⟩ .ge .n32 3 2 (.v 6) (.src (.v 9))) := rfl
theorem test_decode_vsel : decode 0x4D59_FD90_0670_0000 = .ok (.vsel ⟨⟨5, true⟩, .i32, 254, .lane, .src (.v 12), .imm 0⟩) := rfl
theorem test_decode_vmov : decode 0x4E50_0986_0000_0300 = .ok (.vmov ⟨⟨5, false⟩, .n16, 4, .m 6⟩) := rfl
theorem test_decode_vmovi : decode 0x4F50_1002_FFFF_FFF8 = .ok (.vmovi ⟨5, false⟩ .n64 8 0xFFFFFFF8#32) := rfl
theorem test_decode_vcvt : decode 0x5050_0806_0000_089D = .ok (.vcvt ⟨5, false⟩ .fs .f32 ⟨.sr, true⟩ 4 (.v 6) 9) := rfl
theorem test_decode_vpopc : decode 0x5150_0806_0000_0100 = .ok (.vpopc ⟨⟨5, false⟩, .n32, 4, .v 6⟩) := rfl
theorem test_decode_vclz : decode 0x5250_0806_0000_0400 = .ok (.vclz ⟨⟨5, false⟩, .i8, 4, .v 6⟩) := rfl
theorem test_decode_vbfx : decode 0x5359_FD90_0670_0500 = .ok (.vbfx ⟨⟨5, true⟩, .n8, 254, .lane, .src (.v 12), .imm 0⟩) := rfl
theorem test_decode_vbfi : decode 0x5459_FD90_0670_0000 = .ok (.vbfi ⟨⟨5, true⟩, .i32, 254, .lane, .src (.v 12), .imm 0⟩) := rfl
theorem test_decode_vfadd : decode 0x6050_3C29_F080_0009 = .ok (.vfadd ⟨⟨5, false⟩, .f32, 30, .v 41, .src (.imm 33)⟩ ⟨.rz, true⟩) := rfl
theorem test_decode_vfsub : decode 0x6150_3C29_F080_0102 = .ok (.vfsub ⟨⟨5, false⟩, .f16, 30, .v 41, .src (.imm 33)⟩ ⟨.ru, false⟩) := rfl
theorem test_decode_vfmul : decode 0x6250_3C29_F080_0203 = .ok (.vfmul ⟨⟨5, false⟩, .bf16, 30, .v 41, .src (.imm 33)⟩ ⟨.rd, false⟩) := rfl
theorem test_decode_vfma : decode 0x6354_3C29_05B0_004C = .ok (.vfma ⟨⟨5, false⟩, .f32, 30, .v 41, .cw 3 9#17, .v 11⟩ ⟨.rna, false⟩) := rfl
theorem test_decode_vfmin : decode 0x6450_3C29_F080_0100 = .ok (.vfmin ⟨⟨5, false⟩, .f16, 30, .v 41, .src (.imm 33)⟩) := rfl
theorem test_decode_vfmax : decode 0x6550_3C29_F080_0000 = .ok (.vfmax ⟨⟨5, false⟩, .f32, 30, .v 41, .src (.imm 33)⟩) := rfl
theorem test_decode_vfcmp : decode 0x6650_C806_0480_1A00 = .ok (.vfcmp ⟨5, false⟩ .un .bf16 3 2 (.v 6) (.src (.v 9))) := rfl
theorem test_decode_vmed3 : decode 0x6750_3C29_150A_C000 = .ok (.vmed3 ⟨⟨5, false⟩, .f32, 30, .v 41, .src (.v 42), .v 43⟩) := rfl
theorem test_decode_vfrcp : decode 0x6850_3C29_0000_0000 = .ok (.vfrcp ⟨⟨5, false⟩, .f32, 30, .v 41⟩) := rfl
theorem test_decode_vfrsq : decode 0x6950_3C29_0000_0100 = .ok (.vfrsq ⟨⟨5, false⟩, .f16, 30, .v 41⟩) := rfl
theorem test_decode_vfexp2 : decode 0x6A50_3C29_0000_0200 = .ok (.vfexp2 ⟨⟨5, false⟩, .bf16, 30, .v 41⟩) := rfl
theorem test_decode_vflog2 : decode 0x6B50_3C29_0000_0000 = .ok (.vflog2 ⟨⟨5, false⟩, .f32, 30, .v 41⟩) := rfl
theorem test_decode_vfcls : decode 0x6C50_3C29_0000_0100 = .ok (.vfcls ⟨⟨5, false⟩, .f16, 30, .v 41⟩) := rfl
theorem test_decode_vshfl : decode 0x7050_0404_0300_0100 = .ok (.vshfl ⟨5, false⟩ true 2 4 (.v 6)) := rfl
theorem test_decode_vbcast : decode 0x7150_0405_F500_0000 = .ok (.vbcast ⟨5, false⟩ false 2 5 (.imm 42)) := rfl
theorem test_decode_vred : decode 0x7212_1203_0000_0400 = .ok (.vred ⟨1, false⟩ .add .f32 ⟨.rn, false⟩ (.s 9) (.v 3)) := rfl
theorem test_decode_vscan : decode 0x7350_0403_8200_1100 = .ok (.vscan ⟨5, false⟩ .max .n32 ⟨.rn, false⟩ 2 (.v 3) (.s 4)) := rfl
theorem test_decode_vcmpr : decode 0x7450_0403_0000_0000 = .ok (.vcmpr ⟨5, false⟩ false 2 3) := rfl
theorem test_decode_fswap : decode 0x7856_05E3_8200_0190 = .ok (.fswap ⟨5, false⟩ true 2 (.basic (.imm 35)) (.s 4) 9) := rfl
theorem test_decode_ffence : decode 0x7900_0000_0000_0000 = .ok (.ffence ⟨0, false⟩) := rfl
theorem test_decode_fqry : decode 0x7A52_0400_0000_04F0 = .ok (.fqry ⟨5, false⟩ 2 4 15) := rfl
theorem test_decode_qnt : decode 0x7B12_2915_8B45_C230 = .ok (.qnt ⟨1, false⟩ false (.s 20) (.s 21) (.s 22) (.s 23) .e8m0 3 ⟨.rn, false⟩) := rfl
theorem test_decode_dqnt : decode 0x7C54_1115_8B78_413B = .ok (.dqnt ⟨5, false⟩ true 8 (.s 21) (.s 22) (.imm 33) .e5m3 3 ⟨.rd, true⟩) := rfl
theorem test_decode_vld : decode 0x8054_1304_0392_CFFE = .ok (.vld ⟨⟨5, false⟩, true, 9, .s 4, .v 7, 0x3FE#10, .b2, .acq, .dev, false, true, true⟩) := rfl
theorem test_decode_vst : decode 0x8150_1192_C835_2005 = .ok (.vst ⟨⟨5, false⟩, false, 8, .zero, .lane, 5#10, .b8, .rel, .sys, true, false, false⟩) := rfl
theorem test_decode_vlds : decode 0x8250_1304_F420_0001 = .ok (.vlds ⟨⟨5, false⟩, false, 9, .s 4, .imm 40, 1#10, .b4, .rlx, .grp, false, false, false⟩) := rfl
theorem test_decode_vsts : decode 0x8354_1304_8280_6800 = .ok (.vsts ⟨⟨5, false⟩, true, 9, .s 4, .s 5, 0#10, .b1, .rlx, .team, true, true, false⟩) := rfl
theorem test_decode_sld : decode 0x8456_1304_C903_45FF = .ok (.sld ⟨5, false⟩ true 9 (.s 4) 511#10 .b1 .acq .fab false true) := rfl
theorem test_decode_sst : decode 0x8553_C304_C934_A200 = .ok (.sst ⟨5, false⟩ false (.imm 33) (.s 4) 512#10 .b8 .rel .clu true) := rfl
theorem test_decode_ldsl : decode 0x8650_1304_03A2_C002 = .ok (.ldsl ⟨⟨5, false⟩, false, 9, .s 4, .v 7, 2#10, .b4, .acq, .dev⟩) := rfl
theorem test_decode_stsl : decode 0x8754_1304_0385_0002 = .ok (.stsl ⟨⟨5, false⟩, true, 9, .s 4, .v 7, 2#10, .b1, .rel, .sys⟩) := rfl
theorem test_decode_atom : decode 0x8850_1304_03E6_F802 = .ok (.atom ⟨5, false⟩ false 9 (.s 4) (.v 7) 2#10 .n32 .max .ar .dev true) := rfl
theorem test_decode_acas : decode 0x8900_1106_0120_6010 = .ok (.acas ⟨0, false⟩ false 8 (.s 6) (.v 2) 16#10 false .rlx .team true) := rfl
theorem test_decode_ldr : decode 0x8A50_1504_03B2_C002 = .ok (.ldr ⟨⟨5, false⟩, false, 10, .s 4, .v 7, 2#10, true, .acq, .dev⟩) := rfl
theorem test_decode_stc : decode 0x8B54_1704_03A5_0002 = .ok (.stc ⟨⟨5, false⟩, true, 11, .s 4, .v 7, 2#10, false, .rel, .sys⟩) := rfl
theorem test_decode_fence : decode 0x8C54_0000_0009_0000 = .ok (.fence ⟨5, false⟩ true .sc .sys) := rfl
theorem test_decode_cmaint : decode 0x8D50_0104_0384_9001 = .ok (.cmaint ⟨5, false⟩ false .cinv true .clu (.s 4) (.v 7) 1#10) := rfl
theorem test_decode_slalloc : decode 0xA052_13E8_8280_0700 = .ok (.slalloc ⟨5, false⟩ 9 (.imm 40) (.s 5) true .derived) := rfl
theorem test_decode_slfree : decode 0xA156_1200_0000_0000 = .ok (.slfree ⟨5, false⟩ true (.s 9)) := rfl
theorem test_decode_slrenew : decode 0xA252_1392_0000_0000 = .ok (.slrenew ⟨5, false⟩ false (.s 9) .zero) := rfl
theorem test_decode_slqry : decode 0xA352_1109_0000_0700 = .ok (.slqry ⟨5, false⟩ 8 (.s 9) 3 true) := rfl
theorem test_decode_crib : decode 0xA456_130A_85C3_0B00 = .ok (.crib ⟨5, false⟩ true (.s 9) (.s 10) (.s 11) (some 12) 3 true) := rfl
theorem test_decode_crtouch : decode 0xA552_130A_0000_0500 = .ok (.crtouch ⟨5, false⟩ false (.s 9) 10 true false true) := rfl
theorem test_decode_crdrop : decode 0xA652_1200_0000_0000 = .ok (.crdrop ⟨5, false⟩ (.s 9)) := rfl
theorem test_decode_mma : decode 0xB003_C30A_85E4_8899 = .ok (.mma ⟨0, false⟩ false 1 (.imm 33) (.s 10) (.s 11) .zero 9 9) := rfl
theorem test_decode_mzero : decode 0xB103_C000_0000_0800 = .ok (.mzero ⟨0, false⟩ false 1 (.imm 32)) := rfl
theorem test_decode_mstz : decode 0xB207_C50C_8680_0B90 = .ok (.mstz ⟨0, false⟩ true 1 (.imm 34) (.s 12) (.s 13) .tileA 9 ⟨.rn, false⟩) := rfl
theorem test_decode_mldz : decode 0xB306_0B06_0000_3800 = .ok (.mldz ⟨0, false⟩ true 7 (.s 5) (.s 6)) := rfl
theorem test_decode_mver : decode 0xB402_0A00_0000_3000 = .ok (.mver ⟨0, false⟩ 5 6) := rfl
theorem test_decode_cpy : decode 0xC056_0302_81C1_0000 = .ok (.cpy ⟨5, false⟩ true 1 (.s 2) (.s 3) (.s 4)) := rfl
theorem test_decode_gath : decode 0xC152_0302_8241_C100 = .ok (.gath ⟨5, false⟩ false 1 (.s 2) 4 (.slate (.s 7))) := rfl
theorem test_decode_bseal : decode 0xC253_DE00_0000_0000 = .ok (.bseal ⟨5, false⟩ (.imm 47)) := rfl
theorem test_decode_bwait : decode 0xC353_C506_0000_0100 = .ok (.bwait ⟨5, false⟩ (.imm 34) (some 6)) := rfl
theorem test_decode_bari : decode 0xD052_07EF_0000_0000 = .ok (.bari ⟨5, false⟩ (.s 3) (.set (.imm 47))) := rfl
theorem test_decode_bara : decode 0xD156_0704_0000_0000 = .ok (.bara ⟨5, false⟩ true (.s 3) 4) := rfl
theorem test_decode_barw : decode 0xD252_0704_8280_0100 = .ok (.barw ⟨5, false⟩ (.s 3) (.s 4) (some 5)) := rfl
theorem test_decode_tray : decode 0xD350_0790_0300_0000 = .ok (.tray ⟨5, false⟩ false (.v 3) .lane (.v 6)) := rfl
theorem test_decode_depdec : decode 0xD456_0604_0000_0000 = .ok (.depdec ⟨5, false⟩ true (.s 3) (.v 4)) := rfl
theorem test_decode_rclaim : decode 0xD552_0704_F080_0100 = .ok (.rclaim ⟨5, false⟩ true 3 (.s 4) (.imm 33)) := rfl
theorem test_decode_rcommit : decode 0xD652_0704_F080_0000 = .ok (.rcommit ⟨5, false⟩ false (.s 3) (.s 4) (.imm 33)) := rfl
theorem test_decode_rawait : decode 0xD752_0704_8280_0000 = .ok (.rawait ⟨5, false⟩ false 3 (.s 4) (.s 5)) := rfl
theorem test_decode_rretire : decode 0xD856_0704_8280_0000 = .ok (.rretire ⟨5, false⟩ true (.s 3) (.s 4) (.s 5)) := rfl
theorem test_decode_qpush : decode 0xD950_0600_0000_0000 = .ok (.qpush ⟨5, false⟩ (.v 3)) := rfl
theorem test_decode_qpop : decode 0xDA50_0600_0000_0000 = .ok (.qpop ⟨5, false⟩ 3) := rfl
theorem test_decode_tlbinv : decode 0xE056_0704_F200_0000 = .ok (.tlbinv ⟨5, false⟩ true (.s 3) (.s 4) (.imm 36)) := rfl
theorem test_decode_header : decode 0xF800_0128_0000_0000 = .ok (.clauseHeader (.clause 0 (some 1) (some 2) 4 false false false)) := rfl
theorem test_decode_region_header : decode 0xF880_8FBF_4000_0000 = .ok (.clauseHeader (.clause 0x808 none (some 11) 7 true true false)) := rfl
theorem test_decode_end_mark : decode 0xF812_3000_8000_0005 = .ok (.clauseHeader .endMark) := rfl

/-! ## Worked examples of the manual -/

/-- A group on core 0 that stands at a word of its clause. -/
def L : State := State.reset.load 0
/-- The same group with 16 lanes, m1 = 000F and m2 = B206 (the examples of R325 and R374). -/
def L16 : State :=
  (L.modGrp fun g => { g with shape := { g.shape with width := 16 }, a0 := { g.a0 with mask := lanesBelow 16 }
                              regs := { g.regs with m := [(1, 0x000F#64), (2, 0xB206#64)]
                                                    v := [(3 * 64, 0x4B800000#32), (3 * 64 + 1, 0x3F800000#32),
                                                          (3 * 64 + 2, 0x3F800000#32), (3 * 64 + 3, 0xCB800000#32)] } })
def after (o : Host.Outcome State Fault Refusal) : State := match o with | .next t => t | _ => State.reset
def G1 : Guard := ⟨1, false⟩

/-- R325's example. -/
theorem test_mpopc : (after (exec (.mpopc gA 5 2) L16)).readS 5 = 6 := by decide
theorem test_mffs : (after (exec (.mffs gA false 5 2) L16)).readS 5 = 1 := by decide
theorem test_mffs_last : (after (exec (.mffs gA true 5 2) L16)).readS 5 = 15 := by decide
theorem test_mbal_rank : let t := after (exec (.mbal gA (.rank 7 2)) L16)
    t.readV 7 13 = 4 ∧ t.readV 7 15 = 5 ∧ t.readV 7 0 = 0 := by decide
/-- R374's example: one rounding of the exact sum. -/
theorem test_vred_add : (after (exec (.vred G1 .add .f32 ⟨.rn, false⟩ (.s 9) (.v 3)) L16)).readS 9 = 0x40000000 := by decide
theorem test_vscan_add : let t := after (exec (.vscan G1 .add .f32 ⟨.rn, false⟩ 5 (.v 3) .zero) L16)
    t.readV 5 0 = 0x4B800000 ∧ t.readV 5 1 = 0x4B800000 ∧ t.readV 5 2 = 0x4B800001 ∧ t.readV 5 3 = 0x40000000 ∧
      t.readV 5 4 = 0 := by decide
/-- R341's example, under .i32 and .n32. -/
theorem test_sbfx : (after (exec (.sbfx ⟨gA, .i32, 2, .s 1, .src (.imm 52), .imm 36⟩) (L.writeS 1 0xF00000))).readS 2 =
    0xFFFFFFFFFFFFFFFF := by decide
theorem test_sbfx_unsigned : (after (exec (.sbfx ⟨gA, .n32, 2, .s 1, .src (.imm 52), .imm 36⟩) (L.writeS 1 0xF00000))).readS 2 =
    0xF := by decide
/-- R340: the quotient of the least value by −1 is that value, and the remainder 0. -/
theorem test_sdiv_least : (after (exec (.sdiv false ⟨gA, .i8, 2, .s 1, .src (.imm 31)⟩) (L.writeS 1 0x80))).readS 2 =
    0xFFFFFFFFFFFFFF80 := by decide
theorem test_sdiv_least_rem : (after (exec (.sdiv true ⟨gA, .i8, 2, .s 1, .src (.imm 31)⟩) (L.writeS 1 0x80))).readS 2 = 0 := by
  decide
/-- R362: VABS of the least value, without and with .sat. -/
theorem test_vabs_least : (after (exec (.vabs false ⟨gA, .i16, 2, .v 1⟩) (L.writeV 1 5 0x8000))).readV 2 5 = 0xFFFF8000 := by decide +kernel
theorem test_vabs_least_sat : (after (exec (.vabs true ⟨gA, .i16, 2, .v 1⟩) (L.writeV 1 5 0x8000))).readV 2 5 = 0x7FFF := by decide +kernel
/-- R339, R340: a sum that wraps, and one that saturates. -/
theorem test_sadd_wraps : (after (exec (.sadd false ⟨gA, .i32, 2, .s 1, .src (.imm 33)⟩) (L.writeS 1 0x7FFFFFFF))).readS 2 =
    0xFFFFFFFF80000000 := by decide
theorem test_sadd_saturates : (after (exec (.sadd true ⟨gA, .i32, 2, .s 1, .src (.imm 33)⟩) (L.writeS 1 0x7FFFFFFF))).readS 2 =
    0x7FFFFFFF := by decide
/-- R343: SMOVI.hi keeps the low half. -/
theorem test_smovi_hi : (after (exec (.smovi gA .hi 2 0xDEADBEEF) (L.writeS 2 0x12345678))).readS 2 = 0xDEADBEEF12345678 := by decide
/-- Worked rounding of GY8: 15.5 rounds to 16, 2.6·2^20 to infinity or the greatest value, 1.6·2^20 to 2^20, the tie to infinity. -/
theorem test_gy8_rounds : gy8.round ⟨.rn, false⟩ 0 (.num false 31 (-1)) = 0x50 ∧
    gy8.round ⟨.rn, false⟩ 0 (.num false 26 17) = 0x40 ∧ gy8.round ⟨.rn, false⟩ 0 (.num false 13 17) = 0x41 := by decide +kernel
theorem test_gy8_tie_and_sat : gy8.round ⟨.rn, false⟩ 0 (.num false 5 19) = 0x40 ∧ gy8.round ⟨.rn, true⟩ 0 (.num false 5 19) = 0x41 := by
  set_option maxRecDepth 30000 in decide
/-- R89: a NaN scale, and a zero scale under E5M3. -/
theorem test_dequantised : dquant .e5m3 ⟨.rn, false⟩ 0 (.num true 3 0) (scaleDecode .e5m3 0xFF) (.num false 1 0) = 0x7FC00000 ∧
    dquant .e5m3 ⟨.rn, false⟩ 0 (.num true 3 0) (scaleDecode .e5m3 0) (.num false 1 0) = 0 := by decide
/-- R197's table: an empty ring of eight granules at positions 100, and the block after steps 1, 2 and 4, and after step 6. -/
def ring0 : RingBlk := ⟨0x2000, 3, 3, false, 100, 100, 100, 100, 0, 0, false⟩
def ring4 : RingBlk := { ring0 with claim := 105, cbits := 0x18 }
def ring6 : RingBlk := { ring0 with claim := 105, tail := 105 }
theorem test_ring_claims : ring0.claimN 3 = some (100, { ring0 with claim := 103 }) ∧
    ({ ring0 with claim := 103 } : RingBlk).claimN 2 = some (103, { ring0 with claim := 105 }) := by decide
theorem test_ring_commits : ({ ring0 with claim := 105 } : RingBlk).commit 103 2 = some ring4 ∧ ring4.claimN 4 = none ∧
    ring4.commit 100 3 = some ring6 := by decide
theorem test_ring_consumes : ring6.awaitN 4 = some (100, { ring6 with aclaim := 104 }) ∧
    ({ ring6 with aclaim := 104 } : RingBlk).retire 100 4 = some { ring6 with aclaim := 104, head := 104 } ∧
    ({ ring6 with aclaim := 104, head := 104 } : RingBlk).claimN 4 = some (105, { ring6 with claim := 109, aclaim := 104, head := 104 }) := by
  decide
/-- R286: of two members, the first arrival keeps the phase, the second starts the next one; a member arrives once a phase. -/
def bar7 : Bar := ⟨3, 2, 0, 0, 7, 0⟩
theorem test_barrier_phase : bar7.arrive 0 = some ⟨3, 2, 1, 0, 7, 1⟩ ∧ (⟨3, 2, 1, 0, 7, 1⟩ : Bar).arrive 1 = some ⟨3, 2, 0, 0, 8, 0⟩ ∧
    (⟨3, 2, 1, 0, 7, 1⟩ : Bar).arrive 0 = none := by decide
/-- R281, R264: B.any jumps eight bytes a word from its header where a tested lane is set, and goes on where none is. -/
theorem test_b_taken : (after (exec (.bmask gA (some (.any, 2)) 3) L16)).arm.pc = 0x1018 := by decide
theorem test_b_not_taken : (after (exec (.bmask gA (some (.all, 2)) 3) L16)).arm.pc = 0x1010 := by decide
/-- R41: CALL's return address is the header after its clause, which the RET then takes. -/
theorem test_call : let t := after (exec (.call ⟨gA, none, 16⟩) L)
    t.arm.pc = 0x1080 ∧ t.arm.rets = [.plain 0x1010] := by decide
theorem test_ret : (after (exec (.ret gA) (after (exec (.call ⟨gA, none, 16⟩) L)))).arm.pc = 0x1010 := by decide
/-- R37: the child takes the lanes of the mask, the parent keeps the others. -/
theorem test_fork : let t := after (exec (.fork gA false 2 16) L16)
    t.grp.a0.mask = 0x4DF9 ∧ t.grp.a1.mask = 0xB206 ∧ t.grp.a1.pc = 0x1080 ∧ t.grp.a0.pc = 0x1010 := by decide
/-- R344: SLALLOC of one leaf in an empty store gives slate address 0, and the second one 2048. -/
theorem test_slalloc : (after (exec (.slalloc gA 3 (.imm 33) (.imm 63) false .scratch)
    (after (exec (.slalloc gA 3 (.imm 33) (.imm 63) false .scratch) L)))).readS 3 = 2048 := by decide +kernel
/-- R358, R375: a store of lane 1 leaves its bytes in memory, little-endian, and a load brings a sign-extended byte back. -/
theorem test_vst : let s := ((L16.writeS 1 0x2000).writeV 2 1 4).writeV 3 1 0xABCD
    let t := after (exec (.vst ⟨G1, false, 3, .s 1, .v 2, 0, .b2, .rlx, .grp, false, false, false⟩)
      (s.modGrp fun g => { g with regs := { g.regs with m := [(1, 2#64)] } }))
    t.mem.byte 0x2004 = 0xCD ∧ t.mem.byte 0x2005 = 0xAB ∧ t.mem.byte 0x2000 = 0 := by decide
theorem test_sst : let t := after (exec (.sst gA false (.s 2) (.s 1) 1 .b4 .rlx .grp false) ((L.writeS 1 0x2000).writeS 2 0x11223344))
    t.mem.byte 0x2004 = 0x44 ∧ t.mem.byte 0x2007 = 0x11 ∧ t.mem.byte 0x2008 = 0 := by decide
/-- R31: a store counts on the flag its clause names. -/
theorem test_flag_counts : (after (exec (.sst gA true (.s 2) (.s 1) 1 .b4 .rlx .grp false) (L.writeS 1 0x2000))).arm.flag 1 = 1 := by
  decide
/-- R340: DIV_ZERO without a handler kills the group, and the event names code 0x45 (R227, R228). -/
theorem test_div_zero_kills : (after (exec (.sdiv false ⟨gA, .i64, 2, .s 1, .src .zero⟩) L)).pm.events.map (·.code) = [0x45] := by decide

/-! ## Witnesses: each statement's hypotheses are met together -/

/-- `Runs` as a test. -/
def runsB (i : Info) (s : State) : Bool :=
  s.grp.live && s.infoOk i && s.arm.park.isNone && s.arm.back.isNone && !s.mustWait i && (s.linesAbsent i).isEmpty && s.grp.badLines.isEmpty &&
    (i.lanewise || (if i.long.isSome then s.selOf i.g != 0 || (i.ctl && s.executes i.g (s.selOf i.g)) else s.executes i.g (s.selOf i.g)))

theorem runs_of {i : Info} {s : State} (h : runsB i s = true) : Runs i s := by
  simp only [runsB, Bool.and_eq_true, Bool.or_eq_true, Bool.not_eq_true', List.isEmpty_iff, Option.isNone_iff_eq_none] at h
  obtain ⟨⟨⟨⟨⟨⟨⟨h1, h2⟩, h3⟩, hb⟩, h4⟩, h5⟩, h6⟩, h7⟩ := h
  refine ⟨h1, h2, h3, hb, h4, h5, h6, fun hw => ⟨fun hl => ?_, fun hl => ?_⟩⟩
  · rcases h7 with h7 | h7
    · simp [hw] at h7
    · simpa [hl, bne_iff_ne] using h7
  · rcases h7 with h7 | h7
    · simp [hw] at h7
    · simpa [hl] using h7

/-- Operands of the witnesses. -/
def sop2 : SOp2 := ⟨gA, .i32, 3, .s 1, .src (.imm 37)⟩
def sop3 : SOp3 := ⟨gA, .i32, 3, .s 1, .src (.imm 37), .s 4⟩
def vop1 : VOp1 := ⟨gA, .i64, 4, .v 2⟩
def vop2 : VOp2 := ⟨gA, .i32, 3, .v 1, .src (.imm 37)⟩
def vop3 : VOp3 := ⟨gA, .n16, 3, .v 1, .src (.imm 37), .v 4⟩
def fop2 : FOp2 := ⟨gA, .f32, 3, .v 1, .src (.imm 37)⟩
def fop3 : FOp3 := ⟨gA, .f32, 3, .v 1, .src (.imm 37), .v 4⟩

theorem witness_EncodedWordsDecodeBack : (Instr.sadd true sop2).isWord = true ∧ (Instr.sadd true sop2).wf = true := by decide
theorem witness_WordsHaveOneMeaning : decode 0 = .ok .nop ∧ Instr.nop ≠ .clauseHeader .endMark := ⟨rfl, by decide⟩
theorem witness_EndMarks : (0xF812_3000_8000_0005#64).toNat / 2 ^ 56 = 0xF8 ∧ (0xF812_3000_8000_0005#64).getLsbD 31 = true ∧
    L.grp.live = true := by decide
theorem L_inv : Inv L := ⟨by decide, by decide, by decide⟩
theorem witness_EveryStepKeepsTheInvariant : Inv L ∧ ∃ s', step L = .next s' := ⟨L_inv, _, rfl⟩
/-- The loaded group's monitor wave, about to issue. -/
def Lmon0 : State := { L with grp := { L.grp with mon := { L.grp.mon with st := .live, arm := L.grp.a0 } } }
theorem witness_StepRuns_event : ({ L with agenda := [.event .cxlConfigReady] } : State).agenda = .event .cxlConfigReady :: [] := rfl
/-- The state in which the core's opportunity comes. -/
def Lu : State := State.trimCore { L.tick with agenda := [] } 0
theorem witness_StepRuns_issue : ∃ g v t c' quads, L.agenda = .issue ⟨0, 0⟩ .arm0 :: [] ∧
    (Lu.offered 0 .arm0).head? = some (⟨0, 0⟩, .arm0) ∧ Lu.groupAt ⟨0, 0⟩ = some g ∧ g.ready .arm0 = true ∧ Lu.coreRuns g = true ∧
    (Lu.focus ⟨0, 0⟩ .arm0).ringWait = none ∧ (Lu.focus ⟨0, 0⟩ .arm0).depUnderflow = none ∧
    (Lu.focus ⟨0, 0⟩ .arm0).takeRedo.fetchWord = .ok (0, v) ∧ decode 0 = .ok .nop ∧
    ((v.endTouches v.who).arm.cl.left = 0 ↔ (0 : Word).toNat / 2 ^ 56 = 0xF8) ∧ exec .nop (v.endTouches v.who) = .next t ∧
    Lu.throttled g (issueClass .nop) = false ∧
    (Lu.coreAt 0).cycle.add ⟨0, 0⟩ (issueClass .nop) g.shape (Lu.queueOf g) = some (c', quads) ∧
    ∃ h, t.groupAt ⟨0, 0⟩ = some h ∧ g.stands h .arm0 = false :=
  ⟨_, _, _, _, _, rfl, rfl, rfl, rfl, rfl, rfl, rfl, rfl, rfl, by decide, rfl, rfl, rfl, _, rfl, rfl⟩
theorem witness_StepRuns_mon : ∃ g, (Lmon0.tick.focus ⟨0, 0⟩ .mon).who = .mon ∧ Lmon0.groupAt ⟨0, 0⟩ = some g ∧ g.ready .mon = true ∧
    Lmon0.coreRuns g = true := ⟨_, rfl, rfl, by decide, by decide⟩
theorem witness_StepRuns_none : ({ L with agenda := [] } : State).tick.defaultTurn = some (⟨0, 0⟩, .arm1) ∧ State.reset.tick.defaultTurn = none :=
  ⟨rfl, rfl⟩
theorem witness_StepRuns_opportunity : ∃ g, L.groupAt ⟨0, 0⟩ = some g ∧ g.ready .arm0 = true ∧ L.coreRuns g = true ∧ g.turnOf .arm0 = .arm0 :=
  ⟨_, rfl, by decide, by decide, by decide⟩
/-- The group at its header, about to fetch a word where a header must stand. -/
def Lh (w : Nat) : State := ({ State.reset.load w with who := .arm0 } : State).modArm fun a => { a with cl := Clause.start, jumped := true }
theorem witness_StepRuns_words : (L.modArm fun a => { a with cl := { a.cl with words := [7] } }).arm.cl.words = 7 :: [] ∧ L.localTr L.grp.part L.core .fetch L.arm.pc = .ok 0x1008 1 := ⟨rfl, by decide⟩
theorem witness_StepRuns_fetch : let s := Lh 0
    s.arm.cl.words = [] ∧ (∀ p, s.arm.park = some p → p.fail = none) ∧ s.arm.pc < 2 ^ 71 ∧ s.arm.pc % 8 = 0 ∧
    s.localTr s.grp.part s.core .fetch s.arm.pc = .ok 0x1008 1 ∧
    ((s.useVa s.grp.part s.core s.arm.pc 0x1008 1).recall (0x1008 / 128)).poisonAt 0x1008 8 = false := by
  refine ⟨rfl, fun p h => (by cases h), ?_⟩; decide
theorem witness_StepRuns_redo : L.nextRedo = none ∧
    (L.modGrp fun g => { g with redo := [⟨.arm0, 2, 0, 0x1008, L.arm.cl, false⟩] }).nextRedo.isSome = true := by decide
/-- What the statements about fetched words assume of the word that a control thread fetches. -/
def Fetches (s : State) (w : Word) (v : State) : Prop :=
  (s.nextRedo.isSome = true ∨ s.arm.back.isSome = true ∨ s.ringWait = none) ∧ s.depUnderflow = none ∧
    ∃ u, s.takeRedo.fetchWord = .ok (w, u) ∧ v = u.endTouches u.who
theorem witness_WordsThatCannotRun_target : ∃ v, Fetches (Lh 0) 0 v ∧ v.arm.cl.left = 0 ∧ ¬(0 : Word).toNat / 2 ^ 56 = 0xF8 :=
  ⟨_, ⟨.inr (.inr rfl), rfl, _, rfl, rfl⟩, by decide, by decide⟩
theorem witness_WordsThatCannotRun_header : ∃ v e, Fetches (State.reset.load 0xF8000000_00000000) 0xF8000000_00000000 v ∧
    v.arm.cl.left = 0 ∧ decode 0xF8000000_00000000 = .error e := ⟨_, _, ⟨.inr (.inr rfl), rfl, _, rfl, rfl⟩, by decide, rfl⟩
/-- A word that stands inside the clause of the loaded group. -/
def Lc (w : Nat) : State := L.modArm fun a => { a with cl := { a.cl with words := [BitVec.ofNat 64 w] } }
theorem witness_WordsThatCannotRun_inside : ∃ v i, Fetches (Lc 0xF8000000_80000000) 0xF8000000_80000000 v ∧
    v.arm.cl.left ≠ 0 ∧ decode 0xF8000000_80000000 = .ok i := ⟨_, _, ⟨.inr (.inr rfl), rfl, _, rfl, rfl⟩, by decide, rfl⟩
theorem witness_WordsThatCannotRun_none : ∃ v e, Fetches (Lc 0x99000000_00000000) 0x99000000_00000000 v ∧
    v.arm.cl.left ≠ 0 ∧ decode 0x99000000_00000000 = .error e := ⟨_, _, ⟨.inr (.inr rfl), rfl, _, rfl, rfl⟩, by decide, rfl⟩
theorem witness_Regions_enter : L.grp.live = true ∧ L.who ≠ .mon ∧ (∀ x ∈ L.grp.eng.recs, x.2.st ≠ 3) ∧
    L.arm.pc % 64 + 8 * ((3 : Fin 8).val + 1) ≤ 64 ∧ (∀ f, f < 12 → (8#12).getLsbD f = true → L.arm.flag f = 0) ∧ L.grp.two = false := by decide
theorem witness_Regions_enter_two : ({ L with grp := { L.grp with two := true } } : State).grp.two = true := rfl
theorem witness_Regions_leave : let s := L.modArm fun a => { a with cl := { a.cl with nr := true } }
    s.arm.cl.nr = true ∧ s.who ≠ .mon ∧ s.arm.back = none ∧ s.arm.cl.left = 1 := by decide
theorem witness_Regions_both : let w : Word := 0xF800_0003_2000_0000
    w.toNat / 2 ^ 56 = 0xF8 ∧ w.getLsbD 31 = false ∧ w.getLsbD 32 = true ∧ w.getLsbD 29 = true ∧
      ∃ v, Fetches (State.reset.load 0xF800_0003_2000_0000) w v ∧ v.arm.cl.left = 0 :=
  ⟨by decide, by decide, by decide, by decide, _, ⟨.inr (.inr rfl), rfl, _, rfl, rfl⟩, by decide⟩

theorem witness_EmptySelections : let i := ctl ⟨1, false⟩ []
    L.grp.live = true ∧ L.infoOk i = true ∧ L.arm.park = none ∧ L.arm.back = none ∧ L.mustWait i = false ∧ i.lanewise = false ∧
      L.selOf i.g = 0 ∧ (i.g.m.val ≠ 0 ∨ i.g.neg = true) ∧ i.long = none := by decide
theorem witness_EmptySelections_long : let i := longInfo ⟨1, false⟩ true [] [] [] true
    L.infoOk i = true ∧ L.mustWait i = false ∧ i.lanewise = false ∧ L.selOf i.g = 0 ∧ i.g.m.val ≠ 0 ∧ i.long = some true := by decide
theorem witness_IllegalRegisters : L.grp.live = true ∧
    (let s := L.modGrp fun g => { g with shape := { g.shape with vregs := 8, nacc := 2 } }
     (s.who ≠ .mon ∧ s.grp.shape.vregs ≤ 8) ∧ s.grp.shape.nacc ≤ 2) ∧
    (L.modArm fun a => { a with cl := { a.cl with seta := none } }).arm.cl.seta = none ∧ ({ L with who := .mon } : State).who = .mon ∧
    (L.modGrp fun g => { g with replayId := some ⟨0, 0, 0, 0, 0⟩ }).grp.replayId ≠ none ∧ (L.par L.grp.part).manager = false := by decide

/-! Scalar words. -/

theorem witness_ScalarResults : Runs sop2.info L ∧ ∃ r, sop2.b.read L (allLanes gA L) true = .ok r := ⟨runs_of (by decide), _, rfl⟩
theorem witness_ScalarDivision : Runs sop2.info L ∧ (∃ s', sop2.b.read L (allLanes gA L) true = .ok (5, s')) ∧ sop2.ty.read (5 : Word).toNat ≠ 0 :=
  ⟨runs_of (by decide), ⟨_, rfl⟩, by decide⟩
theorem witness_ScalarDivision_zero : let x : SOp2 := { sop2 with b := .src .zero }
    Runs x.info L ∧ (∃ s', x.b.read L (allLanes gA L) true = .ok (0, s')) ∧ x.ty.read (0 : Word).toNat = 0 :=
  ⟨runs_of (by decide), ⟨_, rfl⟩, by decide⟩
theorem witness_ScalarMoves : Runs sop3.info L ∧ (∃ r, sop3.b.read L (allLanes gA L) true = .ok r) ∧
    Runs (SOp1.info ⟨gA, .n8, 3, .s 1⟩) L ∧ Runs (ctl gA [3]) L := ⟨runs_of (by decide), ⟨_, rfl⟩, runs_of (by decide), runs_of (by decide)⟩
/-- The loaded group with a constant window of eight bytes at 0x1000. -/
def Lw : State := L.modGrp fun g => { g with cw := [(2, ⟨0x1000, 16⟩)] }
theorem witness_ScalarMoves_sldc : Runs (ctl gA [3]) Lw ∧ ∃ r, Lw.cwRead (allLanes gA Lw) 2 3 = .ok r := ⟨runs_of (by decide), _, rfl⟩
theorem witness_IntegerFunctions : (ITy.i8.lo ≤ -128 ∧ (-128 : Int) ≤ ITy.i8.hi) ∧ ((-129 : Int) < ITy.i8.lo) ∧ (ITy.i8.hi < 128) ∧
    (∀ x ∈ [(-128 : Int), 127], ITy.i8.lo ≤ x ∧ x ≤ ITy.i8.hi) ∧ 0xFFFFFFFF < 2 ^ (8 * atBytes .i32) ∧ AtTy.i32 ≠ .f32 := by decide
theorem witness_SpecialRegisters : Runs (ctl gA [3]) L ∧ Runs (ctl gA (SSrc.sregs (.s 4)) false) L ∧ Spr.qstat.writable = true ∧
    (Spr.qstat.trapOnly = true → L.grp.tr.tm = true) ∧ Spr.time.writable = false ∧ (Spr.tpcv.trapOnly = true ∧ L.grp.tr.tm = false) :=
  ⟨runs_of (by decide), runs_of (by decide), by decide⟩

/-! Masks and vector words. -/

theorem witness_MaskWords : Runs (lanes gA [] [] []) L ∧ Runs (lanes gA [] [] (SSrc.sregs (.s 4))) L ∧ Runs (lanes gA [] [3] []) L ∧
    Runs (lanes gA (VSrc.vregs false (.v 4)) [] (VSrc.sregs (.v 4)) false) L ∧ Runs (lanes gA [] [3] [] false) L ∧ Runs (ctl gA [3]) L :=
  ⟨runs_of (by decide), runs_of (by decide), runs_of (by decide), runs_of (by decide), runs_of (by decide), runs_of (by decide)⟩
theorem witness_VectorIntegers : Runs vop2.info L ∧ (∃ r, readB L (allLanes gA L) .i32 vop2.b = .ok r) ∧ Runs (vop3.info false) L ∧
    (∃ r, readB L (allLanes gA L) .n16 vop3.b = .ok r) := ⟨runs_of (by decide), ⟨_, rfl⟩, runs_of (by decide), _, rfl⟩
theorem witness_VectorMoves : Runs vop1.info L ∧ Runs (lanes gA [] (vdst 4 true) []) L ∧ Runs (vop3.info true) L ∧
    Runs { vop3.info true with vs := vdst vop3.d vop3.ty.wide ++ (vop3.info true).vs } L :=
  ⟨runs_of (by decide), runs_of (by decide), runs_of (by decide), runs_of (by decide)⟩
theorem witness_FieldBits : let w := ITy.i16.bits
    (0 = 0 ∨ w ≤ 3) ∧ (4 ≠ 0 ∧ 15 < w ∧ 15 < w) := by decide
theorem witness_Comparisons : Runs (lanes gA (VSrc.vregs true (.v 2) ++ VB.vregs true (.src (.v 4))) [] (VSrc.sregs (.v 2) ++ VB.sregs (.src (.v 4)))) L ∧
    (∃ r, readB L (allLanes gA L) .i64 (.src (.v 4)) = .ok r) ∧
    Runs (lanes gA (VSrc.vregs false (.v 2) ++ VB.vregs false (.src (.v 4))) [] (VSrc.sregs (.v 2) ++ VB.sregs (.src (.v 4))) false) L ∧
    (∃ r, readFB L (allLanes gA L) .f16 (.src (.v 4)) = .ok r) ∧ (2 : MReg).val ≠ 0 ∧ (1 : MReg) ≠ 2 :=
  ⟨runs_of (by decide), ⟨_, rfl⟩, runs_of (by decide), ⟨_, rfl⟩, by decide⟩
theorem witness_Conversions : Runs (lanes gA (VSrc.vregs CvtKind.fs.wide (.v 2)) (vdst 4 CvtKind.i64.wide) (VSrc.sregs (.v 2))) L ∧
    L.slotUse (allLanes gA L) 3 2 = .ok e4m3 := ⟨runs_of (by decide), rfl⟩
theorem witness_VectorFloats : Runs fop2.info L ∧ (∃ r, readFB L (allLanes gA L) .f32 fop2.b = .ok r) ∧ Runs fop3.info L ∧
    (∃ r, readFB L (allLanes gA L) .f32 fop3.b = .ok r) ∧ Runs (FOp1.info ⟨gA, .bf16, 3, .v 1⟩) L :=
  ⟨runs_of (by decide), ⟨_, rfl⟩, runs_of (by decide), ⟨_, rfl⟩, runs_of (by decide)⟩
theorem witness_FormatFunctions : (ftyFmt .f32).decode 0x7FC00000 = .nan ∧ (ftyFmt .f32).decode 0x3F800000 ≠ .nan ∧
    (∀ p ∈ [(true, 2 ^ 44 - 1), (false, 1)], p.2 < 2 ^ 44) ∧
    (FVal.nan ∈ [FVal.nan] ∨ ∀ m e, (FVal.num false 1 0) ≠ .num false (m + 1) e) ∧
    (∀ x ∈ [FVal.num true 0 0], ∃ n k, x = .num n 0 k) :=
  ⟨by decide, by decide, by decide, .inl (by decide), by intro x h; exact ⟨true, 0, by simpa using h⟩⟩
theorem witness_Lanes : Runs (lanes gA (vdst 2 true ++ VSrc.vregs false .lane) (vdst 4 true) (VSrc.sregs .lane) false) L ∧
    Runs (lanes gA (vdst 2 true) (vdst 4 true) (SSrc.sregs (.s 1)) false) L ∧ Runs (lanes gA (vdst 2 true) (vdst 4 true) [] false) L ∧
    Runs (lanes gA (VSrc.vregs false (.v 2)) [] (VSrc.sregs (.v 2) ++ [3]) false) L ∧
    Runs (lanes gA (VSrc.vregs false (.v 2)) (vdst 3 false) (VSrc.sregs (.v 2) ++ []) false) L ∧
    Runs (lanes gA (VSrc.vregs false (.v 2)) (vdst 3 false) (VSrc.sregs (.v 2) ++ SSrc.sregs (.s 1)) false) L :=
  ⟨runs_of (by decide), runs_of (by decide), runs_of (by decide), runs_of (by decide), runs_of (by decide), runs_of (by decide)⟩

/-! Control and traps. -/

theorem witness_Branches : Runs (ctl ⟨0, false⟩ []) L ∧
    (let x : BraOp := ⟨gA, some (.eqz, .s 9), 0xFFFFFE00#32⟩
     Runs (ctl x.g (braSregs x)) L ∧ (0 : Int) ≤ (L.arm.cl.hdr : Int) + 8 * x.off.toInt ∧
       (L.arm.cl.hdr : Int) + 8 * x.off.toInt < 2 ^ 71) ∧
    (L.arm.cl.hdr : Int) + 8 * (0xFFFFFDFF#32).toInt < 0 ∧
    (let s := L.modArm fun a => { a with cl := { a.cl with hdr := 2 ^ 71 - 8 } }
     (2 : Int) ^ 71 ≤ (s.arm.cl.hdr : Int) + 8 * (1#32).toInt) :=
  ⟨runs_of (by decide), ⟨runs_of (by decide), by decide, by decide⟩, by decide, by decide⟩
theorem witness_Branches_untaken : ¬(L.readS 9).toInt ≠ 0 := by decide
/-- The loaded group with a full return stack, and with one address on it. -/
def Lr (n : Nat) : State := L.modArm fun a => { a with rets := (List.range n).map fun k => .plain (8 * k) }
theorem witness_Calls : let x : BraOp := ⟨gA, none, 16⟩
    Runs (ctl x.g (braSregs x)) L ∧ braTaken x L = true ∧ L.arm.rets.length ≠ 256 ∧
      (0 : Int) ≤ (L.arm.cl.hdr : Int) + 8 * x.off.toInt ∧ (L.arm.cl.hdr : Int) + 8 * x.off.toInt < 2 ^ 71 :=
  ⟨runs_of (by decide), by decide⟩
theorem witness_Calls_full : let x : BraOp := ⟨gA, none, 16⟩
    Runs (ctl x.g (braSregs x)) (Lr 256) ∧ braTaken x (Lr 256) = true ∧ (Lr 256).arm.rets.length = 256 :=
  ⟨runs_of (by decide +kernel), by decide +kernel⟩
theorem witness_Calls_range : let x : BraOp := ⟨gA, none, 0xFFFFFDFF#32⟩
    Runs (ctl x.g (braSregs x)) L ∧ braTaken x L = true ∧ L.arm.rets.length ≠ 256 ∧ (L.arm.cl.hdr : Int) + 8 * x.off.toInt < 0 :=
  ⟨runs_of (by decide), by decide⟩
theorem witness_Calls_untaken : let x : BraOp := ⟨gA, some (.nez, .zero), 16⟩
    Runs (ctl x.g (braSregs x)) L ∧ braTaken x L = false := ⟨runs_of (by decide), by decide⟩
theorem witness_Returns : Runs (ctl gA []) L ∧ L.arm.rets = [] ∧ Runs (ctl gA []) (Lr 1) ∧ (Lr 1).arm.rets = .plain 0 :: [] :=
  ⟨runs_of (by decide), by decide, runs_of (by decide), by decide⟩
theorem witness_Returns_region : let s := (Lr 1).modRg fun r => { r with inside := true, depth := 1 }
    s.who ≠ .mon ∧ ([] : List RetEntry).length < s.grp.rg.depth := by decide
/-- A table of one default entry, 8 bytes on from the header. -/
def Lt : State := { (L.writeS 8 0x2000) with mem := L.mem.store (wordCells [(0x2000, 0x40)]) }
def tabInfo : Info := { g := ⟨0, false⟩, vs := VSrc.vregs false (.v 5), ss := VSrc.sregs (.v 5) ++ SSrc.sregs (.s 8) ++ SSrc.sregs .zero }
theorem witness_TableCalls : Runs { tabInfo with g := gA, mon := true } Lt ∧ Lt.selOf gA ≠ 0 ∧ Lt.arm.forks.length ≠ 8 ∧
    Lt.arm.rets.length ≠ 256 ∧ (∃ l, l < 64 ∧ (Lt.selOf gA).getLsbD l = true ∧ min ((VSrc.v 5).lane32 Lt l).toNat 0 = 0) ∧
    (∀ l, l < 64 → (Lt.selOf gA).getLsbD l = true → 0 ≤ min ((VSrc.v 5).lane32 Lt l).toNat 0) ∧
    ((Lt.readS 8).toNat + 8 * 0) % 8 = 0 ∧
    (∃ q, Lt.globalAt (allLanes gA Lt) .read ((Lt.readS 8).toNat + 8 * 0) 8 = .ok q ∧
      ((0x1040 : Nat) : Int) = (Lt.arm.cl.hdr : Int) + signedOf 64 (q.2.mem.num q.1 8)) :=
  ⟨runs_of (by decide), by decide, by decide, by decide, ⟨0, by decide⟩, fun _ _ _ => Nat.zero_le _, by decide, _, rfl, by decide⟩
/-- The same group inside a call of a BTAB, with lanes pending or with none. -/
def Ltc (pending : LaneSet) : State :=
  Lt.modArm fun a => { a with rets := [.table], forks := [.table 0x1008 a.cl (lanesBelow 64) pending (.v 5) (.s 8) .zero] }
/-- The table's entry leads below address 0. -/
theorem witness_TableCalls_range : let s := { Lt with mem := Lt.mem.store (wordCells [(0x2000, 0xFFFFFFFFFFFF0000)]) }
    ∃ q, s.globalAt (allLanes gA s) .read ((s.readS 8).toNat + 8 * 0) 8 = .ok q ∧ (s.arm.cl.hdr : Int) + signedOf 64 (q.2.mem.num q.1 8) < 0 :=
  ⟨_, rfl, by decide⟩
theorem witness_TableCalls_last : Runs (ctl gA []) (Ltc 0) ∧ (Ltc 0).arm.rets = .table :: [] ∧
    (∃ cl, (Ltc 0).arm.forks = .table 0x1008 cl (lanesBelow 64) 0 (.v 5) (.s 8) .zero :: []) :=
  ⟨runs_of (by decide), by decide, _, rfl⟩
theorem witness_TableCalls_region : let s := (Ltc 0).modRg fun r => { r with inside := true, depth := 1 }
    s.who ≠ .mon ∧ ([] : List RetEntry).length < s.grp.rg.depth := by decide
theorem witness_TableCalls_next : Runs (ctl gA []) (Ltc 2) ∧ (2 : LaneSet) ≠ 0 ∧ (Ltc 2).mustWait tabInfo = false ∧
    (Ltc 2).linesAbsent tabInfo = [] ∧ (∃ l, l < 64 ∧ (2 : LaneSet).getLsbD l = true) ∧
    (∃ q, (Ltc 2).globalAt (allLanes gA (Ltc 2)) .read 0x2000 8 = .ok q ∧
      ((0x1040 : Nat) : Int) = (0x1000 : Int) + signedOf 64 (q.2.mem.num q.1 8)) :=
  ⟨runs_of (by decide), by decide, by decide, by decide, ⟨1, by decide⟩, _, rfl, by decide⟩
/-- The loaded group with two arms, as arm `w`. -/
def L2 (w : Who) (ended : Bool) : State :=
  { L with grp := { L.grp with two := true, a1 := { Arm.start 0x1008 1 with cl := L.arm.cl, ended := ended } }, who := w }
theorem witness_Forks : Runs { ctl gA [] with rel := true } L ∧ (0 : Int) ≤ (L.arm.cl.hdr : Int) + 8 * (8#32).toInt ∧
    (L.arm.cl.hdr : Int) + 8 * (8#32).toInt < 2 ^ 71 ∧ L.grp.two = false ∧ L.who = .arm0 := ⟨runs_of (by decide), by decide⟩
theorem witness_Forks_serial : Runs { ctl gA [] with rel := true } (L2 .arm0 false) ∧ (L2 .arm0 false).grp.two = true ∧
    (L2 .arm0 false).arm.forks.length ≠ 8 := ⟨runs_of (by decide), by decide⟩
theorem witness_Forks_deep : let s := (L2 .arm0 false).modArm fun a => { a with forks := List.replicate 8 (.fork 0 Clause.start 0 0 0 false false) }
    Runs { ctl gA [] with rel := true } s ∧ s.grp.two = true ∧ s.arm.forks.length = 8 := ⟨runs_of (by decide), by decide⟩
theorem witness_Joins_serial : let s := L.modArm fun a => { a with forks := [.fork 0x1010 Clause.start 3 1 0 false false] }
    Runs { ctl gA [] with rel := true } s ∧ s.arm.forks = .fork 0x1010 Clause.start 3 1 0 false false :: [] := ⟨runs_of (by decide), by decide⟩
theorem witness_Joins_parent : let s := L.modArm fun a => { a with forks := [.fork 0x1010 Clause.start 3 1 2 false true] }
    Runs { ctl gA [] with rel := true } s ∧ s.arm.forks = .fork 0x1010 Clause.start 3 1 2 false true :: [] := ⟨runs_of (by decide), by decide⟩
theorem witness_Joins_none : Runs { ctl gA [] with rel := true } L ∧ L.arm.forks = [] ∧ (L.grp.two = false ∨ L.who = .mon) := ⟨runs_of (by decide), by decide⟩
theorem witness_Joins_child : Runs { ctl gA [] with rel := true } (L2 .arm1 false) ∧ (L2 .arm1 false).arm.forks = [] ∧ (L2 .arm1 false).grp.two = true ∧
    (L2 .arm1 false).who = .arm1 ∧ (L2 .arm1 false).grp.a0.ended = false ∧
    (∀ x ∈ (L2 .arm1 false).grp.eng.recs, x.2.st ≠ 3) := ⟨runs_of (by decide), by decide⟩
theorem witness_Joins_unite : let s := L2 .arm0 true
    Runs { ctl gA [] with rel := true } s ∧ s.arm.forks = [] ∧ s.grp.two = true ∧ s.who ≠ .mon ∧ (s.grp.arm (otherArm s.who)).ended = true ∧
      s.grp.stzOps (otherArm s.who) = [] ∧ s.grp.owes (otherArm s.who) = false ∧ (∀ f, f < 12 → s.arm.flag f + (s.grp.arm (otherArm s.who)).flag f ≤ 63) := ⟨runs_of (by decide), by decide⟩
/-- The loaded group in a partition whose vector table stands at 0x3000, with a handler at 0x4000 for two kinds. -/
def Lv : State :=
  { L with parts := L.parts.mapV fun _ p => { p with par := { p.par with tvbase := 0x3000 } }
           mem := L.mem.store (wordCells ([TrapKind.divZero, .swTrap].map fun k => (0x3000 + 16 * k.code, 0x4000))) }
theorem witness_TrapEntry : Lv.grp.live = true ∧ Lv.who ≠ .mon ∧ Lv.grp.replayId = none ∧ Lv.grp.tr.tm = false ∧
    (Lv.settleGrant.withdraw Lv.grp.key Lv.who).handlerOf .divZero = some 0x4000 ∧ 0x4000 ≠ 0 ∧ Lv.arm.back = none ∧
    ∀ w ∈ Lv.waits, w.key = Lv.grp.key → w.who ≠ Lv.who := by decide
theorem witness_TrapVector : Lv.walkTr Lv.grp.part .read ((Lv.par Lv.grp.part).tvbase + 16 * TrapKind.divZero.code) = .ok (0x3000 + 16 * TrapKind.divZero.code) 1 ∧
    Lv.poisonAt (0x3000 + 16 * TrapKind.divZero.code) 16 = false := by decide
theorem witness_TrapsKill : L.grp.live = true ∧ L.who ≠ .mon ∧ L.grp.replayId = none ∧ (L.settleGrant.withdraw L.grp.key L.who).handlerOf .divZero = some 0 ∧
    (Lv.modGrp fun g => { g with tr := { g.tr with tm := true } }).grp.tr.tm = true ∧
    (let s : State := { L with parts := [] }; (s.settleGrant.withdraw s.grp.key s.who).handlerOf .divZero = none) := by decide
theorem witness_SoftwareTrap : Runs (ctl gA (SSrc.sregs (.s 6))) Lv ∧ Lv.who ≠ .mon ∧ Lv.grp.replayId = none ∧ Lv.grp.tr.tm = false ∧
    Lv.handlerOf .swTrap = some 0x4000 ∧ ∀ w ∈ Lv.waits, w.key = Lv.grp.key → w.who ≠ Lv.who :=
  ⟨runs_of (by decide), by decide⟩
theorem witness_Rft : let s := Lv.modGrp fun g => { g with tr := { g.tr with tm := true } }
    Runs { ctl gA [] false with rep := false } s ∧ s.grp.tr.tm = true ∧ s.grp.tr.tpcv = s.grp.tr.savedPc ∧ s.grp.tr.back = none ∧
      Runs { ctl gA [] false with rep := false } L ∧ L.grp.tr.tm = false ∧
      (∀ x, s.teams.look s.grp.team = some x → x.pre = .saving → ∀ d, x.deadline = some d → d ≤ s.pm.time) :=
  ⟨runs_of (by decide), by decide, by decide, by decide, runs_of (by decide), by decide, fun x h => by cases h; decide⟩
theorem witness_ClauseHeaders : L.grp.live = true ∧ L.who ≠ .mon ∧ (∀ x ∈ L.grp.eng.recs, x.2.st ≠ 3) ∧
    64 < (L.modArm fun a => { a with pc := 0x1038 }).arm.pc % 64 + 8 * ((1 : Fin 8).val + 1) ∧
    L.arm.pc % 64 + 8 * ((6 : Fin 8).val + 1) ≤ 64 ∧ (∀ f, f < 12 → (0#12).getLsbD f = true → L.arm.flag f = 0) ∧
    (let s := L.modArm fun a => a.incFlag 3; ∃ f, f < 12 ∧ (8#12).getLsbD f = true ∧ s.arm.flag f ≠ 0) :=
  ⟨by decide, by decide, by decide, by decide, by decide, by decide, 3, by decide⟩
/-- With another ready group on its core. -/
def Lyo : State := { L with others := [{ L.grp with key := ⟨0, 1⟩, gid := 1 }] }
theorem witness_Yield : Runs (ctl gA (SSrc.sregs (.imm 36))) L ∧ ((SSrc.imm 36).value L).toNat ≠ 0 ∧ Runs (ctl gA (SSrc.sregs .zero)) L ∧
    ((SSrc.zero).value L).toNat = 0 ∧ (L.others.filter fun h => h.key.core == L.grp.key.core && L.coreRuns h && (h.ready .arm0 || h.ready .arm1)) = [] ∧
    Runs (ctl gA (SSrc.sregs .zero)) Lyo ∧
    (Lyo.others.filter fun h => h.key.core == Lyo.grp.key.core && Lyo.coreRuns h && (h.ready .arm0 || h.ready .arm1)) ≠ [] :=
  ⟨runs_of (by decide), by decide, runs_of (by decide), by decide, by decide, runs_of (by decide), by decide⟩
theorem witness_Waitt : Runs { ctl gA (SSrc.sregs .zero) with flags := [3] } L ∧ (∀ x ∈ L.grp.eng.recs, x.2.st ≠ 3) ∧
    ((SSrc.zero).value L).toNat ≤ L.pm.time ∧ L.arm.flag 3 = 0 ∧ (L.modArm fun a => a.incFlag 3).arm.flag 3 ≠ 0 ∧
    L.pm.time < ((SSrc.imm 33).value L).toNat := ⟨runs_of (by decide), by decide⟩
theorem witness_Exit_monitor : let s := { L with who := .mon, grp := { L.grp with mon := { L.grp.mon with st := .live, arm := { L.grp.a0 with cl := L.arm.cl } } } }
    Runs (ctl gA []) s ∧ s.who = .mon := ⟨runs_of (by decide), by decide⟩
theorem witness_Exit_handler : let s := L.modGrp fun g => { g with tr := { g.tr with tm := true } }
    Runs (ctl gA []) s ∧ s.who ≠ .mon ∧ s.grp.tr.tm = true ∧ (∀ x ∈ s.grp.eng.recs, x.2.st ≠ 3) ∧ s.grp.hasDep s.who = false ∧ s.arm.under = [] ∧
      s.arm.depLanes = 0 := ⟨runs_of (by decide), by decide⟩
theorem witness_Exit_arm : let s := L2 .arm0 false
    Runs (ctl gA []) s ∧ s.who ≠ .mon ∧ s.grp.replayId = none ∧ s.grp.tr.tm = false ∧ (∀ x ∈ s.grp.eng.recs, x.2.st ≠ 3) ∧
      s.grp.hasDep s.who = false ∧ s.arm.under = [] ∧ s.arm.depLanes = 0 ∧ (s.grp.two = true ∧ (s.grp.arm (otherArm s.who)).ended = false) :=
  ⟨runs_of (by decide), by decide⟩
/-- Nothing but its one arm is left of the group. -/
def exitB (s : State) : Bool :=
  decide (s.who = .arm0 ∧ s.grp.tr.tm = false ∧ (∀ x ∈ s.grp.eng.recs, x.2.st ≠ 3) ∧ s.grp.hasDep s.who = false ∧ s.arm.under = [] ∧ s.arm.depLanes = 0 ∧
    s.grp.ops = [] ∧ s.grp.redo = [] ∧ s.grp.two = false ∧ (∀ w ∈ s.waits, w.key ≠ s.grp.key))
/-- A group of a team of two, the only group of a team, and one with withdrawn words. -/
theorem witness_Exit_group : let s : State := { L with teams := [(0, { loadedTeam with khdr := 0xF934_4002_8000_0000#64 })] }
    Runs (ctl gA []) s ∧ exitB s = true ∧ s.grp.replayId = none ∧
    ∃ x, s.teams.look s.grp.team = some x ∧ x.bars = [] ∧ (insNat x.retired s.grp.gid).length ≠ groupsOf x.khdr :=
  ⟨runs_of (by decide), by decide, by decide, _, rfl, rfl, by decide⟩
theorem witness_Exit_last : Runs (ctl gA []) L ∧ exitB L = true ∧ L.grp.replayId = none ∧
    ∃ x, L.teams.look L.grp.team = some x ∧ (insNat x.retired L.grp.gid).length = groupsOf x.khdr :=
  ⟨runs_of (by decide), by decide, by decide, _, rfl, by decide⟩
theorem witness_Exit_owing : let s := L.modGrp fun g => { g with redo := [⟨.arm0, 2, 0, 0x1008, L.arm.cl, false⟩] }
    Runs (ctl gA []) s ∧ s.grp.redo ≠ [] := ⟨runs_of (by decide), by decide⟩
theorem witness_Branches_taken : (L.readS 9).toInt = 0 := by decide

/-! Memory. -/

/-- `ReachAll` as a test. -/
def reachB (s : State) (lanes : List Nat) (asks : Nat → List Ask) (p : Nat → List Machine.Place) : Bool :=
  (lanes.all fun l => decide ((asks l).map ((s.recallAsks (lanes.flatMap asks)).chk []) = (p l).map Chk.ok)) &&
    !s.stzHolds (lanes.flatMap fun l => (p l).zip (asks l))
theorem reachAll_of {s : State} {lanes : List Nat} {asks : Nat → List Ask} {p : Nat → List Machine.Place}
    (h : reachB s lanes asks p = true) : ReachAll s lanes asks p := by
  simp only [reachB, Bool.and_eq_true, List.all_eq_true, decide_eq_true_eq, Bool.not_eq_true'] at h
  exact h
theorem reach_of {s : State} {sel : LaneSet} {ask : Nat → Ask} {p : Nat → Machine.Place}
    (h : reachB s (laneList sel) (fun l => [ask l]) (fun l => [p l]) = true) : Reach s sel ask p := reachAll_of h
theorem reachOne_of {s : State} {ask : Ask} {p : Machine.Place} (h : reachB s [0] (fun _ => [ask]) (fun _ => [p]) = true) :
    ReachOne s ask p := reachAll_of h
theorem reach2_of {s : State} {sel : LaneSet} {a b : Nat → Ask} {p q : Nat → Machine.Place}
    (h : reachB s (laneList sel) (fun l => [a l, b l]) (fun l => [p l, q l]) = true) : Reach2 s sel a b p q := reachAll_of h
/-- The loaded group with m1 of lanes 0 and 2, s1 = 0x2000, v4 = 7 and 9 and v6 = 0 and 8 in these lanes. -/
def Lm : State := (L.writeS 1 0x2000).modGrp fun g => { g with regs := { g.regs with m := [(1, 5#64)], v := [(4 * 64, 7), (4 * 64 + 2, 9), (6 * 64 + 2, 8)] } }
/-- Places of the two lanes: `n` bytes from one lane to the next. -/
def pw (n : Nat) (l : Nat) : Machine.Place := .mem (0x2000 + n * l) (0x2000 + n * l) 1
theorem Lm_unwatched (n : Nat) (l : List Machine.Place) : unwatched Lm n l := fun _ _ => rfl
theorem apart_mem (s : State) (n pa pb va vb ka kb : Nat) (h : pa + n ≤ pb) : apart s n (.mem pa va ka) (.mem pb vb kb) :=
  ⟨fun a => by simp [inPlaces, placePa]; omega, fun _ _ _ => by simp [inSlates]⟩

theorem witness_GlobalAccessTests_range : (-1 : Int) < 0 ∧ (2 : Int) ^ 72 ≤ 2 ^ 72 ∧ (0 : Int) ≤ 2 ^ 72 - 1 ∧ ((2 : Int) ^ 72 - 1) < 2 ^ 72 ∧
    ((2 : Int) ^ 72 - 1).toNat % 4 ≠ 0 := by decide
theorem witness_GlobalAccessTests : L.grp.replayId = none ∧ L.mappedAt 0x2000 4 = none ∧
    assoc (L.coreAt L.core).tlb (L.grp.part, 0x2000 / 8192) = none ∧
    ∃ e, (L.walk L.grp.part 0x2000).1 = .leaf 0x2000 e ∧ bits e.toNat 52 9 = 1 ∧ 1 ∈ (L.par L.grp.part).keys ∧
      Acc.allowed .write e.toNat = true ∧ L.mem.frameOk 0x2000 1 = true ∧ L.poisonAt 0x2000 4 = false :=
  ⟨by decide, by decide, by decide, _, rfl, by decide⟩
/-- A leaf of key 2, which the partition does not have, and one without the write permission. -/
def Ll (e : Nat) : State := { L with mem := L.mem.store (wordCells [(0xE000, e)]) }
theorem witness_GlobalAccessTests_key : ∃ e, ((Ll (2 ^ 53 + 0x3F)).walk 0 0x2000).1 = .leaf 0x2000 e ∧ bits e.toNat 52 9 ∉ ((Ll (2 ^ 53 + 0x3F)).par 0).keys :=
  ⟨_, rfl, by decide⟩
theorem witness_GlobalAccessTests_permission : ∃ e, ((Ll (2 ^ 52 + 0x37)).walk 0 0x2000).1 = .leaf 0x2000 e ∧
    Acc.allowed .write e.toNat = false := ⟨_, rfl, by decide⟩
theorem witness_GlobalAccessTests_conflict : let s := { L with mem := { L.mem with owners := [(1, 2)] } }
    s.mem.frameOk 0x2000 1 = false := by decide
theorem witness_GlobalAccessTests_poison : ({ L with mem := { L.mem with poison := [0x40] } } : State).poisonAt 0x2000 4 = true := by decide
theorem witness_TranslationWalk : let e := L.mem.num (0x8000 + 8 * 0) 8
    L.poisonAt 0x8000 8 = false ∧ L.mem.frameOk 0x8000 1 = true ∧ bitB e 0 = true ∧ bits e 7 6 = 0 ∧ bits e 61 3 = 0 ∧
      e / 2 ^ 13 % 2 ^ 39 * 8192 < 2 ^ 39 ∧ bitB e 1 = false := by decide
theorem witness_TranslationWalk_leaf : let e := L.mem.num 0xE000 8
    bitB e 0 = true ∧ bitB e 1 = true ∧ 3 ≤ 3 ∧ e / 2 ^ 13 % 2 ^ 39 * 8192 % 2 ^ 33 = 0 := by decide
theorem witness_TranslationWalk_absent : bitB (L.mem.num (0x8000 + 8 * 1) 8) 0 = false := by decide
def wm : VMem := { vm 4 .b4 .rlx false with g := G1, idx := .v 6 }
def wms : VMemS := { vms 4 .b4 .rlx false with g := G1, stride := .imm 36 }
theorem witness_VectorLoadsRead : Runs (vmemInfo wm true) Lm ∧
    Reach Lm (Lm.selOf wm.g) (fun l => { acc := .read, tgt := tgtOf wm.sl (wm.base.value Lm) ((wm.idx.lane32 Lm l).toInt + wm.off.toInt * 4), n := 4 })
      (pw 4) := ⟨runs_of (by decide), reach_of (by decide)⟩
theorem witness_VectorLoadsRead_stride : Runs (vmemSInfo wms true) Lm ∧
    Reach Lm (Lm.selOf wms.g) (fun l =>
      { acc := .read, tgt := tgtOf wms.sl (wms.base.value Lm) ((l : Int) * (wms.stride.value Lm).toInt + wms.off.toInt * 4), n := 4 }) (pw 4) :=
  ⟨runs_of (by decide), reach_of (by decide)⟩
theorem witness_VectorStoresWrite : Runs (vmemInfo wm false) Lm ∧
    Reach Lm (Lm.selOf wm.g) (fun l => { acc := .write, tgt := tgtOf wm.sl (wm.base.value Lm) ((wm.idx.lane32 Lm l).toInt + wm.off.toInt * 4), n := 4 })
      (pw 4) ∧ (∀ l ∈ laneList (Lm.selOf wm.g), settled Lm (pw 4 l) = true) ∧ unwatched Lm 4 (placesOf (Lm.selOf wm.g) (pw 4)) ∧
    apart Lm 4 (pw 4 0) (pw 4 2) :=
  ⟨runs_of (by decide), reach_of (by decide), by decide, Lm_unwatched _ _, apart_mem _ _ _ _ _ _ _ _ (by decide)⟩
theorem witness_VectorStoresWrite_stride : Runs (vmemSInfo wms false) Lm ∧
    Reach Lm (Lm.selOf wms.g) (fun l =>
      { acc := .write, tgt := tgtOf wms.sl (wms.base.value Lm) ((l : Int) * (wms.stride.value Lm).toInt + wms.off.toInt * 4), n := 4 }) (pw 4) :=
  ⟨runs_of (by decide), reach_of (by decide)⟩
/-- What a lane read stands there still. -/
theorem witness_VectorLoadsRead_settled : ∀ y ∈ [(⟨pw 4 0, 4, 4, 0, false, Lm.readAt (pw 4 0) 4⟩ : LaneRead)], Lm.readAt y.place y.bytes = y.got := by
  intro y h; rcases List.mem_singleton.mp h with rfl; rfl
theorem witness_ScalarLoadsAndStores :
    Runs { longInfo gA false [] [] (3 :: SBase.sregs (.s 1)) true with ctl := true, rel := relOf .rlx } Lm ∧
    ReachOne Lm { acc := .read, tgt := tgtOf false ((SBase.s 1).value Lm) (1 * 8), n := 8 } (pw 8 1) ∧
    Runs { longInfo gA false [] [] (SSrc.sregs (.s 5) ++ SBase.sregs (.s 1)) false with ctl := true, rel := relOf .rel } Lm ∧
    ReachOne Lm { acc := .write, tgt := tgtOf false ((SBase.s 1).value Lm) (1 * 8), n := 8 } (pw 8 1) ∧
    settled Lm (pw 8 1) = true ∧ unwatched Lm 8 [pw 8 1] :=
  ⟨runs_of (by decide), reachOne_of (by decide), runs_of (by decide), reachOne_of (by decide), rfl, Lm_unwatched _ _⟩
/-- The same group with a scratch slate of one leaf at slate address 0, its leaf held, and v5 = 0 and 4 in lanes 0 and 2. -/
def dScratch : Desc :=
  { (default : Desc) with kind := .scratch, warm := false, dropped := false, closed := false, team := 0, base := 0, leaves := 1, crib := none
                          life := 64, mapva := 0, dflt := Sector.fresh 0, secs := [], bytes := [], leafs := [(0, 0)], holds := [] }
def Ls (d : Desc) : State :=
  (Lm.modGrp fun g => { g with regs := { g.regs with v := [(4 * 64, 7), (4 * 64 + 2, 9), (5 * 64 + 2, 4), (6 * 64 + 2, 8)] } }).modCore 0
    fun c => { c with descs := [(0, d)] }
def wsl : SlMem := ⟨G1, false, 5, .s 1, .v 6, 0, .b4, .rlx, .grp⟩
def psl (l : Nat) : Machine.Place := .slate ⟨0, 0, 2 * l⟩
theorem witness_SlateCopiesMove : let s := Ls dScratch
    Runs (slmemInfo wsl true) s ∧ Runs (slmemInfo wsl false) s ∧
    Reach2 s (s.selOf G1) (fun l => { acc := .read, tgt := tgtOf false (wsl.base.value s) ((wsl.idx.lane32 s l).toInt + wsl.off.toInt * 4), n := 4 })
      (fun l => { acc := .write, tgt := .slate (s.readV wsl.r.val l).toNat, n := 4 }) (pw 4) psl ∧
    (∀ l ∈ laneList (s.selOf G1), settled s (psl l) = true) ∧ unwatched s 4 (placesOf (s.selOf G1) psl) :=
  ⟨runs_of (by decide), runs_of (by decide), reach2_of (by decide), by decide, fun _ _ => rfl⟩
theorem witness_SlateCopiesMove_out : let s := Ls dScratch
    Reach2 s (s.selOf G1) (fun l => { acc := .read, tgt := .slate (s.readV wsl.r.val l).toNat, n := 4 })
      (fun l => { acc := .write, tgt := tgtOf false (wsl.base.value s) ((wsl.idx.lane32 s l).toInt + wsl.off.toInt * 4), n := 4 }) psl (pw 4) ∧
    unwatched s 4 (placesOf (s.selOf G1) (pw 4)) := ⟨reach2_of (by decide), fun _ _ => rfl⟩
theorem witness_AtomicResults : (2 ^ 64 - 1 < 2 ^ (8 * atBytes .i64)) ∧ AtTy.i64 ≠ .f32 ∧ (0 < 2 ^ (8 * atBytes .f32)) := by decide
theorem witness_AtomicsReturnOldValues : Runs { longInfo G1 false (vdst 4 false ++ VSrc.vregs false (.v 6)) [] (SBase.sregs (.s 1) ++ VSrc.sregs (.v 6)) false with rel := relOf .ar } Lm ∧
    Reach Lm (Lm.selOf G1) (fun l =>
      { acc := .atomic, tgt := tgtOf false ((SBase.s 1).value Lm) (((VSrc.v 6).lane32 Lm l).toInt + 0 * 4), n := 4, atHome := true }) (pw 4) ∧
    (∀ l ∈ laneList (Lm.selOf G1), Lm.mappedAt (0x2000 + 4 * l) 4 = none) ∧ unwatched Lm 4 (placesOf (Lm.selOf G1) (pw 4)) ∧
    (∀ l ∈ laneList (Lm.selOf G1), ∀ k ∈ laneList (Lm.selOf G1), l ≠ k → 0x2000 + 4 * l + 4 ≤ 0x2000 + 4 * k ∨ 0x2000 + 4 * k + 4 ≤ 0x2000 + 4 * l) :=
  ⟨runs_of (by decide), reach_of (by decide), by decide, Lm_unwatched _ _, by decide⟩
/-- ACAS on a pair of registers, and on a run of four. -/
theorem witness_AtomicsReturnOldValues_acas : (252 + 4 ≤ 256) ∧
    Runs { longInfo G1 false (vrun 4 2 ++ VSrc.vregs false (.v 6)) [] (SBase.sregs (.s 1) ++ VSrc.sregs (.v 6)) false with rel := relOf .rlx } Lm ∧
    Runs { longInfo G1 false (vrun 252 4 ++ VSrc.vregs false (.v 6)) [] (SBase.sregs (.s 1) ++ VSrc.sregs (.v 6)) false with rel := relOf .rlx } Lm ∧
    Reach Lm (Lm.selOf G1) (fun l =>
      { acc := .atomic, tgt := tgtOf false ((SBase.s 1).value Lm) (((VSrc.v 6).lane32 Lm l).toInt + 0 * 8), n := 8, atHome := true })
        (fun l => .mem (0x2000 + 4 * l) (0x2000 + 4 * l) 1) :=
  ⟨by decide, runs_of (by decide), runs_of (by decide), reach_of (by decide)⟩
def wr : ResMem := ⟨G1, false, 4, .s 1, .v 6, 0, false, .rlx, .grp⟩
theorem witness_ReservationsLoadAndStore : (∀ l ∈ laneList (Lm.selOf G1), Lm.mappedAt (0x2000 + 4 * l) 4 = none) ∧
    Runs (resInfo wr false) Lm ∧ Runs (resInfo wr true) Lm ∧
    Reach Lm (Lm.selOf G1) (fun l =>
      { acc := .read, tgt := tgtOf false (wr.base.value Lm) ((wr.idx.lane32 Lm l).toInt + wr.off.toInt * 4), n := 4, perm := .atomic, atHome := true }) (pw 4) ∧
    Reach Lm (Lm.selOf G1) (fun l =>
      { acc := .write, tgt := tgtOf false (wr.base.value Lm) ((wr.idx.lane32 Lm l).toInt + wr.off.toInt * 4), n := 4, perm := .atomic, atHome := true }) (pw 4) ∧
    ((0x2000 + 4 * 0) / 64 ∈ (Lm.modArm fun a => { a with resv := [0x80] }).arm.resv) :=
  ⟨by decide, runs_of (by decide), runs_of (by decide), reach_of (by decide), reach_of (by decide), by decide⟩
/-- The group behind an MSTZ of its arm. -/
def Lstz : State := L.modGrp fun g =>
  { g with ops := [(0, ⟨.arm0, 3, 0x1000, L.arm.cl, .coll 2 9 (.mstz 0 0 0 128 0 1 .packed 0 ⟨.rn, false⟩ 0) false none false, [], []⟩)] }
theorem witness_FencesAndCacheMaintenance : Runs { longInfo gA false [] [] [] true with ctl := true } L ∧ L.grp.stzOps L.who = [] ∧
    Runs { longInfo G1 false (VSrc.vregs false (.v 6)) [] (SBase.sregs (.s 1) ++ VSrc.sregs (.v 6)) false with rel := true } Lm ∧
    Reach Lm (Lm.selOf G1) (fun l =>
      { acc := .read, tgt := tgtOf false ((SBase.s 1).value Lm) (((VSrc.v 6).lane32 Lm l).toInt + 0), n := 1, atHome := true, consume := false }) (pw 4) :=
  ⟨runs_of (by decide), by decide, runs_of (by decide), reach_of (by decide)⟩
theorem witness_FencesAndCacheMaintenance_behind : Runs { longInfo gA false [] [] [] true with ctl := true } Lstz ∧
    relOf .sc = true ∧ Lstz.grp.stzOps Lstz.who ≠ [] ∧
    (let s : State := { Lstz with cnt := { Lstz.cnt with op := 1 } }; Runs { longInfo gA false [] [] [] true with ctl := true } s ∧ ∃ y ∈ s.grp.stzOps s.who, y.1 < s.cnt.op) :=
  ⟨runs_of (by decide), by decide, by decide, runs_of (by decide), by decide⟩
theorem witness_MemoryReadAfterWrite : L.mem.wf = true ∧ (0x1000 ≤ 0x1007 ∧ 0x1007 < 0x1000 + 8) ∧ ¬(0x1008 < 0x1000 + 8) := by decide
theorem test_store_byte : ((after (exec (.vst wm) Lm)).mem.byte 0x2008, (after (exec (.vst wm) Lm)).mem.byte 0x2000) = (9, 7) := by decide
theorem test_stc_second_lane_of_a_granule_fails :
    let t := after (exec (.stc wr) (Lm.modArm fun a => { a with resv := [0x80] }))
    (t.mem.byte 0x2000, t.mem.byte 0x2008) = (7, 0) := by decide

/-! Slates and cribs. -/

/-- The two parts of an answer. -/
theorem pair_of {α β : Type} {x : α × Option β} {a : α} (h : x.1 = a ∧ x.2.isSome = true) : ∃ b, x = (a, some b) := by
  obtain ⟨a', o⟩ := x
  obtain ⟨rfl, ho⟩ := h
  obtain ⟨b, rfl⟩ := Option.isSome_iff_exists.mp ho
  exact ⟨b, rfl⟩
def slallocInfo (d : SReg) (ns lx : SSrc) : Info := { g := gA, ss := d.val :: (ns.sregs ++ lx.sregs), rep := false }
theorem witness_SlallocMakesASlate : Runs (slallocInfo 3 (.imm 33) (.imm 37)) L ∧ 1 ≤ ((SSrc.imm 33).value L).toNat ∧
    ((SSrc.imm 37).value L).toNat ≤ 64 ∧ (∃ s', L.slateFull 0 1 .scratch = (0, some s')) ∧ L.freeRun 0 0 1 = some 0 ∧
    (L.coreAt 0).descs.fresh 256 = some 0 :=
  ⟨runs_of (by decide), by decide, by decide, pair_of (by decide +kernel), by decide +kernel, by decide⟩
/-- A mapped slate at a VA of a full line, of the most leaves. -/
def Lx : State := (L.writeS 1 2048).writeS 2 (BitVec.ofNat 64 0x7FFFFFFFFFC00000)
theorem witness_SlallocMakesASlate_mapped :
    Runs (slallocInfo 3 (.s 1) (.s 2)) Lx ∧ ((SSrc.s 1).value Lx).toNat ≤ 2048 ∧ ((SSrc.s 2).value Lx).toNat % 128 = 0 ∧
      ((SSrc.s 2).value Lx).toNat + 2048 * ((SSrc.s 1).value Lx).toNat ≤ 2 ^ 71 ∧
      Lx.overlapped 0 ((SSrc.s 2).value Lx).toNat ((SSrc.s 1).value Lx).toNat = none := ⟨runs_of (by decide), by decide⟩
theorem witness_SlallocMakesASlate_partner : let s := { L with teams := [(0, { loadedTeam with pair := true })] }
    ∃ t, s.teams.look s.grp.team = some t ∧ t.pair = true := ⟨_, rfl, rfl⟩
theorem witness_SlallocMakesASlate_full : (({ L with parts := [(0, { loadedPart with par := { loadedPart.par with ctxPages := 0 } })] } :
    State).slateFull 0 1 .scratch).1 ≠ 0 := by decide +kernel

theorem witness_SlateWords : let s := Ls dScratch
    s.slateAt (((SSrc.zero).value s).toNat % 2 ^ 32) = some (⟨0, 0, 0⟩, dScratch) ∧ Tbl.rising (s.coreAt 0).descs = true ∧
    Runs { longInfo G1 false [] [] (SSrc.sregs .zero) false with ctl := true, rel := true, rep := false } s ∧ s.pins 0 0 = 0 ∧ s.replaying 0 dScratch = false ∧
    Runs { longInfo G1 false [] [] (SSrc.sregs .zero ++ SSrc.sregs .zero) false with ctl := true } s ∧ 0 + dScratch.leaves * 2048 ≤ dScratch.leaves * 2048 ∧
    Runs { g := gA, ss := 3 :: SSrc.sregs .zero } s :=
  ⟨by decide, by decide, runs_of (by decide), by decide, by decide, runs_of (by decide), by decide, runs_of (by decide)⟩
theorem witness_DescriptorFields : (2 ^ 16 - 1 < 2 ^ 16) ∧ (2 ^ 32 - 1 < 2 ^ 32) ∧ (2 ^ 72 - 1 < 2 ^ 72) ∧ (∀ k, some 255 = some k → k < 256) ∧
    ∀ k, (none : Option Nat) = some k → k < 256 :=
  ⟨by decide, by decide, by decide, fun k h => by simp at h; omega, fun _ h => by simp at h⟩

/-- A derived slate without a crib at address 0, and a mapped slate of one leaf at address 0x800, as s1 names it. -/
def dDerived : Desc := { dScratch with kind := .derived, base := 0 }
def dMapped : Desc := { dScratch with kind := .mapped, base := 1, mapva := 0x4000 }
/-- The group in a partition whose task table stands at 0x10000 with one lesson: a group of 64 lanes without a window, slates or
a monitor. -/
def Lq : State :=
  let s := (Ls dScratch).modCore 0 fun c => { c with descs := [(0, dDerived), (1, dMapped)] }
  { (s.writeS 7 0x800) with
    parts := [(0, { loadedPart with par := { loadedPart.par with ttbase := 0x10000, ttlen := 1 } })]
    mem := s.mem.store (wordCells [(0x10008, 0x100), (0x10010, 0xF934400180000000)]) }
theorem witness_CribRecordsTheLesson : Runs { longInfo G1 false [] [] (SSrc.sregs .zero ++ SSrc.sregs (.s 5) ++ SSrc.sregs (.s 6) ++ []) false with ctl := true, rel := true, rep := false } Lq ∧
    ((SSrc.zero).value Lq).toNat < 2 ^ 44 ∧ Lq.slateAt (0 % 2 ^ 32) = some (⟨0, 0, 0⟩, dDerived) ∧ dDerived.crib = none ∧
    dDerived.dropped = false ∧ Lq.sourceAddrs 0 0 = [] ∧ Lq.lessonOk Lq.grp.part (bits 0 32 12) = true ∧
    (Lq.coreAt 0).cribs.fresh 256 = some 0 ∧ Lq.watchRoom [] = true ∧ Lq.stzInto [(0, 0)] = false :=
  ⟨runs_of (by decide), by decide⟩
theorem witness_CribRecordsTheLesson_none : Lq.sources ⟨0, 0, 0⟩ (Lq.sourceAddrs 0 0) = .ok [] ∧ (∀ q ∈ Lq.watchChks [] [], ∃ p, q = .ok p) ∧
    ∀ lines : List Nat, (∀ ln ∈ lines, ∃ pa va key, Chk.ok (.mem pa va key) ∈ Lq.watchChks [] [] ∧ ln = pa / 128) → Lq.watchRoom lines = true := by
  refine ⟨rfl, fun q h => absurd h (by simp [State.watchChks]), fun lines h => ?_⟩
  have : lines = [] := List.eq_nil_iff_forall_not_mem.mpr fun ln hl => by
    obtain ⟨_, _, _, hm, _⟩ := h ln hl
    simp [State.watchChks] at hm
  subst this; decide
/-- With a source: the mapped slate at 0x800, named by the low field of s7. -/
theorem witness_CribRecordsTheLesson_source : Lq.sourceAddrs 7 1 = [0x800] ∧ (7 ≤ 127) ∧
    Lq.sources ⟨0, 0, 0⟩ [0x800] = .ok [(⟨0, 1, 0⟩, dMapped)] ∧
    (Lq.watchChks [] [(⟨0, 1, 0⟩, dMapped)]).all (fun q => q.place.isSome) = true ∧ Lq.stzInto [(0, 0), (0, 1)] = false :=
  ⟨by decide, by decide, rfl, by decide⟩

/-- The derived slate with a crib that is live; `q` pins it. -/
def crib0 (st : CribSt) (slate : Nat) (srcs : List (Nat × Bool)) : Crib := ⟨0, st, slate, 0, 0, 0, 0, srcs, []⟩
def Lt2 (cribs : Tbl Crib) (kind : SlKind) (crib : Option Nat) : State :=
  Lq.modCore 0 fun c => { c with descs := [(0, { dDerived with kind := kind, crib := crib })], cribs := cribs }
theorem witness_CribTouchAndDrop : let s := Lt2 [(0, crib0 .live 0 [])] .derived (some 0)
    let e : Desc := { dDerived with crib := some 0 }
    Runs { longInfo G1 false [] [] (3 :: SSrc.sregs .zero) false with ctl := true } s ∧ Runs { g := gA, ss := SSrc.sregs .zero, rep := false } s ∧
    s.slateAt 0 = some (⟨0, 0, 0⟩, e) ∧ s.misses ⟨0, 0, 0⟩ e = false ∧ s.crib? 0 0 = some (crib0 .live 0 []) ∧ s.pins 0 0 = 0 ∧
    s.slateAt 0x800000 = none :=
  ⟨runs_of (by decide), runs_of (by decide), by decide⟩
theorem witness_CribTouchAndDrop_scratch : (Lt2 [] .scratch none).slateAt 0 = some (⟨0, 0, 0⟩, { dDerived with kind := .scratch }) := by decide
theorem witness_CribTouchAndDrop_none : let s := Lt2 [] .derived none
    s.slateAt 0 = some (⟨0, 0, 0⟩, dDerived) ∧ dDerived.crib = none ∧ s.misses ⟨0, 0, 0⟩ dDerived = false := by decide
/-- The tile is gone: its crib is DROPPED. -/
theorem witness_CribTouchAndDrop_missing : let e : Desc := { dDerived with crib := some 0, dropped := true }
    let s := (Lt2 [(0, crib0 .dropped 0 [])] .derived (some 0)).modCore 0 fun c => { c with descs := [(0, e)] }
    Runs { longInfo G1 false [] [] (3 :: SSrc.sregs .zero) false with ctl := true } s ∧ s.slateAt 0 = some (⟨0, 0, 0⟩, e) ∧ e.kind = .derived ∧
    e.crib = some 0 ∧ s.misses ⟨0, 0, 0⟩ e = true ∧ s.missWalk [(0, 0)] s.missDepth = ([], [(0, 0, 1)]) :=
  ⟨runs_of (by decide), by decide, by decide, by decide, by decide, by decide +kernel⟩
theorem witness_CribTouchAndDrop_pinned : 0 < (Lt2 [(0, crib0 .live 0 []), (1, crib0 .live 1 [(0, false)])] .derived (some 0)).pins 0 0 := by decide
/-- The partition manager shoots down every address of partition 15, and a range up to the last page. -/
def Lp (manager : Bool) : State :=
  { L with parts := [(0, { loadedPart with par := { loadedPart.par with manager := manager } }), (15, loadedPart)] }
theorem witness_TlbinvIssuesAShootDown : let s := ((Lp true).writeS 1 0x7FFFFFFFFFFFE000).writeS 2 0x2000
    Runs { longInfo gA false [] [] (SSrc.sregs (.s 1) ++ SSrc.sregs (.s 2) ++ SSrc.sregs (.imm 47)) false with ctl := true, rep := false } s ∧
    (s.par s.grp.part).manager = true ∧ ((SSrc.imm 47).value s).toNat = 15 ∧ (s.parts.look 15).isSome = true ∧
    ((SSrc.s 1).value s).toNat + ((SSrc.s 2).value s).toNat ≤ 2 ^ 71 ∧ ((SSrc.s 1).value s).toNat % 8192 = 0 ∧
    ((SSrc.s 2).value s).toNat % 8192 = 0 ∧ ((Lp false).par 0).manager = false ∧ (1 : Nat) % 8192 ≠ 0 := ⟨runs_of (by decide), by decide⟩

/-! The matrix engine, formats and conversions. -/

/-- The group with a scratch slate of 16 leaves at address 0. -/
def Lz : State := Ls { dScratch with leaves := 16, leafs := (List.range 16).map fun k => (k, 0) }
def zInfo (l : List Nat) : Info := collInfo gA false 2 l
theorem fit_of {l : List Chk} (h : l.all (fun k => k.place.isSome) = true) : ∀ k ∈ l, ∃ p, k = .ok p := by
  intro k hk
  have := List.all_eq_true.mp h k hk
  cases k with
  | ok p => exact ⟨p, rfl⟩
  | trap _ _ => simp [Chk.place] at this
  | need _ => simp [Chk.place] at this
  | take _ => simp [Chk.place] at this
theorem witness_CollectivesEnterTheirWait : Runs { g := gA, ss := [3], z := some 2 } Lz ∧ Runs (zInfo (SSrc.sregs (.s 5))) Lz ∧
    Lz.selOf gA = lanesBelow Lz.grp.shape.width ∧ Lz.collOps Lz.core < 4 := ⟨runs_of (by decide), runs_of (by decide), by decide, by decide⟩
theorem witness_CollectivesEnterTheirWait_mldz : Runs (zInfo (SSrc.sregs (.s 5) ++ SSrc.sregs .zero)) Lz ∧ Lz.grp.stzOps Lz.who = [] ∧
    ∀ k ∈ Lz.rangeChks .read [] 0 16384, ∃ p, k = .ok p := ⟨runs_of (by decide), by decide, fit_of (by decide +kernel)⟩
/-- MSTZ of rows 0 to 31 as tiles to address 0x4200, under slot 0: the source is w = 32 × 64. -/
def Lzr : State := (Lz.writeS 6 0x4200).writeS 7 0x800
theorem witness_CollectivesEnterTheirWait_mstz : Runs (zInfo (SSrc.sregs (.s 5) ++ SSrc.sregs (.s 6) ++ SSrc.sregs (.s 7))) Lzr ∧
    ((SSrc.s 7).value Lzr).toNat < 2 ^ 13 ∧ stzRange .tileA (0x800 % 64) (0x800 / 64 % 128) = true ∧
    (∃ f, Lzr.slotUse (allLanes gA Lzr) 2 4 = .ok f ∧ f.planes ≠ 0 ∧ 0x4200 % (stzSize .tileA 32 f).2 = 0 ∧
      (∀ k ∈ Lzr.rangeChks .write [] 0x4200 (stzSize .tileA 32 f).1, ∃ p, k = .ok p)) :=
  ⟨runs_of (by decide), by decide, by decide, _, rfl, by decide, by decide, fit_of (by decide +kernel)⟩
theorem witness_CollectivesEnterTheirWait_packed : stzRange .packed (63 % 64) 1 = true ∧ 0x4200 % 128 = 0 ∧
    (Lzr.resolve 0 0 0x4200 0x100).isSome = true := by decide
/-- MMA of a tile in FP16 at 0 and one in e4m3 at 0x2000, with scales at 0x3000; two of eleven planes of the first kept. -/
def Lza : State := ((Lz.writeS 6 0).writeS 7 0x2000).writeS 8 (BitVec.ofNat 64 (0x3000 + 2 ^ 36 + 2 * 2 ^ 32))
theorem witness_CollectivesEnterTheirWait_mma :
    Runs (zInfo (SSrc.sregs (.s 5) ++ SSrc.sregs (.s 6) ++ SSrc.sregs (.s 7) ++ SSrc.sregs (.s 8))) Lza ∧
    (let d := ((SSrc.s 8).value Lza).toNat
     d < 2 ^ 38 ∧ Lza.grp.stzOps Lza.who = [] ∧ d / 2 ^ 36 % 4 = 1 ∧ d % 2 ^ 32 % 128 = 0 ∧ d / 2 ^ 32 % 16 = 2) ∧
    (∃ f h, Lza.slotFmt (allLanes gA Lza) 2 = .ok f ∧ Lza.slotFmt (allLanes gA Lza) 3 = .ok h ∧ bitB f.uses 0 = true ∧
      bitB h.uses 1 = true ∧ 0 < h.planes ∧ 2 < f.planes ∧
      (∀ k ∈ Lza.rangeChks .read [] 0 (tileBytes f.planes), ∃ p, k = .ok p) ∧
      (∀ k ∈ Lza.rangeChks .read [] 0x2000 (tileBytes h.planes), ∃ p, k = .ok p)) ∧
    (∀ k ∈ Lza.rangeChks .read [] 0x3000 128, ∃ p, k = .ok p) :=
  ⟨runs_of (by decide), by decide, ⟨_, _, rfl, rfl, by decide, by decide, by decide, by decide,
    fit_of (by decide +kernel), fit_of (by decide +kernel)⟩,
    fit_of (by decide +kernel)⟩
theorem witness_CollectivesEnterTheirWait_pass : Lza.askPass.grp.passReady = true := by decide +kernel
theorem witness_PartialCollectivesTrap : Runs (collInfo G1 false 2 (SSrc.sregs .zero)) Lm ∧
    Runs (collInfo G1 false 2 (SSrc.sregs .zero ++ SSrc.sregs (.s 1))) Lm ∧
    Runs (collInfo G1 false 2 (SSrc.sregs .zero ++ SSrc.sregs (.s 1) ++ SSrc.sregs (.s 2))) Lm ∧
    Runs (collInfo G1 false 2 (SSrc.sregs .zero ++ SSrc.sregs (.s 1) ++ SSrc.sregs (.s 2) ++ SSrc.sregs (.s 3))) Lm ∧
    Lm.selOf G1 ≠ lanesBelow Lm.grp.shape.width :=
  ⟨runs_of (by decide), runs_of (by decide), runs_of (by decide), runs_of (by decide), by decide⟩
theorem witness_CollectiveResults : (∃ r, collResult L.grp.regs 2 .mzero = some r) ∧ (∃ r, collResult L.grp.regs 2 (.mldz ⟨0, 0, 0, []⟩) = some r) ∧
    (∃ r, collResult L.grp.regs 2 (.mma ⟨0, 0, 0, []⟩ ⟨0, 0, 0, []⟩ ⟨0, 0, 0, []⟩ 11 2 4 .e5m3) = some r) ∧ (7 < 8 ∧ 4095 < 4096 ∧ 2 ^ 16 - 1 < 2 ^ 16) ∧
    (∀ d, (Ls dScratch).desc? 0 0 = some d → d.kind ≠ .mapped) := by
  refine ⟨⟨_, rfl⟩, ⟨_, rfl⟩, ⟨_, rfl⟩, by decide, fun d h => ?_⟩
  have : d = dScratch := Option.some.inj (h.symm.trans rfl)
  subst this; decide
theorem witness_WindowSumIsExact : ∀ p ∈ [(true, 2 ^ 44 - 1), (false, 2 ^ 44 - 1)], p.2 < 2 ^ 44 := by decide
theorem witness_PackedStreamsReadBack : let t : Tbl Byte := (List.range 20).map fun a => (a, 0xFF)
    1 ≤ 13 ∧ 13 ≤ 32 ∧ (∀ c ∈ [0, 0x1FFF], c < 2 ^ 13) ∧ Tbl.rising t = true ∧
    ∀ a ∈ List.range 14, a ≤ elemBit 13 (3 + 2) / 8 + 6 → (t.look a).isSome = true := by decide
theorem witness_QuantizedSpecialBlocks : .nan ∈ [FVal.nan] ∧ (∀ m e, (FVal.inf false) ≠ .num false (m + 1) e) ∧
    (FVal.num false 1 0 = .num false (0 + 1) 0) ∧ ∀ x ∈ [FVal.num true 0 3], ∃ n k, x = .num n 0 k :=
  ⟨by decide, fun _ _ h => (by cases h), rfl, fun x h => ⟨true, 3, by simpa using h⟩⟩
/-- QNT of FP32 values at 0 to codes of slot 3 at 0x1000, with scale codes at 0x3000, in lanes 0 and 2. -/
def Lqt : State := ((Lz.writeS 6 0).writeS 7 0x1000).writeS 8 0x3000
def qntChks : List Chk := (laneList (Lqt.selOf G1)).flatMap fun l => Lqt.rangeChks .read [] (0 + 4 * 32 * l) (4 * 32) ++
  Lqt.rangeChks .write [] (0x1000 + (runBytes 8 (32 * l) 32).1) ((runBytes 8 (32 * l) 32).2 - (runBytes 8 (32 * l) 32).1) ++
  Lqt.rangeChks .write [] (0x3000 + l) 1
def qntPlaces : List Machine.Place :=
  (((laneList (Lqt.selOf G1)).flatMap fun l => (List.range ((runBytes 8 (32 * l) 32).2 - (runBytes 8 (32 * l) 32).1)).map fun k =>
    0x1000 + (runBytes 8 (32 * l) 32).1 + k) ++ (laneList (Lqt.selOf G1)).map fun l => 0x3000 + l).filterMap Lqt.slatePlace
/-- Offsets of the bytes that it writes. -/
def qntBytes : List Nat := (List.range 32).map (0x1000 + ·) ++ (List.range 32).map (0x1040 + ·) ++ [0x3000, 0x3002]
theorem qntPlaces_eq : qntPlaces = qntBytes.map fun o => .slate ⟨0, 0, o⟩ := by decide +kernel
theorem placePa_scratch (o : Nat) : placePa Lqt (.slate ⟨0, 0, o⟩) = none := rfl
theorem witness_BlockConversionsComplete : Runs (longInfo G1 false [] [] (SSrc.sregs (.s 6) ++ SSrc.sregs (.s 7) ++ SSrc.sregs (.s 8) ++ SSrc.sregs .zero) false) Lqt ∧
    (∃ f, Lqt.slotUse (allLanes G1 Lqt) 3 3 = .ok f ∧ f.width = 8) ∧ ((SSrc.s 7).value Lqt).toNat = 0x1000 ∧
    Lqt.grp.stzAll = [] ∧ Lqt.grp.qstat.getLsbD 8 = false ∧ Lqt.grp.qstat.getLsbD 9 = false :=
  ⟨runs_of (by decide), ⟨_, rfl, by decide⟩, by decide⟩
theorem witness_BlockConversionsComplete_reached : ∀ k ∈ qntChks, ∃ y, k = .ok (.slate y) := by
  have h : qntChks.all (fun k => match k with | .ok (.slate _) => true | _ => false) = true := by decide +kernel
  intro k hk
  have := List.all_eq_true.mp h k hk
  split at this
  · exact ⟨_, rfl⟩
  · cases this
theorem witness_BlockConversionsComplete_places : (∀ p ∈ qntPlaces, settled Lqt p = true) ∧ unwatched Lqt 1 qntPlaces ∧
    qntPlaces.Pairwise (apart Lqt 1) := by
  rw [qntPlaces_eq]
  refine ⟨fun p hp => ?_, fun a ha => ?_, List.pairwise_map.mpr (List.Pairwise.imp ?_ (by decide : qntBytes.Pairwise (· ≠ ·)))⟩
  · obtain ⟨o, -, rfl⟩ := List.mem_map.mp hp
    rfl
  · simp [inPlaces, placePa_scratch] at ha
  · intro a b hab
    refine ⟨fun _ => .inl (by simp [inPlaces, placePa_scratch]), fun _ _ _ => ?_⟩
    simp only [inSlates, List.any_cons, List.any_nil, Bool.or_false, Bool.and_eq_false_iff, decide_eq_false_iff_not]
    omega
theorem witness_BlockConversionsComplete_dqnt : Runs (longInfo G1 false [] [4] (SSrc.sregs (.s 7) ++ SSrc.sregs (.s 8) ++ SSrc.sregs .zero) false) Lqt ∧
    ∀ l ∈ laneList (Lqt.selOf G1), (Lqt.rangeChks .read [] (0x1000 + elemBit 8 (0 + l) / 8) 1 ++ Lqt.rangeChks .read [] (0x3000 + l / 32) 1).all
      (fun k => match k with | .ok (.slate _) => true | _ => false) = true := ⟨runs_of (by decide), by decide⟩
/-- R88 on a block of 1.0 and 31 zeros with tensor scale 1: the least power of 2 from 1/448 up is 2^-8 (0x77), and 1.0 is 256 in E4M3 (0x78). -/
theorem test_qnt_scale_and_codes :
    let s := (Lqt.modGrp fun g => { g with regs := { g.regs with m := [(1, 1#64)] } }).modCore 0 fun c =>
      { c with descs := [(0, { dScratch with leaves := 16, leafs := (List.range 16).map fun k => (k, 0), bytes := [(2, 0x80#8), (3, 0x3F#8)] })] }
    let t := after (exec (.qnt G1 false (.s 6) (.s 7) (.s 8) (.imm 33) .e8m0 3 ⟨.rn, false⟩) s)
    slateByte t 0 0 0x3000 = 0x77 ∧ slateByte t 0 0 0x1000 = 0x78 ∧ slateByte t 0 0 0x1001 = 0 := by decide +kernel
theorem witness_FormatSlotWords : let i := { longInfo G1 false [] [] (3 :: ([] ++ SSrc.sregs (.imm 47))) false with lanewise := true, rep := false }
    Runs i Lm ∧ ((SSrc.imm 47).value Lm).toNat < 16 ∧ Lm.executes G1 (Lm.selOf G1) = true ∧ L.executes G1 (L.selOf G1) = false ∧ Runs i L ∧
    Runs { g := gA, ss := [3] } L ∧ Runs { g := gA } L ∧ (1 ≤ ((SSrc.imm 38).value Lm).toNat ∧ ((SSrc.imm 38).value Lm).toNat ≤ 6) :=
  ⟨runs_of (by decide), by decide, by decide, by decide, runs_of (by decide), runs_of (by decide), runs_of (by decide), by decide⟩
theorem witness_FormatSlotWords_busy : ¬∃ k, 8 ≤ k ∧ k < 16 ∧ (L.slotOf L.grp.part (L.core / 48) k).st = .transition := by
  rintro ⟨k, h1, h2, h3⟩
  have : ∀ k ∈ List.range 16, 8 ≤ k → (L.slotOf L.grp.part (L.core / 48) k).st ≠ .transition := by decide
  exact this k (List.mem_range.mpr h2) h1 h3
theorem witness_FormatSlotWords_wait : ∃ k, 8 ≤ k ∧ k < 16 ∧
    ((L.setSlot 0 0 15 ⟨.transition, false, 0, 15, 0, 0, []⟩).slotOf L.grp.part (L.core / 48) k).st = .transition := ⟨15, by decide⟩

/-! Engines, barriers, rings, the queue window. -/

/-- The group with a slate of 16 leaves at 0 and a tensor shape record at 0x5000: 64 FP32 elements at 0x2000 in one dimension, boxes of
16, copied raw into the slate or with `flags` otherwise. -/
def Le (flags : Nat) : State :=
  { (Lz.writeS 6 0x5000).writeS 8 0x100 with
    mem := Lz.mem.store (wordCells [(0x5000, 0x2000), (0x5008, 0x4001200000), (0x5010, 0x100000001), (0x5018, 0x100000001),
      (0x5038, 15 + flags * 2 ^ 40)]) }
def cpyInfo : Info := { longInfo G1 false [] [] (3 :: (SSrc.sregs (.s 6) ++ SSrc.sregs .zero ++ SSrc.sregs (.s 8))) false with lanewise := true }
/-- The tests that a copy's operands pass, in one. -/
def cpyOk (s : State) : Bool :=
  match s.readShape (allLanes G1 s) 0x5000 with
  | .ok (bs, s') => match shapeChecks (allLanes G1 s) bs 0 false, s.shapeSlot (allLanes G1 s) (ShapeRec.of bs) with
    | .ok (), .ok f =>
      let r := CmdRec.fresh bs 0 0x100 false
      let span := r.job.slateSpan f.planes
      (s'.sideChk 0x100 span.1 (span.2 - span.1) (!(ShapeRec.of bs).outward)).place.isSome && (s.grp.eng.recs.fresh 32).isSome
    | _, _ => false
  | _ => false
theorem witness_CopiesAndGathersAreAccepted : Runs cpyInfo (Le 0) ∧ (Le 0).selOf G1 ≠ 0 ∧ cpyOk (Le 0) = true ∧ cpyOk (Le 4) = true ∧
    0x100 % 256 = 0 ∧ (Le 4).grp.replayId = none :=
  ⟨runs_of (by decide), by decide, by decide +kernel, by decide +kernel, by decide, by decide⟩
theorem witness_CopiesAndGathersAreAccepted_none : Runs { cpyInfo with g := ⟨2, false⟩ } (Le 0) ∧ (Le 0).selOf ⟨2, false⟩ = 0 :=
  ⟨runs_of (by decide), by decide⟩
def gathInfo (vs is : List Nat) (g : Guard) : Info :=
  { longInfo g false vs [] ([3, 8, 9] ++ SSrc.sregs (.s 6) ++ is) false with lanewise := true }
/-- GATH with its origin in s8, its slate address in s9: the same record, of rows by index. -/
def Lg : State := ((Le 0).writeS 8 0).writeS 9 0x100
def gathOk (s : State) (idx : GathIdx) : Bool :=
  match s.readShape (allLanes G1 s) 0x5000 with
  | .ok (bs, s') => match shapeChecks (allLanes G1 s) bs 0 true with
    | .ok () =>
      let span := (s.gathIndices (allLanes G1 s) idx (CmdRec.fresh bs 0 0x100 true)).job.slateSpan 0
      (s'.sideChk 0x100 span.1 (span.2 - span.1) true).place.isSome && (s.grp.eng.recs.fresh 32).isSome
    | _ => false
  | _ => false
theorem witness_CopiesAndGathersAreAccepted_gath : Runs (gathInfo [4] [] G1) Lg ∧ Lg.selOf G1 ≠ 0 ∧ gathOk Lg (.vec 4) = true ∧
    Runs (gathInfo [4] [] ⟨2, false⟩) Lg ∧ Lg.selOf ⟨2, false⟩ = 0 ∧ Runs (gathInfo [] (SSrc.sregs (.s 7)) G1) Lg ∧ gathOk Lg (.slate (.s 7)) = true ∧
    (Lg.sideChk ((((SSrc.s 7).value Lg).toNat) % 2 ^ 32) 0 4 false).place.isSome = true :=
  ⟨runs_of (by decide), by decide, by decide +kernel, runs_of (by decide), by decide, runs_of (by decide),
    by decide +kernel, by decide⟩
/-- An index-slate gather whose guard names m0 executes with no lane selected too. -/
theorem witness_CopiesAndGathersAreAccepted_m0 : let s := Lg.modArm fun a => { a with mask := 0 }
    Runs (gathInfo [] (SSrc.sregs (.s 7)) gA) s ∧ s.selOf gA = 0 ∧ s.executes gA 0 = true := ⟨runs_of (by decide), by decide⟩

theorem witness_BatchesSealAndWait : Runs (ctl gA (SSrc.sregs (.imm 48)) false) L ∧ 16 ≤ ((SSrc.imm 48).value L).toNat ∧
    ((SSrc.imm 47).value L).toNat < 16 ∧ Runs (ctl gA ([3] ++ SSrc.sregs (.imm 47)) false) L ∧ (∀ x ∈ L.grp.eng.recs, x.2.st ≠ 3) ∧
    Tbl.get 0 L.grp.eng.batches 15 = 0 ∧
    (let s := L.modGrp fun g => { g with eng := { g.eng with batches := [(15, 1)] } }
     Tbl.get 0 s.grp.eng.batches 15 ≠ 0 ∧ Runs (ctl gA ([] ++ SSrc.sregs (.imm 47)) false) s) :=
  ⟨runs_of (by decide), by decide, by decide, runs_of (by decide), by decide, by decide, by decide, runs_of (by decide)⟩

theorem witness_BarrierArrivals : (Bar.mk 3 2 0 0 (2 ^ 32 - 1) 0).ok = true ∧ (Bar.mk 3 2 1 0 (2 ^ 32 - 1) 1).ok = true ∧
    (∃ b', (Bar.mk 3 2 0 0 (2 ^ 32 - 1) 0).arrive 0 = some b') ∧ (∃ b', (Bar.mk 3 2 1 0 (2 ^ 32 - 1) 1).arrive 1 = some b') ∧
    (0 + 1 < 2) ∧ 1 + 1 = 2 := ⟨by decide, by decide, ⟨_, rfl⟩, ⟨_, rfl⟩, by decide, by decide⟩
/-- A barrier object of group 0, with nobody arrived, at address 0x40 of a scratch slate, not live and live. -/
def Lb (live : Bool) : State :=
  let s := Ls { dScratch with bytes := [(0x40, 1), (0x44, 1)] }
  { s.writeS 1 0x40 with teams := [(0, { loadedTeam with bars := if live then [⟨0, 0x40⟩] else [] })] }
def barB (o : Except Exit BarAt) (live : Bool) : Bool := match o with | .ok o => o.live == live && o.bar.arrived == 0 && (o.bar.arrive 0).isSome | _ => false
theorem witness_BarrierWords : (∃ tm, (Lb true).myTeam = some tm) ∧
    Runs { ctl gA (SSrc.sregs (.s 1) ++ SSrc.sregs (.imm 33)) false with rep := false } (Lb false) ∧
    barB ((Lb false).barAt (allLanes gA (Lb false)) 0x40 true false) false = true ∧ 1 < 2 ^ 1 ∧
    Runs { ctl gA (SSrc.sregs (.s 1) ++ []) false with rep := false } (Lb true) ∧
    barB ((Lb true).barAt (allLanes gA (Lb true)) 0x40 false true) true = true ∧
    Runs { longInfo gA false [] [] (3 :: SSrc.sregs (.s 1)) false with rep := false, ctl := true, rel := true } (Lb true) ∧
    barB ((Lb true).barAt (allLanes gA (Lb true)) 0x40 true true) true = true ∧
    Runs { ctl gA ([3] ++ SSrc.sregs (.s 1) ++ SSrc.sregs .zero) false with rep := false } (Lb true) :=
  ⟨⟨_, rfl⟩, runs_of (by decide), by decide, by decide, runs_of (by decide), by decide, runs_of (by decide), by decide, runs_of (by decide)⟩

/-- TRAY of header v4, coordinates v6 and payload 0. -/
def trayInfo : Info := { longInfo G1 false (VSrc.vregs false (.v 4) ++ VSrc.vregs false (.v 6) ++ []) [] (VSrc.sregs (.v 4) ++ VSrc.sregs (.v 6) ++ SSrc.sregs .zero) false with rep := false, rel := true }
/-- Headers `h` in lanes 0 and 2 of v4. -/
def Ltr (h : BitVec 32) : State := Lm.modGrp fun g => { g with regs := { g.regs with v := [(4 * 64, h), (4 * 64 + 2, h)] } }
/-- Lane 0 alone, with header `h` and coordinates `c`, a task table of one entry of `kind` and class 2, the `trays` of the die and a
spill queue of `cap` places that holds `spill`. -/
def Lto (h c : BitVec 32) (kind : Nat) (trays : Tbl Tray) (spill : List Spilled) (cap : Nat) : State :=
  { (Lm.modGrp fun g => { g with regs := { g.regs with m := [(1, 1)], v := [(4 * 64, h), (6 * 64, c)] } }).modDie 0 (fun d => { d with trays := trays }) with
    parts := [(0, { loadedPart with spill := spill, par := { loadedPart.par with ttbase := 0x10000, ttlen := 1, spillCap := cap } })]
    mem := Lm.mem.store (wordCells [(0x10008, kind * 2 ^ 8 + 2 * 2 ^ 16)]) }
def tray0 (n : Nat) : Tray := ⟨0, 0, List.replicate n default, false, 0, 0⟩
def trayLook (s : State) (p : Part → Bool) : Bool := match s.parts.look 0 with | some y => p y | none => false
def trayRecs (s : State) : List Rec := (laneList (s.selOf G1)).map fun l => ⟨(VSrc.v 6).lane32 s l ++ (VSrc.v 4).lane32 s l, (SSrc.zero).value s, 64, 0xFF⟩
theorem witness_TrayAndDepdec : (∀ s ∈ [Ltr 0x2000, Ltr 0x4000], Runs trayInfo s ∧ ∃ y, s.parts.look 0 = some y) ∧
    (∃ r ∈ trayRecs (Ltr 0x4000), r.lo.toNat / 2 ^ 14 % 4 ≠ 0) ∧
    (∀ r ∈ trayRecs (Ltr 0x2000), r.lo.toNat / 2 ^ 14 % 4 = 0 ∧ r.lo.getLsbD 13 = true) ∧
    trayLook (Ltr 0x2000) (fun y => decide (y.spill.length + (trayRecs (Ltr 0x2000)).length ≤ y.par.spillCap)) = true := by
  refine ⟨fun s h => ?_, by decide, by decide, by decide⟩
  rcases List.mem_cons.mp h with rfl | h
  · exact ⟨runs_of (by decide), _, rfl⟩
  · rcases List.mem_singleton.mp h with rfl
    exact ⟨runs_of (by decide), _, rfl⟩
/-- The hypotheses about a record of lane 0 alone, as a test: PAD or not, its entry and where it goes. -/
def trayOne (s : State) (p : Rec → TaskEntry → Bool) : Bool :=
  match trayRecs s, s.taskEntry 0 0 with | [r], some e => r.lo.toNat / 2 ^ 14 % 4 == 0 && !r.lo.getLsbD 13 && p r e | _, _ => false
def trayFits (s : State) (n : Nat) : Bool := match s.openTray 0 0 0 with | some (_, t) => t.recs.length == n | none => false
/-- A record of lane 0 alone: PAD; of a grid of one team; to an open tray; to a free one; to the spill queue; and with that full. -/
theorem witness_TrayAndDepdec_one : (∀ s ∈ [Lto 0x2000 0 1 [] [] 4], laneList (s.selOf G1) = [0] ∧ (trayRecs s).all (fun r => r.lo.getLsbD 13) = true) ∧
    trayOne (Lto 0x10000 0x10001 3 [] [] 4) (fun r e => TaskEntry.grid e && r.grid == 1) = true ∧
    (let s := Lto 0 0 1 [(3, tray0 63)] [] 4; trayOne s (fun _ e => !TaskEntry.grid e && !s.spilled 0 0 0 && trayFits s 63) = true) ∧
    (let s := Lto 0 0 1 [] [] 4; trayOne s (fun _ e => !TaskEntry.grid e && !s.spilled 0 0 0 && (s.openTray 0 0 0).isNone &&
      ((s.dieAt 0).trays.fresh 256).isSome) = true) ∧
    (let s := Lto 0 0 1 [(3, tray0 64)] [] 1; trayOne s (fun _ e => !TaskEntry.grid e && trayFits s 64) = true ∧
      trayLook s (fun y => decide (y.spill.length < y.par.spillCap)) = true) ∧
    (let s := Lto 0 0 1 [] [⟨0, 0, default⟩] 1; trayOne s (fun _ e => !TaskEntry.grid e && s.spilled 0 0 0) = true ∧
      trayLook s (fun y => decide (y.par.spillCap ≤ y.spill.length)) = true) := by decide
theorem witness_TrayAndDepdec_oneRuns : ∀ h c kind trays spill cap, (h, c, kind, trays, spill, cap) ∈
    [((0x2000 : BitVec 32), (0 : BitVec 32), 1, ([] : Tbl Tray), ([] : List Spilled), 4), (0x10000, 0x10001, 3, [], [], 4), (0, 0, 1, [(3, tray0 63)], [], 4),
      (0, 0, 1, [], [], 4), (0, 0, 1, [(3, tray0 64)], [], 1), (0, 0, 1, [], [⟨0, 0, default⟩], 1)] → Runs trayInfo (Lto h c kind trays spill cap) := by
  have H : [((0x2000 : BitVec 32), (0 : BitVec 32), 1, ([] : Tbl Tray), ([] : List Spilled), 4), (0x10000, 0x10001, 3, [], [], 4), (0, 0, 1, [(3, tray0 63)], [], 4),
      (0, 0, 1, [], [], 4), (0, 0, 1, [(3, tray0 64)], [], 1), (0, 0, 1, [], [⟨0, 0, default⟩], 1)].all (fun (x : BitVec 32 × BitVec 32 × Nat × Tbl Tray × List Spilled × Nat) =>
    runsB trayInfo (Lto x.1 x.2.1 x.2.2.1 x.2.2.2.1 x.2.2.2.2.1 x.2.2.2.2.2)) = true := by decide
  exact fun h c kind trays spill cap hx => runs_of (List.all_eq_true.mp H _ hx)
/-- DEPDEC of counters at 0x2000 and 0x2040: 0, and 2. -/
def Ld : State :=
  { (Lm.modGrp fun g => { g with regs := { g.regs with v := [(6 * 64 + 2, 0x40)] } }) with mem := Lm.mem.store (wordCells [(0x2040, 2)]) }
def depInfo : Info := { longInfo G1 false (VSrc.vregs false (.v 6)) [] (SSrc.sregs (.s 1) ++ VSrc.sregs (.v 6)) false with rep := false, rel := true }
def depAsk (s : State) (l : Nat) : Ask :=
  { acc := .atomic, tgt := .glob ((((SSrc.s 1).value s).toNat : Int) + ((VSrc.v 6).lane32 s l).toInt), n := 32, atHome := true }
theorem witness_TrayAndDepdec_counters : Runs depInfo Ld ∧ Reach Ld (Ld.selOf G1) (depAsk Ld) (pw 32) ∧ Ld.arm.depLanes = 0 ∧ Ld.arm.depRecs = [] ∧
    (∀ l ∈ laneList (Ld.selOf G1), Ld.mappedAt (0x2000 + 32 * l) 4 = none) ∧ unwatched Ld 4 (placesOf (Ld.selOf G1) (pw 32)) ∧
    (∀ l ∈ laneList (Ld.selOf G1), ∀ k ∈ laneList (Ld.selOf G1), l ≠ k → 0x2000 + 32 * l + 32 ≤ 0x2000 + 32 * k ∨ 0x2000 + 32 * k + 32 ≤ 0x2000 + 32 * l) ∧
    (∀ l ∈ laneList (Ld.selOf G1), Ld.mem.num (0x2000 + 32 * l) 4 ≠ 1) :=
  ⟨runs_of (by decide), reach_of (by decide), by decide, by decide, by decide, fun _ _ => rfl, fun l _ k _ h => by omega, by decide⟩
/-- DEPDEC of lane 0's counter of 1, whose record has header `h`. -/
def Ld1 (h : Nat) : State :=
  { Lto 0 0 1 [(3, tray0 63)] [] 4 with mem := Lm.mem.store (wordCells [(0x10008, 2 ^ 8 + 2 * 2 ^ 16), (0x2000, 1), (0x2010, h)]) }
theorem witness_TrayAndDepdec_last : Runs depInfo (Ld1 0x2000) ∧ Runs depInfo (Ld1 0) ∧ (∀ s ∈ [Ld1 0x2000, Ld1 0], reachB s (laneList (s.selOf G1)) (fun l => [depAsk s l]) (fun l => [pw 32 l]) = true ∧
      s.arm.depLanes = 0 ∧ s.arm.depRecs = [] ∧ s.mappedAt 0x2000 4 = none ∧ laneList (s.selOf G1) = [0] ∧ s.mem.num 0x2000 4 = 1) ∧
    (BitVec.ofNat 64 ((Ld1 0x2000).mem.num 0x2010 8)).getLsbD 13 = true ∧ (BitVec.ofNat 64 ((Ld1 0).mem.num 0x2010 8)).getLsbD 13 = false ∧
    0x2000 + 4 ≤ 0x10000 ∧ ((Ld1 0).taskEntry 0 0).any (fun e => !TaskEntry.grid e) = true ∧ (Ld1 0).spilled 0 0 0 = false ∧ trayFits (Ld1 0) 63 = true :=
  ⟨runs_of (by decide), runs_of (by decide), by decide, by decide, by decide, by decide, by decide, by decide, by decide⟩
theorem witness_TrayAndDepdec_last_unwatched (h : Nat) (l : List Machine.Place) : unwatched (Ld1 h) 4 l := fun _ _ => rfl

/-- A sound block of 2^4 entries: claimed to 5, committed to 3, awaited to 2, retired to 1. -/
def rb : RingBlk := { base := 0x6000, lg := 4, scope := 3, err := false, tail := 3, claim := 5, head := 1, aclaim := 2, cbits := 0, rbits := 0, rsvd := false }
theorem witness_RingBlocksStaySound : rb.ok 1 = true ∧ (rb.claimN 1).isSome = true ∧ (rb.awaitN 1).isSome = true ∧ (rb.commit 4 1).isSome = true ∧
    (rb.retire 1 1).isSome = true ∧ rb.ok 16 = true ∧ (rb.claimN 16).isNone = true := by decide
/-- The block in memory at 0x7000, which s1 names. -/
def Lrb (b : RingBlk) : State :=
  { Lm.writeS 1 0x7000 with mem := Lm.mem.store (cellsAt 0x7000 (toBytes 64 b.toNat)) }
/-- What the ring words' statement asks of the block: it is reached, no mapped slate and no crib has it. -/
theorem witness_RingWords_block : ReachOne (Lrb rb) { acc := .atomic, tgt := .glob ((SSrc.s 1).value (Lrb rb)).toNat, n := 64, atHome := true } (.mem 0x7000 0x7000 1) ∧
    (Lrb rb).mappedAt 0x7000 64 = none ∧ unwatched (Lrb rb) 64 [.mem 0x7000 0x7000 1] ∧ (Lrb rb).ringWait = none ∧ (Lrb rb).ringAt 0x7000 = rb ∧
    rb.claim < 2 ^ 63 ∧ ¬∃ w ∈ (Lrb rb).waits, w.block = 0x7000 :=
  ⟨reachOne_of (by decide +kernel), by decide, fun _ _ => rfl, by decide, by decide +kernel, by decide, fun ⟨_, h, _⟩ => (by cases h)⟩
/-- Counts of 1, which fit, of 16, which do not, and of 0, which make the block unsound. -/
theorem witness_RingWords : (∀ n ∈ [SSrc.imm 33, .imm 48, .zero], runsB (ringInfo gA (3 :: (SSrc.sregs (.s 1) ++ n.sregs))) (Lrb rb) = true ∧
      runsB { longInfo gA false [] [] (SSrc.sregs (.s 1) ++ SSrc.sregs (.imm 36) ++ n.sregs) false with rep := false, ctl := true, rel := true } (Lrb rb) = true) ∧
    (∀ c : Bool, (if c then rb.awaitN 1 else rb.claimN 1).isSome = true ∧ (if c then rb.awaitN 16 else rb.claimN 16).isNone = true ∧
      (if c then rb.retire 1 1 else rb.commit 4 1).isSome = true ∧ (if c then rb.retire 9 1 else rb.commit 9 1).isNone = true) ∧
    rb.ok 1 = true ∧ rb.ok 16 = true ∧ rb.ok 0 = false := by decide
/-- A claim that fits waits behind one that does not. -/
theorem witness_RingWords_queued : let s := { Lrb rb with waits := [⟨0x7000, false, ⟨0, 1⟩, .arm0, 16, 3, none⟩] }
    s.ringWait = none ∧ (∃ w ∈ s.waits, w.block = 0x7000 ∧ w.consumer = false ∧ w.grant = none) ∧
    reachB s [0] (fun _ => [{ acc := .atomic, tgt := .glob ((SSrc.s 1).value s).toNat, n := 64, atHome := true }]) (fun _ => [.mem 0x7000 0x7000 1]) = true := by
  decide +kernel
theorem witness_RingWaitersInOrder : let w : RingWait := ⟨0x7000, false, ⟨0, 0⟩, .arm0, 1, 3, none⟩
    (∀ v ∈ ([] : List RingWait), ¬(v.block = 0x7000 ∧ v.consumer = false ∧ v.grant = none)) ∧ (w.block = 0x7000 ∧ w.consumer = false ∧ w.grant = none) ∧
    (if rb.ok w.n then rb.claimN w.n else none).isSome = true ∧ (if rb.ok 16 then rb.claimN 16 else none) = none := by decide
theorem witness_GrantedRingWaitersComplete : let w : RingWait := ⟨0x7000, false, ⟨0, 0⟩, .arm0, 1, 3, some 5⟩
    let s := { L with waits := [w] }
    Runs (ringInfo gA (3 :: (SSrc.sregs (.s 1) ++ SSrc.sregs (.imm 33)))) s ∧ s.ringWait = some w ∧ w.grant = some 5 :=
  ⟨runs_of (by decide), by decide, by decide⟩

/-- The loaded group with a monitor wave and its window. -/
def Lmon (w : List WEntry) (st : MonSt) (who : Who) : State :=
  { L with who := who, grp := { L.grp with mon := { L.grp.mon with st := st, window := w, arm := { L.grp.a0 with cl := L.arm.cl } } } }
theorem witness_QueueWindow : let i : Info := { g := gA, vs := VSrc.vregs false (.v 4), ss := VSrc.sregs (.v 4), lanewise := true, mon := true }
    Runs i (Lmon [] .live .mon) ∧ (Lmon [] .live .mon).who = .mon ∧ (Lmon [] .live .mon).grp.shape.qwin = 0 ∧
    (Lmon [] .live .mon).grp.mon.window.length = 0 ∧ Runs i (Lmon [.val []] .live .mon) ∧ 0 < (Lmon [.val []] .live .mon).grp.mon.window.length :=
  ⟨runs_of (by decide), by decide, by decide, by decide, runs_of (by decide), by decide⟩
theorem witness_QueueWindow_pop : let i : Info := { g := gA, vd := [4], lanewise := true, rep := false }
    Runs i (Lmon [.val []] .live .arm0) ∧ Runs i (Lmon [.poison .divZero 0x1000 1 0] .live .arm0) ∧ Runs i (Lmon [] .ended .arm0) ∧
    Runs i (Lmon [] .live .arm0) ∧ MonSt.live ≠ .absent ∧ MonSt.live ≠ .ended :=
  ⟨runs_of (by decide), runs_of (by decide), runs_of (by decide), runs_of (by decide), by decide, by decide⟩

/-! Steps that are no words. -/

/-- The loaded group with one operation that counts on flag 3. -/
def Lo (k : OpKind) : State :=
  L.modGrp fun g => { (g.setArm .arm0 ((g.arm .arm0).incFlag 3)) with ops := [(0, ⟨.arm0, 3, 0x1000, Clause.start, k, [], []⟩)] }
theorem witness_OperationsComplete : ∃ g o, (Lo .plain).groupAt ⟨0, 0⟩ = some g ∧ g.ops.look 0 = some o ∧ (g.endOp 0 0).done = false ∧ o.kind = .plain :=
  ⟨_, _, rfl, rfl, rfl, rfl⟩
theorem witness_OperationsComplete_kinds : ([.quant true false true 5, .dep 3 0 [], .fswap 7, .free 0 0, .touch 0 0 3 true false true true, .shoot 0 0 8192] : List OpKind).all (fun k =>
    match (Lo k).groupAt ⟨0, 0⟩ with
    | some g => (match g.ops.look 0 with | some o => decide (o.kind = k ∧ o.who ≠ .mon) && !(g.endOp 0 0).done | none => false)
    | none => false) = true := by decide
theorem witness_OperationsComplete_fence :
    (let g := { Lstz.grp with ops := Lstz.grp.ops.ins 1 ⟨.arm0, 3, 0x1008, L.arm.cl, .fence true, [], []⟩ }; (g.endOp 0 1).done = false ∧ ∃ x ∈ g.stzOps .arm0, x.1 < 1) ∧
    (let g := (Lo (.fence false)).grp; (g.endOp 0 0).done = false ∧ ∀ x ∈ g.stzOps .arm0, 0 ≤ x.1) := by decide
theorem witness_OperationsComplete_touch : let s := Lt2 [(0, crib0 .live 0 [])] .derived (some 0)
    ∃ y, s.desc? 0 0 = some y ∧ y.crib = some 0 := ⟨_, rfl, rfl⟩
theorem witness_OperationsComplete_fswap : let x : Swap := { (default : Swap) with dst := 3, dies := [(0, .done 2), (3, .verify)] }
    let y : Swap := { x with dies := [(0, .done 2), (3, .done 14)] }
    let c : Nat → Nat := fun d => if d = 0 then 2 else if d = 3 then 14 else 15
    x.dst ≠ 0 ∧ (∃ d, d < 4 ∧ ∃ st, x.dies.look d = some st ∧ ∀ c, st ≠ .done c) ∧
    ∀ d ∈ List.range 4, c d < 16 ∧ (y.dies.look d = some (.done (c d)) ∨ (y.dies.look d = none ∧ c d = 15)) :=
  ⟨by decide, ⟨3, by decide, _, rfl, fun _ h => (by cases h)⟩, by decide⟩
theorem witness_OperationsComplete_free : (Lo (.free 0 0)).engUses CmdRec.names 0 0 = false ∧
    ((Ls dScratch).modGrp fun g => { g with eng := { g.eng with recs := [(0, { (default : CmdRec) with st := 1 })] } }).engUses CmdRec.names 0 0 = true := by
  decide
theorem witness_VersionTimeouts : let k : OpKind := .coll 2 9 .mzero false none false
    (∃ g o, (Lo k).groupAt ⟨0, 0⟩ = some g ∧ g.ops.look 0 = some o ∧ o.kind = k ∧ g.collReady 2 9 none = false ∧ g.collReady 2 0 none = true ∧
      o.who ≠ .mon ∧ g.replayId = none ∧ g.tr.tm = false) ∧ L.waits = [] := ⟨⟨_, _, rfl, rfl, rfl, by decide⟩, by decide⟩
theorem witness_VersionTimeouts_handler : let s : State :=
      { L with parts := L.parts.mapV fun _ p => { p with par := { p.par with tvbase := 0x3000 } }
               mem := L.mem.store (wordCells [(0x3000 + 16 * TrapKind.versionTimeout.code, 0x4000)]) }
    (s.focus ⟨0, 0⟩ .arm0).handlerOf .versionTimeout = some 0x4000 ∧ 0x4000 ≠ 0 := by decide
theorem witness_LinesArriveAndWaitsEnd : ∃ g, L.groupAt ⟨0, 0⟩ = some g ∧ L.pm.time < 5 ∧
    (let h : Group := { g with lines := [(5, ⟨false, false, false, 0⟩)] }
     (∃ x, h.lines.look 5 = some x ∧ x.cached = false) ∧ ∀ x, h.lines.look 6 = some x → x.cached = true) ∧
    (let h := g.setArm .arm0 { g.arm .arm0 with sleep := some (0, 3, 1) }
     (h.arm .arm0).sleep = some (0, 3, 1) ∧ 0 ≤ L.pm.time ∧ ((h.setArm .arm0 { h.arm .arm0 with sleep := none }).ready .arm0 = true ∧
       L.coreRuns h = true ∧ (∀ x ∈ h.eng.recs, x.2.st ≠ 3) ∧ (h.arm .arm0).back = none ∧ (h.arm .arm0).flag 3 = 0)) :=
  ⟨_, rfl, by decide, ⟨⟨_, rfl, rfl⟩, fun _ h => (by cases h)⟩, by decide⟩

/-- The group's core with a chain of one member, whose crib's lesson is type 0 of the partition's table. -/
def chain1 : Chain := { (default : Chain) with all := [(0, 0, 1)], ended := 0, part := 0, team := 0, running := none, ctx := none, reserve := false, sources := [], img := 0 }
def Lch : State :=
  (((Lt2 [(0, crib0 .dropped 0 [])] .derived (some 0)).modCore 0 fun c => { c with chains := [(0, chain1)] }).modGrp fun g =>
    { g with shape := { g.shape with nacc := 0 } }).modPart 0 fun x => { x with replayCtx := [(0, 2 ^ 38)] }
theorem witness_ReplayGroupsStart : (∃ ch, (Lch.coreAt 0).chains.look 0 = some ch ∧ ch.running = none ∧ ch.ctx = none ∧ ch.all = [(0, 0, 1)] ∧ ch.ended = 0 ∧
      ch.part = 0) ∧ Lch.ctxFor 0 32 chain1 = some (2 ^ 38) ∧ (∃ y, Lch.crib? 0 0 = some y ∧ y.srcs = [] ∧ y.lesson = 0) ∧ Lch.lessonOk 0 0 = true ∧
    (∃ e, Lch.taskEntry 0 0 = some e) :=
  ⟨⟨_, rfl, rfl, rfl, rfl, rfl, rfl⟩, by decide, ⟨_, rfl, rfl, rfl⟩, by decide, _, rfl⟩
theorem witness_ReplayGroupsStart_fits : (Khdr.ofWord 0xF934400180000000).slots = [] ∧ Lch.accUsed 0 + (Khdr.ofWord 0xF934400180000000).acc ≤ 8 ∧
    (match (Lch.modCore 0 fun c => { c with chains := c.chains.upd 0 fun x => { x with img := 2 ^ 38 } }).claimLeaves 0 0 { chain1 with img := 2 ^ 38 } (0, 0, 1) with | .got _ => true | _ => false) = true := by
  refine ⟨by decide, by decide, by decide +kernel⟩
/-- The clock of die 0 at 70, and a slate of life 64 of which sector 1 was stamped at 6, sector 2 at 7. -/
def dOld : Desc := { dScratch with secs := [(1, Sector.fresh 6), (2, Sector.fresh 7)], dflt := Sector.fresh 69 }
def Lold (d : Desc) : State := (Ls d).modDie 0 fun x => { x with rclk := 70 }
theorem witness_ClocksTickAndSectorsExpire : L.pm.stopped = false ∧ 3 < 4 ∧ (Lold dOld).desc? 0 0 = some dOld ∧ (Lold dOld).expiryOff 0 0 dOld = false ∧
    dOld.dropped = false ∧ Tbl.rising dOld.secs = true ∧ (Lold dOld).rclk 0 = 70 ∧ dOld.secs.length < dOld.leaves * 16 ∧
    ((dOld.sec 1).st = .good ∧ dOld.life ≤ (70 + 2 ^ 32 - (dOld.sec 1).stamp) % 2 ^ 32) ∧
    ¬(dOld.life ≤ (70 + 2 ^ 32 - (dOld.sec 2).stamp) % 2 ^ 32) ∧
    ({ dOld with kind := .derived }).anySec (fun x => x.st == SecSt.good && decide (dOld.life ≤ x.age 70)) = true := by decide
theorem witness_ScrubberVisitsALeaf : (Lold dOld).desc? 0 0 = some dOld ∧ (dOld.leafs.look 0).isSome = true ∧ (Lold dOld).teamSaved 0 = false ∧
    (40 ≤ (70 + 2 ^ 32 - (dOld.sec 1).stamp) % 2 ^ 32) := by decide
/-- A mapped slate whose sector 15 the parked arm waits for. -/
def Lms : State := ((Ls dScratch).modCore 0 fun c => { c with descs := [(0, { dMapped with leafs := [(0, 0)] })] }).modArm fun a =>
  { a with park := some ⟨1, [.sector 0 0 15], [], none⟩ }
theorem witness_SectorsArriveAndWatchesHit : ∃ d, Lms.desc? 0 0 = some d ∧ d.kind = .mapped ∧ (d.sec 15).present = false ∧ (∃ tm, Lms.teams.look d.team = some tm ∧ tm.part = 0) ∧
    (Lms.takeLeaf 0 0 (15 / 16) 0).isSome = true ∧ Lms.translate 0 0 .read (d.mapva + 128 * 15) = .ok (0x4000 + 128 * 15) 1 ∧
    (∃ g ∈ Lms.groups, ∃ p, (g.arm .arm0).park = some p ∧ Cause.sector 0 0 15 ∈ p.causes) :=
  ⟨_, rfl, by decide, by decide, ⟨_, rfl, rfl⟩, by decide, by decide, _, List.mem_cons_self, _, rfl, by decide⟩
theorem witness_SectorsArriveAndWatchesHit_unasked : ∀ g ∈ (Ls dScratch).groups, ∀ w p, (g.arm w).park = some p → Cause.sector 0 0 15 ∉ p.causes := by
  intro g hg w p h
  rcases List.mem_singleton.mp hg with rfl
  cases w <;> cases h
theorem witness_SectorsArriveAndWatchesHit_watch : let y : Crib := { crib0 .live 0 [(1, false)] with watch := [(0x80, 0)] }
    let s := Lt2 [(0, y)] .derived (some 0)
    Tbl.rising s.cores = true ∧ Tbl.rising (s.coreAt 0).cribs = true ∧ s.crib? 0 0 = some y ∧ (0x80, 0) ∈ y.watch ∧
    ∀ w ∈ y.watch, w.1 = 0x80 → (y.srcs[w.2]?).map (cribSource 0) = some (0, 1) := by decide

/-! Engines and the fault service. -/

/-- A group with a request in command record 0, on engine 0's queue: 4 rows of one element from `base`,
`stride` bytes from one to the next, into the slate at an address. -/
def Lk (base stride slate : Nat) : State :=
  let s : State := { Le 0 with mem := (Le 0).mem.store (wordCells [(0x5000, base), (0x5008, 0x4002200000), (0x5010, 0x100000040), (0x5020, stride),
    (0x5038, 0x300)]) }
  let r : CmdRec := { CmdRec.fresh (s.mem.bytes 0x5000 64) 0 slate false with st := 1 }
  (s.modGrp fun g => { g with eng := { g.eng with recs := [(0, r)] }, ops := [(0, ⟨.arm0, 3, 0x1000, Clause.start, .engine 0, [], []⟩)] }).modEngine 0
    fun x => { x with queue := [(⟨0, 0⟩, 0)] }
/-- How the next chunk of the request comes out: 1 for the last one, 2 for another, 3 for a failure, 4 for a page that is not there. -/
def chunkOf (s : State) : Nat :=
  match s.groupAt ⟨0, 0⟩, s.request (⟨0, 0⟩, 0) with
  | some g, some (_, r0) =>
    let s0 := (s.modRec (⟨0, 0⟩, 0) fun r => { r with st := 1 }).modEngine 0 fun x => { x with cur := some (⟨0, 0⟩, 0) }
    let s0 := if r0.unread then s0.claimPages g.part (s0.indexWalks g r0) else s0
    match s0.readIndices g r0 with
    | .ok (sr, r) =>
      let s1 := (sr.chunkSetup g r).walkAhead g r
      match s1.chunk g r with
      | .ok (s2, v) => if s2.groupAt ⟨0, 0⟩ = s1.groupAt ⟨0, 0⟩ then (if r.job.units ≤ v then 1 else 2) else 0
      | .error (.fail _ _) => 3
      | .error (.wait _ _ _) => 4
      | .error (.far _) => 0
    | _ => 0
  | _, _ => 0
theorem witness_EnginesMoveChunks : let s := Lk 0x2000 128 0x100
    s.pm.stopped = false ∧ s.nextRequest 0 = some (⟨0, 0⟩, 0) ∧ (∃ g r, s.request (⟨0, 0⟩, 0) = some (g, r) ∧ (g.endOp s.cnt.steps r.op).done = false) ∧
    chunkOf s = 1 := ⟨by decide, by decide, ⟨_, _, rfl, by decide⟩, by decide +kernel⟩
theorem witness_EnginesMoveChunks_more : chunkOf (Lk 0x2000 8192 0x100) = 2 ∧ ∀ y ∈ ((Lk 0x2000 8192 0x100).engineAt 0).queue, y = (⟨0, 0⟩, 0) :=
  ⟨by decide +kernel, by decide⟩
theorem witness_EnginesMoveChunks_fail : chunkOf (Lk 0x2000 128 0x7FFF00) = 3 := by decide +kernel
theorem witness_EnginesMoveChunks_wait : chunkOf (Lk (2 ^ 36) 128 0x100) = 4 := by decide +kernel
theorem witness_EnginesMoveChunks_resume : ((Lk 0x2000 128 0x100).engineAt 0).queue[0]? = some (⟨0, 0⟩, 0) ∧ ((Lk 0x2000 128 0x100).engineAt 0).cur = none := by decide
theorem witness_EnginesMoveChunks_budget : let s : State := { Lk 0x2000 128 0x100 with parts := [(0, { loadedPart with par := { loadedPart.par with engw := 255 } })] }
    (∃ x, s.engines.look 0 = some x) ∧ 0 ∈ s.engineParts 0 ∧ 0 < ((s.engineParts 0).map fun p => (s.par p).engw).sum := ⟨⟨_, rfl⟩, by decide⟩

/-- A partition with one ticket, sent 100 ms ago, whose response ring at 0x7000 holds a response to it. -/
def tick0 (stalled : Bool) : Ticket := { id := 1, page := 0, access := 0, level := 5, core := 0, time := 0, sent := true, stalled := stalled }
def respBlk : RingBlk := { base := 0x6000, lg := 4, scope := 5, err := false, tail := 1, claim := 1, head := 0, aclaim := 0, cbits := 0, rbits := 0, rsvd := false }
def Lf (stalled : Bool) (time : Nat) : State :=
  { L with parts := [(0, { loadedPart with par := { loadedPart.par with respRing := 0x7000 }, tickets := [tick0 stalled] })]
           pm := { L.pm with time := time }
           mem := (L.mem.store (cellsAt 0x7000 (toBytes 64 respBlk.toNat))).store (wordCells [(0x6000, 1)]) }
theorem witness_FaultServiceAnswers : let s := Lf false 0
    (s.parts.look 0).isSome = true ∧
    (match s.ringPop 0 (s.par 0).respRing with
     | (s', some l) => fieldAt l 0 8 == 1 && ((List.range 8).all fun i => decide (0 < i → fieldAt l (8 * i) 8 = 0)) &&
         (match s'.parts.look 0 with | some x => x.tickets.all (fun t => t.sent) && (x.tickets.find? (fun t => t.id == 1)).isSome | none => false) &&
         s'.fab.held.isEmpty && s'.swaps.isEmpty && s'.groups.all (fun g => g.eng.recs.isEmpty)
     | _ => false) = true := by decide +kernel
theorem witness_FaultServiceAnswers_stall : (∃ x, (Lf false 100000000).parts.look 0 = some x ∧ x.tickets.find? (fun t => t.id == 1) = some (tick0 false)) ∧
    (tick0 false).time + 100000000 ≤ (Lf false 100000000).pm.time ∧ (Lf false 99999999).pm.time < (tick0 false).time + 100000000 ∧
    (tick0 true).stalled = true := ⟨⟨_, rfl, by decide⟩, by decide⟩

/-! The command front end. -/

/-- Partition 0 with a task table at 0x10000 whose type 0 has an entry point at 0x1000, CLASS 1,
a bell of 2 units and 55 pages of context, and queue descriptors
at 0x11000 of which queue 5's is good; its slots are 3 and 4. -/
def Lfe (x : Part) (trays : Tbl Tray) : State :=
  { (L.modDie 0 fun d => { d with trays := trays }) with
    parts := [(0, { x with par := { x.par with ttbase := 0x10000, ttlen := 1, qdt := 0x11000, slots := 0x18, cllimit := 0,
                                                recBase := 0x20000, recSize := 0x1000 } })], pm := { L.pm with time := 200, stage := 5 }
    mem := L.mem.store (wordCells [(0x10000, 0x1000), (0x10008, 0x200010100), (0x10010, 0xF934400180000000), (0x10020, 0x370000), (0x110A0, 0x7000), (0x110A8, 0x1000A0100)]) }
def rec0 : Rec := ⟨0, 7, 5, 3⟩
def trayB : Tray := { part := 0, type := 0, recs := [rec0], ready := false, since := 0, bell := 72 }
theorem witness_RecordsAndQueuesMove_bell : let s := Lfe loadedPart [(9, trayB)]
    (s.dieAt 0).trays.look 9 = some trayB ∧ trayB.recs ≠ [] ∧ TaskEntry.bell (s.rawEntry 0 0) = 2 ∧ trayB.bell + 64 * 2 ≤ s.pm.time := by decide +kernel
theorem witness_RecordsAndQueuesMove_spill : let s := Lfe { loadedPart with spill := [⟨0, 7, rec0⟩], par := { loadedPart.par with spillBase := 0x30000, spillCap := 8 } } [(9, trayB)]
    (∃ x, s.parts.look 0 = some x ∧ x.spill = ⟨0, 7, rec0⟩ :: [] ∧ x.home = [] ∧ x.mapped = []) ∧ s.fab.held = [] ∧
    s.mem.frameOk (0x30000 + 16 * 7) (s.par 0).hdmKey = true ∧ s.openTray 0 0 (s.spillRead 0 ⟨0, 7, rec0⟩).type = some (9, trayB) ∧
    trayB.recs.length < 64 :=
  ⟨⟨_, rfl, rfl, rfl, rfl⟩, by decide, by decide +kernel, by decide +kernel, by decide⟩
/-- A queue mapped in slot 3. -/
def mapq (q : Nat) (pre : Bool) : MapQ := { (default : MapQ) with q := q, ring := 0x7000, preempt := pre, weight := 1, deadline := 10, deficit := 0 }
def full : Part := { loadedPart with mapped := [(3, mapq 1 false), (4, mapq 2 false)] }
theorem witness_RecordsAndQueuesMove_notify : (Lfe loadedPart []).queueDesc 0 5 ≠ none ∧ (Lfe loadedPart []).queueDesc 0 6 = none ∧
    (Lfe loadedPart []).freeQSlot 0 = some 3 ∧ (Lfe full []).freeQSlot 0 = none ∧ Tbl.rising full.mapped = true ∧ full.fenced = false ∧
    (Lfe full []).pm.stopped = false ∧ (Lfe full []).hostUp = true ∧ ∀ m ∈ full.mapped.vals, m.q ≠ 5 ∧ m.preempt = false := by decide +kernel
theorem witness_RecordsAndQueuesMove_free : let s := { Lfe full [] with teams := [] }
    (∃ x, s.parts.look 0 = some x ∧ x.mapped.look 3 = some (mapq 1 false) ∧ x.fenced = false ∧ x.roll = 0) ∧ s.queueIdle 0 (mapq 1 false) = true ∧
    (Lfe full [(9, { trayB with recs := [{ rec0 with queue := 1 }] })]).queueIdle 0 (mapq 1 false) = false :=
  ⟨⟨_, rfl, rfl, rfl, rfl⟩, by decide +kernel, by decide +kernel⟩

/-! Placement, pre-emption, periods and exams. -/

def Lpl : State := Lfe { loadedPart with tickets := [] } [(9, { trayB with ready := true, since := 100 })]
theorem witness_TeamsArePlaced : let s := Lpl
    let w : Work := ⟨.tray 0 9, 0, 5, 100, 0, none, [rec0]⟩
    let k := Khdr.ofWord 0xF934400180000000
    s.pickWork 0 = some (w, none) ∧ s.workTakes 0 w = 1 ∧ s.bestCluster 0 k 55 1 w = some 0 ∧ s.fitsAt 0 k 55 1 1 none = true ∧
    s.recRoom 0 1 = some 0x20000 ∧ k.groups = 1 := by decide +kernel
theorem witness_TeamsArePlaced_entry : (∃ x, Lpl.parts.look 0 = some x ∧ x.fenced = false) ∧ Lpl.pm.stopped = false ∧
    Khdr.ofWord (TaskEntry.khdr (Lpl.rawEntry 0 0)) = Khdr.ofWord 0xF934400180000000 ∧ TaskEntry.pages (Lpl.rawEntry 0 0) = 55 ∧
    ∀ a, 0x20000 ≤ a → a < 0x20000 + ([rec0].flatMap Rec.bytes).length → Lpl.watchers (a / 128) = [] :=
  ⟨⟨_, rfl, rfl⟩, by decide, by decide +kernel, by decide +kernel, fun _ _ _ => rfl⟩
/-- The team of the loaded group, being pre-empted or not, in a partition with `x`, whose group is at TM, in a region, or neither. -/
def Lpre (pre : PreSt) (x : Part) (g : Group → Group) : State := { L.modGrp g with teams := [(0, { loadedTeam with pre := pre, deadline := some 5 })], parts := [(0, x)] }
theorem witness_PreemptionChooses : (PreSt.saving ≠ .none ∧ PreSt.saving ≠ .drain) ∧
    (let s := Lpre .none loadedPart fun g => { g with tr := { g.tr with tm := true } }
     (∃ g ∈ s.groups, g.team = 0 ∧ g.replayId.isNone = true ∧ g.tr.tm = true)) ∧
    (let s := Lpre .none { loadedPart with avgrun := [(0, 0)] } id
     s.prepolOf 0 0 = 0 ∧ (∀ g ∈ s.groups, g.tr.tm = false ∧ g.swapping = false) ∧
       (∃ x a, s.parts.look 0 = some x ∧ x.avgrun.look 0 = some a ∧ a ≠ 0xFFFF_FFFF ∧
         ((1000 * a : Nat) : Int) - (s.pm.time - loadedTeam.start : Nat) ≤ (5 : Int) - s.pm.time)) := by
  refine ⟨by decide, ⟨_, List.mem_singleton.mpr rfl, by decide⟩, by decide, by decide, _, _, rfl, rfl, by decide⟩
theorem witness_PreemptionChooses_discard : let s := Lpre .none loadedPart fun g => { g with rg := { g.rg with inside := true, entered := 0 } }
    (∀ x, s.parts.look 0 = some x → x.avgrun.look 0 = none) ∧
    ∀ g ∈ s.groups, g.rg.inside = true ∧ s.pm.time ≤ g.rg.entered + 2 * (2000 + (16448 * 0 + 2048 * 0) / 64) :=
  ⟨fun x h => by cases h; rfl, by decide⟩
theorem witness_PreemptionChooses_save : let s := Lpre .none loadedPart id
    (∃ g ∈ s.groups, g.rg.inside = false ∧ g.team = 0) ∧ (∃ x, s.parts.look 0 = some x ∧ x.fenced = false) :=
  ⟨⟨_, List.mem_singleton.mpr rfl, by decide⟩, _, rfl, rfl⟩
theorem witness_PreemptionChooses_deadline : let s : State := { Lpre .drain loadedPart id with pm := { L.pm with time := 6 } }
    (∃ tm, s.teams.look 0 = some tm ∧ tm.pre = .drain ∧ tm.deadline = some 5 ∧ 5 ≤ s.pm.time ∧ tm.late = false) ∧ L.pm.time < 5 :=
  ⟨⟨_, rfl, rfl, by decide⟩, by decide⟩
theorem witness_TeamsLeaveAndReturn : let s := Lpre .saving loadedPart id
    (∃ tm, s.teams.look 0 = some tm ∧ tm.pre = .saving) ∧ s.waits = [] ∧ s.cores = [] ∧ (s.groups.map (·.key)).Nodup ∧
    (s.groups.filter fun g => g.team == 0 && g.replayId.isNone).all (Group.saves false) = true ∧
    (Lo (.fswap 0)).grp.ops ≠ [] ∧ ((Lo (.fswap 0)).groups.filter fun g => g.team == 0 && g.replayId.isNone).all (Group.saves false) = false :=
  ⟨⟨_, rfl, rfl⟩, by decide +kernel, by decide +kernel, by decide +kernel, by decide +kernel, by decide, by decide +kernel⟩
/-- What is left of the machine once the team is saved. -/
def Lsaved : State := { L with pm := { L.pm with stage := 5 }, grp := Group.idle, teams := [(0, { loadedTeam with pre := .saved, saved := [L.grp] })] }
theorem witness_TeamsLeaveAndReturn_room : (Lsaved.resumeTeam 0 0 { loadedTeam with pre := .saved, saved := [L.grp] }).isSome = true ∧
    (∃ x, Lsaved.parts.look 0 = some x ∧ x.fenced = false) ∧ Lsaved.pm.stopped = false := ⟨by decide +kernel, ⟨_, rfl, rfl⟩, by decide⟩
theorem witness_TeamsLeaveAndReturn_back : let s := Lsaved
    (∃ tm, s.teams.look 0 = some tm ∧ tm.pre = .saved ∧ tm.saved = [L.grp] ∧ tm.core = 0 ∧ tm.pair = false ∧
      (Khdr.ofWord tm.khdr).groups ≤ 16 ∧ s.resumesAt tm 0 0 = true) ∧ L.grp.key.slot < 32 ∧ s.ctxIdle 0 L.grp.key.slot = true :=
  ⟨⟨_, rfl, rfl, rfl, rfl, rfl, by decide +kernel, by decide +kernel⟩, by decide +kernel, by decide +kernel⟩
theorem witness_OpportunitiesGoInOrder : (L.groups.map (·.key)).Nodup ∧ (∀ g ∈ L.groups, g.team * 32 + g.gid < 2 ^ 80) ∧ (⟨0, 0⟩, .arm0) ∈ L.offered 0 .arm0 ∧
    (∃ g ∈ L.groups, g.key.core = 0 ∧ L.coreRuns g = true ∧ g.ready .arm0 = true) ∧
    (∀ cls : Fin 7, ((⟨0, 0, [], none⟩ : Cycle).add ⟨0, 0⟩ cls L.grp.shape (0, 1)).isSome = true) ∧
    ((⟨2, 1, [⟨0, 1⟩], none⟩ : Cycle).add ⟨0, 0⟩ 2 { L.grp.shape with width := 32 } (0, 1)).isSome = true ∧
    ((⟨2, 12, [⟨0, 1⟩], none⟩ : Cycle).add ⟨0, 0⟩ 2 { L.grp.shape with width := 32, legacy := true } (0, 1)).isSome = true := by
  decide
theorem witness_OpportunitiesGoInOrder_charge : let s := { Lfe full [] with parts := (Lfe full []).parts.mapV fun _ x => { x with throttle := [(0, 1)] } }
    ∃ x, s.parts.look 0 = some x ∧ x.mapped.look 3 = some (mapq 1 false) ∧ Tbl.get 0 x.throttle 0 = 1 := ⟨_, rfl, rfl, rfl⟩
theorem witness_DeficitsAndThrottles : let s := Lfe full []
    (∃ x, s.parts.look 0 = some x ∧ x.mapped.look 3 = some (mapq 1 false)) ∧ (s.trayWork 0 ++ s.gridWork 0) = [] ∧
    (0 ≤ 0 ∧ 47 ≤ 47 ∧ 256 < (assoc [(0, 257)] 0).getD 0) := ⟨⟨_, rfl, rfl⟩, by decide +kernel, by decide⟩
/-- Ready work of queue 5 that no core can take, as no save area is free, beside queue 1, which may be pre-empted and has fallen
2^20 behind; the team of queue 1 stands. -/
def Lst : State :=
  { Lfe { loadedPart with mapped := [(3, { mapq 5 false with deficit := 2 ^ 20 }), (4, mapq 1 true)], par := { loadedPart.par with ctxPages := 120 } }
      [(9, { trayB with ready := true, since := 100 })] with teams := [(0, { loadedTeam with queue := 1, imgBytes := 0x37000 })] }
theorem witness_DeficitsAndThrottles_stuck : let s := Lst
    let w : Work := ⟨.tray 0 9, 0, 5, 100, 0, none, [rec0]⟩
    ((s.trayWork 0 ++ s.gridWork 0).filter fun w => (s.workFails 0 w).isNone && (s.takerOf 0 w).isNone) = [w] ∧
    (∃ x, s.parts.look 0 = some x ∧
      (x.mapped.vals.filter fun m => m.preempt && m.q != w.queue && decide (m.deficit + 2 ^ 20 ≤ s.deficitOf 0 w.queue) &&
        (s.residentTeams 0 m.q).any fun y => y.2.pre == .none) = [mapq 1 true]) ∧
    ((s.residentTeams 0 1).filter fun y => y.2.pre == .none).length = 1 := ⟨by decide +kernel, ⟨_, rfl, by decide +kernel⟩, by decide +kernel⟩
theorem witness_QuotasAddUpToThePool : let s := Lp true
    Tbl.rising s.parts = true ∧ (∀ x ∈ s.parts.vals, x.par.clbase ≤ x.par.cllimit) ∧ s.parts ≠ [] ∧
    (s.parts.map fun z => z.2.par.cllimit + 1 - z.2.par.clbase).sum ≤ 768 ∧ s.parts.length ≤ 2 ∧ 1 < s.parts.length := by decide +kernel
theorem witness_ExamsRun : (191 < 192) ∧ L.pm.stopped = false ∧ L.examNext 190 = true ∧ Tbl.rising (L.coreAt 190).descs = true ∧ L.pairTeams 190 = [] ∧
    L.examNext 0 = true ∧ L.pairTeams 0 ≠ [] ∧ (L.coreAt 0).exam.wanted = false ∧ (∃ tm, L.teams.look 0 = some tm ∧ tm.pre = .none) ∧
    (L.coreAt 0).exam.running = false := by
  refine ⟨by decide, by decide, by decide +kernel, by decide, by decide +kernel, by decide +kernel, by decide +kernel, by decide, ⟨_, rfl, rfl⟩, by decide⟩
theorem witness_ExamsRun_end : let s : State := { L.modCore 0 fun c => { c with exam := { c.exam with running := true, started := 7 } } with pm := { L.pm with time := 5000007 } }
    (s.coreAt 0).exam.running = true ∧ (s.coreAt 0).exam.started + 5000000 ≤ s.pm.time ∧ ¬(5000006 ≥ (s.coreAt 0).exam.started + 5000000) := by decide
theorem witness_ExamsRun_drain : let s := Lpre .drain loadedPart id
    s.examNext 0 = true ∧ 0 ∈ s.pairTeams 0 ∧ (s.coreAt 0).exam.wanted = false ∧ ∃ tm, s.teams.look 0 = some tm ∧ tm.pre = .drain ∧ tm.deadline = some 5 :=
  ⟨by decide +kernel, by decide +kernel, by decide, _, rfl, rfl, rfl⟩
theorem witness_QuotasAddUpToThePool_caps : ({ L with pm := { L.pm with current := some 9000, moduleCap := some 8000 } } : State).moduleLimit = some (.module, 8000) ∧
    1 ∈ shedAll 10 [(0, 3, 50, 50), (1, 3, 50, 20)] := by decide

/-! The host, the fabric, partitions, slots, errors. -/

/-- The machine up, with host ring 63 of partition 0 at 0x7000 on a block, and other parts of its state. -/
def Lh2 (b : RingBlk) : State :=
  { L with parts := [(0, { loadedPart with hostRings := [(63, 0x7000)], par := { loadedPart.par with hdmKey := 1 } })]
           pm := { L.pm with stage := 5 }, mem := L.mem.store (cellsAt 0x7000 (toBytes 64 b.toNat)) }
def hostPa (s : State) (va : Nat) : Option Nat := (s.devUse 0 .atomic va).devPa 0 .atomic va 64
theorem witness_HostRingAccesses : (Lh2 rb).hostUp = true ∧ (∃ x, (Lh2 rb).parts.look 0 = some x ∧ x.hostRings.look 62 = none ∧ x.hostRings.look 63 = some 0x7000) ∧
    (Lh2 rb).waits = [] ∧ hostPa (Lh2 rb) 0x7000 = some 0x7000 ∧ hostPa (Lh2 rb) (2 ^ 40) = none ∧ ((Lh2 rb).ringAt 0x7000).ok 1 = true ∧
    (((Lh2 rb).ringAt 0x7000).claimN 1).isSome = true ∧ ((Lh2 rb).ringAt 0x7000).ok 64 = false ∧ ((Lh2 rb).ringAt 0x7000).ok 16 = true ∧
    (((Lh2 rb).ringAt 0x7000).claimN 16).isNone = true :=
  ⟨by decide, ⟨_, rfl, rfl, rfl⟩, by decide, by decide +kernel, by decide +kernel, by decide +kernel, by decide +kernel, by decide +kernel,
    by decide +kernel, by decide +kernel⟩
/-- Commits of one granule at 4, with low bits 4, and at a position not claimed; TAIL is 3. -/
theorem witness_HostRingAccesses_commit : let b := (Lh2 rb).ringAt 0x7000
    (4 : Word).toNat / 2 ^ 58 % 64 + 1 = 1 ∧ 4 % 2 ^ 58 = (4 : Word).toNat % 2 ^ 58 ∧ b.tail = 3 ∧ b.tail ≤ 4 ∧ 4 < b.tail + 2 ^ 58 ∧
    (b.commit 4 1).isSome = true ∧ (b.commit 9 1).isNone = true := by decide +kernel
theorem witness_HostRingAccesses_bar : L.hostUp = false ∧ (Lh2 rb).parts.look 9 = none ∧
    ∃ x, (Lh2 rb).parts.look 0 = some x ∧ x.starved < 2 ^ 32 ∧ x.losterr < 2 ^ 32 ∧ x.late < 2 ^ 32 := ⟨by decide, by decide, _, rfl, by decide⟩
theorem witness_HostMemoryAccesses : let s := Lh2 rb
    s.hostUp = true ∧ (s.parts.look 0).isSome = true ∧ 2 ^ 39 - 64 + 64 ≤ 2 ^ 39 ∧ (s.par 0).hdmKey = 1 ∧
    (∀ f ∈ framesOf 0x1000 64, s.mem.owners.look f = none) ∧
    (let t : State := { s with mem := { s.mem with owners := [(0, 2)] } }; ∃ f ∈ framesOf 0x1000 64, t.mem.owners.look f = some 2) := by decide +kernel
theorem witness_HostMemoryAccesses_config : L.pm.failed = false ∧ L.pm.stage ≠ 5 ∧ (Lh2 rb).pm.failed = false ∧ (Lh2 rb).pm.stage = 5 ∧
    (16 < 17 ∧ (16 ≠ 0 ∧ (Lh2 rb).parts.look (16 - 1) = none)) ∧ ((Lh2 rb).parts.look (1 - 1)).isSome = true ∧
    ({ L with pm := { L.pm with failed := true } } : State).pm.failed = true := by decide +kernel
/-- A request of device 5 for 8 bytes at 0x2000. -/
def flit0 (tenant : BitVec 16) (size : BitVec 3) (opc : BitVec 7) : Flit := { kind := 0, dest := 0, src := 5, tenant := tenant, tag := 9, va := 0x2000, size := size, opc := opc }
/-- It comes on port 15 with the sequence number that the port expects. -/
def arr0 : Arrival := ⟨15, (L.portAt 15).seq, true, flit0 0 3 0⟩
/-- How the memory of the loaded partition answers, once the walk has claimed the table's frames. -/
def walkB (s : State) (a : Machine.Acc) (va : Nat) : Bool := (s.claimWalk 0 va).walkTr 0 a va == .ok va 1
def recalled (s : State) (va : Nat) : State := let w := s.claimWalk 0 va; ({ w with mem := w.mem.claim va 1 }).recall (va / 128)
theorem witness_RemoteRequestsAreServed : (flit0 0 3 0).dest = L.fab.id ∧ L.pm.stopped = false ∧ L.pm.failed = false ∧ arr0.port < 16 ∧
    (L.portAt arr0.port).down = false ∧ arr0.sound = true ∧ arr0.seq = (L.portAt arr0.port).seq ∧ L.tenantPart 7 = none ∧ L.tenantPart 0 = some 0 ∧
    (∃ x, L.parts.look 0 = some x ∧ x.fenced = false) ∧ (∃ level, (L.claimWalk 0 (2 ^ 36)).walkTr 0 .read (2 ^ 36) = .park level) ∧
    walkB L .read 0x2000 = true ∧ walkB L .write 0x2000 = true ∧ walkB L .atomic 0x2000 = true ∧ (recalled L 0x2000).poisonAt 0x2000 8 = false :=
  ⟨by decide, by decide, by decide, by decide, by decide, by decide, by decide, by decide, by decide, ⟨_, rfl, rfl⟩, ⟨_, rfl⟩, by decide +kernel,
    by decide +kernel, by decide +kernel, by decide +kernel⟩
theorem witness_RemoteRequestsAreServed_sizes : 2 ^ (5 : BitVec 3).toNat ≤ 48 ∧ 48 < 2 ^ (6 : BitVec 3).toNat ∧ 2 ^ (6 : BitVec 3).toNat ≤ 112 ∧
    112 < 2 ^ (7 : BitVec 3).toNat ∧ L.fab.parts = [] ∧ opcType (bits (0x19 : BitVec 7).toNat 3 3) = some .i64 ∧
    opcOp (bits (0x19 : BitVec 7).toNat 0 3) = some .add ∧ (0x19 : BitVec 7).getLsbD 6 = false ∧
    L.mem.num 0x2000 4 ≠ 1 ∧ (recalled L 0x2000).poisonAt 0x2000 4 = false := by decide +kernel
theorem witness_RemoteRequestsAreServed_untaken : 16 ≤ ({ arr0 with port := 16 } : Arrival).port ∧ ({ arr0 with sound := false } : Arrival).sound = false ∧
    ({ arr0 with seq := arr0.seq + 1 } : Arrival).seq ≠ (L.portAt 15).seq ∧
    (({ L with fab := { L.fab with ports := [(15, { (default : Port) with down := true })] } } : State).portAt 15).down = true := by decide
theorem witness_RemoteRequestsAreServed_fenced : ∃ x, ({ L with parts := [(0, { loadedPart with fenced := true })] } : State).parts.look 0 = some x ∧ x.fenced = true :=
  ⟨_, rfl, rfl⟩
/-- A request under tag 1023 of port 15, sent at 0, that arm 0 or the record 0 waits for. -/
def Ltag (record : Option Nat) (time : Nat) : State :=
  let s := L.modArm fun a => { a with remote := [⟨0, 0x2000, 15 * 1024 + 1023, none⟩] }
  { s.modGrp fun g => { g with eng := { g.eng with recs := [(0, { (default : CmdRec) with remote := [⟨0, 0x2000, 15 * 1024 + 1023, none⟩] })] } } with
    fab := { s.fab with tags := [(15 * 1024 + 1023, { key := ⟨0, 0⟩, who := .arm0, part := 0, record := record, sent := 0, data := 8 })] }, pm := { s.pm with time := time } }
theorem witness_ResponsesAndLinks : ([none, some 0] : List (Option Nat)).all (fun r =>
    let s := Ltag r 10000000
    (match s.fab.tags.look (15 * 1024 + 1023) with
     | some y => (s.groupAt y.key).isSome && decide (y.sent + 10000000 ≤ s.pm.time) && decide (y.record = r)
     | none => false) && decide ((s.portAt arr0.port).down = false ∧ arr0.seq = (s.portAt arr0.port).seq)) = true ∧
    ({ flit0 0 0 0 with tag := 1023 } : Flit).tag.toNat = 1023 ∧ (flit0 0 0 0).dest = (Ltag none 0).fab.id ∧ (Ltag none 9999999).pm.time < 0 + 10000000 := by
  decide +kernel
theorem witness_ResponsesAndLinks_port : (L.portAt 15).down = false ∧ (L.portAt 15).resends < 7 ∧
    (let s : State := { L with fab := { L.fab with ports := [(15, { (default : Port) with resends := 7, down := false })] } }
     (s.portAt 15).down = false ∧ 7 ≤ (s.portAt 15).resends) ∧ 6 ≤ ({ flit0 0 0 0 with kind := 6 } : Flit).kind.toNat := by decide +kernel

/-- Parameters of a second partition: clusters 1 to 3, the queue slots 0 and 1, tenant 4. -/
def par1 : PartParams := { partDefault with ttlen := 4096, clbase := 1, cllimit := 3, slots := 3, tenant := 4, keys := [2], tkey := 2, hdmKey := 2, pcap := 999, ctxPages := 256, spillCap := 2 ^ 10,
                                            recSize := 2 ^ 16 }
def Lpart (fenced : Bool) : State := { L with parts := [(0, { loadedPart with fenced := fenced, par := { loadedPart.par with cllimit := 0, slots := 4, hdmKey := 1, ttlen := 1 }, keys := [(2, [])] })] }
theorem witness_PartitionsComeAndGo : let s := Lpart false
    15 < 16 ∧ s.parts.look 15 = none ∧ s.paramsOk 15 { par1 with pcap := max 1000 (min 2800 par1.pcap) } = true ∧ s.pm.stopped = false ∧ s.pm.failed = false ∧ s.pm.alarm = 0 ∧
    (s.parts.look 0).isSome = true ∧ s.paramsOk 15 { par1 with cllimit := 48 } = false ∧
    s.paramsOk 0 (changeParams (s.par 0) (.rank 3)) = true := by decide +kernel
theorem witness_PartitionsComeAndGo_part : (∃ x, (Lpart false).parts.look 0 = some x ∧ x.fenced = false) ∧ ∃ x, (Lpart true).parts.look 0 = some x ∧ x.fenced = true :=
  ⟨⟨_, rfl, rfl⟩, _, rfl, rfl⟩
theorem witness_PartitionsComeAndGo_refused : (Lpart false).paramsOk 0 (changeParams ((Lpart false).par 0) (.taskTable 0 0)) = false ∧
    ({ Lpart false with pm := { L.pm with alarm := 1 } } : State).pm.alarm ≠ 0 := by decide +kernel
theorem witness_ManagementRequests : 7 < 8 ∧ 4095 < 4096 ∧ L.pm.stage < 3 ∧ 2 ^ 26 - 1 < 2 ^ 26 ∧ 1 ≤ 1 ∧ 15 ≤ 15 ∧ (List.replicate 32 (0 : Byte)).length = 32 ∧
    (∃ x, (Lpart false).parts.look 0 = some x ∧ x.fenced = false ∧ (x.keys.look 2).isSome = true) ∧
    (Lpart false).swaps = [] ∧ L.teams.look 9 = none ∧ (Lpart false).parts.look 9 = none :=
  ⟨by decide, by decide, by decide, by decide, by decide, by decide, by decide, ⟨_, rfl, rfl, rfl⟩, by decide, by decide, by decide⟩
/-- Slot 15 on die 3 stands under a record that signer 2 signed; no other slot does. -/
theorem witness_ManagementRequests_revoked : let s := (Lpart false).setSlot 0 3 15 ⟨.bound, true, 0, 5, 0, 2, []⟩
    (s.slotOf 0 3 15).st = .bound ∧ (s.slotOf 0 3 15).signer = 2 ∧ (List.range 4).all (fun d => (List.range 16).all fun k =>
      decide (d = 3 ∧ k = 15) || decide ((s.slotOf 0 d k).st ≠ .bound)) = true ∧ s.pm.attKeys = L.pm.attKeys := by decide +kernel
theorem witness_ManagementRequests_keys : ({ L with pm := { L.pm with attKeys := true } } : State).pm.attKeys = true ∧
    ({ L with pm := { L.pm with attKeys := false } } : State).pm.attKeys = false := by decide
/-- A step of an FSWAP on die 3, and a slot of its partition there. -/
def swap0 (src : Nat) (st : SwapSt) : Swap := { (default : Swap) with part := 0, key := some ⟨144, 0⟩, slot := 15, src := src, arg := 1, dies := [(3, st)], record := none, ticket := none, rejected := false, unlogged := [] }
def Lsx (x : Swap) (b : SlotSt) (log : Nat) : State :=
  ({ L with swaps := [(0, x)], parts := [(0, { loadedPart with regions := [[], [], [], [4, 5]], logReserved := log })], pm := { L.pm with time := 1000000 } } : State).setSlot 0 3 15
    ⟨b, true, 0, 5, 0, 1, []⟩
def Lsw (src : Nat) (st : SwapSt) (b : SlotSt) (log : Nat) : State := Lsx (swap0 src st) b log
theorem witness_FormatSwapSteps : let s := Lsw 2 .verify .bound 0
    (∃ x, s.swaps.look 0 = some x ∧ x.dies.look 3 = some .verify ∧ x.ticket = none ∧ x.rejected = false ∧ s.swapWaits 0 x 3 = false ∧ x.src = 2 ∧ x.key.isSome = true) ∧
    s.pm.stopped = false ∧ s.pm.failed = false ∧ (s.slotOf 0 3 15).st ≠ .unbound ∧ s.logFree 0 = true ∧ (Lsw 2 .verify .bound 4096).logFree 0 = false ∧
    ((Lsw 2 .verify .unbound 0).slotOf 0 3 15).st = .unbound := ⟨⟨_, rfl, rfl, rfl, rfl, by decide, rfl, rfl⟩, by decide +kernel⟩
/-- The unbinding that a revocation starts: the slot is bound under signer 1's record, or under another's. -/
theorem witness_FormatSwapSteps_revoked : let x : Swap := { swap0 2 .verify with key := none }
    (∃ y, (Lsx x .bound 0).swaps.look 0 = some y ∧ y.key = none ∧ y.src = 2) ∧ ((Lsx x .bound 0).slotOf 0 3 15).st = .bound ∧
    ((Lsx x .bound 0).slotOf 0 3 15).signer = x.arg ∧ ((Lsx { x with arg := 7 } .bound 0).slotOf 0 3 15).signer ≠ 7 := ⟨⟨_, rfl, rfl, rfl⟩, by decide +kernel⟩
theorem witness_FormatSwapSteps_basic : (swap0 1 .verify).record = none ∧ (swap0 1 .verify).key.isSome = true ∧
    (let s := Lsw 1 .verify .unbound 0
     (s.slotOf 0 3 15).st = .unbound ∧ ((s.regionsOf 0 3).find? fun r => !(s.regionsUsed 0 3).contains r) = some 4 ∧ s.logFree 0 = true ∧
     s.verifyTurn 0 (swap0 1 .verify) = true) ∧
    (let s : State := { Lsw 1 .verify .unbound 0 with parts := [(0, loadedPart)] }; ∀ r ∈ s.regionsOf 0 3, r ∈ s.regionsUsed 0 3) ∧
    (let s := Lsw 1 .verify .unbound 0; ({ s with swaps := s.swaps ++ [(1, swap0 1 .verify)] } : State).verifyTurn 1 (swap0 1 .verify) = false) := by decide +kernel
theorem witness_FormatSwapSteps_bound : let s := ({ L with swaps := [(0, swap0 1 .verify)] } : State).setSlot 0 3 15 ⟨.bound, true, 0, 5, shaNum (standardRecord 1), 0, []⟩
    (s.slotOf 0 3 15).st = .bound ∧ (s.slotOf 0 3 15).meas = shaNum (standardRecord (swap0 1 .verify).arg) := ⟨rfl, rfl⟩
theorem witness_FormatSwapSteps_drain : let s := Lsw 1 (.drain 0) .transition 0
    (∃ x, s.swaps.look 0 = some x ∧ x.dies.look 3 = some (.drain 0)) ∧ s.slotUsed 0 3 15 = false ∧ s.pm.time ≤ 0 + 1000000 ∧ 0 + 1000000 ≤ s.pm.time ∧
    (({ s with grp := { s.grp with key := ⟨144, 0⟩, ops := [(0, ⟨.arm0, 3, 0, Clause.start, .plain, [15], []⟩)] } } : State).slotUsed 0 3 15 = true) ∧
    L.pm.time < 0 + 1000000 := ⟨⟨_, rfl, rfl⟩, by decide +kernel, by decide, by decide, by decide +kernel, by decide⟩
theorem witness_FormatSwapSteps_publish : let s := Lsw 1 (.reconf 4) .transition 1
    (∃ y, s.parts.look 0 = some y) ∧ turnOf (Tbl.get 0 s.pm.reconfTurn 3) (Swap.came 3) (s.toReconfigure 3) = some 0 ∧
    turnOf (Tbl.get 0 s.pm.reconfTurn 3) (Swap.came 3) (s.toReconfigure 3) ≠ some 1 ∧ 3 ∉ (swap0 1 (.reconf 4)).unlogged ∧
    3 ∈ ({ swap0 2 (.reconf 4) with unlogged := [3] } : Swap).unlogged := ⟨⟨_, rfl⟩, by decide +kernel⟩
theorem witness_ErrorsMeet : let s := Lt2 [(0, crib0 .live 0 []), (1, crib0 .stale 1 [])] .scratch none
    Tbl.rising s.cores = true ∧ (∃ d, s.desc? 0 0 = some d ∧ d.kind = .scratch) ∧ (∃ x, s.crib? 0 0 = some x ∧ x.st = .live) ∧
    (∃ x, s.crib? 0 1 = some x ∧ x.st ≠ .live ∧ x.st ≠ .dropped) ∧
    ((s.modCore 0 fun c => { c with exam := { c.exam with quarantined := true } }).coreAt 0).exam.quarantined = true :=
  ⟨by decide, ⟨_, rfl, rfl⟩, ⟨_, rfl, rfl⟩, ⟨_, rfl, by decide⟩, by decide⟩
/-- Of a state with a mapped slate whose sector 3 is present: what the freeing of a directory entry asks. -/
def Ldir : State := (Ls dScratch).modCore 0 fun c => { c with descs := [(0, { dMapped with secs := [(3, { Sector.fresh 0 with present := true, line := 0x83 })] })] }
theorem witness_ErrorsMeet_directory : Tbl.rising Ldir.cores = true ∧ (∀ x ∈ Ldir.cores, Tbl.rising x.2.descs = true) ∧
    (∀ x ∈ Ldir.cores, ∀ y ∈ x.2.descs, y.2.kind = .mapped → y.2.dflt.present = false ∧ Tbl.rising y.2.secs = true) ∧
    ∃ d, Ldir.desc? 0 0 = some d ∧ d.kind = .mapped ∧ (d.sec 3).present = true ∧ (d.sec 3).line = 0x83 := ⟨by decide, by decide, by decide, _, rfl, by decide⟩
theorem witness_ErrorsHeatAndAlarms : 3 < 4 ∧ (L.dieAt 3).band = .normal ∧ ((L.modDie 3 fun d => { d with band := .throttled }).dieAt 3).band = .throttled ∧
    L.pm.stopped = false ∧ (3 ≠ 1 ∧ 3 ≠ 2) ∧ 0 < L.pm.pool := by decide
theorem witness_ResetAndBringUp : State.reset.pm.failed = false ∧ State.reset.pm.stage = 0 ∧ [0, 1, 2, 3, 4].all (fun n =>
    let s : State := { State.reset with pm := { State.reset.pm with stage := n } }; !s.pm.failed && s.pm.stage == n) = true ∧ (true || false) = true ∧
    191 < 192 := by decide

/-! More cases of the statements' hypotheses. -/

/-- A monitor wave whose window is full stands at its VPUSH. -/
theorem witness_StepRuns_monStands : let s := Lmon [.val []] .live .mon
    ∃ t, exec (.qpush gA (.v 4)) s = .next t ∧ ∃ h, t.groupAt s.grp.key = some h ∧ s.grp.stands h .mon = true :=
  ⟨_, rfl, _, rfl, by decide⟩
/-- A group of a team of two, with a live barrier object of which it is a member. -/
def Lxb : State :=
  let s := Ls { dScratch with bytes := [(0x40, 1), (0x44, 1)] }
  { s with teams := [(0, { loadedTeam with khdr := 0xF934_4002_8000_0000#64, bars := [⟨0, 0x40⟩] })] }
theorem witness_Exit_barrier : Runs (ctl gA []) Lxb ∧ exitB Lxb = true ∧ Lxb.grp.replayId = none ∧
    (∃ x, Lxb.teams.look Lxb.grp.team = some x ∧ x.bars = [⟨0, 0x40⟩] ∧ (insNat x.retired Lxb.grp.gid).length ≠ groupsOf x.khdr) ∧
    ∃ d, Lxb.anySlate 0 Lxb.grp.team (bits 0x40 11 11) = some (0, d) ∧ d.kind = .scratch ∧ (d.sec ((0x40 % 2 ^ 22 - d.base * 2048) / 128)).st = .good ∧
      bitB (Bar.ofNat (Lxb.slNum 0 0 (0x40 % 2 ^ 22 - d.base * 2048) 16)).members Lxb.grp.gid = true :=
  ⟨runs_of (by decide), by decide, by decide, ⟨_, rfl, rfl, by decide⟩, _, rfl, rfl, by decide, by decide⟩
/-- A replay group of a chain of one member. -/
def Lrp : State :=
  ((Lt2 [(0, crib0 .replaying 0 [])] .derived (some 0)).modCore 0 fun c => { c with chains := [(0, { chain1 with running := some ⟨0, 0⟩, ctx := some 0 })] }).modGrp
    fun g => { g with replayId := some ⟨0, 0, 0, 0, 1⟩ }
theorem witness_Exit_replay : Runs (ctl gA []) Lrp ∧ exitB Lrp = true ∧ Lrp.grp.replayId = some ⟨0, 0, 0, 0, 1⟩ ∧
    (∃ ch, (Lrp.coreAt 0).chains.look 0 = some ch ∧ ch.ended + 1 = ch.all.length ∧ ch.sources = []) ∧ ∃ y, Lrp.crib? 0 0 = some y :=
  ⟨runs_of (by decide), by decide, by decide, ⟨_, rfl, by decide, rfl⟩, _, rfl⟩
/-- A group whose BARW waits, for an object whose sector is lost, poisoned or still there. -/
def Lbw (broke : Option SecSt) : State := (Lb true).modArm fun a => { a with barw := some ⟨0, 0, 0, broke⟩ }
theorem witness_BarrierWords_broke : ∀ b ∈ [none, some SecSt.lost, some .poisoned],
    Runs { ctl gA ([] ++ SSrc.sregs (.s 1) ++ SSrc.sregs .zero) false with rep := false, rel := (Lbw b).grp.shape.mmrev == 2 } (Lbw b) ∧
      ∃ w, (Lbw b).arm.barw = some w ∧ w.broke = b := by
  intro b h
  refine ⟨?_, _, rfl, rfl⟩
  rcases List.mem_cons.mp h with rfl | h
  · exact runs_of (by decide)
  · rcases List.mem_cons.mp h with rfl | h
    · exact runs_of (by decide)
    · rcases List.mem_singleton.mp h with rfl
      exact runs_of (by decide)
/-- What the phase 0 of a live object means for a BARW of phase 0 and of phase 1. -/
theorem witness_BarrierWords_phase : barB ((Lbw none).barAt (allLanes gA (Lbw none)) 0x40 false true) true = true ∧
    (Bar.ofNat ((Lbw none).slNum 0 0 0x40 16)).phase = 0 ∧ ((SSrc.zero).value (Lbw none)).toNat = 0 ∧ ((SSrc.imm 33).value (Lbw none)).toNat = 1 := by decide

/-! Task records: the entry apart from the spill queue's area, no watch on it, and lanes whose counters become 0 together. -/

theorem hasEntry_of {s : State} {p : Nat} {r : Rec} (h : s.entryAt p r.type = 0x10000) (hb : 0x10040 ≤ (s.par p).spillBase)
    (he : (s.taskEntry p r.type).any (fun e => !TaskEntry.grid e || decide (r.grid < 2 ^ 32)) = true) : HasEntry s p r := by
  refine ⟨fun a h1 h2 => ?_, ?_⟩
  · rw [h] at h1
    simp only [inSpill, decide_eq_false_iff_not]
    omega
  · cases ht : s.taskEntry p r.type with
    | none => simp [ht] at he
    | some e => exact ⟨e, rfl, fun hg => by simpa [ht, hg] using he⟩
theorem witness_TrayAndDepdec_hasEntry : (let s := Lto 0 0 1 [(3, tray0 63)] [] 4; ∀ r ∈ trayRecs s, HasEntry s 0 r) ∧
    (let s := Lto 0x10000 0x10001 3 [] [] 4; ∀ r ∈ trayRecs s, HasEntry s 0 r) ∧ ∀ a, (Lto 0 0 1 [] [] 4).watchers a = [] := by
  refine ⟨fun r h => ?_, fun r h => ?_, fun _ => rfl⟩
  · rcases List.mem_singleton.mp h with rfl
    exact hasEntry_of (by decide) (by decide) (by decide)
  · rcases List.mem_singleton.mp h with rfl
    exact hasEntry_of (by decide) (by decide) (by decide)
/-- DEPDEC of two counters of 1, whose records have header `h`. -/
def Ld2 (h : Nat) : State :=
  let s := Lto 0 0 1 [(3, tray0 62)] [] 4
  { (s.modGrp fun g => { g with regs := { g.regs with m := [(1, 5)], v := [(6 * 64 + 2, 0x40)] } }) with
    mem := { s.mem.store (wordCells [(0x2000, 1), (0x2010, h), (0x2040, 1), (0x2050, h)]) with owners := [(8, 1)] } }
theorem witness_TrayAndDepdec_pair : (∀ s ∈ [Ld2 0x2000, Ld2 0], reachB s (laneList (s.selOf G1)) (fun l => [{ depAsk s l with consume := false }])
      (fun l => [pw 32 l]) = true ∧ runsB depInfo s = true ∧ laneList (s.selOf G1) = [0, 2] ∧ s.arm.depLanes = 0 ∧ s.arm.depRecs = [] ∧ (s.parts.look 0).isSome = true ∧
      (∀ l ∈ laneList (s.selOf G1), s.mem.num (0x2000 + 32 * l) 4 = 1 ∧ s.poisonAt (0x2000 + 32 * l + 16) 16 = false ∧ s.mappedAt (0x2000 + 32 * l) 4 = none) ∧
      s.mem.owners.look (0x10000 / 8192) = some (s.par 0).hdmKey) ∧
    (BitVec.ofNat 64 ((Ld2 0x2000).mem.num 0x2010 8)).getLsbD 13 = true ∧ (BitVec.ofNat 64 ((Ld2 0).mem.num 0x2050 8)).getLsbD 13 = false ∧
    trayFits (Ld2 0) 62 = true ∧ (Ld2 0).spilled 0 0 0 = false ∧ (Ld2 0).entryAt 0 0 = 0x10000 := by decide +kernel
theorem witness_TrayAndDepdec_pairApart : unwatched (Ld2 0) 4 (placesOf ((Ld2 0).selOf G1) (pw 32)) ∧ (∀ a, (Ld2 0).watchers a = []) ∧
    (∀ a, inSpill (Ld2 0) 0 a = true → inPlaces (Ld2 0) 32 (placesOf ((Ld2 0).selOf G1) (pw 32)) a = false) ∧
    ∀ j, j < 64 → inPlaces (Ld2 0) 4 ([0, 2].map (pw 32)) (0x10000 + j) = false := by
  have h : placesOf ((Ld2 0).selOf G1) (pw 32) = [pw 32 0, pw 32 2] := by decide
  refine ⟨fun _ _ => rfl, fun _ => rfl, fun a ha => ?_, fun j hj => ?_⟩
  · have ha' : decide (2 ^ 37 + 2 ^ 20 ≤ a ∧ a < 2 ^ 37 + 2 ^ 20 + 16 * 4) = true := ha
    rw [h]
    simp only [decide_eq_true_eq] at ha'
    simp [inPlaces, placePa, pw]
    omega
  · simp [inPlaces, placePa, pw]
    omega

/-! Operations, lines, periods, engines. -/

/-- An operation of the group behind an MSTZ that is withdrawn, and one of a group of which no MSTZ is. -/
theorem witness_OperationsComplete_owed : (let g := { (Lo (.fence true)).grp with ops := [(4, ⟨.arm0, 3, 0x1008, L.arm.cl, .fence true, [], []⟩)]
                                                                                  redo := [⟨.arm0, 2, 3, 0x1000, L.arm.cl, true⟩] }
      g.stzOwed .arm0 4 = true ∧ (g.endOp 0 4).done = false) ∧ (Lo (.fence false)).grp.stzOwed .arm0 0 = false := by decide
theorem witness_OperationsComplete_load : let k : OpKind := .load [⟨pw 4 0, 4, 4, 0, false, 7⟩]
    ∃ g o, (Lo k).groupAt ⟨0, 0⟩ = some g ∧ g.ops.look 0 = some o ∧ (g.endOp 0 0).done = false ∧ o.kind = k := ⟨_, _, rfl, rfl, rfl, rfl⟩
/-- Collective operations whose version is there, and is not; an MSTZ, and an MZERO. -/
theorem witness_OperationsComplete_coll : (∀ op ∈ [CollOp.mzero, .mstz 0 0 0 128 0 1 .packed 0 ⟨.rn, false⟩ 0], let s := Lo (.coll 2 0 op false none false)
      ∃ g o, s.groupAt ⟨0, 0⟩ = some g ∧ g.ops.look 0 = some o ∧ o.kind = .coll 2 0 op false none false ∧ (g.endOp 0 0).done = false ∧
        g.collReady 2 0 none = true ∧ g.collReady 2 9 none = false ∧ s.stzBehind g 0 o = false ∧ o.wb = [] ∧ g.replayId = none) ∧
    (∃ o : Op, o.kind = .coll 2 0 .mzero false none false ∧ o.isStz = false) ∧ (∃ r, collResult L.grp.regs 2 .mzero = some r) ∧
    (∃ o : Op, o.kind = .coll 2 0 (.mstz 0 0 0 128 0 1 .packed 0 ⟨.rn, false⟩ 0) false none false ∧ o.isStz = true) := by
  refine ⟨fun op h => ?_, ⟨⟨.arm0, 0, 0, Clause.start, _, [], []⟩, rfl, rfl⟩, ⟨_, rfl⟩, ⟨⟨.arm0, 0, 0, Clause.start, _, [], []⟩, rfl, rfl⟩⟩
  rcases List.mem_cons.mp h with rfl | h
  · exact ⟨_, _, rfl, rfl, rfl, by decide, by decide, by decide, by decide, rfl, rfl⟩
  · rcases List.mem_singleton.mp h with rfl
    exact ⟨_, _, rfl, rfl, rfl, by decide, by decide, by decide, by decide, rfl, rfl⟩
/-- A younger MSTZ of the same bytes stands behind an older one. -/
theorem witness_OperationsComplete_behind : let op (ver : Nat) : Op := ⟨.arm0, 3, 0x1000, L.arm.cl, .coll 2 ver (.mstz 0 0 0 128 0 1 .packed 0 ⟨.rn, false⟩ 0) false none false, [], []⟩
    L.stzBehind { L.grp with ops := [(0, op 9), (1, op 0)] } 1 (op 0) = true := by decide
/-- A stochastically rounding MSTZ, with nothing drawn since. -/
theorem witness_VersionTimeouts_sr : let gen : Word := srSeed 3
    ∃ g : Group, g.gen = (srDraws gen (stzCount .packed 0)).2 ∧ (⟨.sr, false⟩ : Rnd).mode = .sr := ⟨{ L.grp with gen := (srDraws (srSeed 3) 0).2 }, rfl, rfl⟩
/-- A line of an image whose frame another key owns, and one whose frame is free. -/
theorem witness_LinesArriveAndWaitsEnd_shut : (let s : State := { L with mem := { L.mem with owners := [((L.grp.img + L.grp.lineAt 5) / 8192, 2)] } }
      (framesOf (s.grp.img + s.grp.lineAt 5) s.grp.lineSize).any (fun f => !s.mem.frameOk (f * 8192) (s.par s.grp.part).hdmKey) = true) ∧
    (framesOf (L.grp.img + L.grp.lineAt 5) L.grp.lineSize).any (fun f => !L.mem.frameOk (f * 8192) (L.par L.grp.part).hdmKey) = false := by decide +kernel
/-- A not-ready period of n = 0 that another ready group has still to see, one that it has seen, and a longer one. -/
theorem witness_LinesArriveAndWaitsEnd_yield : (let y : Yield := ⟨some [⟨0, 1⟩], 0⟩
      (∃ l, y.left = some l ∧ l ≠ [] ∧ (Lyo.coreAt 0).opps < y.start + 64 ∧
        ∃ o ∈ Lyo.groups, o.key ∈ l ∧ Lyo.coreRuns o = true ∧ (o.ready .arm0 = true ∨ o.ready .arm1 = true))) ∧
    ¬(∃ l, (⟨none, 0⟩ : Yield).left = some l) ∧ (∀ l, (⟨some [], 0⟩ : Yield).left = some l → l = []) ∧
    (∃ g, Lyo.groupAt ⟨0, 0⟩ = some g) :=
  ⟨⟨[⟨0, 1⟩], rfl, by decide, by decide, { L.grp with key := ⟨0, 1⟩, gid := 1 }, by decide, by decide, by decide, .inl (by decide)⟩,
    fun ⟨_, h⟩ => (by cases h), fun l h => (Option.some.inj h).symm, _, rfl⟩
/-- A BARW waits for an object in sector 1, which expires. -/
theorem witness_ClocksTickAndSectorsExpire_barw : let s := (Lold dOld).modArm fun a => { a with barw := some ⟨0, 0, 1, none⟩ }
    (∃ g ∈ s.groups, ∃ b, (g.arm .arm0).barw = some b ∧ b.core = 0 ∧ b.desc = 0 ∧ b.broke = none ∧ dOld.secs.look b.sector ≠ none) ∧
    ∀ g ∈ (Lold dOld).groups, ∀ w, (g.arm w).barw = none := by
  refine ⟨⟨_, List.mem_cons_self, _, rfl, rfl, rfl, rfl, by decide⟩, fun g hg w => ?_⟩
  rcases List.mem_singleton.mp hg with rfl
  cases w <;> rfl
/-- A gather that has still to read its index slate, at an address, beside a mapped slate at 0x8000 of a page that is not there. -/
def Lki (addr : Nat) : State :=
  ((Lk 0x2000 128 0x100).modGrp fun g => { g with eng := { g.eng with recs := g.eng.recs.upd 0 fun r => { r with gather := true, index := BitVec.ofNat 64 addr } } }).modCore 0
    fun c => { c with descs := c.descs.ins 1 { dMapped with base := 16, mapva := 2 ^ 40 } }
/-- How the index slate is read: 1 well, 2 for a failure, 3 for a page that is not there. -/
def readsOf (s : State) : Nat :=
  match s.request (⟨0, 0⟩, 0) with
  | some (g, r) => match (((s.modRec (⟨0, 0⟩, 0) fun y => { y with st := 1 }).modEngine 0 fun x => { x with cur := some (⟨0, 0⟩, 0) }).claimPages g.part (s.indexWalks g r)).readIndices g r with
    | .ok _ => if r.unread then 1 else 0
    | .error (.fail _ _) => 2
    | .error (.wait _ _ _) => 3
    | _ => 0
  | none => 0
theorem witness_EnginesMoveChunks_indices : readsOf (Lki 0x3000) = 1 ∧ readsOf (Lki 0x7FF800) = 2 ∧ readsOf (Lki 0x8000) = 3 := by decide +kernel

/-! Images, deadlines, the order of opportunities, caps. -/

theorem witness_PreemptionChooses_again : (∃ tm, (Lpre .saving loadedPart id).teams.look 0 = some tm ∧ tm.pre = .saving ∧ tm.deadline = some 5) ∧
    ∃ tm, (Lpre .discard loadedPart id).teams.look 0 = some tm ∧ tm.pre = .discard := ⟨⟨_, rfl, rfl, rfl⟩, _, rfl, rfl⟩
/-- Every frame of the loaded group's image is free; one is owned under key 2 in the other state. -/
theorem witness_ImagesHoldTheBlocks : (∀ a, L.mem.frameOk a (L.par L.grp.part).hdmKey = true) ∧
    (let s : State := { L with mem := { L.mem with owners := [(1, 2)] } }; s.mem.frameOk 0x2000 (s.par s.grp.part).hdmKey = false) ∧
    (∃ x : VLine, x.dirty = true) ∧ 255 < 256 ∧ 4095 < 4096 := ⟨fun a => by show (decide (2 ^ 51 ≤ a) || true) = true; simp, by decide, ⟨{ (default : VLine) with dirty := true }, rfl⟩, by decide, by decide⟩
/-- Two groups of a core, of which YIELDH puts one behind; an arm that defers, and one that has aged. -/
theorem witness_OpportunitiesGoInOrder_yieldh : (let g := L.grp.setArm .arm0 { L.grp.a0 with hint := true, cl := Clause.start }; g.yields = true) ∧ L.grp.yields = false ∧
    (let g := (L2 .arm0 false).grp
     g.ready .arm0 = true ∧ (g.arm (otherArm .arm0)).defers = false ∧
       ((g.setArm .arm0 { g.a0 with age := 63 }).arm .arm0).age = 63 ∧ ((g.setArm .arm0 { g.a0 with age := 63 }).arm .arm1).age < 63 ∧
       (g.setArm .arm0 { g.a0 with age := 63 }).ready .arm0 = true) := by decide
theorem witness_OpportunitiesGoInOrder_defers : let g := (L2 .arm0 false).grp
    let h := g.setArm .arm0 { g.a0 with defer := true, resv := [0x80] }
    (h.arm .arm0).defers = true ∧ h.ready .arm0 = true ∧ (h.arm .arm1).defers = false := by decide
/-- Power shed in one rank: the floor is met at 50 W by none, by the second, and by both. -/
theorem witness_QuotasAddUpToThePool_held : heldRank 3 20 [(0, 3, 100, 50), (1, 3, 100, 50)] = [(0, 90), (1, 90)] ∧
    heldRank 3 80 [(0, 3, 100, 10), (1, 3, 100, 90)] = [(1, 90), (0, 30)] ∧ (∀ x ∈ [(0, 3, 100, 50), (1, 3, 100, 50)], 20 * x.2.2.1 ≤ (x.2.2.1 - x.2.2.2) * 200) := by decide
/-- A broadcast of 1,000 W and rank 5, under which two partitions of rank 3 draw 1,600 W. -/
def Lbc : State :=
  { Lp true with pm := { L.pm with broadcast := some (1000, 5) }
                 parts := (Lp true).parts.mapV fun _ x => { x with par := { x.par with rank := 3, pcap := 2000 } } }
theorem witness_QuotasAddUpToThePool_below : Lbc.moduleLimit = some (.broadcast, 1000) ∧
    (let load := Lbc.parts.map fun y => (y.1, y.2.par.rank, min 800 y.2.par.pcap, 100); (load.map (·.2.2.1)).sum = 1600 ∧ 15 ∈ shedAll (1600 - 1000) load ∧ 0 ∈ shedAll (1600 - 1000) load) ∧
    (∀ x ∈ Lbc.parts.vals, Lbc.capHolds x.par .thermal = false ∧ x.par.rank < 5) ∧ Lbc.pm.external = false ∧ 0 ∉ Lbc.pm.below ∧ Lbc.parts.length ≤ 16 := by decide +kernel

/-! The fabric, format swaps, the directory. -/

/-- A write of 8 bytes under a mask, of 32 bytes (whose mask no one flit holds), and a DEPDEC, under the codes of OPC that the fabric gives them. -/
theorem witness_RemoteRequestsAreServed_masked (h : isMasked Config.maskedOpc = true) (h' : isDepdec Config.maskedOpc = false) :
    (let f := flit0 0 3 Config.maskedOpc; walkB L .write f.va.toNat = true ∧ isMasked f.opc = true ∧ isDepdec f.opc = false ∧
      (List.replicate 16 (0 : Byte)).length = 2 * 2 ^ f.size.toNat ∧ 2 * 2 ^ f.size.toNat ≤ 48) ∧
    48 < 2 * 2 ^ (flit0 0 5 Config.maskedOpc).size.toNat :=
  ⟨⟨by decide +kernel, h, h', by decide, by decide⟩, by decide⟩
theorem witness_RemoteRequestsAreServed_depdec (h : isDepdec Config.depdecOpc = true) : let s := Ld2 0
    isDepdec (flit0 0 3 Config.depdecOpc).opc = true ∧ walkB s .atomic 0x2000 = true ∧ L.mem.num 0x2000 4 ≠ 1 ∧ s.mem.num 0x2000 4 = 1 ∧ s.poisonAt 0x2010 16 = false ∧
    s.mem.owners.look (s.entryAt 0 (Rec.type ⟨BitVec.ofNat 64 (s.mem.num 0x2010 8), 0, 0, 0xFF⟩) / 8192) = some (s.par 0).hdmKey ∧ 0x2000 + 4 ≤ s.entryAt 0 0 ∧
    (∀ b, inSpill s 0 b = true → s.watchers (b / 128) = [] ∧ (b < 0x2000 ∨ 0x2000 + 32 ≤ b)) := by
  refine ⟨h, by decide +kernel, by decide, by decide, by decide, by decide, by decide, fun b hb => ⟨rfl, ?_⟩⟩
  have hb' : decide (2 ^ 37 + 2 ^ 20 ≤ b ∧ b < 2 ^ 37 + 2 ^ 20 + 16 * 4) = true := hb
  simp only [decide_eq_true_eq] at hb'
  omega
/-- A request for 112 bytes, whose answer has a data flit. -/
theorem witness_ResponsesAndLinks_long : let s : State := { Ltag none 0 with fab := { (Ltag none 0).fab with tags := [(15 * 1024 + 1023, { key := ⟨0, 0⟩, who := .arm0, part := 0, record := none, sent := 0, data := 112 })] } }
    (match s.fab.tags.look (15 * 1024 + 1023) with | some y => decide (48 < y.data ∧ y.data ≤ 112) && (s.groupAt y.key).isSome | none => false) = true ∧
    (∀ z ∈ s.fab.parts, z.1 ≠ 15) ∧ (List.replicate 64 (0 : Byte)).length = 64 ∧ arr0.port < 16 ∧ (s.portAt arr0.port).down = false ∧ arr0.sound = true ∧
    arr0.seq = (s.portAt arr0.port).seq := by decide
/-- A change that takes die 3 from a partition with a step of an FSWAP there, and a swap of another partition. -/
theorem witness_PartitionsComeAndGo_swaps : let x := swap0 1 (.reconf 4)
    x.part = 0 ∧ x.key.isSome = true ∧ x.dies.look 3 = some (.reconf 4) ∧ partHasDie (changeParams (Lpart false |>.par 0) (.clusters 0 11)) 3 = false ∧
    (Lpart false).paramsOk 0 (changeParams ((Lpart false).par 0) (.clusters 0 11)) = true := by decide +kernel
/-- An expert record of a code table, of 128 bytes of body, signed by signer 0, at 0x2000. -/
def rec1 : List (Nat × Nat) := [(0x2000, 0x53424642 + 2 ^ 32 + 8 * 2 ^ 48 + 8 * 2 ^ 56), (0x2008, 1), (0x2010, 0x100), (0x2020, 0x41), (0x2040, 128)]
def Lex (arg : Nat) (expert : Bool) : State :=
  { Lsx { swap0 0 .verify with arg := arg } .unbound 0 with
    parts := [(0, { loadedPart with par := { loadedPart.par with expert := expert }, regions := [[], [], [], [4, 5]] })], mem := L.mem.store (wordCells rec1) }
theorem witness_FormatSwapSteps_expert : let x := { swap0 0 .verify with arg := 0x2000 }
    let s := Lex 0x2000 true
    (s.swaps.look 0 = some x ∧ x.dies.look 3 = some .verify ∧ x.ticket = none ∧ x.rejected = false ∧ x.src = 0 ∧ x.record = none ∧ x.key.isSome = true) ∧
    s.swapWaits 0 x 3 = false ∧ s.verifyTurn 0 x = true ∧ (s.par 0).expert = true ∧ ((Lex 0x2000 false).par 0).expert = false ∧ 0x2000 % 128 = 0 ∧ 0x2040 % 128 ≠ 0 ∧
    (match s.proctorRead 0 0x2000 128 with
     | .ok h s1 => headerOk h && (match s1.proctorRead 0 0x2000 (0x80 + fieldAt h 0x40 4 + 7856) with
        | .ok l _ => exponentsAgree (l.take (0x80 + fieldAt h 0x40 4)) && (s.signerKey 0 (fieldAt h 0x44 2)).isSome
        | _ => false)
     | _ => false) = true ∧ s.logFree 0 = true := by decide +kernel
/-- A record that cannot be read, one in a page that is not there, one that is no record; a signer without a key; and a step that was rejected. -/
theorem witness_FormatSwapSteps_expertFails : (match (Lex 0 true).proctorRead 0 (2 ^ 71) 128 with | .err => true | _ => false) = true ∧
    (match (Lex 0 true).proctorRead 0 (2 ^ 40) 128 with | .wait _ _ => true | _ => false) = true ∧
    (match (Lex 0 true).proctorRead 0 0x3000 128 with | .ok h _ => !headerOk h | _ => false) = true ∧ (Lex 0 true).signerKey 0 7 = none ∧
    ({ swap0 0 .verify with rejected := true } : Swap).rejected = true := by decide +kernel
/-- A record that has been verified before needs no signature again. -/
theorem witness_FormatSwapSteps_known (body : List Byte) : ∃ y : Part, (shaNum body, 0) ∈ y.verified := ⟨{ loadedPart with verified := [(shaNum body, 0)] }, List.mem_singleton.mpr rfl⟩
/-- A line of the L2 of its home die, and of another's. -/
theorem witness_ErrorsMeet_l2 : let s : State := { L with l2 := [(0x40, ⟨0, 0, false, 0⟩), (2 ^ 48 + 0x40, ⟨0, 0, false, 0⟩)] }
    ∃ x ∈ s.l2, x.1 % 2 ^ 48 = 0x40 := ⟨_, List.mem_cons_self, by decide⟩

end Sys2Proof.Tests
end

section
/-! PROOFS. Idempotent regions and end marks (R47, R57): what opens and closes a region, and what a header word decodes to. -/

namespace Sys2Proof.Machine

/-! ## Holds of touchers are no part of the focused group -/

/-- Taking a hold of a chain's member or of a toucher away changes cores alone. -/
theorem unhold_stamped_focus (s : State) (core id : Nat) (h : Hold) :
    (s.unhold core id h true).grp = s.grp ∧ (s.unhold core id h true).who = s.who := by
  unfold State.unhold
  split
  · exact ⟨rfl, rfl⟩
  · dsimp only
    split
    · exact ⟨rfl, rfl⟩
    · simp only [if_true]
      split <;> exact ⟨rfl, rfl⟩

theorem unholdToucher_focus (s : State) (k : GKey) (w : Who) :
    (s.unholdToucher k w).grp = s.grp ∧ (s.unholdToucher k w).who = s.who := by
  refine List.foldlRecOn (motive := fun t : State => t.grp = s.grp ∧ t.who = s.who) _ _ ⟨rfl, rfl⟩ fun t ht c _ => ?_
  refine List.foldlRecOn (motive := fun t : State => t.grp = s.grp ∧ t.who = s.who) _ _ ht fun u hu d _ => ?_
  obtain ⟨hg, hw⟩ := unhold_stamped_focus u c.1 d.1 (.toucher k w)
  exact ⟨hg.trans hu.1, hw.trans hu.2⟩

@[simp] theorem unholdToucher_grp (s : State) (k : GKey) (w : Who) : (s.unholdToucher k w).grp = s.grp :=
  (unholdToucher_focus s k w).1
@[simp] theorem unholdToucher_who (s : State) (k : GKey) (w : Who) : (s.unholdToucher k w).who = s.who :=
  (unholdToucher_focus s k w).2
@[simp] theorem unholdToucher_arm (s : State) (k : GKey) (w : Who) : (s.unholdToucher k w).arm = s.arm := by
  simp only [State.arm, unholdToucher_grp, unholdToucher_who]

/-! ## Leaving a region (R47) -/

@[simp] theorem leaveRegion_inside (g : Group) : g.leaveRegion.rg.inside = false := rfl
@[simp] theorem modRg_rg (s : State) (f : Region → Region) : (s.modRg f).grp.rg = f s.grp.rg := rfl

/-- A clause whose header had NR set ends its group's region, wherever the clause is left. -/
theorem endClause_of_nr {s : State} {c : Clause} (hn : c.nr = true) (hw : s.who ≠ .mon) :
    s.endClause c = s.modGrp Group.leaveRegion := by
  simp [State.endClause, hn, hw]

/-- What the end of a clause does to the region hangs on the executing thread and the region before, and on nothing else. -/
theorem endClause_rg (s : State) (c : Clause) :
    (s.endClause c).grp.rg = if c.nr && s.who != .mon then s.grp.leaveRegion.rg else s.grp.rg := by
  unfold State.endClause
  split <;> rfl

/-- Going on to the next word ends the clause behind its last word, and touches the region in no other way. -/
theorem advance_rg {s : State} (hb : s.arm.back = none) :
    s.advance.grp.rg = if s.arm.cl.left = 1 then (s.endClause s.arm.cl).grp.rg else s.grp.rg := by
  unfold State.advance
  generalize hu : (if s.arm.park.isSome then s.unholdToucher s.grp.key s.who else s) = u
  have hgrp : u.grp = s.grp := by subst hu; split <;> simp
  have hwho : u.who = s.who := by subst hu; split <;> simp
  have harm : u.arm = s.arm := by subst hu; split <;> simp
  simp only [harm, hb]
  split
  · simp [endClause_rg, Group.leaveRegion, hgrp, hwho]
  · simp [hgrp]

/-- A jump ends the clause at whichever word it leaves it. -/
theorem jump_rg (s : State) (pc : Nat) : (s.jump pc).grp.rg = (s.endClause s.arm.cl).grp.rg := by
  simp [State.jump, endClause_rg, Group.leaveRegion]

/-- R47: NR closes the region behind the clause's last word and at a jump out of the clause, and at no word before. -/
theorem nr_leavesRegion_at_clause_end {s : State} (hn : s.arm.cl.nr = true) (hw : s.who ≠ .mon) (hb : s.arm.back = none) :
    (s.arm.cl.left = 1 → s.advance.grp.rg.inside = false) ∧ (s.arm.cl.left ≠ 1 → s.advance.grp.rg = s.grp.rg) ∧
      ∀ pc, (s.jump pc).grp.rg.inside = false := by
  have out : (s.endClause s.arm.cl).grp.rg.inside = false := by rw [endClause_of_nr hn hw, modGrp_grp, leaveRegion_inside]
  refine ⟨fun hl => ?_, fun hl => ?_, fun pc => ?_⟩
  · rw [advance_rg hb, if_pos hl, out]
  · rw [advance_rg hb, if_neg hl]
  · rw [jump_rg, out]

/-! ## Entering a region (R47, R49) -/

theorem enterRegion_of_one_arm {s : State} (hw : s.who ≠ .mon) (h : s.grp.two = false) :
    s.enterRegion.grp.rg.inside = true ∧ s.enterRegion.grp.rg.rgpc = BitVec.ofNat 71 s.arm.pc ∧
      s.enterRegion.grp.rg.depth = s.arm.rets.length := by
  simp [State.enterRegion, hw, h]

theorem enterRegion_of_two_arms {s : State} (hw : s.who ≠ .mon) (h : s.grp.two = true) :
    s.enterRegion.grp.rg.inside = false := by
  simp [State.enterRegion, hw, h]

theorem enterClause_rg (s : State) (seta setb : Option Flag) (count : Fin 8) (region hint nr : Bool) :
    (s.enterClause seta setb count region hint nr).grp.rg = if region then s.enterRegion.grp.rg else s.grp.rg := by
  cases region <;> simp [State.enterClause]

/-! ## The checks of a header (R31, R156, R255) -/

theorem engFailure_none {s : State} (h : ∀ x ∈ s.grp.eng.recs, x.2.st ≠ 3) (p : Nat → CmdRec → Bool) :
    s.engFailure p = none := by
  have none_failed : (s.grp.eng.recs.filter fun x => x.2.st == 3 && p x.1 x.2) = [] :=
    List.filter_eq_nil_iff.mpr fun x hx => by simp [h x hx]
  simp [State.engFailure, Group.failedRec, none_failed, minBy]

theorem Arm.clear_iff (a : Arm) (wait : BitVec 12) :
    a.clear wait = true ↔ ∀ f, f < 12 → wait.getLsbD f = true → a.flag f = 0 := by
  simp only [Arm.clear, List.all_eq_true, List.mem_range, Bool.or_eq_true, Bool.not_eq_true', beq_iff_eq]
  refine forall₂_congr fun f _ => ?_
  cases wait.getLsbD f <;> simp

/-- A group's header that stays within its 64 bytes passes its checks. -/
theorem headerBad_of_fits {s : State} {wait : BitVec 12} {seta setb : Option Flag} {count : Fin 8} (hw : s.who ≠ .mon)
    (h : s.arm.pc % 64 + 8 * (count.val + 1) ≤ 64) : s.headerBad wait seta setb count = false := by
  simp [State.headerBad, hw, h]

/-- R31, R255: A header that passes its checks, of which no failure is due and whose flags read zero, opens its clause. -/
theorem execClauseHeader_opens {s : State} {wait : BitVec 12} {seta setb : Option Flag} {count : Fin 8} {region hint nr : Bool}
    (hl : s.grp.live = true) (hw : s.who ≠ .mon) (he : ∀ x ∈ s.grp.eng.recs, x.2.st ≠ 3)
    (hf : s.arm.pc % 64 + 8 * (count.val + 1) ≤ 64) (hz : ∀ f, f < 12 → wait.getLsbD f = true → s.arm.flag f = 0) :
    execClauseHeader (.clause wait seta setb count region hint nr) s = .next (s.enterClause seta setb count region hint nr) := by
  simp [execClauseHeader, hl, headerBad_of_fits hw hf, engFailure_none he, (Arm.clear_iff _ _).mpr hz]

/-- R57: The end mark's one effect. -/
theorem execClauseHeader_endMark {s : State} (hl : s.grp.live = true) :
    execClauseHeader .endMark s = .next (s.raise s.arm.pc s.arm.cl ⟨.codeEnd, s.active, 0⟩) := by
  simp [execClauseHeader, hl]

/-! ## Header words that do not decode (R267) -/

/-- Where a clause must begin, a header word that holds no instruction raises ILLEGAL_OP for every active lane. -/
theorem fetchNext_of_bad_header {s u : State} {w : Word} {e : DecodeError}
    (hfree : s.nextRedo.isSome = true ∨ s.arm.back.isSome = true ∨ s.ringWait = none) (hd : s.depUnderflow = none)
    (hf : s.takeRedo.fetchWord = .ok (w, u)) (htag : w.toNat / 2 ^ 56 = 0xF8) (he : decode w = .error e)
    (hl : (u.endTouches u.who).arm.cl.left = 0) :
    s.fetchNext = .done ((u.endTouches u.who).raise (u.endTouches u.who).arm.pc (u.endTouches u.who).arm.cl
      ⟨.illegalOp, (u.endTouches u.who).active, 0⟩) := by
  have hring : (if (s.nextRedo.isSome || s.arm.back.isSome) = true then none else s.ringWait) = none := by
    rcases hfree with h | h | h <;> simp [h]
  have htag8 : bits w.toNat 56 8 = 0xF8 := congrArg (· % 2 ^ 8) htag
  unfold State.fetchNext
  simp only [hring, hd, hf, hl, htag8, he]
  rfl

/-- R47: A group starts outside any region. -/
theorem start_outside_region (key : GKey) (part team gid tid entry mon : Nat) (k : Khdr) (cw : Tbl CWin) :
    (Group.start key part team gid tid k entry mon cw).rg = Region.outside := rfl

end Sys2Proof.Machine

namespace Sys2Proof

open Machine

/-! ## What header words decode to (R255) -/

theorem bit_toNat (w : Word) (k : Nat) : bit w.toNat k = w.getLsbD k := by
  rw [BitVec.getLsbD, Nat.testBit_eq_decide_div_mod_eq]; rfl

/-- A word with the header's tag is read as a header. -/
theorem unpack_of_header_tag {w : Nat} (h : w / 2 ^ 56 = 0xF8) : unpack w = decHdr w := by
  have hop : (TopW.parse w).op = 0xF8 := congrArg (· % 2 ^ 8) h
  simp only [unpack, hop, if_true]

/-- END decides before any other field. -/
theorem decHdr_of_end {w : Nat} (h : bit w 31 = true) : decHdr w = .ok (.clauseHeader .endMark) := by
  simp [decHdr, h]

/-- Whatever a header without END decodes to keeps the word's REGION and NR. -/
theorem decHdr_region_nr {w : Nat} {i : Instr} (h : bit w 31 = false) (hd : decHdr w = .ok i) :
    ∃ wait seta setb count hint, i = .clauseHeader (.clause wait seta setb count (bit w 32) hint (bit w 29)) := by
  simp only [decHdr, h, Bool.false_eq_true, if_false, need, field, bind, Except.bind] at hd
  split at hd
  · exact nomatch hd
  · split at hd
    · exact nomatch hd
    · split at hd
      · exact nomatch hd
      · exact ⟨_, _, _, _, _, (Except.ok.inj hd).symm⟩

/-- R57: END makes a header the end mark whatever its other fields hold. -/
theorem decode_of_end {w : Word} (htag : w.toNat / 2 ^ 56 = 0xF8) (hend : w.getLsbD 31 = true) :
    decode w = .ok (.clauseHeader .endMark) := by
  have hu : unpack w.toNat = .ok (.clauseHeader .endMark) := by
    rw [unpack_of_header_tag htag, decHdr_of_end ((bit_toNat w 31).trans hend)]
  simp [decode, hu, bind, Except.bind, Instr.wf]

/-- R47: A header with both REGION and NR is no instruction. -/
theorem decode_of_region_nr {w : Word} (htag : w.toNat / 2 ^ 56 = 0xF8) (hend : w.getLsbD 31 = false)
    (hregion : w.getLsbD 32 = true) (hnr : w.getLsbD 29 = true) : ∃ e, decode w = .error e := by
  cases hu : unpack w.toNat with
  | error e => exact ⟨e, by simp [decode, hu, bind, Except.bind]⟩
  | ok i =>
    obtain ⟨wait, seta, setb, count, hint, rfl⟩ :=
      decHdr_region_nr ((bit_toNat w 31).trans hend) ((unpack_of_header_tag htag).symm.trans hu)
    exact ⟨.illFormed, by simp [decode, hu, bind, Except.bind, Instr.wf, bit_toNat, hregion, hnr]⟩

/-! ## The statement -/

/-- A REGION header that opens its clause starts the region there, or leaves any where two arms are live. -/
theorem exec_region_header {s : State} {wait : BitVec 12} {seta setb : Option Flag} {count : Fin 8} {hint : Bool}
    (hl : s.grp.live = true) (hw : s.who ≠ .mon) (he : ∀ x ∈ s.grp.eng.recs, x.2.st ≠ 3)
    (hf : s.arm.pc % 64 + 8 * (count.val + 1) ≤ 64) (hz : ∀ f, f < 12 → wait.getLsbD f = true → s.arm.flag f = 0) :
    ∃ t, exec (.clauseHeader (.clause wait seta setb count true hint false)) s = .next t ∧
      (s.grp.two = false → t.grp.rg.inside = true ∧ t.grp.rg.rgpc = BitVec.ofNat 71 s.arm.pc ∧
        t.grp.rg.depth = s.arm.rets.length) ∧
      (s.grp.two = true → t.grp.rg.inside = false) := by
  refine ⟨_, (exec_clauseHeader _ s).trans (execClauseHeader_opens hl hw he hf hz), fun h => ?_, fun h => ?_⟩
  · rw [enterClause_rg]; exact enterRegion_of_one_arm hw h
  · rw [enterClause_rg]; exact enterRegion_of_two_arms hw h

/-- Settles O9: each clause by the lemma about the operation it speaks of. -/
theorem regionsAndEndMarks : Obligations.RegionsAndEndMarks := by
  unfold Obligations.RegionsAndEndMarks
  refine ⟨⟨?region, ?nr, ?both, ?start⟩, ?endMark, ?codeEnd⟩
  case region => exact fun s wait seta setb count hint hl hw he hf hz => exec_region_header hl hw he hf hz
  case nr => exact fun s hn hw hb => nr_leavesRegion_at_clause_end hn hw hb
  case both =>
    intro w htag hend hregion hnr
    obtain ⟨e, hdec⟩ := decode_of_region_nr htag hend hregion hnr
    refine ⟨⟨e, hdec⟩, fun s u v hfree hd hf hv hl => ?_⟩
    subst hv
    exact fetchNext_of_bad_header hfree hd hf htag hdec hl
  case start =>
    intro key part team gid tid entry mon k cw
    rw [start_outside_region]; rfl
  case endMark => exact fun w htag hend => decode_of_end htag hend
  case codeEnd => exact fun s hl => (exec_clauseHeader _ s).trans (execClauseHeader_endMark hl)

end Sys2Proof
end

section
/-! PROOFS. The mask instructions (R325): each word's body is one write of a mask, of lanes or of a scalar, and what the
words count and search for is read off the list of a set's lanes. -/

namespace Sys2Proof.Machine

/-! ## Bits of a mask -/

theorem bitB_toNat (x : Word) (k : Nat) : bitB x.toNat k = x.getLsbD k := bit_toNat x k

/-- The lanes of a set below a bound, counted. -/
theorem popcount_toNat (x : LaneSet) (w : Nat) :
    popcount x.toNat w = ((List.range w).filter fun j => x.getLsbD j).length := by
  simp only [popcount, bitB_toNat]

theorem popcount_toNat_64 (x : LaneSet) : popcount x.toNat 64 = (laneList x).length := popcount_toNat x 64

/-! ## The lowest and the highest lane of a set -/

/-- The lanes of a set stand in rising order. -/
theorem laneList_sorted (x : LaneSet) : (laneList x).Pairwise (· ≤ ·) :=
  (List.pairwise_lt_range.imp Nat.le_of_lt).filter _

/-- A list in rising order begins with its least member. -/
theorem head_le_of_sorted {l : List Nat} (h : l.Pairwise (· ≤ ·)) (hne : l ≠ []) {j : Nat} (hj : j ∈ l) : l.head hne ≤ j := by
  cases l with
  | nil => exact absurd rfl hne
  | cons i t =>
    rcases List.mem_cons.mp hj with rfl | ht
    · exact Nat.le_refl _
    · exact (List.pairwise_cons.mp h).1 j ht

/-- A list in rising order ends with its greatest member. -/
theorem le_getLast_of_sorted {l : List Nat} (h : l.Pairwise (· ≤ ·)) (hne : l ≠ []) {j : Nat} (hj : j ∈ l) :
    j ≤ l.getLast hne := by
  rw [← List.dropLast_concat_getLast hne] at h hj
  rcases List.mem_append.mp hj with hinit | hlast
  · exact (List.pairwise_append.mp h).2.2 j hinit _ (List.mem_singleton_self _)
  · exact Nat.le_of_eq (List.mem_singleton.mp hlast)

theorem laneList_eq_nil_iff {x : LaneSet} : laneList x = [] ↔ x = 0 := by
  constructor
  · intro h
    refine BitVec.eq_of_getLsbD_eq fun j hj => ?_
    have hn : j ∉ laneList x := by simp [h]
    simpa [mem_laneList, hj] using hn
  · rintro rfl
    simp [laneList]

/-- The lowest lane of a set, or the highest (R325). -/
def endLane (last : Bool) (x : LaneSet) : Option Nat :=
  if last then (laneList x).getLast? else (laneList x).head?

theorem endLane_zero (last : Bool) : endLane last 0 = none := by
  rw [endLane, laneList_eq_nil_iff.mpr rfl, List.head?_nil, List.getLast?_nil, ite_self]

/-- A set that is not empty has its end lane: a member with every other member on one side of it. -/
theorem endLane_of_ne_zero (last : Bool) {x : LaneSet} (h : x ≠ 0) :
    ∃ i, endLane last x = some i ∧ i ∈ laneList x ∧ ∀ j ∈ laneList x, if last then j ≤ i else i ≤ j := by
  have hne : laneList x ≠ [] := mt laneList_eq_nil_iff.mp h
  cases last with
  | false =>
    exact ⟨_, List.head?_eq_some_head hne, List.head_mem hne, fun _ hj => head_le_of_sorted (laneList_sorted x) hne hj⟩
  | true =>
    exact ⟨_, List.getLast?_eq_some_getLast hne, List.getLast_mem hne, fun _ hj => le_getLast_of_sorted (laneList_sorted x) hne hj⟩

/-- What MFFS writes: the end lane's number, or all ones for the empty set (R325). -/
def endWord (last : Bool) (x : LaneSet) : Word :=
  match endLane last x with
  | some i => BitVec.ofNat 64 i
  | none => ~~~0#64

theorem endWord_zero (last : Bool) : endWord last 0 = ~~~0#64 := by rw [endWord, endLane_zero]

theorem endWord_of_ne_zero (last : Bool) {x : LaneSet} (h : x ≠ 0) :
    x.getLsbD (endWord last x).toNat = true ∧
      ∀ j, j < 64 → x.getLsbD j = true → if last then j ≤ (endWord last x).toNat else (endWord last x).toNat ≤ j := by
  obtain ⟨i, hi, hmem, hend⟩ := endLane_of_ne_zero last h
  obtain ⟨hlt, hbit⟩ := mem_laneList.mp hmem
  have hw : (endWord last x).toNat = i := by
    rw [endWord, hi, BitVec.toNat_ofNat]
    omega
  rw [hw]
  exact ⟨hbit, fun j hj hm => hend j (mem_laneList.mpr ⟨hj, hm⟩)⟩

end Sys2Proof.Machine

namespace Sys2Proof

open Machine

/-! ## What each word writes -/

theorem mlog_writesMask {s : State} {g : Guard} (op : LogOp) (d : MReg) (a : MSrc) (b : Option MSrc)
    (h : Runs (lanes g [] [] []) s) :
    WritesMask (.mlog g op d a b) s d
      ((s.readM d.val &&& ~~~s.selOf g) ||| (op.bits (a.value s) (b.elim 0 (·.value s)) &&& s.selOf g)) := by
  cases b with
  | none => exact .of h (exec_mlog ..) rfl
  | some _ => exact .of h (exec_mlog ..) rfl

theorem mset_writesMask {s : State} {g : Guard} (d : MReg) (a : SSrc) (h : Runs (lanes g [] [] a.sregs) s) :
    WritesMask (.mset g d a) s d ((s.readM d.val &&& ~~~s.selOf g) ||| (a.value s &&& s.selOf g)) :=
  .of h (exec_mset ..) rfl

theorem mget_writesLanes {s : State} {g : Guard} (neg : Bool) (d : VReg) (a : MReg) (h : Runs (lanes g [] [d.val] []) s) :
    WritesLanes (.mget g neg d a) s false d (s.selOf g) fun l =>
      if (s.readM a.val).getLsbD l then (if neg then 0xFFFF_FFFF else 1) else 0 :=
  .of h (exec_mget ..) (.refl _ s) rfl rfl fun l _ _ => by
    cases (s.readM a.val).getLsbD l <;> cases neg <;> rfl

theorem mbal_mask_writesMask {s : State} {g : Guard} (d : MReg) (a : VSrc)
    (h : Runs (lanes g (a.vregs false) [] a.sregs false) s) :
    WritesMask (.mbal g (.mask d a)) s d (lanesWhere 64 fun l => (s.selOf g).getLsbD l && a.lane32 s l != 0) :=
  .of h (exec_mbal ..) rfl

theorem mbal_rank_writesLanes {s : State} {g : Guard} (d : VReg) (a : MReg) (h : Runs (lanes g [] [d.val] [] false) s) :
    WritesLanes (.mbal g (.rank d a)) s false d (s.selOf g) fun l =>
      BitVec.ofNat 64 (((List.range l).filter fun j => (s.readM a.val &&& s.selOf g).getLsbD j).length) :=
  .of h (exec_mbal ..) (.refl _ s) rfl rfl fun l _ _ => by
    rw [← popcount_toNat, BitVec.setWidth_ofNat_of_le (by decide)]; rfl

theorem mpopc_writesScalar {s : State} {g : Guard} (d : SReg) (a : MReg) (h : Runs (ctl g [d.val]) s) :
    WritesScalar (.mpopc g d a) s d (BitVec.ofNat 64 (laneList (s.readM a.val &&& s.selOf g)).length) := by
  rw [← popcount_toNat_64]
  exact .of h (exec_mpopc ..) (.refl s) rfl

theorem mffs_writesScalar {s : State} {g : Guard} (last : Bool) (d : SReg) (a : MReg) (h : Runs (ctl g [d.val]) s) :
    WritesScalar (.mffs g last d a) s d (endWord last (s.readM a.val &&& s.selOf g)) :=
  .of h (exec_mffs ..) (.refl s) rfl

/-- Settles O16: each clause by the lemma about its word, MFFS's result by what the end lane of a set is. -/
theorem maskWords : Obligations.MaskWords := by
  unfold Obligations.MaskWords
  refine ⟨fun s g => ⟨?mlog, ?mset, ?mget, ?mbal, ?rank⟩, fun s g d a h => ⟨?mpopc, fun last => ?mffs⟩⟩
  case mlog => exact fun op d a b h => mlog_writesMask op d a b h
  case mset => exact fun d a h => mset_writesMask d a h
  case mget => exact fun neg d a h => mget_writesLanes neg d a h
  case mbal => exact fun d a h => mbal_mask_writesMask d a h
  case rank => exact fun d a h => mbal_rank_writesLanes d a h
  case mpopc => exact mpopc_writesScalar d a h
  case mffs =>
    exact ⟨_, mffs_writesScalar last d a h, fun hm => hm ▸ endWord_zero last, fun hm => endWord_of_ne_zero last hm⟩

end Sys2Proof
end

section
/-! PROOFS. Bit fields of vector lanes (R366): the bits of what VBFX and VBFI compute, and what the words write. -/

namespace Sys2Proof

open Machine

/-! ## Bits of an integer

Bit j of an integer is bit j of its 64-bit word; below a width w ≤ 64 it is a bit of the integer modulo 2^w. -/

theorem setWidth_ofInt {w : Nat} (hw : w ≤ 64) (x : Int) : (BitVec.ofInt 64 x).setWidth w = BitVec.ofInt w x := by
  apply BitVec.eq_of_toInt_eq
  rw [← BitVec.signExtend_eq_setWidth_of_le _ hw, BitVec.toInt_signExtend_eq_toInt_bmod_of_le _ hw, BitVec.toInt_ofInt,
    BitVec.toInt_ofInt, Int.bmod_bmod_of_dvd (Nat.pow_dvd_pow 2 hw)]

theorem testBit_wrapInt {w j : Nat} (hw : w ≤ 64) (hj : j < w) (x : Int) :
    (wrapInt w x).testBit j = (BitVec.ofInt 64 x).getLsbD j := by
  have hwrap : wrapInt w x = ((BitVec.ofInt 64 x).setWidth w).toNat := by rw [setWidth_ofInt hw, BitVec.toNat_ofInt]; rfl
  rw [hwrap, ← BitVec.getLsbD, BitVec.getLsbD_setWidth, decide_eq_true hj, Bool.true_and]

theorem getLsbD_ofInt_natCast {j : Nat} (hj : j < 64) (x : Nat) : (BitVec.ofInt 64 (x : Int)).getLsbD j = x.testBit j := by
  rw [BitVec.ofInt_natCast, BitVec.getLsbD_ofNat, decide_eq_true hj, Bool.true_and]

/-- The signed value of n bits is that of the n-bit pattern. -/
theorem signedOf_eq_toInt (n x : Nat) : signedOf n x = (BitVec.ofNat n x).toInt := by
  simp only [signedOf, BitVec.toInt_eq_toNat_cond, BitVec.toNat_ofNat, ← Nat.not_lt, ite_not]

/-- A signed value repeats its top bit. -/
theorem getLsbD_ofInt_signedOf {n j : Nat} (hn : 0 < n) (hj : j < 64) (x : Nat) :
    (BitVec.ofInt 64 (signedOf n x)).getLsbD j = if j < n then x.testBit j else x.testBit (n - 1) := by
  rw [signedOf_eq_toInt, ← BitVec.signExtend, BitVec.getLsbD_signExtend, BitVec.msb_eq_getLsbD_last, BitVec.getLsbD_ofNat,
    BitVec.getLsbD_ofNat]
  split
  next inside => rw [decide_eq_true hj, decide_eq_true inside, Bool.true_and, Bool.true_and]
  next above =>
    rw [decide_eq_true hj, decide_eq_true (Nat.sub_one_lt_of_lt hn), Bool.true_and, Bool.true_and]

theorem ITy.bits_pos (t : ITy) : 0 < t.bits := by cases t <;> decide
theorem ITy.bits_le (t : ITy) : t.bits ≤ 64 := by cases t <;> decide

/-- Reading under a type keeps the bits below its width. -/
theorem getLsbD_ofInt_read (t : ITy) {j : Nat} (hj : j < t.bits) (x : Nat) :
    (BitVec.ofInt 64 (t.read x)).getLsbD j = x.testBit j := by
  have hj64 : j < 64 := Nat.lt_of_lt_of_le hj t.bits_le
  unfold ITy.read
  split
  · rw [getLsbD_ofInt_signedOf t.bits_pos hj64, if_pos hj]
  · rw [getLsbD_ofInt_natCast hj64, Nat.testBit_mod_two_pow, decide_eq_true hj, Bool.true_and]

/-! ## Fields of a number -/

/-- Bit j of the field of length n at position `pos`. -/
theorem testBit_field (x pos n j : Nat) : (x / 2 ^ pos % 2 ^ n).testBit j = (decide (j < n) && x.testBit (pos + j)) := by
  rw [Nat.testBit_mod_two_pow, Nat.testBit_div_two_pow, Nat.add_comm]

/-- A number with a field replaced is put together from what stands above the field, the new bits, and what stands below. -/
theorem replaceField_eq (x v pos n : Nat) :
    x - x / 2 ^ pos % 2 ^ n * 2 ^ pos + v % 2 ^ n * 2 ^ pos =
      2 ^ pos * (2 ^ n * (x / 2 ^ pos / 2 ^ n) + v % 2 ^ n) + x % 2 ^ pos := by
  have hx : 2 ^ pos * (2 ^ n * (x / 2 ^ pos / 2 ^ n)) + x / 2 ^ pos % 2 ^ n * 2 ^ pos + x % 2 ^ pos = x := by
    rw [Nat.mul_comm (x / 2 ^ pos % 2 ^ n), ← Nat.mul_add, Nat.div_add_mod, Nat.div_add_mod]
  rw [Nat.mul_add, Nat.mul_comm (v % 2 ^ n)]
  omega

theorem testBit_replaceField (x v pos n j : Nat) :
    (x - x / 2 ^ pos % 2 ^ n * 2 ^ pos + v % 2 ^ n * 2 ^ pos).testBit j =
      if pos ≤ j ∧ j < pos + n then v.testBit (j - pos) else x.testBit j := by
  rw [replaceField_eq, Nat.testBit_two_pow_mul_add _ (Nat.mod_lt _ (Nat.two_pow_pos pos)),
    Nat.testBit_two_pow_mul_add _ (Nat.mod_lt _ (Nat.two_pow_pos n))]
  rcases Nat.lt_or_ge j pos with below | hpos
  · rw [if_pos below, if_neg (by omega), Nat.testBit_mod_two_pow, decide_eq_true below, Bool.true_and]
  rw [if_neg (by omega)]
  rcases Nat.lt_or_ge j (pos + n) with inside | above
  · rw [if_pos (by omega), if_pos ⟨hpos, inside⟩, Nat.testBit_mod_two_pow, decide_eq_true (by omega), Bool.true_and]
  · rw [if_neg (by omega), if_neg (by omega), Nat.testBit_div_two_pow, Nat.testBit_div_two_pow]
    congr 1; omega

/-! ## What extraction and insertion compute (R366) -/

theorem opBfx_of_empty {t : ITy} {pos len : Nat} (h : len = 0 ∨ t.bits ≤ pos) (a : Int) : opBfx t a pos len = 0 := if_pos h

theorem opBfi_of_empty {t : ITy} {pos len : Nat} (h : len = 0 ∨ t.bits ≤ pos) (d a : Int) : opBfi t d a pos len = d :=
  if_pos h

/-- The extracted field's bits, and above it zeros or, under a signed type, its top bit. -/
theorem getLsbD_opBfx {t : ITy} {pos len j : Nat} (hlen : len ≠ 0) (hpos : pos < t.bits) (hj : j < t.bits) (a : Int) :
    (BitVec.ofInt 64 (opBfx t a pos len)).getLsbD j =
      if j < min len (t.bits - pos) then (BitVec.ofInt 64 a).getLsbD (pos + j)
      else t.signed && (BitVec.ofInt 64 a).getLsbD (pos + min len (t.bits - pos) - 1) := by
  have hj64 : j < 64 := Nat.lt_of_lt_of_le hj t.bits_le
  have hne : ¬(len = 0 ∨ t.bits ≤ pos) := by omega
  have hn : 0 < min len (t.bits - pos) := by omega
  have hle : pos + min len (t.bits - pos) ≤ t.bits := by omega
  simp only [opBfx, if_neg hne]
  generalize min len (t.bits - pos) = n at hn hle ⊢
  have field_bit : ∀ k, k < n → (wrapInt t.bits a / 2 ^ pos % 2 ^ n).testBit k = (BitVec.ofInt 64 a).getLsbD (pos + k) :=
    fun k hk => by rw [testBit_field, decide_eq_true hk, Bool.true_and, testBit_wrapInt t.bits_le (by omega)]
  cases t.signed with
  | true =>
    rw [if_pos rfl, getLsbD_ofInt_signedOf hn hj64, field_bit (n - 1) (by omega), Bool.true_and, Nat.add_sub_assoc hn]
    exact ite_congr rfl (field_bit j) fun _ => rfl
  | false =>
    rw [if_neg Bool.false_ne_true, getLsbD_ofInt_natCast hj64, Bool.false_and]
    split
    next inside => exact field_bit j inside
    next above => rw [testBit_field, decide_eq_false above, Bool.false_and]

/-- The field's bits come from the low bits of a, the others from d. -/
theorem getLsbD_opBfi {t : ITy} {pos len j : Nat} (hlen : len ≠ 0) (hpos : pos < t.bits) (hj : j < t.bits) (d a : Int) :
    (BitVec.ofInt 64 (opBfi t d a pos len)).getLsbD j =
      if pos ≤ j ∧ j < pos + min len (t.bits - pos) then (BitVec.ofInt 64 a).getLsbD (j - pos)
      else (BitVec.ofInt 64 d).getLsbD j := by
  have hne : ¬(len = 0 ∨ t.bits ≤ pos) := by omega
  simp only [opBfi, if_neg hne]
  rw [getLsbD_ofInt_read t hj, testBit_replaceField, testBit_wrapInt t.bits_le hj, testBit_wrapInt t.bits_le (by omega)]

/-! ## What the words write -/

/-- A computation whose first part succeeds goes on with what that part gave. -/
theorem bind_of_ok {ε α β : Type} {x : Except ε α} {r : α} (h : x = .ok r) (k : α → Except ε β) : (x >>= k) = k r := by
  rw [h]; rfl

theorem vbfx_writesLanes {s s' : State} {x : VOp3} {y : Nat → Nat} (h : Runs (x.info true) s)
    (hy : readB s (allLanes x.g s) x.ty x.b = .ok (y, s')) :
    WritesLanes (.vbfx x) s x.ty.wide x.d (s.selOf x.g) fun l =>
      wordOf (opBfx x.ty (x.ty.read (laneOf s x.ty x.a l)) (y l % 2 ^ x.ty.bits) (laneOf s x.ty x.c l % 2 ^ x.ty.bits)) := by
  have hc : Cached s s' := readB_cached hy
  simp only [← hc.laneOf]
  exact .ofTy h (exec_vbfx ..) hc (bind_of_ok hy _)

theorem vbfi_writesLanes {s s' : State} {x : VOp3} {y : Nat → Nat}
    (h : Runs { x.info true with vs := vdst x.d x.ty.wide ++ (x.info true).vs } s)
    (hy : readB s (allLanes x.g s) x.ty x.b = .ok (y, s')) :
    WritesLanes (.vbfi x) s x.ty.wide x.d (s.selOf x.g) fun l =>
      wordOf (opBfi x.ty (x.ty.read (laneOf s x.ty (.v x.d) l)) (x.ty.read (laneOf s x.ty x.a l)) (y l % 2 ^ x.ty.bits)
        (laneOf s x.ty x.c l % 2 ^ x.ty.bits)) := by
  have hc : Cached s s' := readB_cached hy
  simp only [← hc.laneOf]
  exact .ofTy h (exec_vbfi ..) hc (bind_of_ok hy _)

/-- Settles O19: the empty field apart, extraction and insertion bit by bit, and the two words by what they write. -/
theorem fieldsExtractAndInsert : Obligations.FieldsExtractAndInsert := by
  unfold Obligations.FieldsExtractAndInsert
  refine ⟨fun t a d pos len => ⟨?empty, ?bits⟩, fun s s' x y h hy => ⟨?vbfx, ?vbfi⟩⟩
  case empty => exact fun h => ⟨opBfx_of_empty h a, opBfi_of_empty h d a⟩
  case bits => exact fun hlen hpos j hj => ⟨getLsbD_opBfx hlen hpos hj a, getLsbD_opBfi hlen hpos hj d a⟩
  case vbfx => exact vbfx_writesLanes h hy
  case vbfi => exact fun h => vbfi_writesLanes h hy

end Sys2Proof
end

section
/-! PROOFS. Vector comparisons (R363, R370): the relations on values, and the mask pair that VCMP and VFCMP write. -/

namespace Sys2Proof

open Machine

namespace Machine

/-! ## Relations of floating-point values (R370) -/

/-- The sign of an order: where its left side stands to its right, as an integer stands to 0. -/
def orderSign : Ordering → Int
  | .lt => -1 | .eq => 0 | .gt => 1

/-- Whether a relation holds of two values by their order alone; NaN leaves none, and then .ne and .un alone hold. -/
def holdsOfOrder (o : Option Ordering) (r : FRel) : Bool :=
  match o, r with
  | none, r => r == .un || r == .rel .ne
  | some _, .un => false
  | some _, .ord => true
  | some o, .rel r => r.holds (orderSign o) 0

/-- VFCMP's relations see nothing of the values but their order. -/
theorem frelHolds_eq_holdsOfOrder (r : FRel) (a b : FVal) : frelHolds r a b = holdsOfOrder (a.cmp b) r := by
  unfold frelHolds
  generalize a.cmp b = order
  cases order with
  | none =>
    cases r with
    | rel r => cases r <;> rfl
    | un => rfl
    | ord => rfl
  | some o =>
    cases r with
    | rel r => cases r <;> cases o <;> rfl
    | un => rfl
    | ord => rfl

/-! ## Mask pairs (R363) -/

theorem writePairM_frame (s : State) (mt mf : MReg) (sel : LaneSet) (p : Nat → Bool) :
    Frame { masks := [mt.val, mf.val] } s (s.writePairM mt mf sel p) :=
  (writeM_frame s mt.val _ _ (by simp)).trans (writeM_frame _ mf.val _ _ (by simp))

@[simp] theorem writePairM_arm (s : State) (mt mf : MReg) (sel : LaneSet) (p : Nat → Bool) :
    (s.writePairM mt mf sel p).arm = s.arm := (writeM_arm ..).trans (writeM_arm ..)

@[simp] theorem writeM_shape (s : State) (n : Nat) (x : Word) : (s.writeM n x).grp.shape = s.grp.shape := by
  unfold State.writeM
  split <;> rfl

/-- The false-mask is written last, so it is what a register named twice holds. -/
theorem readM_writePairM_false (s : State) {mt mf : MReg} (sel : LaneSet) (p : Nat → Bool) (h : mf.val ≠ 0) :
    (s.writePairM mt mf sel p).readM mf.val =
      lanesWhere 64 (fun l => sel.getLsbD l && !p l) &&& lanesBelow s.grp.shape.width := by
  rw [State.writePairM, readM_writeM, if_neg h, writeM_shape]

theorem readM_writePairM_true (s : State) {mt mf : MReg} (sel : LaneSet) (p : Nat → Bool) (h : mt.val ≠ 0) (hne : mt ≠ mf) :
    (s.writePairM mt mf sel p).readM mt.val =
      lanesWhere 64 (fun l => sel.getLsbD l && p l) &&& lanesBelow s.grp.shape.width := by
  rw [State.writePairM, readM_writeM_ne _ _ (Fin.val_ne_of_ne hne), readM_writeM, if_neg h]

end Machine

/-! ## What the words write -/

/-- The word completes, writes a mask pair from a relation of lanes, and changes nothing else (R363). -/
def WritesMaskPair (i : Instr) (s : State) (mt mf : MReg) (sel : LaneSet) (p : Nat → Bool) : Prop :=
  ∃ t, exec i s = .next t ∧ NextWord s t ∧ Frame { masks := [mt.val, mf.val] } s t ∧
    (mf.val ≠ 0 → t.readM mf.val = lanesWhere 64 (fun l => sel.getLsbD l && !p l) &&& lanesBelow s.grp.shape.width) ∧
    (mt.val ≠ 0 → mt ≠ mf →
      t.readM mt.val = lanesWhere 64 (fun l => sel.getLsbD l && p l) &&& lanesBelow s.grp.shape.width)

/-- A word whose body writes a mask pair. -/
theorem WritesMaskPair.of {i : Instr} {f : Info} {body : Body} {s s' : State} {mt mf : MReg} {sel : LaneSet} {p : Nat → Bool}
    (h : Runs f s) (he : exec i s = wordOp f body s) (hc : Cached s s')
    (hb : body (allLanes f.g s) s = .ok (.next (s'.writePairM mt mf sel p))) : WritesMaskPair i s mt mf sel p := by
  have ha : (s'.writePairM mt mf sel p).arm = s.arm := by rw [writePairM_arm, hc.arm]
  have reads := fun k => (word_reads h (allLanes f.g s) ha).masks k (by simp)
  obtain ⟨next, frame⟩ := word_done h (allLanes f.g s) ((hc.frame _).trans (writePairM_frame s' mt mf sel p)) ha
  refine ⟨_, he.trans (wordOp_next h hb), next, frame, fun hf => ?_, fun ht hne => ?_⟩
  · rw [reads, readM_writePairM_false s' sel p hf, hc.grp]
  · rw [reads, readM_writePairM_true s' sel p ht hne, hc.grp]

theorem vcmp_writesMaskPair {s s' : State} {g : Guard} (rel : Rel) {ty : ITy} (mt mf : MReg) {a : VSrc} {b : VB} {y : Nat → Nat}
    (h : Runs (lanes g (a.vregs ty.wide ++ b.vregs ty.wide) [] (a.sregs ++ b.sregs)) s)
    (hy : readB s (allLanes g s) ty b = .ok (y, s')) :
    WritesMaskPair (.vcmp g rel ty mt mf a b) s mt mf (s.selOf g) fun l =>
      rel.holds (ty.read (laneOf s ty a l)) (ty.read (y l)) := by
  have hc : Cached s s' := readB_cached hy
  simp only [← hc.laneOf]
  exact .of h (exec_vcmp ..) hc (bind_of_ok hy _)

theorem vfcmp_writesMaskPair {s s' : State} {g : Guard} (rel : FRel) {ty : FTy} (mt mf : MReg) {a : VSrc} {b : VB}
    {y : Nat → Nat} (h : Runs (lanes g (a.vregs false ++ b.vregs false) [] (a.sregs ++ b.sregs) false) s)
    (hy : readFB s (allLanes g s) ty b = .ok (y, s')) :
    WritesMaskPair (.vfcmp g rel ty mt mf a b) s mt mf (s.selOf g) fun l =>
      holdsOfOrder (((ftyFmt ty).decode (codeOf s ty a l)).cmp ((ftyFmt ty).decode (y l))) rel := by
  have hc : Cached s s' := readFB_cached hy
  simp only [← hc.codeOf, ← frelHolds_eq_holdsOfOrder]
  exact .of h (exec_vfcmp ..) hc (bind_of_ok hy _)

/-- Settles O20: each word by the mask pair it writes, whose relation hangs on the order of the values alone. -/
theorem vectorComparisons : Obligations.VectorComparisons := by
  unfold Obligations.VectorComparisons
  refine fun s g mt mf a b => ⟨fun rel ty y s' h hy => ?vcmp, fun rel ty y s' h hy => ?vfcmp⟩
  case vcmp => exact vcmp_writesMaskPair rel mt mf h hy
  case vfcmp => exact vfcmp_writesMaskPair rel mt mf h hy

end Sys2Proof
end
